-- ==== Sys2Proof/Word.lean ====
section
/-! DEFINITION. The word types of the bridge: bytes, the 16-bit and 32-bit fields of its records, and 32-bit byte
addresses (spec/00 "Addresses and data"). -/

namespace Sys2Proof

/-- One byte. -/
abbrev Byte := BitVec 8
/-- A 16-bit field of a record. -/
abbrev Half := BitVec 16
/-- A 32-bit field of a record, and a byte address (spec/00: addresses are 32-bit byte addresses). -/
abbrev Word := BitVec 32

/-- An initiator on the interconnect, numbered 0 to 15 (R174). -/
abbrev Initiator := Fin 16

end Sys2Proof
end

