-- ==== Sys2Proof/Syntax.lean ====
section
/-! DEFINITION. The commands: one constructor of `Instr` for each row of spec/opcode_table.json, with the operands that say
which of the possible events of that row it is. -/

namespace Sys2Proof

/-- The size of a request: one beat of 1, 2, 4 or 8 bytes, or a burst of 2 to 8 beats of 8 bytes (R174). -/
inductive Size where
  | beat1
  | beat2
  | beat4
  | beat8
  | burst (beats : Nat)
  deriving DecidableEq, Repr

/-- What an initiator offers at the I-port (R174): an address, a size, a direction with the data of a write, an initiator
number and a debug tag. -/
structure Request where
  addr : Word
  size : Size
  write : Bool
  data : List Byte
  initiator : Initiator
  debug : Bool
  deriving DecidableEq, Repr

/-- How a request comes to a row of the I-port: the interconnect offers it, or it was taken before, waits at the I-port and
its turn has come (R175, R176; log 9). -/
inductive Arrival where
  | offered (r : Request)
  | waiting (id : Nat)
  deriving DecidableEq, Repr

/-- Where a STOP comes from: the start word, in the forwarded write with that handle, or the STOP command (R177, R188). -/
inductive StopSource where
  | startWord (id : Nat)
  | command
  deriving DecidableEq, Repr

/-- The commands. `id` is the handle of a request at the I-port or the M-port, `ok` is memory's answer to it (OKAY or
ERROR), `n` a structure index, `m` a move index. -/
inductive Instr where
  | powerOnReset
  | warmReset
  | tapRequest (src : Arrival)
  | plainRequest (src : Arrival)
  | tableRead (src : Arrival)
  | tableWrite (src : Arrival)
  | forwardedRequestDone (id : Nat) (ok : Bool)
  | mportGrant
  | statusMirrorWriteDone (id : Nat) (ok : Bool)
  | ringPut (n : Nat)
  | ringTake (n : Nat)
  | ringPeek (n : Nat)
  | ringLevel (n : Nat)
  | readStatus (n : Nat)
  | stackPush (n : Nat)
  | stackPop (n : Nat)
  | stackTop (n : Nat)
  | stackDepth (n : Nat)
  | stackMark (n : Nat)
  | stackUnwind (n : Nat)
  | tallyNext (n : Nat)
  | tallyAdd (n : Nat)
  | tallySet (n : Nat)
  | tallyValue (n : Nat)
  | tallyWraps (n : Nat)
  | ringItemAccessDone (id : Nat) (ok : Bool)
  | stackItemAccessDone (id : Nat) (ok : Bool)
  | commandUnitTake
  | cmdNop
  | cmdFlush
  | cmdRelease (n : Nat)
  | cmdAbort (n : Nat)
  | cmdOpen (n : Nat)
  | cmdClose (n : Nat)
  | cmdClearFault (n : Nat)
  | cmdCloseGuard (n : Nat)
  | cmdArm (n : Nat)
  | cmdDisarm (n : Nat)
  | cmdTrigger (m : Nat)
  | cmdStopMove (m : Nat)
  | cmdPauseMoves
  | cmdResumeMoves
  | startBridge (id : Nat)
  | stopBridge (src : StopSource)
  | anchorReadDone (id : Nat) (ok : Bool)
  | auditReadDone (id : Nat) (ok : Bool)
  | auditWriteDone (id : Nat) (ok : Bool)
  | auditFaultNotice
  | fetchComplete (id : Nat) (ok : Bool)
  | writeBackComplete (id : Nat) (ok : Bool)
  | arbiterChoice
  | moveDescriptorReadDone (id : Nat) (ok : Bool)
  | pinEnd
  | reservationStep
  | moveTake
  | spanReadDone (id : Nat) (ok : Bool)
  | movePut
  | spanWriteDone (id : Nat) (ok : Bool)
  | storeBackDone (id : Nat) (ok : Bool)
  | pinRelease
  | runEndReport
  | completionProcessing
  | noticePut
  | idleTimerExpiry
  | stopClearPending
  | stopEmptyCache
  | powerOnResetEnd (straps : Fin 16)
  deriving DecidableEq, Repr

end Sys2Proof
end

