-- ==== Sys2Proof/Decode.lean ====
section
/-! DEFINITION. The command that a word spells by the bits of spec/opcode_table.json. No row of the table gives bits (every
row's "fields" is empty and none has "fixed"), so no word spells a command. -/

namespace Sys2Proof

/-- The command that a word of the table spells: none, since no row of spec/opcode_table.json gives bits. -/
def decodeTableWord (_nbits _w : Nat) : Option Instr := none

end Sys2Proof
end

