-- ==== Sys2Proof/Config.lean ====
section
/-! DEFINITION. The free values: what the manual leaves open and no proof may know. Each is applied to the number of the
draw (State's counter `freeDraws`), so that every draw is a fresh value. -/

namespace Sys2Proof

/-- The byte that memory holds at an address after it answered a write there with an error: "whatever memory kept of the
attempt" (R42, R141). Draw number, address. Log 4. -/
opaque Config.keptByte : Nat → Nat → Byte

/-- A data byte of an ERROR answer to a forwarded read, which the spec returns "unchanged" and does not describe (R178).
Draw number, position. Log 5. -/
opaque Config.errorByte : Nat → Nat → Byte

/-- Whether the record cache's FAULT notice joins the notice writer queue before the notices that other blocks queue at the
same moment: "Notices queued by different blocks at the same moment may join in either order" (R167). Log 6. -/
opaque Config.faultFirst : Nat → Bool

end Sys2Proof
end

