-- ==== Sys2Proof/Machine/State.lean ====
section
/-! DEFINITION. The bridge's state, block by block, as plain data, and the state after power-on reset. Every field names the
rule of spec/ that gives it. -/

namespace Sys2Proof.Machine

/-! ## Names -/

/-- The states of the bridge as a whole (R183). -/
inductive BridgeState where
  | pass | starting | auditing | run | quiet | stopping | warm
  deriving DecidableEq, Repr

/-- Why START was refused (R184, R185, R182). -/
inductive StartReason where
  | none | layout | levels | commandRing | noticeRing | memory
  deriving DecidableEq, Repr

/-- The causes, refusal reasons and move ends that share one code table (R182). -/
inductive Reason where
  | none | overflow | underflow | reserve | memory | descriptor
  | shape | range | off | denied | closed | halted | full | empty | frame | bounds
  | unknown | protectedRing | causePersists | wrongKind | depthAboveLimit | notActive | invalidMove
  | sourceEmpty | destFull | refused | invalid | stopped | chainLimit
  deriving DecidableEq, Repr

/-- The ends of a run (R128). -/
inductive RunEnd where
  | ok | sourceEmpty | destFull | refused | memory | invalid | stopped | chainLimit
  deriving DecidableEq, Repr

/-- The kinds of notice (R182). -/
inductive NoticeKind where
  | watermark | overrun | overflow | underflow | fault | moveDone | moveFault | triggerSpent | commandDone
  | commandRefused | refusal | started
  deriving DecidableEq, Repr

/-- The sixteen operations a tap can select (R24). -/
inductive TapKind where
  | put | take | peek | level | status | push | pop | top | depth | mark | unwind | next | add | set | value | wraps
  deriving DecidableEq, Repr

/-! ## Records -/

/-- A structure descriptor of 64 bytes, field by field in the layout of R182, every code as read. Bytes 32 to 49 are one
area that each kind reads in its own way: `w32`, `w34` are a ring's head and count; `w32`, `w34`, `w36`, `b38` a stack's
depth, frame, limit and guard; `w32` with `w34`, `w36`, `b38`, `w40`, `w44`, `w48` a tally's value, step, mode, lower, upper
and wrap count. `rsv28`, `b39` (and what a kind does not name) and `rsv50` are bytes no layout names, kept as read. -/
structure Descriptor where
  kind : Byte
  state : Byte
  cause : Byte
  itemSize : Byte
  capacity : Half
  condition : Byte
  triggerMove : Byte
  base : Word
  high : Half
  low : Half
  producers : Half
  consumers : Half
  fullPolicy : Byte
  emptyPolicy : Byte
  fillValue : Byte
  flags : Byte
  discard : Half
  flushed : Half
  rsv28 : Word
  w32 : Half
  w34 : Half
  w36 : Half
  b38 : Byte
  b39 : Byte
  w40 : Word
  w44 : Word
  w48 : Half
  rsv50 : BitVec 112
  deriving DecidableEq, Repr

/-- A move descriptor of 32 bytes in the layout of R182. A STRUCT end's index is the low byte of `src` or `dst`. -/
structure MoveDescriptor where
  mode : Byte
  itemSize : Byte
  srcType : Byte
  srcStep : Byte
  src : Word
  dstType : Byte
  dstStep : Byte
  rsv10 : Half
  dst : Word
  count : Half
  blockLength : Half
  flags : Byte
  linkIndex : Byte
  lastEnd : Byte
  rsv23 : BitVec 72
  deriving DecidableEq, Repr

/-- A command item of 8 bytes (R163, R182); the bytes it does not use are not kept. -/
structure CommandItem where
  op : Byte
  flags : Byte
  struct : Byte
  move : Byte
  tag : Half
  deriving DecidableEq, Repr

/-- A notice: eight fields, an absent index or initiator being none (section 9.3). -/
structure Notice where
  kind : NoticeKind
  cause : Reason
  struct : Option Byte
  move : Option Byte
  initiator : Option Initiator
  itemLost : Bool
  writeback : Bool
  tag : Half
  value : Word
  deriving DecidableEq, Repr

/-- The last-refusal record (R35). -/
structure LastRefusal where
  initiator : Initiator
  reason : Reason
  struct : Nat
  offset : Nat
  deriving DecidableEq, Repr

/-- One demand binding (R173, R180). -/
structure Binding where
  index : Nat
  enable : Bool
  deriving DecidableEq, Repr

/-- The anchor values that the bridge uses from START until it returns to PASS (R180). -/
structure Settings where
  tableBase : Nat
  moveBase : Nat
  apertureBase : Nat
  structureCount : Nat
  moveCount : Nat
  mustLevel : Nat
  releaseLevel : Nat
  noticeLine : Bool
  refusalNotices : Bool
  idleTime : Nat
  bindings : List Binding
  deriving DecidableEq, Repr

/-! ## The I-port -/

/-- How a taken request is classified (R175). The last three are requests whose classification waits: the regions are not
known yet, it touches the aperture or a table in a state that makes it wait (R22, R175). -/
inductive RequestClass where
  | tap | anchorStart | table | plain
  | unknown | apertureWait | tableWait
  deriving DecidableEq, Repr

/-- Where a request in flight stands: at the I-port; shown to the record cache, with the descriptors still to allow it, the
one it waits for first (R116; all of them while a write is held on a pin, R119, log 14); waiting for the loaded move's
store-back, likewise (R120; none for a read that they allowed before, log 45); waiting for mirror writes (R181); with the tap
decoder and the record cache; forwarded to the M-port; answered, its response waiting for its turn (R176). -/
inductive RequestPhase where
  | waiting
  | snooping (todo : List Nat)
  | moveWait (todo : List Nat)
  | mirrorWait
  | tapped
  | forwarded
  | answered (ok : Bool) (data : List Byte)
  deriving DecidableEq, Repr

/-- A request in flight at the I-port (R174). `mirrors` are the status mirror writes that were queued before it was taken
and have not completed, for a read that touches the status half of the anchor (R181). -/
structure InFlight where
  id : Nat
  request : Request
  cls : RequestClass
  phase : RequestPhase
  mirrors : List Nat
  deriving DecidableEq, Repr

/-- A response that left the I-port (R174, R176). -/
structure Response where
  id : Nat
  initiator : Initiator
  ok : Bool
  data : List Byte
  deriving DecidableEq, Repr

/-- The I-port: the requests in flight in taking order, and the responses that left, in order (the model's own record of its
output, log 16). -/
structure IPort where
  inflight : List InFlight
  sent : List Response
  deriving DecidableEq, Repr

/-! ## The M-port -/

/-- On whose behalf an M-port request is made (R178). An item access names its structure, whether a stack operation made it,
and whether the move engine's take or put did. -/
inductive Access where
  | forward (request : Nat)
  | fetch (n : Nat)
  | writeBack (n : Nat) (must : Bool)
  | item (n : Nat) (stack : Bool) (move : Bool)
  | moveRead
  | storeBack
  | spanRead
  | spanWrite
  | anchorRead
  | auditRead
  | auditWrite
  | mirror
  deriving DecidableEq, Repr

/-- A request at the M-port. `abandoned`: a reset made its requester let go of it; it completes at memory and its result is
discarded (R124, R146, R174). -/
structure MemRequest where
  id : Nat
  access : Access
  write : Bool
  addr : Nat
  data : List Byte
  length : Nat
  abandoned : Bool
  deriving DecidableEq, Repr

/-- The M-port (R178, R179): the requests that wait for a grant, oldest first; those granted and not yet answered; the
fairness count. -/
structure MPort where
  waiting : List MemRequest
  outstanding : List MemRequest
  fairness : Nat
  deriving DecidableEq, Repr

/-! ## The record cache -/

/-- A tap operation as the tap decoder hands it over (R27): tap word, direction, size in bytes, data, initiator, debug tag,
and what a refusal reports (R35). -/
structure Tap where
  id : Nat
  word : Nat
  write : Bool
  length : Nat
  data : List Byte
  initiator : Initiator
  debug : Bool
  struct : Nat
  offset : Nat
  deriving DecidableEq, Repr

/-- The move engine's one operation in the cache: a pin, a reservation step, a take, a put, a pin release, or the trigger
unit's completion processing on the engine's path (R105, R159). -/
inductive EngineOp where
  | pin | reserve | take | put | release | completion
  deriving DecidableEq, Repr

/-- An operation that waits for an entry (R105): a tap, the engine's, the command unit's take or its command, the notice
writer's put, a TABLE read or write of the I-port, and a RELEASE (R122). -/
inductive CacheOp where
  | tap (t : Tap)
  | engine (op : EngineOp)
  | commandTake
  | command
  | noticePut
  | tableRead (request : Nat)
  | tableWrite (request : Nat)
  | release
  deriving DecidableEq, Repr

/-- For whom an operation with an item access works. -/
inductive Party where
  | tap (t : Tap)
  | engine
  | commandUnit
  | noticeWriter
  deriving DecidableEq, Repr

/-- What an item access in progress does when it completes (R42, R68). An overflow push still has the writes in `left` to
make, each an address and an item (R68, R70). `abandoned`: the access completes without changing the working copy (R124). -/
inductive ItemWork where
  | ringPut | ringTake | ringPeek
  | stackPush | stackPop | stackTop | stackMark | stackUnwind
  | stackOverflow (left : List (Nat × List Byte))
  | abandoned
  deriving DecidableEq, Repr

/-- An operation in progress on an entry. -/
structure Busy where
  work : ItemWork
  party : Party
  deriving DecidableEq, Repr

/-- What a write-back was started for, as far as its completion needs it (R111): for a claimed new index, as a must
write-back, for the TABLE read at the front of the waiting list, or otherwise. -/
inductive WriteBackFor where
  | claim (n : Nat)
  | must
  | tableRead
  | other
  deriving DecidableEq, Repr

/-- The state of a held entry (R103); a FREE entry is not in the list (log 10). `issued`: the fetch has been handed to the
M-port; it is held back while a TABLE write to the descriptor is outstanding (R106). -/
inductive EntryState where
  | fetching (issued : Bool)
  | clean
  | dirty
  | writing (reason : WriteBackFor)
  deriving DecidableEq, Repr

/-- An entry of the record cache (R102). The working copy is blank while FETCHING. `held` are the TABLE writes that wait for
the pin (R119), `heldRelease` a RELEASE that waits behind them (R122), `flushMark` FLUSH's mark (R121). -/
structure Entry where
  index : Nat
  state : EntryState
  copy : Descriptor
  pin : Bool
  reservation : Bool
  waiting : List CacheOp
  held : List Nat
  heldRelease : Bool
  busy : Option Busy
  flushMark : Bool
  deriving DecidableEq, Repr

/-! ## The move engine -/

/-- The states of the move engine (R129, R130). -/
inductive EngineState where
  | idle | loading | running | storing | paused
  deriving DecidableEq, Repr

/-- How the current item is disposed of (R129, R135). -/
inductive Disposal where
  | reserved | drop | write
  deriving DecidableEq, Repr

/-- Which step of a run comes next, or is under way (R131 to R142). -/
inductive EngineStep where
  | none | readDescriptor | pinSource | pinDestination | reserve | take | spanRead | put | spanWrite | store | release
  | report
  deriving DecidableEq, Repr

/-- The loaded move: its index, its run number in the chain, and the engine's copy of its descriptor, once read (R129). -/
structure LoadedMove where
  index : Nat
  run : Nat
  descriptor : Option MoveDescriptor
  deriving DecidableEq, Repr

/-- The end of a run, with its item-lost flag, the structure at which it arose, and the tag of the STOP_MOVE that made it
(R129, R142). -/
structure Ending where
  code : RunEnd
  lost : Bool
  struct : Option Nat
  tag : Half
  deriving DecidableEq, Repr

/-- The move engine (R129). `step` and `asked` say where the run is and whether the step's operation stands in the cache;
`pins` are the structures the run has pinned; `srcStart`, `dstStart`, `blockItems` serve the block rule of R138;
`storeFailed` is the store-back's error (R141). -/
structure Engine where
  state : EngineState
  move : Option LoadedMove
  transit : Option (List Byte)
  disposal : Option Disposal
  taken : Nat
  pauseRequest : Bool
  stopRequest : Option Half
  ending : Option Ending
  step : EngineStep
  asked : Bool
  pins : List Nat
  srcStart : Word
  dstStart : Word
  blockItems : Nat
  storeFailed : Bool
  deriving DecidableEq, Repr

/-! ## The trigger unit -/

/-- Who started a chain (R148, R158): the first origin of the chain. -/
inductive ChainOrigin where
  | structure (n : Nat)
  | software
  deriving DecidableEq, Repr

/-- A chain (R148): its first origin, first move index, first descriptor's count as last stored back, and run number. -/
structure Chain where
  origin : ChainOrigin
  first : Nat
  firstCount : Option Half
  run : Nat
  deriving DecidableEq, Repr

/-- The origin of a pending entry (R148): a structure or software, or LINK with the chain it continues. -/
inductive Origin where
  | start (o : ChainOrigin)
  | link (c : Chain)
  deriving DecidableEq, Repr

/-- A pending move: its index and the origin of the post that created the entry (R150). -/
structure PendingMove where
  move : Nat
  origin : Origin
  deriving DecidableEq, Repr

/-- A completion operation outstanding (R148, R159). -/
structure Completion where
  struct : Nat
  first : Nat
  firstCount : Option Half
  asked : Bool
  deriving DecidableEq, Repr

/-- The trigger unit (R148). The pending set is kept in rising order of its indices. -/
structure TriggerUnit where
  pending : List PendingMove
  chain : Option Chain
  link : Option Nat
  completion : Option Completion
  deriving DecidableEq, Repr

/-! ## The command unit and the notice writer -/

/-- The states of the command unit (R163). -/
inductive CommandState where
  | idle | taking | carrying
  deriving DecidableEq, Repr

/-- Whether the held command still waits for its effect, or has had it and waits for its end (R121, R122, R143, R164). -/
inductive CommandStage where
  | judged | started
  deriving DecidableEq, Repr

/-- The command unit (R163). -/
structure CommandUnit where
  state : CommandState
  held : Option CommandItem
  stage : CommandStage
  wake : Bool
  lastEmpty : Bool
  deriving DecidableEq, Repr

/-- The notice writer (R168): its queue of up to 8 notices, oldest first, and whether the put of the oldest stands in the
cache. -/
structure NoticeWriter where
  queue : List Notice
  asked : Bool
  deriving DecidableEq, Repr

/-! ## Bridge control -/

/-- The descriptor an audit access is about (R185). -/
inductive AuditPosition where
  | struct (n : Nat)
  | move (m : Nat)
  deriving DecidableEq, Repr

/-- An audit in progress (R185): where it is, the finding list, the moves marked INVALID, and the kind and item size of each
structure as the audit read them. -/
structure Audit where
  position : AuditPosition
  findings : List Nat
  movesMarked : Nat
  shapes : List (Byte × Byte)
  deriving DecidableEq, Repr

/-- How far the STOP sequence of R188 is: not begun; step 1, waiting for an access of the start; step 2; step 4; step 5. -/
inductive StopStage where
  | none | halting | finishing | draining | emptying
  deriving DecidableEq, Repr

/-- Bridge control (R181, R183 to R190). -/
structure Control where
  state : BridgeState
  straps : Fin 16
  resetHeld : Bool
  settings : Option Settings
  startReason : StartReason
  dropped : Nat
  firstDropped : Option NoticeKind
  clearedPending : Nat
  lastRefusal : LastRefusal
  audit : Option Audit
  findings : List Nat
  idleTimer : Option Nat
  emptying : Bool
  stopStage : StopStage
  noticeShadow : Bool
  demandShadows : List Bool
  deriving DecidableEq, Repr

/-! ## The whole -/

/-- Everything on chip. -/
structure Bridge where
  iport : IPort
  mport : MPort
  cache : List Entry
  misses : List (Nat × CacheOp)
  episode : Bool
  engine : Engine
  trigger : TriggerUnit
  command : CommandUnit
  notices : NoticeWriter
  control : Control
  nextHandle : Nat
  freeDraws : Nat
  deriving DecidableEq, Repr

/-- Memory behind the bridge: the bytes that are not 0x00, by rising address (log 2). -/
abbrev Memory := List Host.Cell

/-- The state of the model: memory, the bridge, and the queue of commands that wait (the row's cut). -/
structure State where
  mem : Memory
  chip : Bridge
  pending : List Instr
  deriving DecidableEq, Repr

/-! ## Reset -/

/-- The engine with no loaded move (R129), its pause request and state as given. -/
def Engine.unloaded (state : EngineState) (pauseRequest : Bool) : Engine :=
  ⟨state, none, none, none, 0, pauseRequest, none, none, .none, false, [], 0, 0, 0, false⟩

/-- The trigger unit holding nothing (R148, R162). -/
def TriggerUnit.nothing : TriggerUnit := ⟨[], none, none, none⟩

/-- The command unit IDLE with no command held (R163). -/
def CommandUnit.nothing : CommandUnit := ⟨.idle, none, .judged, false, false⟩

/-- The empty last-refusal record (R35). -/
def LastRefusal.nothing : LastRefusal := ⟨0, .none, 0, 0⟩

/-- Bridge control's values after power-on reset (R181, R190), for the straps it last sampled. -/
def Control.powerOn (straps : Fin 16) : Control :=
  { state := .pass, straps := straps, resetHeld := true, settings := none, startReason := .none, dropped := 0,
    firstDropped := none, clearedPending := 0, lastRefusal := LastRefusal.nothing, audit := none, findings := [],
    idleTimer := none, emptying := false, stopStage := .none, noticeShadow := false,
    demandShadows := [false, false, false, false] }

/-- The bridge after power-on reset (R190), nothing in flight, straps not yet sampled (log 1). -/
def Bridge.powerOn : Bridge :=
  { iport := ⟨[], []⟩, mport := ⟨[], [], 0⟩, cache := [], misses := [], episode := false,
    engine := Engine.unloaded .idle false, trigger := TriggerUnit.nothing, command := CommandUnit.nothing,
    notices := ⟨[], false⟩, control := Control.powerOn 0, nextHandle := 0, freeDraws := 0 }

/-- The machine right after reset: memory with nothing listed, the bridge at power-on, no command waiting. -/
def State.reset : State := ⟨[], Bridge.powerOn, []⟩

/-! ## Stops -/

/-- The faults of a step: none. The spec gives every event of every row an effect (INVENTORY.md, Faults). Raised by no
meaning; safe. -/
inductive Fault where
  /-- Raised by no meaning: a closed type needs a constructor. Safe. -/
  | noFault
  deriving DecidableEq, Repr

/-- The refusals of a step. -/
inductive Refusal where
  /-- Raised by an arm of `exec` whose row has no meaning yet, with the row's mnemonic. Safe. No arm raises it now. -/
  | notModelled (mnemonic : String)
  deriving DecidableEq, Repr

end Sys2Proof.Machine
end

