-- ==== Sys2Proof/Machine/Bytes.lean ====
section
/-! DEFINITION. Byte order and memory. Fields of more than one byte are little-endian (spec/00 "Addresses and data"); memory
is a list of cells in one canonical form (log 2). -/

namespace Sys2Proof.Machine

/-- The number of byte addresses (spec/00: addresses are 32-bit). -/
def addressSpace : Nat := 4294967296

/-! ## Byte order -/

/-- The low `k` bytes of a number, least significant first. -/
def leBytes : Nat → Nat → List Byte
  | 0, _ => []
  | k + 1, n => BitVec.ofNat 8 n :: leBytes k (n / 256)

/-- The number that bytes spell, least significant first. -/
def ofLe : List Byte → Nat
  | [] => 0
  | b :: bs => b.toNat + 256 * ofLe bs

/-- The number in `k` bytes of a record from offset `i`. -/
def natAt (bs : List Byte) (i k : Nat) : Nat := ofLe ((bs.drop i).take k)

/-- The byte of a record at offset `i`. -/
def byteAt (bs : List Byte) (i : Nat) : Byte := BitVec.ofNat 8 (natAt bs i 1)

/-- The 16-bit field of a record at offset `i`. -/
def halfAt (bs : List Byte) (i : Nat) : Half := BitVec.ofNat 16 (natAt bs i 2)

/-- The 32-bit field of a record at offset `i`. -/
def wordAt (bs : List Byte) (i : Nat) : Word := BitVec.ofNat 32 (natAt bs i 4)

/-! ## Memory -/

/-- The byte at an address; an address that is not listed reads 0x00 (log 2). -/
def Memory.read : Memory → Nat → Byte
  | [], _ => 0
  | (x, v) :: m, a => if a = x then v else Memory.read m a

/-- Memory with one byte written, in canonical form again: writing 0x00 removes the entry (log 2). -/
def Memory.write : Memory → Nat → Byte → Memory
  | [], a, v => if v = 0 then [] else [(a, v)]
  | (x, w) :: m, a, v =>
    if a < x then (if v = 0 then (x, w) :: m else (a, v) :: (x, w) :: m)
    else if a = x then (if v = 0 then m else (a, v) :: m)
    else (x, w) :: Memory.write m a v

/-- The `k` bytes from an address upward. -/
def Memory.readBytes (m : Memory) (a : Nat) : Nat → List Byte
  | 0 => []
  | k + 1 => Memory.read m (a % addressSpace) :: Memory.readBytes m (a + 1) k

/-- Memory with bytes written from an address upward. -/
def Memory.writeBytes (m : Memory) (a : Nat) : List Byte → Memory
  | [] => m
  | b :: bs => Memory.writeBytes (Memory.write m (a % addressSpace) b) (a + 1) bs

/-- The canonical form: addresses strictly rising from `low` on, inside the address space, and no entry 0x00. -/
def Memory.wfFrom (low : Nat) : Memory → Bool
  | [] => true
  | (x, v) :: m => decide (low ≤ x) && decide (x < addressSpace) && (v != 0) && Memory.wfFrom (x + 1) m

/-- Memory is in canonical form (log 2). -/
def Memory.wf (m : Memory) : Bool := Memory.wfFrom 0 m

/-- What memory keeps of a write of `k` bytes that it answered with an error: free bytes (R42, R141; log 4). -/
def keptBytes (draw a : Nat) : Nat → List Byte
  | 0 => []
  | k + 1 => Config.keptByte draw (a % addressSpace) :: keptBytes draw (a + 1) k

/-- The data of an ERROR answer to a forwarded read: free bytes (R178; log 5). -/
def errorBytes (draw i : Nat) : Nat → List Byte
  | 0 => []
  | k + 1 => Config.errorByte draw i :: errorBytes draw (i + 1) k

end Sys2Proof.Machine
end

