-- ==== Sys2Proof/Machine/Format.lean ====
section
/-! DEFINITION. The memory formats of section 10.5: every record the bridge reads or writes, its codes, and the named fields
of a structure descriptor and a move descriptor. -/

namespace Sys2Proof.Machine

/-! ## Codes (R182) -/

/-- The code of a bridge state, anchor byte 32. -/
def BridgeState.code : BridgeState → Byte
  | .pass => 0 | .starting => 1 | .auditing => 2 | .run => 3 | .quiet => 4 | .stopping => 5 | .warm => 6

/-- The code of a start refusal reason, anchor byte 33. -/
def StartReason.code : StartReason → Byte
  | .none => 0 | .layout => 1 | .levels => 2 | .commandRing => 3 | .noticeRing => 4 | .memory => 5

/-- The cause and reason codes. -/
def Reason.code : Reason → Byte
  | .none => 0 | .overflow => 1 | .underflow => 2 | .reserve => 3 | .memory => 4 | .descriptor => 5
  | .shape => 8 | .range => 9 | .off => 10 | .denied => 11 | .closed => 12 | .halted => 13 | .full => 14
  | .empty => 15 | .frame => 16 | .bounds => 17
  | .unknown => 24 | .protectedRing => 25 | .causePersists => 26 | .wrongKind => 27 | .depthAboveLimit => 28
  | .notActive => 29 | .invalidMove => 30
  | .sourceEmpty => 40 | .destFull => 41 | .refused => 42 | .invalid => 43 | .stopped => 44 | .chainLimit => 45

/-- The code of a notice kind. -/
def NoticeKind.code : NoticeKind → Byte
  | .watermark => 1 | .overrun => 2 | .overflow => 3 | .underflow => 4 | .fault => 5 | .moveDone => 6 | .moveFault => 7
  | .triggerSpent => 8 | .commandDone => 9 | .commandRefused => 10 | .refusal => 11 | .started => 12

/-- The code of a run's end in the last end field. -/
def RunEnd.code : RunEnd → Byte
  | .ok => 0 | .sourceEmpty => 1 | .destFull => 2 | .refused => 3 | .memory => 4 | .invalid => 5 | .stopped => 6
  | .chainLimit => 7

/-- The cause that a MOVE_FAULT notice carries for a run's end. -/
def RunEnd.reason : RunEnd → Reason
  | .ok => .none | .sourceEmpty => .sourceEmpty | .destFull => .destFull | .refused => .refused | .memory => .memory
  | .invalid => .invalid | .stopped => .stopped | .chainLimit => .chainLimit

/-- The command operation codes. -/
def opNop : Byte := 0
def opFlush : Byte := 1
def opRelease : Byte := 2
def opAbort : Byte := 3
def opOpen : Byte := 4
def opClose : Byte := 5
def opClearFault : Byte := 6
def opCloseGuard : Byte := 7
def opArm : Byte := 8
def opDisarm : Byte := 9
def opTrigger : Byte := 10
def opStopMove : Byte := 11
def opPauseMoves : Byte := 12
def opResumeMoves : Byte := 13
def opStop : Byte := 14

/-- The kinds of structure. -/
def kindOff : Byte := 0
def kindRing : Byte := 1
def kindStack : Byte := 2
def kindTally : Byte := 3

/-- The structure states. -/
def stOpen : Byte := 0
def stClosing : Byte := 1
def stClosed : Byte := 2
def stHalted : Byte := 3

/-- The fault causes. -/
def causeNone : Byte := 0
def causeOverflow : Byte := 1
def causeUnderflow : Byte := 2
def causeReserve : Byte := 3
def causeMemory : Byte := 4
def causeDescriptor : Byte := 5

/-- The conditions. -/
def condNone : Byte := 0
def condHigh : Byte := 1
def condLow : Byte := 2
def condWrap : Byte := 3

/-- The fault cause that a cause code names, for a FAULT notice. -/
def causeReason (c : Byte) : Reason :=
  if c = causeReserve then .reserve else if c = causeMemory then .memory else if c = causeDescriptor then .descriptor
  else if c = causeOverflow then .overflow else if c = causeUnderflow then .underflow else .none

/-! ## The structure descriptor -/

/-- The descriptor that 64 bytes of memory hold (R182). -/
def Descriptor.ofBytes (bs : List Byte) : Descriptor :=
  { kind := byteAt bs 0, state := byteAt bs 1, cause := byteAt bs 2, itemSize := byteAt bs 3, capacity := halfAt bs 4,
    condition := byteAt bs 6, triggerMove := byteAt bs 7, base := wordAt bs 8, high := halfAt bs 12, low := halfAt bs 14,
    producers := halfAt bs 16, consumers := halfAt bs 18, fullPolicy := byteAt bs 20, emptyPolicy := byteAt bs 21,
    fillValue := byteAt bs 22, flags := byteAt bs 23, discard := halfAt bs 24, flushed := halfAt bs 26,
    rsv28 := wordAt bs 28, w32 := halfAt bs 32, w34 := halfAt bs 34, w36 := halfAt bs 36, b38 := byteAt bs 38,
    b39 := byteAt bs 39, w40 := wordAt bs 40, w44 := wordAt bs 44, w48 := halfAt bs 48,
    rsv50 := BitVec.ofNat 112 (natAt bs 50 14) }

/-- The 64 bytes that a write-back writes (R111, R182). -/
def Descriptor.toBytes (d : Descriptor) : List Byte :=
  [d.kind, d.state, d.cause, d.itemSize] ++ leBytes 2 d.capacity.toNat ++ [d.condition, d.triggerMove]
    ++ leBytes 4 d.base.toNat ++ leBytes 2 d.high.toNat ++ leBytes 2 d.low.toNat ++ leBytes 2 d.producers.toNat
    ++ leBytes 2 d.consumers.toNat ++ [d.fullPolicy, d.emptyPolicy, d.fillValue, d.flags] ++ leBytes 2 d.discard.toNat
    ++ leBytes 2 d.flushed.toNat ++ leBytes 4 d.rsv28.toNat ++ leBytes 2 d.w32.toNat ++ leBytes 2 d.w34.toNat
    ++ leBytes 2 d.w36.toNat ++ [d.b38, d.b39] ++ leBytes 4 d.w40.toNat ++ leBytes 4 d.w44.toNat
    ++ leBytes 2 d.w48.toNat ++ leBytes 14 d.rsv50.toNat

/-- The working copy of an entry that holds none yet (FETCHING): all zeros. -/
def Descriptor.blank : Descriptor := Descriptor.ofBytes []

/-- A byte with one bit set or cleared. -/
def withBit (b : Byte) (i : Nat) (v : Bool) : Byte :=
  if v then b ||| (1#8 <<< i) else b &&& ~~~(1#8 <<< i)

namespace Descriptor

def isRing (d : Descriptor) : Bool := d.kind == kindRing
def isStack (d : Descriptor) : Bool := d.kind == kindStack
def isTally (d : Descriptor) : Bool := d.kind == kindTally
def isOff (d : Descriptor) : Bool := d.kind == kindOff
def isHalted (d : Descriptor) : Bool := d.state == stHalted
/-- HALTED with cause DESCRIPTOR (R12). -/
def descriptorHalt (d : Descriptor) : Bool := d.state == stHalted && d.cause == causeDescriptor

def size (d : Descriptor) : Nat := d.itemSize.toNat
def cap (d : Descriptor) : Nat := d.capacity.toNat

/-- The flags of byte 23 (R182). -/
def armed (d : Descriptor) : Bool := d.flags.getLsbD 0
def lost (d : Descriptor) : Bool := d.flags.getLsbD 1
def overrun (d : Descriptor) : Bool := d.flags.getLsbD 2
def watermarkNotices (d : Descriptor) : Bool := d.flags.getLsbD 3
def faultNotices (d : Descriptor) : Bool := d.flags.getLsbD 4
def atBound (d : Descriptor) : Bool := d.flags.getLsbD 5

def setArmed (d : Descriptor) (v : Bool) : Descriptor := { d with flags := withBit d.flags 0 v }
def setLost (d : Descriptor) (v : Bool) : Descriptor := { d with flags := withBit d.flags 1 v }
def setOverrun (d : Descriptor) (v : Bool) : Descriptor := { d with flags := withBit d.flags 2 v }
def setAtBound (d : Descriptor) (v : Bool) : Descriptor := { d with flags := withBit d.flags 5 v }

/-- A ring's head and count (R9). -/
def head (d : Descriptor) : Nat := d.w32.toNat
def count (d : Descriptor) : Nat := d.w34.toNat
def setHead (d : Descriptor) (h : Nat) : Descriptor := { d with w32 := BitVec.ofNat 16 h }
def setCount (d : Descriptor) (c : Nat) : Descriptor := { d with w34 := BitVec.ofNat 16 c }
/-- The tail, the slot of the next item: (head + count) modulo capacity (R9). -/
def tail (d : Descriptor) : Nat := (d.head + d.count) % d.cap

/-- A stack's depth, frame, limit and guard (R10). -/
def depth (d : Descriptor) : Nat := d.w32.toNat
def frame (d : Descriptor) : Nat := d.w34.toNat
def limit (d : Descriptor) : Nat := d.w36.toNat
/-- The guard as an operation sees it: OPEN on a STACK whose guard byte is 1; a ring's or tally's guard reads as CLOSED
(R37, R62, R100). That STATUS shows CLOSED for a guard byte of 2 to 255, which only a stack HALTED with cause DESCRIPTOR can
hold and for which R78 gives no reading, is the model's choice (log 42). -/
def guardOpen (d : Descriptor) : Bool := d.isStack && d.b38 == 1
def setDepth (d : Descriptor) (n : Nat) : Descriptor := { d with w32 := BitVec.ofNat 16 n }
def setFrame (d : Descriptor) (n : Nat) : Descriptor := { d with w34 := BitVec.ofNat 16 n }
def setGuard (d : Descriptor) (isOpen : Bool) : Descriptor := { d with b38 := if isOpen then 1 else 0 }

/-- A tally's value, step, bounds, mode and wrap count (R11). -/
def valueWord (d : Descriptor) : Word := d.w34 ++ d.w32
def value (d : Descriptor) : Int := d.valueWord.toInt
def step (d : Descriptor) : Int := d.w36.toInt
def lower (d : Descriptor) : Int := d.w40.toInt
def upper (d : Descriptor) : Int := d.w44.toInt
def stick (d : Descriptor) : Bool := d.b38 == 1
def wraps (d : Descriptor) : Nat := d.w48.toNat
def setValue (d : Descriptor) (v : Int) : Descriptor :=
  { d with w32 := (BitVec.ofInt 32 v).extractLsb' 0 16, w34 := (BitVec.ofInt 32 v).extractLsb' 16 16 }
def setWraps (d : Descriptor) (n : Nat) : Descriptor := { d with w48 := BitVec.ofNat 16 n }

/-- The level: a RING's count or a STACK's depth; other kinds have none, taken as 0 (R4, R167). -/
def level (d : Descriptor) : Nat := if d.isRing then d.count else if d.isStack then d.depth else 0

/-- The address of an item: base + index times item size (R3). -/
def slot (d : Descriptor) (i : Nat) : Nat := (d.base.toNat + i * d.size) % addressSpace

/-- The fill item (R6, R53). -/
def fillItem (d : Descriptor) : List Byte := List.replicate d.size (if d.fillValue = 1 then 0xFF else 0)

end Descriptor

/-- An item that the bridge itself pushes: a 32-bit value in the first four bytes, the rest zeros (R67). -/
def valueItem (size v : Nat) : List Byte := leBytes 4 v ++ List.replicate (size - 4) 0

/-! ## The move descriptor -/

/-- The move descriptor that 32 bytes of memory hold (R182). -/
def MoveDescriptor.ofBytes (bs : List Byte) : MoveDescriptor :=
  { mode := byteAt bs 0, itemSize := byteAt bs 1, srcType := byteAt bs 2, srcStep := byteAt bs 3, src := wordAt bs 4,
    dstType := byteAt bs 8, dstStep := byteAt bs 9, rsv10 := halfAt bs 10, dst := wordAt bs 12, count := halfAt bs 16,
    blockLength := halfAt bs 18, flags := byteAt bs 20, linkIndex := byteAt bs 21, lastEnd := byteAt bs 22,
    rsv23 := BitVec.ofNat 72 (natAt bs 23 9) }

/-- The 32 bytes that a store-back writes (R141, R182). -/
def MoveDescriptor.toBytes (d : MoveDescriptor) : List Byte :=
  [d.mode, d.itemSize, d.srcType, d.srcStep] ++ leBytes 4 d.src.toNat ++ [d.dstType, d.dstStep]
    ++ leBytes 2 d.rsv10.toNat ++ leBytes 4 d.dst.toNat ++ leBytes 2 d.count.toNat ++ leBytes 2 d.blockLength.toNat
    ++ [d.flags, d.linkIndex, d.lastEnd] ++ leBytes 9 d.rsv23.toNat

namespace MoveDescriptor

def single (d : MoveDescriptor) : Bool := d.mode == 0
def drain (d : MoveDescriptor) : Bool := d.mode == 1
def block (d : MoveDescriptor) : Bool := d.mode == 2
def recycle (d : MoveDescriptor) : Bool := d.flags.getLsbD 0
def linkEnable (d : MoveDescriptor) : Bool := d.flags.getLsbD 1
def doneNotice (d : MoveDescriptor) : Bool := d.flags.getLsbD 2
def size (d : MoveDescriptor) : Nat := d.itemSize.toNat

/-- The structure index of a STRUCT end, or none for a SPAN (R126). -/
def srcStruct (d : MoveDescriptor) : Option Nat := if d.srcType = 0 then some (d.src.toNat % 256) else none
def dstStruct (d : MoveDescriptor) : Option Nat := if d.dstType = 0 then some (d.dst.toNat % 256) else none

/-- The step of a SPAN end as a number to add modulo 2^32: 0, +size or −size (R126). -/
def stepOf (d : MoveDescriptor) (code : Byte) : Word :=
  if code = 1 then BitVec.ofNat 32 d.size else if code = 2 then - BitVec.ofNat 32 d.size else 0

end MoveDescriptor

/-! ## Command items and notices -/

/-- The command item that 8 bytes of memory hold (R182). -/
def CommandItem.ofBytes (bs : List Byte) : CommandItem :=
  { op := byteAt bs 0, flags := byteAt bs 1, struct := byteAt bs 2, move := byteAt bs 3, tag := halfAt bs 4 }

/-- The report flag (R182). -/
def CommandItem.report (c : CommandItem) : Bool := c.flags.getLsbD 0

/-- The operation is one of section 9.2 (R164). -/
def CommandItem.known (c : CommandItem) : Bool := decide (c.op.toNat ≤ 14)

/-- The command names a structure (section 9.2). -/
def CommandItem.namesStruct (c : CommandItem) : Bool := decide (2 ≤ c.op.toNat) && decide (c.op.toNat ≤ 9)

/-- The command names a move (section 9.2). -/
def CommandItem.namesMove (c : CommandItem) : Bool := c.op == opTrigger || c.op == opStopMove

/-- The flags byte of a notice record (R182). -/
def Notice.flagByte (x : Notice) : Byte := withBit (withBit 0 0 x.itemLost) 1 x.writeback

/-- The 16 bytes of a notice record (R182): an absent index or initiator is 0xFF, unnamed bytes are 0. -/
def Notice.toBytes (x : Notice) : List Byte :=
  [x.kind.code, x.cause.code, x.struct.getD 0xFF, x.move.getD 0xFF,
    (x.initiator.map (fun i => BitVec.ofNat 8 i.val)).getD 0xFF, x.flagByte]
    ++ leBytes 2 x.tag.toNat ++ leBytes 4 x.value.toNat ++ [0, 0, 0, 0]

/-! ## The anchor block -/

/-- The anchor's address: the strap value times 256 MiB (R180). -/
def anchorAddress (straps : Fin 16) : Nat := straps.val * 268435456

/-- The anchor values from bytes 0 to 31 (R180, R182). -/
def Settings.ofBytes (bs : List Byte) : Settings :=
  { tableBase := natAt bs 4 4, moveBase := natAt bs 8 4, apertureBase := natAt bs 12 4, structureCount := natAt bs 16 2,
    moveCount := natAt bs 18 1, mustLevel := natAt bs 19 1, releaseLevel := natAt bs 20 1,
    noticeLine := (byteAt bs 21).getLsbD 0, refusalNotices := (byteAt bs 21).getLsbD 1, idleTime := natAt bs 22 2,
    bindings := [⟨natAt bs 24 1, (byteAt bs 25).getLsbD 0⟩, ⟨natAt bs 26 1, (byteAt bs 27).getLsbD 0⟩,
      ⟨natAt bs 28 1, (byteAt bs 29).getLsbD 0⟩, ⟨natAt bs 30 1, (byteAt bs 31).getLsbD 0⟩] }

/-- The values while none are in use: no table, no region. -/
def Settings.absent : Settings :=
  ⟨0, 0, 0, 0, 0, 0, 0, false, false, 0, []⟩

/-- Anchor bytes 32 to 63 as a status mirror write holds them (R181, R182): unnamed bytes are 0. -/
def Control.mirrorBytes (c : Control) : List Byte :=
  [c.state.code, c.startReason.code] ++ leBytes 2 c.dropped ++ [(c.firstDropped.map NoticeKind.code).getD 0xFF]
    ++ leBytes 1 c.clearedPending
    ++ [BitVec.ofNat 8 c.lastRefusal.initiator.val, c.lastRefusal.reason.code, BitVec.ofNat 8 c.lastRefusal.struct,
      BitVec.ofNat 8 c.lastRefusal.offset] ++ List.replicate 22 0

end Sys2Proof.Machine
end

