-- ==== Sys2Proof/WellFormed.lean ====
section
/-! DEFINITION. What makes a command well formed: a request has a size, a placement and data that R174 allows. -/

namespace Sys2Proof

/-- The bytes a request of this size carries (R174: a burst's beats are 8 bytes). -/
def Size.bytes : Size → Nat
  | .beat1 => 1
  | .beat2 => 2
  | .beat4 => 4
  | .beat8 => 8
  | .burst k => 8 * k

/-- A burst has 2 to 8 beats (R174). -/
def Size.wf : Size → Bool
  | .burst k => decide (2 ≤ k) && decide (k ≤ 8)
  | _ => true

/-- A burst begins on an 8-byte boundary (R174). -/
def Request.aligned (r : Request) : Bool :=
  match r.size with
  | .burst _ => r.addr.toNat % 8 == 0
  | _ => true

/-- The request's bytes lie in the 32-bit address space (log 11). -/
def Request.inSpace (r : Request) : Bool :=
  decide (r.addr.toNat + r.size.bytes ≤ 2 ^ 32)

/-- A write carries its data, a read carries none (R174). -/
def Request.dataFits (r : Request) : Bool :=
  r.data.length == (if r.write then r.size.bytes else 0)

/-- A request that the interconnect can offer (R174, log 11). -/
def Request.wf (r : Request) : Bool :=
  r.size.wf && r.aligned && r.inSpace && r.dataFits

/-- An offered request is well formed; a handle needs no check. -/
def Arrival.wf : Arrival → Bool
  | .offered r => r.wf
  | .waiting _ => true

/-- A structure index is a byte of the record that names it: 0 to 255 (R23, R182). -/
def structureIndexWf (n : Nat) : Bool := decide (n < 256)

/-- A move index is a byte of the record that names it: 0 to 255 (R182). -/
def moveIndexWf (m : Nat) : Bool := decide (m < 256)

/-- A command is well formed when the request it offers is, and the index it names is one a record can hold. -/
def Instr.wf : Instr → Bool
  | .tapRequest src | .plainRequest src | .tableRead src | .tableWrite src => src.wf
  | .ringPut n | .ringTake n | .ringPeek n | .ringLevel n | .readStatus n | .stackPush n | .stackPop n | .stackTop n
  | .stackDepth n | .stackMark n | .stackUnwind n | .tallyNext n | .tallyAdd n | .tallySet n | .tallyValue n
  | .tallyWraps n => structureIndexWf n
  | .cmdRelease n | .cmdAbort n | .cmdOpen n | .cmdClose n | .cmdClearFault n | .cmdCloseGuard n | .cmdArm n
  | .cmdDisarm n => structureIndexWf n
  | .cmdTrigger m | .cmdStopMove m => moveIndexWf m
  | .powerOnReset | .warmReset | .forwardedRequestDone _ _ | .mportGrant | .statusMirrorWriteDone _ _
  | .ringItemAccessDone _ _ | .stackItemAccessDone _ _ | .commandUnitTake | .cmdNop | .cmdFlush | .cmdPauseMoves
  | .cmdResumeMoves | .startBridge _ | .stopBridge _ | .anchorReadDone _ _ | .auditReadDone _ _ | .auditWriteDone _ _
  | .auditFaultNotice | .fetchComplete _ _ | .writeBackComplete _ _ | .arbiterChoice | .moveDescriptorReadDone _ _
  | .pinEnd | .reservationStep | .moveTake | .spanReadDone _ _ | .movePut | .spanWriteDone _ _ | .storeBackDone _ _
  | .pinRelease | .runEndReport | .completionProcessing | .noticePut | .idleTimerExpiry | .stopClearPending
  | .stopEmptyCache | .powerOnResetEnd _ => true

end Sys2Proof
end

