-- ==== Sys2Proof/Machine/Operands.lean ====
section
/-! DEFINITION. What a request addresses: the regions of the memory map, the classification of a request (R175), the tap
decoder's derivation and its first check (R23, R28), and the operation that a tap selects (R24, R38). -/

namespace Sys2Proof.Machine

/-! ## Regions -/

/-- A run of addresses. -/
structure Region where
  base : Nat
  size : Nat
  deriving DecidableEq, Repr

/-- Two runs of addresses share a byte. -/
def Region.overlaps (a b : Region) : Bool :=
  decide (0 < a.size) && decide (0 < b.size) && decide (a.base < b.base + b.size) && decide (b.base < a.base + a.size)

def anchorRegion (straps : Fin 16) : Region := ⟨anchorAddress straps, 64⟩
def Settings.aperture (g : Settings) : Region := ⟨g.apertureBase, 8192⟩
def Settings.structureTable (g : Settings) : Region := ⟨g.tableBase, g.structureCount * 64⟩
/-- The move table; a move count of 0 gives no region (R17, R184). -/
def Settings.moveTable (g : Settings) : Region := ⟨g.moveBase, g.moveCount * 32⟩

/-- The four regions of R17. -/
def Settings.regions (g : Settings) (straps : Fin 16) : List Region :=
  [anchorRegion straps, g.aperture, g.structureTable, g.moveTable]

/-- A run of addresses avoids the four regions (R17, R126). -/
def Settings.clearOf (g : Settings) (straps : Fin 16) (r : Region) : Bool :=
  (g.regions straps).all (fun x => !r.overlaps x)

/-! ## Requests -/

end Sys2Proof.Machine

namespace Sys2Proof

open Machine

/-- The bytes a request touches. -/
def Request.region (r : Request) : Region := ⟨r.addr.toNat, r.size.bytes⟩

/-- A write whose bytes include all four of anchor bytes 0 to 3 (R175). -/
def Request.coversStartWord (r : Request) (straps : Fin 16) : Bool :=
  r.write && decide (r.addr.toNat ≤ anchorAddress straps)
    && decide (anchorAddress straps + 4 ≤ r.addr.toNat + r.size.bytes)

/-- The value a write gives to anchor bytes 0 to 3, little-endian (R177). -/
def Request.startWord (r : Request) (straps : Fin 16) : Nat :=
  natAt r.data (anchorAddress straps - r.addr.toNat) 4

/-- The request touches anchor bytes 32 to 63 (R181). -/
def Request.touchesStatus (r : Request) (straps : Fin 16) : Bool :=
  r.region.overlaps ⟨anchorAddress straps + 32, 32⟩

end Sys2Proof

namespace Sys2Proof.Machine

/-- The descriptors of the structure table whose bytes the request touches, in rising order (R116). -/
def Settings.touchedStructures (g : Settings) (r : Request) : List Nat :=
  if r.region.overlaps g.structureTable then
    let first := (max r.addr.toNat g.tableBase - g.tableBase) / 64
    let last := (min (r.addr.toNat + r.size.bytes) (g.tableBase + g.structureCount * 64) - 1 - g.tableBase) / 64
    (List.range (last + 1 - first)).map (fun i => first + i)
  else []

/-- The request touches move descriptor `m` (R120). -/
def Settings.touchesMove (g : Settings) (r : Request) (m : Nat) : Bool :=
  r.region.overlaps ⟨g.moveBase + m * 32, 32⟩

/-- The request touches the structure table or the move table (R175). -/
def Settings.touchesTables (g : Settings) (r : Request) : Bool :=
  r.region.overlaps g.structureTable || r.region.overlaps g.moveTable

/-- The classification of a request (R175, with the waits of R22 and R175): the first class that applies, for the bridge
state, the regions in use if they are known, and the anchor's place. -/
def classify (state : BridgeState) (settings : Option Settings) (straps : Fin 16) (r : Request) : RequestClass :=
  if state = .pass then (if r.coversStartWord straps then .anchorStart else .plain)
  else match settings with
    | none => .unknown
    | some g =>
      if r.region.overlaps g.aperture then
        (if state = .run ∨ state = .quiet then .tap else .apertureWait)
      else if r.coversStartWord straps then .anchorStart
      else if g.touchesTables r then (if state = .starting ∨ state = .auditing then .tableWait else .table)
      else .plain

/-! ## The tap decoder -/

/-- The aperture offset of a TAP request (R23): 0 for one that begins below the aperture. -/
def Settings.apertureOffset (g : Settings) (r : Request) : Nat := r.addr.toNat - g.apertureBase

/-- The tap that the decoder derives from a TAP request (R23, R27). -/
def Settings.decodeTap (g : Settings) (id : Nat) (r : Request) : Tap :=
  { id := id, word := g.apertureOffset r % 32, write := r.write, length := r.size.bytes, data := r.data,
    initiator := r.initiator, debug := r.debug, struct := g.apertureOffset r / 32, offset := g.apertureOffset r % 32 }

/-- The first check (R28): the form that some tap word accepts. -/
def Settings.shapeOk (g : Settings) (r : Request) : Bool :=
  let off := g.apertureOffset r
  let word := off % 32
  let own : Nat := g.apertureBase + off / 32 * 32
  let low := word == 0 || word == 8
  let high := word == 16 || word == 24
  (low || high)
    && (match r.size with
      | .beat1 => false
      | .beat2 => false
      | .beat4 => true
      | .beat8 => low
      | .burst k => k == 2 && low)
    && !(r.debug && r.write)
    && decide (own ≤ r.addr.toNat) && decide (r.addr.toNat + r.size.bytes ≤ own + 32)

/-! ## The operation a tap selects -/

/-- The operations of a RING by tap word and direction (R24). -/
def ringTap (word : Nat) (write : Bool) : Option TapKind :=
  match word, write with
  | 0, false => some .take
  | 0, true => some .put
  | 8, false => some .peek
  | 16, false => some .level
  | 24, false => some .status
  | _, _ => none

/-- The operations of a STACK (R24). -/
def stackTap (word : Nat) (write : Bool) : Option TapKind :=
  match word, write with
  | 0, false => some .pop
  | 0, true => some .push
  | 8, false => some .top
  | 16, false => some .depth
  | 16, true => some .mark
  | 24, false => some .status
  | 24, true => some .unwind
  | _, _ => none

/-- The operations of a TALLY (R24). -/
def tallyTap (word : Nat) (write : Bool) : Option TapKind :=
  match word, write with
  | 0, false => some .next
  | 0, true => some .add
  | 8, false => some .value
  | 8, true => some .set
  | 16, false => some .wraps
  | 24, false => some .status
  | _, _ => none

/-- The operation that a debug-tagged read makes in place of another (R38). -/
def TapKind.observing : TapKind → TapKind
  | .take => .peek
  | .pop => .top
  | .next => .value
  | .put => .put | .peek => .peek | .level => .level | .status => .status | .push => .push | .top => .top
  | .depth => .depth | .mark => .mark | .unwind => .unwind | .add => .add | .set => .set | .value => .value
  | .wraps => .wraps

/-- The operation selected by kind, tap word, direction and debug tag (R24, R38); none for a combination marked with a dash
and for a kind that is no kind of the table. -/
def selectTap (kind : Byte) (word : Nat) (write debug : Bool) : Option TapKind :=
  let k := if kind = kindRing then ringTap word write else if kind = kindStack then stackTap word write
    else if kind = kindTally then tallyTap word write else none
  if debug then k.map TapKind.observing else k

/-- The exact size a request must have at a tap word (R24, R30). -/
def Descriptor.requiredSize (d : Descriptor) (word : Nat) : Nat :=
  if word = 0 ∨ word = 8 then (if d.isTally then 4 else d.size) else 4

/-- The third check (R30): the operation a tap selects on a working copy, when its size fits; none for an OFF structure or
an unfit shape. -/
def Descriptor.fit (d : Descriptor) (t : Tap) : Option TapKind :=
  match selectTap d.kind t.word t.write t.debug with
  | some k => if t.length = d.requiredSize t.word then some k else none
  | none => none

/-- The reason of a third check that failed (R30). -/
def Descriptor.misfit (d : Descriptor) : Reason := if d.isOff then .off else .shape

/-- The classes of R25. -/
def TapKind.producing : TapKind → Bool
  | .put | .push | .mark | .add | .set | .next => true
  | .take | .peek | .level | .status | .pop | .top | .depth | .unwind | .value | .wraps => false
def TapKind.consuming : TapKind → Bool
  | .take | .pop | .unwind => true
  | .put | .peek | .level | .status | .push | .top | .depth | .mark | .next | .add | .set | .value | .wraps => false
/-- The non-consuming reads that read an item (R12, R32). -/
def TapKind.readsItem : TapKind → Bool
  | .peek | .top => true
  | .put | .take | .level | .status | .push | .pop | .depth | .mark | .unwind | .next | .add | .set | .value | .wraps => false

/-- The fourth check (R31): masks, and the protections of structures 0 and 1. -/
def Descriptor.denied (d : Descriptor) (n : Nat) (k : TapKind) (i : Initiator) : Bool :=
  (k.producing && (!d.producers.getLsbD i.val || n == 1)) || (k.consuming && (!d.consumers.getLsbD i.val || n == 0))

/-- The fifth check (R12, R32): the refusal that the structure's state makes. -/
def Descriptor.stateRefusal (d : Descriptor) (k : TapKind) : Option Reason :=
  if d.isHalted then
    (if k.producing || k.consuming || (k.readsItem && d.descriptorHalt) then some .halted else none)
  else if (d.state = stClosing ∨ d.state = stClosed) ∧ k.producing = true then some .closed
  else none

/-- The fourth and fifth checks in their order (R26). -/
def Descriptor.gate (d : Descriptor) (n : Nat) (k : TapKind) (i : Initiator) : Option Reason :=
  if d.denied n k i then some .denied else d.stateRefusal k

end Sys2Proof.Machine
end

