-- ==== Sys2Proof/Machine/Flags.lean ====
section
/-! DEFINITION. What is judged on a working copy: the condition, the STATUS word, validation of both kinds of descriptor,
the arithmetic of a tally, fault causes and their re-test; and the checks of the anchor. -/

namespace Sys2Proof.Machine

namespace Descriptor

/-! ## Condition and STATUS -/

/-- The condition holds as a standing state (R4, R152): HIGH and LOW by the level of a ring or stack; NONE and WRAP never. -/
def holds (d : Descriptor) : Bool :=
  (d.isRing || d.isStack)
    && ((d.condition == condHigh && decide (d.high.toNat ≤ d.level))
      || (d.condition == condLow && decide (d.level ≤ d.low.toNat)))

/-- The STATUS word (R37, R182): state, fault cause, flags. -/
def statusBytes (d : Descriptor) : List Byte :=
  let flags := withBit (withBit (withBit (withBit (withBit (withBit 0 0 d.guardOpen) 1 d.lost)
    2 (d.isRing && d.overrun)) 3 d.armed) 4 (d.isTally && d.atBound)) 5 d.holds
  [d.state, d.cause, flags, 0]

/-! ## Validation (R17) -/

/-- The checks of R17 on the state, the fault cause and the condition, for RING, STACK and TALLY. -/
def commonOk (d : Descriptor) (moveCount : Nat) : Bool :=
  (d.state == stOpen || d.state == stClosed || d.state == stHalted)
    && decide (d.cause.toNat ≤ 5)
    && (d.isHalted == (d.cause == causeReserve || d.cause == causeMemory || d.cause == causeDescriptor))
    && (d.condition == condNone
      || ((d.condition == condHigh || d.condition == condLow) && (d.isRing || d.isStack))
      || (d.condition == condWrap && d.isTally))
    && (d.condition == condNone || decide (d.triggerMove.toNat < moveCount))

/-- The checks of R17 on the item storage, for RING and STACK. -/
def storageOk (d : Descriptor) (g : Settings) (straps : Fin 16) : Bool :=
  (d.itemSize == 4 || d.itemSize == 8 || d.itemSize == 16)
    && decide (1 ≤ d.cap)
    && decide (d.base.toNat % d.size = 0)
    && decide (d.base.toNat + d.cap * d.size ≤ addressSpace)
    && g.clearOf straps ⟨d.base.toNat, d.cap * d.size⟩
    && decide (d.high.toNat ≤ d.cap) && decide (d.low.toNat ≤ d.cap)
    && decide (d.emptyPolicy.toNat ≤ 1) && decide (d.fillValue.toNat ≤ 1)

/-- The checks of R17 on a RING's own fields. -/
def ringOk (d : Descriptor) : Bool :=
  decide (d.fullPolicy.toNat ≤ 1) && decide (d.head < d.cap) && decide (d.count ≤ d.cap)

/-- The checks of R17 on a STACK's own fields. -/
def stackOk (d : Descriptor) : Bool :=
  decide (1 ≤ d.limit) && decide (d.limit + 5 ≤ d.cap) && decide (d.frame ≤ d.depth) && decide (d.depth ≤ d.cap)
    && decide (d.b38.toNat ≤ 1)
    && (d.guardOpen || decide (d.depth ≤ d.limit))
    && (!d.guardOpen || d.cause == causeOverflow || d.cause == causeReserve || d.cause == causeMemory
      || d.cause == causeDescriptor)

/-- The checks of R17 on a TALLY's own fields. -/
def tallyOk (d : Descriptor) : Bool :=
  decide (d.lower ≤ d.value) && decide (d.value ≤ d.upper) && decide (d.step ≠ 0) && decide (d.b38.toNat ≤ 1)

/-- The required shape of structures 0 and 1 (R19, R20), for a validation that is not the audit. -/
def shapeOk (d : Descriptor) (n : Nat) : Bool :=
  if n = 0 then d.isRing && d.itemSize == 8 && (d.state == stOpen || d.state == stHalted)
  else if n = 1 then
    d.isRing && d.itemSize == 16 && d.fullPolicy == 0 && decide (1 ≤ d.high.toNat)
      && (d.state == stOpen || d.state == stHalted)
  else true

/-- Validation of descriptor `n` (R17). An OFF descriptor passes on its kind alone (R2), but structures 0 and 1 must be RINGs
(R19, R20): an OFF descriptor 0 or 1 fails (the model's reading, log 38). -/
def valid (d : Descriptor) (g : Settings) (straps : Fin 16) (n : Nat) : Bool :=
  d.shapeOk n
    && (d.isOff
      || (d.commonOk g.moveCount
        && ((d.isRing && d.storageOk g straps && d.ringOk)
          || (d.isStack && d.storageOk g straps && d.stackOk)
          || (d.isTally && d.tallyOk))))

/-- A descriptor read already HALTED with cause DESCRIPTOR, with legal codes, which is taken as read (R17, R109). -/
def alreadyMarked (d : Descriptor) : Bool := d.descriptorHalt && decide (d.kind.toNat ≤ 3)

/-- The descriptor with a CLOSING state taken as CLOSED, whatever its kind (R13, R109, R185). -/
def closingAsClosed (d : Descriptor) : Descriptor :=
  if d.state = stClosing then { d with state := stClosed } else d

/-- The descriptor marked HALTED with cause DESCRIPTOR (R18). -/
def marked (d : Descriptor) : Descriptor := { d with state := stHalted, cause := causeDescriptor }

/-- A descriptor passes at a fetch or at the audit (R17, R18). -/
def passes (d : Descriptor) (g : Settings) (straps : Fin 16) (n : Nat) : Bool :=
  d.alreadyMarked || d.closingAsClosed.valid g straps n

/-- The working copy that a fetch takes in (R109). -/
def fetched (d : Descriptor) (g : Settings) (straps : Fin 16) (n : Nat) : Descriptor :=
  if d.alreadyMarked then d else if d.closingAsClosed.valid g straps n then d.closingAsClosed else d.marked

/-! ## Fault causes (R14 to R16) -/

/-- The descriptor after a halting cause (R14, R15): the first halting cause stays. -/
def haltedBy (d : Descriptor) (cause : Byte) : Descriptor :=
  if d.isHalted then d else { d with state := stHalted, cause := cause }

/-- The value of a FAULT notice for a halt: the count or depth, 0 for a TALLY (R167). -/
def haltValue (d : Descriptor) : Nat := d.level

/-- The descriptor after an UNDERFLOW (R15, R79): it does not replace a cause while the guard is open. -/
def underflowed (d : Descriptor) : Descriptor := if d.guardOpen then d else { d with cause := causeUnderflow }

/-- The descriptor as it would stand after a halting cause is cleared (R16). -/
def cleared (d : Descriptor) : Descriptor :=
  { d with state := stOpen, cause := if d.guardOpen then causeOverflow else causeNone }

/-- CLEAR_FAULT's re-test and clearing (R16, R62, R88, R100): the new descriptor, or none for CAUSE_PERSISTS. RESERVE on a
ring or tally, which only the host can write, has no depth to test (log 18). -/
def clearFault (d : Descriptor) (g : Settings) (straps : Fin 16) (n : Nat) : Option Descriptor :=
  if d.cause = causeNone then some d
  else if d.cause = causeUnderflow then some { d with cause := causeNone }
  else if d.cause = causeOverflow then (if d.guardOpen then none else some { d with cause := causeNone })
  else if d.cause = causeMemory then some d.cleared
  else if d.cause = causeReserve then
    (if d.isStack = true ∧ d.cap ≤ d.depth then none else some d.cleared)
  else (if d.cleared.valid g straps n then some d.cleared else none)

/-! ## Tally arithmetic (R91, R92) -/

/-- The span, upper − lower + 1 (R11). -/
def span (d : Descriptor) : Int := d.upper - d.lower + 1

/-- The quotient q of R91 for a raw result: (r − lower) divided by the span, rounded towards minus infinity. -/
def wrapQuotient (d : Descriptor) (raw : Int) : Int := (raw - d.lower) / d.span

/-- The raw result brought inside the bounds by division (R91). -/
def wrapped (d : Descriptor) (raw : Int) : Int := d.lower + (raw - d.lower) % d.span

/-- The raw result clamped (R92). -/
def clamped (d : Descriptor) (raw : Int) : Int :=
  if d.upper < raw then d.upper else if raw < d.lower then d.lower else raw

/-- A tally with a new value, its at-bound flag re-evaluated by the mode (R91, R92). -/
def withValue (d : Descriptor) (v : Int) : Descriptor :=
  (d.setValue v).setAtBound (d.stick && (decide (v = d.lower) || decide (v = d.upper)))

/-- The tally after a raw result (R91, R92). -/
def advanced (d : Descriptor) (raw : Int) : Descriptor :=
  if d.stick then d.withValue (d.clamped raw)
  else (d.withValue (d.wrapped raw)).setWraps (min 65535 (d.wraps + (d.wrapQuotient raw).natAbs))

/-- The operation wraps (R91): never in STICK mode (R92). -/
def wrapsOn (d : Descriptor) (raw : Int) : Bool := !d.stick && decide (d.wrapQuotient raw ≠ 0)

end Descriptor

/-! ## The checks of a move descriptor -/

/-- The item at a SPAN address is aligned and overlaps none of the four regions (R126, R132, R134). -/
def spanOk (g : Settings) (straps : Fin 16) (size : Nat) (addr : Word) : Bool :=
  decide (addr.toNat % size = 0) && g.clearOf straps ⟨addr.toNat, size⟩

/-- One end of a move descriptor passes R132: a legal type, and a structure index below the count and not 0 (not 1 either for
the destination), or a legal step and a good span address. -/
def endOk (g : Settings) (straps : Fin 16) (size : Nat) (type step : Byte) (addr : Word) (dest : Bool) : Bool :=
  if type = 0 then
    decide (addr.toNat % 256 < g.structureCount) && addr.toNat % 256 != 0 && !(dest && addr.toNat % 256 == 1)
  else type == 1 && decide (step.toNat ≤ 2) && spanOk g straps size addr

/-- The checks of R132. -/
def MoveDescriptor.loadOk (d : MoveDescriptor) (g : Settings) (straps : Fin 16) : Bool :=
  decide (d.mode.toNat ≤ 2)
    && (d.itemSize == 4 || d.itemSize == 8 || d.itemSize == 16)
    && endOk g straps d.size d.srcType d.srcStep d.src false
    && endOk g straps d.size d.dstType d.dstStep d.dst true
    && (!d.block || (decide (1 ≤ d.blockLength.toNat) && decide (d.blockLength.toNat ≤ 256)))
    && (!d.linkEnable || decide (d.linkIndex.toNat < g.moveCount))

/-- The check of R133 on a STRUCT end's kind and item size. -/
def endFits (kind itemSize moveSize : Byte) : Bool :=
  kind != kindOff && kind != kindTally && itemSize == moveSize

/-- The SPAN addresses pass the test before an item (R134). -/
def MoveDescriptor.spansOk (d : MoveDescriptor) (g : Settings) (straps : Fin 16) : Bool :=
  (d.srcType == 0 || spanOk g straps d.size d.src) && (d.dstType == 0 || spanOk g straps d.size d.dst)

/-! ## The checks of the anchor (R184) -/

/-- The first check of R184 that fails, or none. -/
def Settings.startRefusal (g : Settings) (straps : Fin 16) : Option StartReason :=
  let a := anchorRegion straps
  if g.tableBase % 64 ≠ 0 ∨ g.moveBase % 32 ≠ 0 ∨ g.apertureBase % 8192 ≠ 0 then some .layout
  else if g.structureCount < 2 ∨ 256 < g.structureCount ∨ 64 < g.moveCount then some .layout
  else if addressSpace < g.apertureBase + 8192 ∨ addressSpace < g.tableBase + g.structureCount * 64
      ∨ (0 < g.moveCount ∧ addressSpace < g.moveBase + g.moveCount * 32) then some .layout
  else if a.overlaps g.aperture ∨ a.overlaps g.structureTable ∨ a.overlaps g.moveTable
      ∨ g.aperture.overlaps g.structureTable ∨ g.aperture.overlaps g.moveTable
      ∨ g.structureTable.overlaps g.moveTable then some .layout
  else if g.mustLevel < 1 ∨ 16 < g.mustLevel ∨ g.mustLevel ≤ g.releaseLevel then some .levels
  else none

end Sys2Proof.Machine
end

