-- ==== Sys2Proof/Machine/Ops.lean ====
section
/-! DEFINITION. The shared operations of the bridge's blocks: the settings in use, M-port requests, the status mirror, the
idle timer, notices, the I-port's responses, refusals, entries of the record cache, posts, reports of a level, and halts. -/

namespace Sys2Proof.Machine

namespace Bridge

/-! ## The settings in use -/

/-- The anchor values in use (R180); no table and no region while none are. -/
def cfg (b : Bridge) : Settings := b.control.settings.getD Settings.absent

/-- The bridge state is one of those in which START is under way (R183). -/
def startingUp (b : Bridge) : Bool := b.control.state == .starting || b.control.state == .auditing

/-! ## The M-port -/

/-- A request joins those that wait at the M-port (R178). -/
def issue (b : Bridge) (access : Access) (write : Bool) (addr : Nat) (data : List Byte) (length : Nat) : Bridge :=
  { b with
    mport := { b.mport with waiting := b.mport.waiting ++ [⟨b.nextHandle, access, write, addr, data, length, false⟩] }
    nextHandle := b.nextHandle + 1 }

/-- A status mirror write is queued, unless one waits ungranted (R181). Its bytes are taken at the grant. -/
def mirror (b : Bridge) : Bridge :=
  if b.mport.waiting.any (fun q => q.access == .mirror) then b
  else b.issue .mirror true (anchorAddress b.control.straps + 32) [] 32

/-- The handles of the status mirror writes that have not completed (R181). One that was granted before a power-on reset is
not among them (log 17). -/
def mirrorHandles (b : Bridge) : List Nat :=
  ((b.mport.waiting ++ b.mport.outstanding).filter (fun q => q.access == .mirror && !q.abandoned)).map (·.id)

/-- An access of bridge control for START has not been answered: the anchor read, an audit read or write (R188, R189). -/
def startAccess (b : Bridge) : Bool :=
  (b.mport.waiting ++ b.mport.outstanding).any
    (fun q => !q.abandoned && (q.access == .anchorRead || q.access == .auditRead || q.access == .auditWrite))

/-! ## Bridge control -/

/-- The bridge state changes, and the change is mirrored (R183, R181). -/
def setState (b : Bridge) (s : BridgeState) : Bridge :=
  mirror { b with control := { b.control with state := s } }

/-- The idle timer starts from the full idle time; an idle time of 0 keeps it stopped (R187). -/
def startTimer (b : Bridge) : Bridge :=
  { b with control := { b.control with idleTimer := if b.cfg.idleTime = 0 then none else some b.cfg.idleTime } }

/-- A running idle timer restarts (R187). -/
def activity (b : Bridge) : Bridge := if b.control.idleTimer.isSome then b.startTimer else b

/-- A cache that empties itself for QUIET stops doing so, and the timer restarts (R123, R187). -/
def cancelEmptying (b : Bridge) : Bridge :=
  if b.control.emptying then startTimer { b with control := { b.control with emptying := false } } else b

/-- The command unit hears one of the events of R163: it counts when the unit is IDLE. -/
def wakeCommand (b : Bridge) : Bridge :=
  if b.command.state = .idle then { b with command := { b.command with wake := true } } else b

/-- A draw of a free value. -/
def draw (b : Bridge) : Bridge := { b with freeDraws := b.freeDraws + 1 }

/-! ## Notices -/

/-- A notice is dropped and counted (R170), and the change mirrored; a count at 65535 stays there. -/
def dropNotice (b : Bridge) (k : NoticeKind) : Bridge :=
  if 65535 ≤ b.control.dropped then b
  else mirror { b with control := { b.control with
    dropped := b.control.dropped + 1
    firstDropped := if b.control.dropped = 0 then some k else b.control.firstDropped } }

/-- A notice arrives at the notice writer (R168): it joins the queue, or is dropped and counted when the queue holds 8. A
notice queued while the cache empties itself for QUIET stops that (R123). -/
def notify (b : Bridge) (x : Notice) : Bridge :=
  if b.notices.queue.length < 8 then
    cancelEmptying { b with notices := { b.notices with queue := b.notices.queue ++ [x] } }
  else b.dropNotice x.kind

/-- The oldest notice leaves the queue: its put is decided (R168). -/
def dequeueNotice (b : Bridge) : Bridge :=
  { b with notices := { queue := b.notices.queue.tail, asked := false } }

/-- The oldest notice leaves the queue, dropped and counted (R168, R170). -/
def dropOldest (b : Bridge) : Bridge :=
  match b.notices.queue with
  | [] => { b with notices := { b.notices with asked := false } }
  | x :: _ => (b.dequeueNotice).dropNotice x.kind

/-- A FAULT notice (R167): cause, structure, value, and the writeback flag for a failed write-back. -/
def faultNotice (n : Nat) (cause : Reason) (value : Nat) (writeback : Bool) : Notice :=
  { kind := .fault, cause := cause, struct := some (BitVec.ofNat 8 n), move := none, initiator := none, itemLost := false,
    writeback := writeback, tag := 0, value := BitVec.ofNat 32 value }

/-! ## The I-port -/

/-- Responses leave in the order of their initiator's requests (R176): an answered request leaves when no earlier request of
its initiator is in flight. Gives what stays and what leaves. -/
def drainList : List Initiator → List InFlight → List InFlight × List Response
  | _, [] => ([], [])
  | blocked, r :: rs =>
    match r.phase with
    | .answered ok data =>
      if blocked.contains r.request.initiator then
        (r :: (drainList blocked rs).1, (drainList blocked rs).2)
      else
        ((drainList blocked rs).1, ⟨r.id, r.request.initiator, ok, data⟩ :: (drainList blocked rs).2)
    | .waiting | .snooping _ | .moveWait _ | .mirrorWait | .tapped | .forwarded =>
      (r :: (drainList (r.request.initiator :: blocked) rs).1, (drainList (r.request.initiator :: blocked) rs).2)

/-- Every response whose turn has come leaves (R176). -/
def drain (b : Bridge) : Bridge :=
  { b with iport :=
    ⟨(drainList [] b.iport.inflight).1, b.iport.sent ++ (drainList [] b.iport.inflight).2⟩ }

/-- A request in flight moves to another phase. -/
def setPhase (b : Bridge) (id : Nat) (p : RequestPhase) : Bridge :=
  { b with iport := { b.iport with
    inflight := b.iport.inflight.map (fun r => if r.id = id then { r with phase := p } else r) } }

/-- A request is answered; its response leaves when its turn comes (R174, R176). -/
def answer (b : Bridge) (id : Nat) (ok : Bool) (data : List Byte) : Bridge :=
  (b.setPhase id (.answered ok data)).drain

/-- The request in flight with a handle. -/
def inflight? (b : Bridge) (id : Nat) : Option InFlight := b.iport.inflight.find? (fun r => r.id == id)

/-! ## Tap refusals (R34 to R36) -/

/-- The REFUSAL notice of R36. -/
def refusalNotice (t : Tap) (r : Reason) : Notice :=
  { kind := .refusal, cause := r, struct := some (BitVec.ofNat 8 t.struct), move := none, initiator := some t.initiator,
    itemLost := false, writeback := false, tag := 0, value := BitVec.ofNat 32 t.offset }

/-- A refusal reaches bridge control: the last-refusal record is replaced and mirrored, and a REFUSAL notice is queued when
the anchor enables them (R35, R36). A debug-tagged read is exempt (R38). -/
def recordRefusal (b : Bridge) (t : Tap) (r : Reason) : Bridge :=
  if t.debug && !t.write then b
  else
    let b1 := mirror { b with control := { b.control with lastRefusal := ⟨t.initiator, r, t.struct, t.offset⟩ } }
    if b.cfg.refusalNotices then b1.notify (refusalNotice t r) else b1

/-- The data of an ERROR response to a tap: zeros for a read, none for a write (R34). -/
def errorData (t : Tap) : List Byte := if t.write then [] else List.replicate t.length 0

/-- A tap is refused (R34): answered ERROR, and recorded. -/
def refuseTap (b : Bridge) (t : Tap) (r : Reason) : Bridge :=
  (b.answer t.id false (errorData t)).recordRefusal t r

/-! ## Entries of the record cache -/

/-- The entry that holds an index (R102), if one does. -/
def entry? (b : Bridge) (n : Nat) : Option Entry := b.cache.find? (fun e => e.index == n)

/-- An entry is changed. -/
def setEntry (b : Bridge) (n : Nat) (f : Entry → Entry) : Bridge :=
  { b with cache := b.cache.map (fun e => if e.index = n then f e else e) }

end Bridge

/-- An entry can apply the first operation of its waiting list (R105): CLEAN or DIRTY with no operation in progress. -/
def Entry.ready (e : Entry) : Bool := (e.state == .clean || e.state == .dirty) && e.busy.isNone

/-- The entry with a changed working copy: DIRTY when a field changed (R103). -/
def Entry.withCopy (e : Entry) (d : Descriptor) : Entry :=
  if d = e.copy then e else { e with copy := d, state := .dirty }

namespace Bridge

/-- The working copy of an entry is changed (R103). -/
def writeCopy (b : Bridge) (n : Nat) (d : Descriptor) : Bridge := b.setEntry n (fun e => e.withCopy d)

/-- An operation for an index joins its entry's waiting list, or the miss list when no entry holds the index (R105, R106). -/
def enqueue (b : Bridge) (n : Nat) (op : CacheOp) : Bridge :=
  match b.entry? n with
  | some _ => b.setEntry n (fun e => { e with waiting := e.waiting ++ [op] })
  | none => { b with misses := b.misses ++ [(n, op)] }

/-- The entry of an index whose turn an operation is: ready, with that operation at the front of its waiting list. -/
def frontOp (b : Bridge) (n : Nat) (op : CacheOp) : Option Entry :=
  match b.entry? n with
  | some e => if e.ready = true ∧ e.waiting.head? = some op then some e else none
  | none => none

/-- The first operation of an entry's waiting list is applied: it leaves the list, and the entry returns to the front of the
recency list (R104, R105), also when its checks then refuse it (the model's reading, log 33). -/
def startOp (b : Bridge) (n : Nat) : Bridge :=
  match b.entry? n with
  | some e =>
    { b with cache := { e with waiting := e.waiting.tail } :: b.cache.filter (fun x => x.index != n) }
  | none => b

/-- An operation makes an item access: it is in progress on the entry until the access completes (R42, R68). The access is the
move engine's class when the engine made it (R179). -/
def beginItem (b : Bridge) (n : Nat) (work : ItemWork) (party : Party) (stack write : Bool) (addr : Nat)
    (data : List Byte) (length : Nat) : Bridge :=
  (b.setEntry n (fun e => { e with busy := some ⟨work, party⟩ })).issue
    (.item n stack (party == .engine)) write addr data length

/-- An operation of a party that asks the cache once and waits (R105): it is handed over when it has not been asked yet, and
applied when its turn has come. Not possible when it was asked before and its turn has not come. -/
def askOrApply (b : Bridge) (n : Nat) (op : CacheOp) (asked : Bool) (mark : Bridge → Bridge)
    (apply : Entry → Bridge → Bridge) : Option Bridge :=
  let b1 := if asked then b else mark (b.enqueue n op)
  match b1.frontOp n op with
  | some e => some (apply e (b1.startOp n))
  | none => if asked then none else some b1

/-! ## Posts, reports and halts -/

/-- A move joins the pending set in index order; a post of an index already there merges, and the entry keeps its origin
(R150, R151). -/
def insertPending : List PendingMove → PendingMove → List PendingMove
  | [], p => [p]
  | q :: qs, p => if p.move < q.move then p :: q :: qs else if p.move = q.move then q :: qs else q :: insertPending qs p

/-- A post with origin STRUCTURE or SOFTWARE (R151): taken in RUN and QUIET, discarded in every other state (R160, R162). -/
def post (b : Bridge) (m : Nat) (o : ChainOrigin) : Bridge :=
  if b.control.state = .run ∨ b.control.state = .quiet then
    { b with trigger := { b.trigger with pending := insertPending b.trigger.pending ⟨m, .start o⟩ } }
  else b

/-- The demand-line shadows after structure `n` was judged (R173): each line bound to it takes the value. -/
def judgeShadows (bindings : List Binding) (n : Nat) (v : Bool) : List Bool → List Bool
  | [] => []
  | s :: ss =>
    match bindings with
    | [] => s :: ss
    | x :: xs => (if x.index = n then v else s) :: judgeShadows xs n v ss

/-- The demand lines and, for structure 1, the notice line judge a working copy (R172, R173); a line for which the copy does
not count clears its shadow. A copy whose kind has no level, OFF included, clears the demand shadows (log 26). -/
def judgeLines (b : Bridge) (n : Nat) (d : Descriptor) (demand notice : Bool) : Bridge :=
  { b with control := { b.control with
    demandShadows := judgeShadows b.cfg.bindings n (d.holds && demand) b.control.demandShadows
    noticeShadow := if n = 1 then decide (d.high.toNat ≤ d.count) && notice else b.control.noticeShadow } }

/-- The lines can be high: the bridge is in RUN or QUIET (R172, R173). -/
def linesLive (b : Bridge) : Bool := b.control.state == .run || b.control.state == .quiet

/-- The notice line, as a device sees it (R172). -/
def noticeLineHigh (b : Bridge) : Bool := b.linesLive && b.cfg.noticeLine && b.control.noticeShadow

/-- Demand line `k`, 0 to 3, as a device sees it (R173): its binding enabled and naming a structure, its shadow set. -/
def demandLineHigh (b : Bridge) (k : Nat) : Bool :=
  match b.cfg.bindings[k]?, b.control.demandShadows[k]? with
  | some x, some v => b.linesLive && x.enable && decide (x.index < b.cfg.structureCount) && v
  | _, _ => false

/-- The WATERMARK notice of R167. -/
def watermarkNotice (n level : Nat) (initiator : Option Initiator) (move : Option Nat) : Notice :=
  { kind := .watermark, cause := .none, struct := some (BitVec.ofNat 8 n), move := move.map (BitVec.ofNat 8 ·),
    initiator := initiator, itemLost := false, writeback := false, tag := 0, value := BitVec.ofNat 32 level }

/-- The report of an operation that changed a level (R54, R81, R149): on a crossing the armed structure's trigger move is
posted and a WATERMARK notice queued; the lines are judged; the command unit hears of structure 0. (No copy HALTED with cause
DESCRIPTOR takes an operation that changes a level, R12, R58, R86.) -/
def report (b : Bridge) (n : Nat) (before after : Descriptor) (initiator : Option Initiator) (move : Option Nat) : Bridge :=
  let crossing := !before.holds && after.holds
  let b1 := if crossing && after.armed then b.post after.triggerMove.toNat (.structure n) else b
  let b2 := if crossing && after.watermarkNotices && n != 1 then b1.notify (watermarkNotice n after.level initiator move)
    else b1
  let b3 := b2.judgeLines n after (!after.descriptorHalt) (!after.descriptorHalt)
  if n = 0 then b3.wakeCommand else b3

/-- A halting cause arises on a structure (R14, R15): the working copy becomes HALTED, unless it is already, and a FAULT
notice is queued when the recorded cause changed. That a MEMORY error on a copy HALTED with cause RESERVE queues none, as R42
and R68 say of one HALTED with cause MEMORY, is the model's reading (log 44). -/
def halt (b : Bridge) (n : Nat) (d : Descriptor) (cause : Byte) : Bridge :=
  if d.isHalted then b
  else (b.writeCopy n (d.haltedBy cause)).notify (faultNotice n (causeReason cause) d.haltValue false)

/-! ## The command unit's reports -/

/-- The index fields of a command's report (R165): as named, absent otherwise and for an UNKNOWN operation. -/
def commandNotice (c : CommandItem) (kind : NoticeKind) (r : Reason) : Notice :=
  { kind := kind, cause := r, struct := if c.namesStruct then some c.struct else none,
    move := if c.namesMove then some c.move else none, initiator := none, itemLost := false, writeback := false,
    tag := c.tag, value := BitVec.ofNat 32 c.op.toNat }

/-- The command unit has finished its command: it is IDLE and looks for the next (R163, R165), and the idle timer restarts
(R187). -/
def commandEnd (b : Bridge) : Bridge :=
  activity { b with command := { b.command with state := .idle, held := none, stage := .judged, wake := true } }

/-- The held command is done (R165): COMMAND_DONE when its report flag asks for it. -/
def commandDone (b : Bridge) : Bridge :=
  match b.command.held with
  | some c => (if c.report then b.notify (commandNotice c .commandDone .none) else b).commandEnd
  | none => b

/-- The held command is refused (R165). -/
def commandRefused (b : Bridge) (r : Reason) : Bridge :=
  match b.command.held with
  | some c => (b.notify (commandNotice c .commandRefused r)).commandEnd
  | none => b

/-- The command held with a given operation code, still waiting for its effect (R164). -/
def judgedCommand (b : Bridge) (op : Byte) : Option CommandItem :=
  match b.command.held with
  | some c => if b.command.state = .carrying ∧ b.command.stage = .judged ∧ c.op = op then some c else none
  | none => none

end Bridge

/-! ## Events -/

/-- A step of the bridge that touches no memory: its effect when it can take place, and no change when it cannot (log 7). -/
def State.event (s : State) (f : Bridge → Option Bridge) : Host.Outcome State Fault Refusal :=
  match f s.chip with
  | some b => .next { s with chip := b }
  | none => .next s

/-- What an answered write leaves in memory: its bytes when OKAY; after an ERROR, nothing when the spec says the target is
unchanged (`keeps`), and free bytes otherwise (log 4). -/
def State.memAfter (s : State) (q : MemRequest) (ok keeps : Bool) : Memory :=
  if q.write then
    if ok then Memory.writeBytes s.mem q.addr q.data
    else if keeps then s.mem
    else Memory.writeBytes s.mem q.addr (keptBytes s.chip.freeDraws q.addr q.length)
  else s.mem

/-- Memory answers a granted request (R178; log 3): the request must be outstanding and of the row's kind. Memory acts, the
request leaves the M-port, and its requester goes on with the answer, or discards it when it was abandoned. The requester gets
the bytes read. -/
def State.answered (s : State) (id : Nat) (ok keeps : Bool) (accepts : Access → Bool)
    (f : MemRequest → List Byte → Bridge → Bridge) : Host.Outcome State Fault Refusal :=
  match s.chip.mport.outstanding.find? (fun q => q.id == id && accepts q.access) with
  | none => .next s
  | some q =>
    let b := Bridge.draw { s.chip with mport := { s.chip.mport with
      outstanding := s.chip.mport.outstanding.filter (fun x => x.id != id) } }
    .next { s with
      mem := s.memAfter q ok keeps
      chip := if q.abandoned then b else f q (Memory.readBytes s.mem q.addr q.length) b }

end Sys2Proof.Machine
end

