-- ==== Sys2Proof/Machine/Cache.lean ====
section
/-! DEFINITION. The record cache (chapter 6): snooping of TABLE requests, dropping an entry, misses and victims, must
episodes, emptying, and `settle`: everything the record cache and bridge control do by themselves within the step that makes
it possible (spec/95). The completions of a fetch and of a write-back are in Fetch.lean. -/

namespace Sys2Proof.Machine

namespace Bridge

/-! ## Forwarding and snooping (R116 to R120, R175, R181) -/

/-- A request is handed to the M-port (R178), under its own handle. -/
def forward (b : Bridge) (id : Nat) : Bridge :=
  match b.inflight? id with
  | some r =>
    { (b.setPhase id .forwarded) with
      mport := { b.mport with waiting := b.mport.waiting ++
        [⟨id, .forward id, r.request.write, r.request.addr.toNat, r.request.data, r.request.size.bytes, false⟩] } }
  | none => b

/-- The move descriptor loaded in the engine, from the start of its read until its store-back has completed or it was
abandoned (R120, R131). -/
def loadedMove (b : Bridge) : Option Nat :=
  if b.engine.step = .none ∨ b.engine.step = .release ∨ b.engine.step = .report then none
  else b.engine.move.map (·.index)

/-- A request touches the loaded move descriptor (R120). -/
def touchesLoaded (b : Bridge) (r : Request) : Bool :=
  match b.loadedMove with
  | some m => b.cfg.touchesMove r m
  | none => false

/-- Every descriptor allows the request: it is forwarded, unless it touches the loaded move descriptor (R120) or waits for
mirror writes (R181). A write that waits for the loaded move waits as a whole: it is judged for every descriptor afterwards
(log 14). A read that comes to wait for it after its structure descriptors allowed it is not judged for them again (the
model's reading, log 45). -/
def passOn (b : Bridge) (r : InFlight) : Bridge :=
  if b.touchesLoaded r.request then
    b.setPhase r.id (.moveWait (if r.request.write then b.cfg.touchedStructures r.request else []))
  else if r.mirrors ≠ [] then b.setPhase r.id .mirrorWait
  else b.forward r.id

/-- A TABLE read is judged for each descriptor it touches, in address order (R116, R117): allowed at once where no entry holds
it or the entry is CLEAN; otherwise it joins the waiting list. -/
def snoopRead (b : Bridge) (r : InFlight) : List Nat → Bridge
  | [] => b.passOn r
  | n :: rest =>
    match b.entry? n with
    | none => snoopRead b r rest
    | some e =>
      if e.state = .clean then snoopRead b r rest
      else (b.enqueue n (.tableRead r.id)).setPhase r.id (.snooping (n :: rest))

/-- An entry holds the descriptor with its pin set (R113). -/
def pinned (b : Bridge) (n : Nat) : Bool :=
  match b.entry? n with
  | some e => e.pin
  | none => false

/-- The pinned descriptor that a TABLE write waits for as a whole (R119): of those it touches the first in address order. -/
def pinnedOf (b : Bridge) (r : Request) : Option Nat := (b.cfg.touchedStructures r).find? b.pinned

/-- A TABLE write is held on a pinned entry (R119): it waits as a whole, and is judged for that descriptor and then for the
others once the pin is released, also for one that had let it go before (log 14). -/
def holdRequest (b : Bridge) (n : Nat) (r : InFlight) : Bridge :=
  (b.setEntry n (fun e => { e with held := e.held ++ [r.id] })).setPhase r.id
    (.snooping (n :: (b.cfg.touchedStructures r.request).filter (fun m => m != n)))

/-- A TABLE write is judged for the descriptors still to allow it, in address order (R116, R118): held as a whole on a pinned
entry that it touches (R119); else allowed at once where no entry holds the descriptor, and in the waiting list of the first
entry that holds one. A descriptor that has let it go is not judged again. -/
def snoopWrite (b : Bridge) (r : InFlight) (todo : List Nat) : Bridge :=
  match b.pinnedOf r.request with
  | some n => b.holdRequest n r
  | none =>
    match todo.dropWhile (fun n => (b.entry? n).isNone) with
    | [] => b.passOn r
    | n :: rest => (b.enqueue n (.tableWrite r.id)).setPhase r.id (.snooping (n :: rest))

/-- A TABLE request is judged for the descriptors still to allow it (R116). -/
def snoop (b : Bridge) (r : InFlight) (todo : List Nat) : Bridge :=
  if r.request.write then b.snoopWrite r todo else b.snoopRead r todo

/-- A TABLE request is shown to the record cache (R116): it waits as a whole for the loaded move (R120). -/
def beginSnoop (b : Bridge) (r : InFlight) : Bridge :=
  let todo := b.cfg.touchedStructures r.request
  if b.touchesLoaded r.request then b.setPhase r.id (.moveWait todo) else b.snoop r todo

/-- The descriptor that a request waits for allows it: the others are judged (R116). -/
def allow (b : Bridge) (n id : Nat) : Bridge :=
  match b.inflight? id with
  | some r =>
    match r.phase with
    | .snooping todo => if todo.head? = some n then b.snoop r todo.tail else b
    | .waiting | .moveWait _ | .mirrorWait | .tapped | .forwarded | .answered _ _ => b
  | none => b

/-- Descriptor `n` has let a TABLE write go that has not completed at memory: the write is forwarded, or it still waits in the
list of another descriptor (R118; log 14). -/
def letGo (b : Bridge) (n : Nat) (r : InFlight) : Bool :=
  (b.cfg.touchedStructures r.request).contains n && match r.phase with
    | .forwarded => true
    | .snooping todo => !todo.contains n
    | .waiting | .moveWait _ | .mirrorWait | .tapped | .answered _ _ => false

/-- A TABLE write that descriptor `n` has let go is outstanding: a fetch of `n` waits for it (R106, R118). -/
def writeOutstanding (b : Bridge) (n : Nat) : Bool :=
  b.iport.inflight.any (fun r => r.request.write && (r.cls == .table || r.cls == .anchorStart) && b.letGo n r)

/-! ## Entries -/

/-- An entry takes an index: FETCHING, at the front of the recency list, its waiting list the operations of the miss list for
that index, in order (R106). -/
def allocate (b : Bridge) (n : Nat) : Bridge :=
  { b with
    cache := { index := n, state := .fetching false, copy := Descriptor.blank, pin := false, reservation := false,
               waiting := (b.misses.filter (fun p => p.1 == n)).map (·.2), held := [], heldRelease := false,
               busy := none, flushMark := false } :: b.cache
    misses := b.misses.filter (fun p => p.1 != n) }

/-- What becomes of an operation whose entry was dropped: a TABLE access finds the index not held and is allowed; a RELEASE is
done; every other operation becomes a miss (R108, R118, R119, R122; log 15). -/
def orphan (n : Nat) (b : Bridge) (op : CacheOp) : Bridge :=
  match op with
  | .tableRead id => b.allow n id
  | .tableWrite id => b.allow n id
  | .release => b.commandDone
  | .tap _ | .engine _ | .commandTake | .command | .noticePut => { b with misses := b.misses ++ [(n, op)] }

/-- An entry returns to FREE; the operations of its waiting list go on as `orphan` says, in order. -/
def dropEntry (b : Bridge) (e : Entry) : Bridge :=
  e.waiting.foldl (orphan e.index) { b with cache := b.cache.filter (fun x => x.index != e.index) }

/-- A write-back is started (R111): the entry is WRITING and its 64 bytes go to the M-port. -/
def startWriteBack (b : Bridge) (e : Entry) (reason : WriteBackFor) : Bridge :=
  (b.setEntry e.index (fun x => { x with state := .writing reason })).issue
    (.writeBack e.index (reason == .must)) true (b.cfg.tableBase + e.index * 64) e.copy.toBytes 64

/-- A fetch is issued (R106): a 64-byte read of the descriptor. -/
def issueFetch (b : Bridge) (n : Nat) : Bridge :=
  (b.setEntry n (fun x => { x with state := .fetching true })).issue (.fetch n) false (b.cfg.tableBase + n * 64) [] 64

/-- The operation at the front of an entry's waiting list leaves it without being applied. -/
def popFront (b : Bridge) (n : Nat) : Bridge := b.setEntry n (fun e => { e with waiting := e.waiting.tail })

/-- The cache is emptying itself (R123, R124). -/
def emptyingCache (b : Bridge) : Bool :=
  b.control.emptying || (b.control.state == .stopping && b.control.stopStage == .emptying) || b.control.state == .warm

/-- The TABLE write in flight with a handle. -/
def write? (b : Bridge) (id : Nat) : Option InFlight := (b.inflight? id).filter (fun r => r.request.write)

/-- The pinned entry on which a TABLE write of an entry's waiting list is to be held (R119): this one, or another that the
write touches as well. -/
def holdPlace (b : Bridge) (e : Entry) (id : Nat) : Option Nat :=
  if e.pin then some e.index else (b.write? id).bind (fun r => b.pinnedOf r.request)

/-- A TABLE write that has left a waiting list is held on a pinned entry. -/
def hold (b : Bridge) (n id : Nat) : Bridge :=
  match b.write? id with
  | some r => b.holdRequest n r
  | none => b.setEntry n (fun e => { e with held := e.held ++ [id] })

/-- What the record cache does by itself at the front of one entry, if anything: it issues a fetch that nothing holds back;
starts a FLUSH's write-back; refuses a tap whose third check fails, which moves the entry to the front (log 33); gives a TABLE
access or a RELEASE its turn (R117 to R119, R122); writes a DIRTY entry back while the cache empties itself. A TABLE read that
found its entry WRITING behind other operations takes its turn behind them (R105), and has the entry written back again when
they left it DIRTY (the model's reading beside R111 and R117, log 40). -/
def frontTurn (b : Bridge) (e : Entry) : Option Bridge :=
  if e.ready then
    if e.flushMark ∧ e.state = .dirty then some (b.startWriteBack e .other)
    else match e.waiting with
      | .tap t :: _ => if e.copy.fit t = none then some ((b.startOp e.index).refuseTap t e.copy.misfit) else none
      | .tableRead id :: _ =>
        if e.state = .clean then some ((b.popFront e.index).allow e.index id)
        else some (b.startWriteBack e .tableRead)
      | .tableWrite id :: _ =>
        match b.holdPlace e id with
        | some n => some ((b.popFront e.index).hold n id)
        | none => if e.state = .clean then some (b.dropEntry e) else some (b.startWriteBack e .other)
      | .release :: _ =>
        if e.pin then some (b.setEntry e.index (fun x => { x with waiting := x.waiting.tail, heldRelease := true }))
        else if e.state = .clean then some (b.dropEntry e)
        else some (b.startWriteBack e .other)
      | .engine _ :: _ | .commandTake :: _ | .command :: _ | .noticePut :: _ => none
      | [] => if b.emptyingCache ∧ e.state = .dirty then some (b.startWriteBack e .other) else none
  else if e.state = .fetching false ∧ b.writeOutstanding e.index = false then some (b.issueFetch e.index)
  else none

end Bridge

/-- The request of a TABLE write that waits for an entry. -/
def CacheOp.tableWrite? : CacheOp → Option Nat
  | .tableWrite id => some id
  | .tap _ | .engine _ | .commandTake | .command | .noticePut | .tableRead _ | .release => none

namespace Bridge

/-- A TABLE write that stood in the waiting list when the entry was pinned is held on it (R119), before any that arrives
later. -/
def holdWrite (b : Bridge) (e : Entry) : Option Bridge :=
  match e.waiting.findSome? CacheOp.tableWrite? with
  | some id =>
    if e.pin then
      some ((b.setEntry e.index (fun x => { x with waiting := x.waiting.erase (.tableWrite id) })).hold e.index id)
    else none
  | none => none

/-- What the record cache does by itself on one entry, if anything. -/
def turn (b : Bridge) (e : Entry) : Option Bridge := (b.frontTurn e).or (b.holdWrite e)

/-- The first entry of a list on which something is to be done. -/
def turns (b : Bridge) : List Entry → Option Bridge
  | [] => none
  | e :: es => match b.turn e with
    | some b' => some b'
    | none => turns b es

/-! ## Misses and victims (R106 to R108) -/

end Bridge

/-- An entry is idle (R107): pin clear, no operation in progress, waiting list empty, not claimed (a claimed entry is
WRITING). -/
def Entry.idle (e : Entry) : Bool := e.ready && !e.pin && e.waiting.isEmpty

namespace Bridge

/-- An index is being fetched into a claimed victim (R106, R108). -/
def claimed (b : Bridge) (n : Nat) : Bool := b.cache.any (fun e => e.state == .writing (.claim n))

/-- The least recent entry that satisfies a test: the last in the recency list (R104). -/
def leastRecent (b : Bridge) (p : Entry → Bool) : Option Entry := b.cache.reverse.find? p

/-- The oldest operation of the miss list whose index no victim is claimed for takes a victim (R106, R107): a FREE entry, else
the least recent idle CLEAN one, else the least recent idle DIRTY one, which is claimed and written back first. -/
def serveMiss (b : Bridge) : Option Bridge :=
  match b.misses.find? (fun p => !b.claimed p.1) with
  | none => none
  | some (n, _) =>
    if b.cache.length < 16 then some (b.allocate n)
    else match b.leastRecent (fun e => e.idle && e.state == .clean) with
      | some e => some ({ b with cache := b.cache.filter (fun x => x.index != e.index) }.allocate n)
      | none => match b.leastRecent (fun e => e.idle && e.state == .dirty) with
        | some e => some (b.startWriteBack e (.claim n))
        | none => none

end Bridge

/-! ## The must and release levels (R115) -/

/-- The entry counts in the dirty count: DIRTY or WRITING (R115). -/
def Entry.countsDirty (e : Entry) : Bool :=
  match e.state with
  | .dirty | .writing _ => true
  | .clean | .fetching _ => false

namespace Bridge

/-- The dirty count (R115). -/
def dirtyCount (b : Bridge) : Nat := b.cache.countP Entry.countsDirty

/-- The must write-backs still in flight (R115). -/
def mustInFlight (b : Bridge) : Nat := b.cache.countP (fun e => e.state == .writing .must)

/-- A must episode begins, ends, or starts its next write-back (R115): of the least recent DIRTY entry that is unpinned and
idle, while the dirty count less the must write-backs in flight exceeds the release level. -/
def mustStep (b : Bridge) : Option Bridge :=
  match b.control.settings with
  | none => none
  | some g =>
    if b.episode then
      if b.dirtyCount ≤ g.releaseLevel then some { b with episode := false }
      else if g.releaseLevel < b.dirtyCount - b.mustInFlight then
        match b.leastRecent (fun e => e.idle && e.state == .dirty) with
        | some e => some (b.startWriteBack e .must)
        | none => none
      else none
    else if g.mustLevel ≤ b.dirtyCount then some { b with episode := true }
    else none

/-! ## What bridge control does when the cache is done -/

/-- FLUSH is done when no mark is left (R121). The FAULT notice of a failed write-back that ends it is queued ahead of its
COMMAND_DONE (the model's choice, log 31). -/
def flushStep (b : Bridge) : Option Bridge :=
  match b.command.held with
  | some c =>
    if b.command.stage = .started ∧ c.op = opFlush ∧ b.cache.all (fun e => !e.flushMark) = true then some b.commandDone
    else none
  | none => none

/-- The requests whose classification waited are classified by the state as it now is (R22, R175). A write that covers the
start word is ANCHOR-START in PASS, also when it waited because it touches the aperture (the model's choice between R22 and
R175, log 35). -/
def reclassify (b : Bridge) : Bridge :=
  { b with iport := { b.iport with inflight := b.iport.inflight.map (fun r =>
      if r.cls = .unknown ∨ r.cls = .apertureWait ∨ r.cls = .tableWait then
        { r with cls := classify b.control.state b.control.settings b.control.straps r.request }
      else r) } }

/-- Every entry is freed, with the recency list and the miss list (R104, R123, R124). -/
def freeAll (b : Bridge) : Bridge := { b with cache := [], misses := [], episode := false }

/-- The bridge returns to PASS (R183): it holds nothing, the anchor values are no longer used, and the requests that waited
are classified as PASS classifies them. -/
def enterPass (b : Bridge) : Bridge :=
  reclassify (setState { b.freeAll with control := { b.control with
    settings := none, stopStage := .none, emptying := false, idleTimer := none, audit := none, findings := [] } } .pass)

/-- Nothing is left in any entry but CLEAN working copies, nothing waits, and no entry is pinned (R113, R123, R124: the cache
is asked to empty itself when no move is loaded). -/
def cacheSettled (b : Bridge) : Bool :=
  b.misses.isEmpty && b.cache.all (fun e => e.state == .clean && e.busy.isNone && e.waiting.isEmpty && !e.pin)

/-- A cache that empties itself has written everything back: every entry is freed, and the bridge enters QUIET (R123, R187),
or PASS at the end of the STOP sequence (R188) or of the WARM sequence (R189), whose start access, if one was in flight, has
completed. STOP taken in STARTING or AUDITING goes to PASS once that access has completed (R188). -/
def emptyStep (b : Bridge) : Option Bridge :=
  if b.control.state = .run ∧ b.control.emptying = true ∧ b.cacheSettled = true then
    some (setState { b.freeAll with control := { b.control with emptying := false, idleTimer := none } } .quiet)
  else if b.control.state = .stopping ∧ b.control.stopStage = .emptying ∧ b.cacheSettled = true then some b.enterPass
  else if b.control.state = .stopping ∧ b.control.stopStage = .halting ∧ b.startAccess = false then
    some (enterPass { b with control := { b.control with clearedPending := 0 } })
  else if b.control.state = .warm ∧ b.cacheSettled = true ∧ b.startAccess = false then some b.enterPass
  else none

/-! ## Settling -/

/-- One thing that the bridge does by itself, if any is left (spec/95). That a miss takes the one entry that can be a victim
ahead of a must episode (R106, R115), and what is fixed besides of the order of the four, is the model's choice (log 43). -/
def autoStep (b : Bridge) : Option Bridge :=
  (b.turns b.cache.reverse).or (b.serveMiss.or (b.mustStep.or (b.flushStep.or b.emptyStep)))

/-- At most `k` of the things the bridge does by itself. -/
def settleFor : Nat → Bridge → Bridge
  | 0, b => b
  | k + 1, b =>
    match b.autoStep with
    | some b' => settleFor k b'
    | none => b

/-- The descriptors that a read in flight still waits for (R116); a write counts once, wherever it stands (log 9). -/
def todoLength (r : InFlight) : Nat :=
  if r.request.write then 1
  else match r.phase with
    | .snooping todo => todo.length
    | .waiting | .moveWait _ | .mirrorWait | .tapped | .forwarded | .answered _ _ => 0

/-- At least the number of things that the bridge can have left to do by itself: each entry, operation and descriptor still to
allow a request gives rise to a few (log 9). -/
def settleBound (b : Bridge) : Nat :=
  8 + 4 * (b.cache.length + b.misses.length + (b.cache.map (fun e => e.waiting.length)).sum
    + (b.iport.inflight.map todoLength).sum)

/-- Everything the bridge does by itself within a step (spec/95, R105 to R124): until nothing is left. -/
def settle (b : Bridge) : Bridge := settleFor b.settleBound b

end Bridge

end Sys2Proof.Machine
end

