-- ==== Sys2Proof/Machine/Engine.lean ====
section
/-! DEFINITION. The move engine (chapter 7) and the trigger unit (chapter 8): loading, the steps of an item, the end of a run,
links, chains. The rows that apply an operation of the engine to a working copy are in Moves.lean. -/

namespace Sys2Proof.Machine

namespace Bridge

/-! ## The loaded move -/

/-- The engine's copy of the loaded descriptor (R129); a blank one while it is not read. -/
def moveCopy (b : Bridge) : MoveDescriptor :=
  (b.engine.move.bind (·.descriptor)).getD (MoveDescriptor.ofBytes [])

/-- The index of the loaded move. -/
def moveIndex (b : Bridge) : Option Nat := b.engine.move.map (·.index)

/-- The engine's copy changes. -/
def setMoveCopy (b : Bridge) (d : MoveDescriptor) : Bridge :=
  { b with engine := { b.engine with move := b.engine.move.map (fun m => { m with descriptor := some d }) } }

/-- The next step of the run; its operation has not been handed to the cache. -/
def setStep (b : Bridge) (s : EngineStep) : Bridge :=
  { b with engine := { b.engine with step := s, asked := false } }

/-- The step's operation stands in the cache (R105). -/
def markAsked (b : Bridge) : Bridge := { b with engine := { b.engine with asked := true } }

/-- The engine begins LOADING a move (R131): taken count 0, stop request and end clear, and the descriptor read is issued. It
is move activity (R129). -/
def loadMove (b : Bridge) (m run : Nat) : Bridge :=
  activity (issue { b with engine := { Engine.unloaded .loading b.engine.pauseRequest with
    move := some ⟨m, run, none⟩, step := .readDescriptor } } .moveRead false (b.cfg.moveBase + m * 32) [] 32)

/-! ## The end of a run -/

/-- The reservation on a structure is cleared (R114). -/
def clearReservation (b : Bridge) (n : Nat) : Bridge := b.setEntry n (fun e => { e with reservation := false })

/-- The reservation on the destination, if it is a structure, is cleared. -/
def clearDestination (b : Bridge) : Bridge :=
  match b.moveCopy.dstStruct with
  | some n => b.clearReservation n
  | none => b

/-- The end that is stored: CHAIN_LIMIT for a run numbered 64 that ends OK with its link enabled (R141, R157). -/
def storedEnd (b : Bridge) (code : RunEnd) : RunEnd :=
  match b.engine.move with
  | some m => if code = .ok ∧ m.run = 64 ∧ b.moveCopy.linkEnable = true then .chainLimit else code
  | none => code

/-- The end of the run is decided (R134 to R139): the reservation is cleared, the engine is STORING, and the store-back is
issued with the last end set (R141). -/
def endRun (b : Bridge) (code : RunEnd) (lost : Bool) (struct : Option Nat) : Bridge :=
  let c := b.storedEnd code
  let d := { b.moveCopy with lastEnd := c.code }
  let b1 := (b.clearDestination).setMoveCopy d
  issue { b1 with engine := { b1.engine with
      state := .storing, transit := none, disposal := none, step := .store, asked := false
      ending := some ⟨c, lost, struct, if code = .stopped then b.engine.stopRequest.getD 0 else 0⟩ } }
    .storeBack true (b.cfg.moveBase + b.moveIndex.getD 0 * 32) d.toBytes 32

/-! ## The steps of an item (R134 to R138) -/

/-- The start of an item (R134): the stop request, then the span addresses, then the reservation step of a STRUCT destination
or, for a SPAN destination, the take. -/
def startItem (b : Bridge) : Bridge :=
  if b.engine.stopRequest.isSome then b.endRun .stopped false none
  else if b.moveCopy.spansOk b.cfg b.control.straps = false then b.endRun .invalid false none
  else match b.moveCopy.dstStruct with
    | some _ => b.setStep .reserve
    | none => setStep { b with engine := { b.engine with disposal := some .write } } .take

/-- The load is complete (R133): a count of 0 ends OK; otherwise the engine is RUNNING and starts its first item. The span
addresses are those at the start of the run (R127, R138). -/
def startRunning (b : Bridge) : Bridge :=
  if b.moveCopy.count = 0 then b.endRun .ok false none
  else startItem { b with engine := { b.engine with
    state := .running, srcStart := b.moveCopy.src, dstStart := b.moveCopy.dst, blockItems := 0 } }

/-- After the checks of R132: the source is pinned first, then the destination; a move whose ends are one structure pins it
once (R133). -/
def startPins (b : Bridge) : Bridge :=
  match b.moveCopy.srcStruct, b.moveCopy.dstStruct with
  | some _, _ => b.setStep .pinSource
  | none, some _ => b.setStep .pinDestination
  | none, none => b.startRunning

/-- After the source's pin: the destination's, unless it is a span or the same structure. -/
def afterSourcePin (b : Bridge) : Bridge :=
  match b.moveCopy.dstStruct with
  | some n => if b.moveCopy.srcStruct = some n then b.startRunning else b.setStep .pinDestination
  | none => b.startRunning

/-- An item becomes the transit item (R136). -/
def gotItem (b : Bridge) (item : List Byte) : Bridge :=
  setStep { b with engine := { b.engine with transit := some item, taken := b.engine.taken + 1 } } .put

/-- The count falls by 1 (R138). -/
def spendCount (b : Bridge) : Bridge := b.setMoveCopy { b.moveCopy with count := b.moveCopy.count - 1 }

/-- Each SPAN end returns to its address at the start of the run, when recycle is set (R127, R138). -/
def recycleSpans (b : Bridge) : Bridge :=
  if b.moveCopy.recycle then
    b.setMoveCopy { b.moveCopy with
      src := if b.moveCopy.srcType = 0 then b.moveCopy.src else b.engine.srcStart
      dst := if b.moveCopy.dstType = 0 then b.moveCopy.dst else b.engine.dstStart }
  else b

/-- The transit item has been disposed of (R137): the reservation is cleared, the count is spent and the run goes on or ends
OK (R138). It is move activity (R129). -/
def disposed (b : Bridge) : Bridge :=
  let b1 := clearDestination { b with engine := { b.engine with transit := none, disposal := none } }
  let b2 := b1.activity
  if b2.moveCopy.block then
    let b3 := { b2 with engine := { b2.engine with blockItems := b2.engine.blockItems + 1 } }
    if b3.engine.blockItems < b3.moveCopy.blockLength.toNat then b3.startItem
    else (b3.spendCount.recycleSpans).endRun .ok false none
  else
    let b3 := b2.spendCount
    if b3.moveCopy.drain ∧ b3.moveCopy.count ≠ 0 then b3.startItem else b3.endRun .ok false none

/-! ## After the store-back -/

/-- The engine's operation is handed to the cache for a structure. -/
def askEngine (b : Bridge) (n : Nat) (op : EngineOp) : Bridge := (b.enqueue n (.engine op)).markAsked

/-- The pins are released, the first of the list next, each as an operation of the engine (R142); with none left, the run is
ready to be reported. -/
def releasePins (b : Bridge) : Bridge :=
  match b.engine.pins with
  | n :: _ => (b.setStep .release).askEngine n .release
  | [] => b.setStep .report

/-- The TABLE accesses that wait for the loaded move descriptor go on (R120, R141). -/
def freeMoveWaiters (b : Bridge) : Bridge :=
  b.iport.inflight.foldl (fun b r =>
    match r.phase with
    | .moveWait todo => b.snoop r todo
    | .waiting | .snooping _ | .mirrorWait | .tapped | .forwarded | .answered _ _ => b) b

/-! ## Notices of the engine (R142) -/

/-- MOVE_DONE. -/
def moveDoneNotice (m taken : Nat) : Notice :=
  { kind := .moveDone, cause := .none, struct := none, move := some (BitVec.ofNat 8 m), initiator := none, itemLost := false,
    writeback := false, tag := 0, value := BitVec.ofNat 32 taken }

/-- MOVE_FAULT. -/
def moveFaultNotice (m taken : Nat) (cause : Reason) (struct : Option Nat) (lost : Bool) (tag : Half) : Notice :=
  { kind := .moveFault, cause := cause, struct := struct.map (BitVec.ofNat 8 ·), move := some (BitVec.ofNat 8 m),
    initiator := none, itemLost := lost, writeback := false, tag := tag, value := BitVec.ofNat 32 taken }

/-! ## Chains (R156 to R158) -/

/-- A chain ends cleanly (R158): completion processing begins for the structure that started it. -/
def endCleanly (b : Bridge) (c : Chain) : Bridge :=
  { b with trigger := { b.trigger with
    chain := none
    completion := match c.origin with
      | .structure n => some ⟨n, c.first, c.firstCount, false⟩
      | .software => b.trigger.completion } }

/-- A chain ends with a fault (R158). -/
def endFaulted (b : Bridge) : Bridge := { b with trigger := { b.trigger with chain := none } }

/-- A link target is posted with origin LINK in place of being started (R157). A post of an index already pending merges,
and the chain it carried ends cleanly there (R151). -/
def postLink (b : Bridge) (m : Nat) (c : Chain) : Bridge :=
  if b.trigger.pending.any (fun p => p.move == m) then b.endCleanly c
  else { b with trigger := { b.trigger with chain := none, pending := insertPending b.trigger.pending ⟨m, .link c⟩ } }

/-- A waiting link is handed to an IDLE engine ahead of the pending set (R157). -/
def startLink (b : Bridge) : Bridge :=
  match b.trigger.link, b.trigger.chain with
  | some m, some c =>
    if b.engine.state = .idle ∧ b.trigger.completion = none then
      loadMove { b with trigger := { b.trigger with link := none } } m c.run
    else b
  | _, _ => b

/-- The current chain after a run: its first count is the stored-back count when the run was of its first move and the
store-back succeeded (R156). -/
def updateChain (c : Chain) (m : Nat) (stored : Option Half) : Chain :=
  match stored with
  | some k => if c.first = m then { c with firstCount := some k } else c
  | none => c

/-- What the trigger unit makes of a reported end (R156 to R158, R160): a link is started, or posted while the pause request
is set; else the chain ends, cleanly or with a fault. In STOPPING nothing follows. -/
def followEnd (b : Bridge) (m : Nat) (stored : Option Half) (ok : Bool) (link : Option Nat) (pause : Bool) : Bridge :=
  match b.trigger.chain with
  | none => b
  | some c0 =>
    let c := updateChain c0 m stored
    if b.control.state = .stopping then { b with trigger := { b.trigger with chain := none, link := none } }
    else if ok then
      match link with
      | some t =>
        if pause then b.postLink t { c with run := c.run + 1 }
        else startLink { b with trigger := { b.trigger with chain := some { c with run := c.run + 1 }, link := some t } }
      | none => b.endCleanly c
    else b.endFaulted

end Bridge

end Sys2Proof.Machine
end

