-- ==== Sys2Proof/Machine/Items.lean ====
section
/-! DEFINITION. Item accesses: what a ring or stack operation does when its access completes or is answered with an error
(R42, R68), for every party that makes one; and the judging of a command item that the command unit took (R164). -/

namespace Sys2Proof.Machine

/-! ## Working copies after an item access -/

namespace Descriptor

/-- A ring after its head item left it (R44): head advanced, count down by one, the overrun flag cleared (R50). -/
def ringTaken (d : Descriptor) : Descriptor :=
  ((d.setHead ((d.head + 1) % d.cap)).setCount (d.count - 1)).setOverrun false

/-- A ring after an item was stored at its tail (R43): count up by one. -/
def ringStored (d : Descriptor) : Descriptor := d.setCount (d.count + 1)

/-- A stack after a plain push (R72). -/
def stackPushed (d : Descriptor) : Descriptor := d.setDepth (d.depth + 1)

/-- A stack after a POP (R73). -/
def stackPopped (d : Descriptor) : Descriptor := d.setDepth (d.depth - 1)

/-- A stack after a plain MARK (R76): the frame is the new depth. -/
def stackMarked (d : Descriptor) : Descriptor := (d.setDepth (d.depth + 1)).setFrame (d.depth + 1)

/-- A stack after an overflow push (R70): depth L + 5, frame L + 2, guard OPEN, cause OVERFLOW. -/
def overflowed (d : Descriptor) : Descriptor :=
  { ((d.setDepth (d.depth + 5)).setFrame (d.depth + 2)).setGuard true with cause := causeOverflow }

/-- A stack after an UNWIND to a saved frame (R77). -/
def unwound (d : Descriptor) (saved : Nat) : Descriptor := (d.setDepth (d.frame - 1)).setFrame saved

end Descriptor

namespace Bridge

/-! ## The command item taken (R164) -/

/-- The command unit holds a command (R163): it is CARRYING, and a command taken restarts the idle timer (R187). -/
def holdCommand (b : Bridge) (c : CommandItem) : Bridge :=
  activity { b with command := { b.command with
    state := .carrying, held := some c, stage := .judged, wake := false, lastEmpty := false } }

/-- The first failing check of steps 1 to 3 (R164), which need only the item and the anchor values. -/
def judgeRefusal (c : CommandItem) (structureCount moveCount : Nat) : Option Reason :=
  if c.known = false then some .unknown
  else if c.namesStruct = true ∧ structureCount ≤ c.struct.toNat then some .range
  else if c.op = opTrigger ∧ moveCount ≤ c.move.toNat then some .invalidMove
  else if c.op = opStopMove ∧ moveCount ≤ c.move.toNat then some .range
  else if c.struct = 0 ∧ (c.op = opOpen ∨ c.op = opClose ∨ c.op = opAbort) then some .protectedRing
  else if c.struct = 1 ∧ (c.op = opOpen ∨ c.op = opClose) then some .protectedRing
  else none

/-- The commands that are applied to a working copy, fetched first when it is not held (R164): all that name a structure but
RELEASE (R122). -/
def onWorkingCopy (c : CommandItem) : Bool := c.namesStruct && c.op != opRelease

/-- A command held is judged (R164): refused, or its operation is handed to the record cache, or it waits for the block that
carries it out. The take it ends was reported before, so a WATERMARK notice of structure 0 is queued ahead of a
COMMAND_REFUSED (the model's choice, log 31). -/
def judgeCommand (b : Bridge) (c : CommandItem) : Bridge :=
  let b1 := b.holdCommand c
  match judgeRefusal c b.cfg.structureCount b.cfg.moveCount with
  | some r => b1.commandRefused r
  | none => if onWorkingCopy c then b1.enqueue c.struct.toNat .command else b1

/-- A take of the command unit yields nothing (R163): the unit is IDLE. -/
def takeYieldsNothing (b : Bridge) (empty : Bool) : Bridge :=
  { b with command := { b.command with state := .idle, held := none, stage := .judged, lastEmpty := empty } }

/-! ## After the access -/

/-- The operation in progress on an entry is over. -/
def endBusy (b : Bridge) (n : Nat) : Bridge := b.setEntry n (fun e => { e with busy := none })

/-- The OVERFLOW notice of R70. -/
def overflowNotice (n depth : Nat) (initiator : Option Initiator) (move : Option Nat) : Notice :=
  { kind := .overflow, cause := .overflow, struct := some (BitVec.ofNat 8 n), move := move.map (BitVec.ofNat 8 ·),
    initiator := initiator, itemLost := false, writeback := false, tag := 0, value := BitVec.ofNat 32 depth }

/-- The initiator a notice names for a party: a tap's (R167). -/
def partyInitiator : Party → Option Initiator
  | .tap t => some t.initiator
  | .engine | .commandUnit | .noticeWriter => none

/-- The move a notice names for a party: the loaded move's when the engine acted (R167). -/
def partyMove (b : Bridge) : Party → Option Nat
  | .engine => b.moveIndex
  | .tap _ | .commandUnit | .noticeWriter => none

/-- A working copy whose level an item access changed is written and reported (R54, R81). -/
def changeLevel (b : Bridge) (n : Nat) (before after : Descriptor) (p : Party) : Bridge :=
  (b.writeCopy n after).report n before after (partyInitiator p) (b.partyMove p)

/-- The item stored by a put or push: the tap is answered OKAY; the engine's item is disposed of; the notice has left the
queue (R43, R72, R137, R168). -/
def storedFor (b : Bridge) (p : Party) : Bridge :=
  match p with
  | .tap t => b.answer t.id true []
  | .engine => b.disposed
  | .noticeWriter => b.dequeueNotice
  | .commandUnit => b

/-- The item removed by a take or pop: the tap's answer, the engine's transit item, or the command held (R44, R73, R136,
R163). -/
def tookFor (b : Bridge) (p : Party) (item : List Byte) : Bridge :=
  match p with
  | .tap t => b.answer t.id true item
  | .engine => b.gotItem item
  | .commandUnit => b.judgeCommand (CommandItem.ofBytes item)
  | .noticeWriter => b

/-- The access was answered with an error (R42, R68): the structure is HALTED with cause MEMORY; the tap is refused MEMORY;
the engine's run ends MEMORY, its transit item lost when it was being put (R139); the command unit's take yields nothing; the
notice writer's notice is dropped and counted before the FAULT notice joins (R168). The FAULT notice of the halt is queued
ahead of the REFUSAL notice of a tap (the model's choice, log 31). A debug-tagged read is no exception: it halts the structure
as PEEK and TOP do (the model's choice between R38 and R45, R74; log 34). A structure HALTED already, with cause RESERVE too,
stays as it is and queues no FAULT notice (the model's reading, log 44). -/
def itemFailed (b : Bridge) (n : Nat) (d : Descriptor) (p : Party) : Bridge :=
  match p with
  | .tap t => (b.halt n d causeMemory).refuseTap t .memory
  | .engine => (b.halt n d causeMemory).endRun .memory b.engine.transit.isSome (some n)
  | .commandUnit => (b.halt n d causeMemory).takeYieldsNothing false
  | .noticeWriter => (b.dropOldest).halt n d causeMemory

/-- A ring operation's item access has completed (R42). -/
def ringItemDone (b : Bridge) (n : Nat) (ok : Bool) (data : List Byte) : Bridge :=
  match b.entry? n with
  | none => b
  | some e =>
    match e.busy with
    | none => b
    | some w =>
      let b1 := b.endBusy n
      match w.work with
      | .ringPut =>
        if ok then (b1.changeLevel n e.copy e.copy.ringStored w.party).storedFor w.party
        else b1.itemFailed n e.copy w.party
      | .ringTake =>
        if ok then (b1.changeLevel n e.copy e.copy.ringTaken w.party).tookFor w.party data
        else b1.itemFailed n e.copy w.party
      | .ringPeek => if ok then b1.tookFor w.party data else b1.itemFailed n e.copy w.party
      | .stackPush | .stackPop | .stackTop | .stackMark | .stackUnwind | .stackOverflow _ => b1
      | .abandoned => b1

/-- A stack operation's item access has completed (R68): the next write of an overflow push is issued (R70), or depth, frame,
guard and cause are updated together. -/
def stackItemDone (b : Bridge) (n : Nat) (ok : Bool) (data : List Byte) : Bridge :=
  match b.entry? n with
  | none => b
  | some e =>
    match e.busy with
    | none => b
    | some w =>
      let b1 := b.endBusy n
      let d := e.copy
      if w.work = .abandoned then b1
      else if ok = false then b1.itemFailed n d w.party
      else
        match w.work with
        | .stackPush => (b1.changeLevel n d d.stackPushed w.party).storedFor w.party
        | .stackMark => (b1.changeLevel n d d.stackMarked w.party).storedFor w.party
        | .stackPop => (b1.changeLevel n d d.stackPopped w.party).tookFor w.party data
        | .stackTop => b1.tookFor w.party data
        | .stackUnwind =>
          match w.party with
          | .tap t =>
            if natAt data 0 4 ≤ d.frame - 1 then
              (b1.changeLevel n d (d.unwound (natAt data 0 4)) w.party).answer t.id true []
            else b1.refuseTap t .frame
          | .engine | .commandUnit | .noticeWriter => b1
        | .stackOverflow [] =>
          let b2 := b1.writeCopy n d.overflowed
          let b3 := if d.faultNotices then
            b2.notify (overflowNotice n d.overflowed.depth (partyInitiator w.party) (b.partyMove w.party)) else b2
          (b3.report n d d.overflowed (partyInitiator w.party) (b.partyMove w.party)).storedFor w.party
        | .stackOverflow ((addr, item) :: left) =>
          b.beginItem n (.stackOverflow left) w.party true true addr item d.size
        | .ringPut | .ringTake | .ringPeek | .abandoned => b1

end Bridge

/-! ## The rows -/

/-- Accepts the item accesses of ring operations. -/
def isRingItem : Access → Bool
  | .item _ stack _ => !stack
  | _ => false

/-- Accepts the item accesses of stack operations. -/
def isStackItem : Access → Bool
  | .item _ stack _ => stack
  | _ => false

/-- The structure of an item access. -/
def itemStructure : Access → Nat
  | .item n _ _ => n
  | _ => 0

/-- RING_ITEM_ACCESS_DONE (R42). -/
def execRingItemAccessDone (id : Nat) (ok : Bool) (s : State) : Host.Outcome State Fault Refusal :=
  s.answered id ok false isRingItem
    (fun q data b => (b.ringItemDone (itemStructure q.access) ok data).settle)

/-- STACK_ITEM_ACCESS_DONE (R68). -/
def execStackItemAccessDone (id : Nat) (ok : Bool) (s : State) : Host.Outcome State Fault Refusal :=
  s.answered id ok false isStackItem
    (fun q data b => (b.stackItemDone (itemStructure q.access) ok data).settle)

end Sys2Proof.Machine
end

