-- ==== Sys2Proof/Machine/Fetch.lean ====
section
/-! DEFINITION. The completions of a fetch and of a write-back (R109 to R112), and their rows. -/

namespace Sys2Proof.Machine

namespace Bridge

/-! ## A fetch that completes (R109) -/

/-- The descriptor is taken in: validated, marked, left DIRTY and reported when it fails (R18), its condition judged for the
lines (R172, R173), which a copy marked here clears, and the notice line a copy that is no ring and so has no count (log 26);
the command unit hears of structure 0 (R163). The entry then serves its waiting list (`settle`). -/
def fetchTaken (b : Bridge) (n : Nat) (raw : Descriptor) : Bridge :=
  let d := raw.fetched b.cfg b.control.straps n
  let ok := raw.passes b.cfg b.control.straps n
  let b1 := b.setEntry n (fun e => { e with copy := d, state := if ok = true ∧ d = raw then .clean else .dirty })
  let b2 := if ok then b1 else b1.notify (faultNotice n .descriptor 0 false)
  let b3 := b2.judgeLines n d ok (ok && d.isRing)
  if n = 0 then b3.wakeCommand else b3

/-! ## A fetch that fails (R110) -/

/-- The engine's operation whose fetch failed: a completion operation is discarded (R159), any other ends the run MEMORY with
the structure named (R110, R133). -/
def engineFetchFailed (b : Bridge) (n : Nat) (op : EngineOp) : Bridge :=
  match op with
  | .completion => { b with trigger := { b.trigger with completion := none } }
  | .pin | .reserve | .take | .put | .release => b.endRun .memory false (some n)

/-- What a failed fetch does to an operation that waited for it (R110). -/
def fetchFailedFor (n : Nat) (b : Bridge) (op : CacheOp) : Bridge :=
  match op with
  | .tap t => b.refuseTap t .halted
  | .engine op => b.engineFetchFailed n op
  | .command => b.commandRefused .halted
  | .commandTake => b.takeYieldsNothing false
  | .noticePut => b.dropOldest
  | .tableRead id => b.allow n id
  | .tableWrite id => b.allow n id
  | .release => b.commandDone

/-- The FAULT notice of a failed fetch or write-back, and what else queues notices at that moment, in either order (R167;
log 6). The draw is the one the answer took. -/
def faultWith (b : Bridge) (x : Notice) (rest : Bridge → Bridge) : Bridge :=
  if Config.faultFirst b.freeDraws then rest (b.notify x) else (rest b).notify x

/-- A fetch answered with an error (R110): the entry is FREE, every waiting operation is refused or ended, and a FAULT notice
is queued. The notice writer's own notice is dropped before the FAULT joins (R168). -/
def fetchFailed (b : Bridge) (e : Entry) : Bridge :=
  let puts := e.waiting.filter (fun op => op == .noticePut)
  let others := e.waiting.filter (fun op => op != .noticePut)
  let b1 := puts.foldl (fetchFailedFor e.index)
    { b with cache := b.cache.filter (fun x => x.index != e.index) }
  b1.faultWith (faultNotice e.index .memory 0 false) (fun b => others.foldl (fetchFailedFor e.index) b)

/-- A fetch is answered (R109, R110): its entry is FETCHING. In WARM it completes and is discarded, and its entry is FREE
(R124). -/
def fetchDone (b : Bridge) (n : Nat) (ok : Bool) (data : List Byte) : Bridge :=
  match b.entry? n with
  | none => b
  | some e =>
    match e.state with
    | .fetching _ =>
      if b.control.state = .warm then b.dropEntry e
      else if ok then b.fetchTaken n (Descriptor.ofBytes data)
      else b.fetchFailed e
    | .clean | .dirty | .writing _ => b

/-! ## A write-back that is answered (R111, R112) -/

/-- The entry leaves the victim's index and takes the one it was claimed for (R108). -/
def reuse (b : Bridge) (e : Entry) (n : Nat) : Bridge := (b.dropEntry e).allocate n

/-- A write-back completed (R111): the entry is CLEAN, its FLUSH mark served; a claimed victim is reused. A working copy that
the WARM sequence changed meanwhile is still DIRTY (R124; log 13). -/
def writeBackOk (b : Bridge) (e : Entry) (reason : WriteBackFor) (written : List Byte) : Bridge :=
  match reason with
  | .claim n => b.reuse e n
  | .must | .tableRead | .other =>
    b.setEntry e.index (fun x => { x with
      state := if x.copy.toBytes = written then .clean else .dirty, flushMark := false })

/-- A pinned entry whose write-back failed stays held, DIRTY; the TABLE read it was written back for is allowed all the same
(R112, R117). A TABLE read that found the entry WRITING for another reason is handled by its new state, DIRTY, and so has it
written back again in its turn (the model's choice between R111 and R117, log 32). -/
def keepPinned (b : Bridge) (e : Entry) (reason : WriteBackFor) : Bridge :=
  let b1 := b.setEntry e.index (fun x => { x with state := .dirty, flushMark := false })
  match reason, e.waiting with
  | .tableRead, .tableRead id :: _ => (b1.popFront e.index).allow e.index id
  | _, _ => b1

/-- A write-back answered with an error (R112): a pinned entry stays DIRTY; an unpinned one is dropped, or reused when it was
a victim. A FAULT notice with the writeback flag is queued, but in STOPPING and WARM (R124). -/
def writeBackFailed (b : Bridge) (e : Entry) (reason : WriteBackFor) : Bridge :=
  let go := fun (b : Bridge) =>
    if e.pin then b.keepPinned e reason
    else match reason with
      | .claim n => b.reuse e n
      | .must | .tableRead | .other => b.dropEntry e
  if b.control.state = .stopping ∨ b.control.state = .warm then go b
  else b.faultWith (faultNotice e.index .memory 0 true) go

/-- A write-back is answered. -/
def writeBackDone (b : Bridge) (n : Nat) (ok : Bool) (written : List Byte) : Bridge :=
  match b.entry? n with
  | none => b
  | some e =>
    match e.state with
    | .writing reason => if ok then b.writeBackOk e reason written else b.writeBackFailed e reason
    | .fetching _ | .clean | .dirty => b

end Bridge

/-! ## The rows -/

/-- Accepts a fetch. -/
def isFetch : Access → Bool
  | .fetch _ => true
  | _ => false

/-- Accepts a write-back. -/
def isWriteBack : Access → Bool
  | .writeBack _ _ => true
  | _ => false

/-- The structure of a fetch or write-back. -/
def cacheStructure : Access → Nat
  | .fetch n => n
  | .writeBack n _ => n
  | _ => 0

/-- FETCH_COMPLETE (R109). -/
def execFetchComplete (id : Nat) (ok : Bool) (s : State) : Host.Outcome State Fault Refusal :=
  s.answered id ok false isFetch
    (fun q data b => (b.fetchDone (cacheStructure q.access) ok data).settle)

/-- WRITE_BACK_COMPLETE (R111). The memory copy stands as before after an error (R112). -/
def execWriteBackComplete (id : Nat) (ok : Bool) (s : State) : Host.Outcome State Fault Refusal :=
  s.answered id ok true isWriteBack
    (fun q _ b => (b.writeBackDone (cacheStructure q.access) ok q.data).settle)

end Sys2Proof.Machine
end

