-- ==== Sys2Proof/Machine/Ring.lean ====
section
/-! DEFINITION. The tap operations on a ring (chapter 3), the STATUS tap of every kind (R37), and the frame that every tap
operation shares: its turn in the waiting list, its selection, and the checks of R26 that the record cache makes. -/

namespace Sys2Proof.Machine

namespace Bridge

/-! ## The application of a tap (R27) -/

/-- A tap refused by its fourth or fifth check (R31, R32, R34): CLOSED on a CLOSING structure sets the lost flag (R8). -/
def refuseGated (b : Bridge) (n : Nat) (d : Descriptor) (t : Tap) (r : Reason) : Bridge :=
  let b1 := if r = .closed ∧ d.state = stClosing then b.writeCopy n (d.setLost true) else b
  b1.refuseTap t r

/-- The tap at the front of the waiting list of structure `n` is applied, when the entry is ready and the tap selects the
operation `k` (R24, R27, R105): the fourth and fifth checks, then the operation's own part. A refused one too moves the entry to
the front of the recency list (the model's reading, log 33). -/
def tapStep (b : Bridge) (n : Nat) (k : TapKind) (effect : Tap → Descriptor → Entry → Bridge → Bridge) : Option Bridge :=
  match b.entry? n with
  | none => none
  | some e =>
    match e.waiting with
    | .tap t :: _ =>
      if e.ready = true ∧ e.copy.fit t = some k then
        match e.copy.gate n k t.initiator with
        | some r => some ((b.startOp n).refuseGated n e.copy t r)
        | none => some (effect t e.copy e (b.startOp n))
      else none
    | _ => none

/-- A tap that finds nothing is answered by the empty policy (R6, R52, R73, R74). That an untagged TOP refused EMPTY is recorded
and queues its REFUSAL notice as R35 and R36 say of every refused tap, where R74 queues no notice, is the model's reading
(log 39). -/
def answerEmpty (b : Bridge) (t : Tap) (d : Descriptor) : Bridge :=
  if d.emptyPolicy = 1 then b.answer t.id true d.fillItem else b.refuseTap t .empty

/-! ## The full policy (R48 to R51) -/

/-- The OVERRUN notice of R51. -/
def overrunNotice (n discard : Nat) (initiator : Option Initiator) (move : Option Nat) : Notice :=
  { kind := .overrun, cause := .none, struct := some (BitVec.ofNat 8 n), move := move.map (BitVec.ofNat 8 ·),
    initiator := initiator, itemLost := false, writeback := false, tag := 0, value := BitVec.ofNat 32 discard }

end Bridge

/-- A ring after a DISCARD drop (R49, R50): the discard count up by one or at 65535, the overrun flag set. -/
def Descriptor.dropped (d : Descriptor) : Descriptor :=
  { d.setOverrun true with discard := BitVec.ofNat 16 (min 65535 (d.discard.toNat + 1)) }

/-- A ring has no room for a producer (R41): count + reservation is the capacity. -/
def Descriptor.full (d : Descriptor) (reservation : Bool) : Bool :=
  decide (d.cap ≤ d.count + (if reservation then 1 else 0))

namespace Bridge

/-- An item is dropped by the DISCARD policy (R49); the drop that begins an episode queues an OVERRUN notice when the ring's
FAULT notices are enabled (R51). -/
def dropItem (b : Bridge) (n : Nat) (d : Descriptor) (initiator : Option Initiator) (move : Option Nat) : Bridge :=
  let b1 := b.writeCopy n d.dropped
  if d.overrun = false ∧ d.faultNotices = true then b1.notify (overrunNotice n d.dropped.discard.toNat initiator move)
  else b1

/-! ## The operations -/

/-- PUT (R43). -/
def putEffect (n : Nat) (t : Tap) (d : Descriptor) (e : Entry) (b : Bridge) : Bridge :=
  if d.full e.reservation = false then
    b.beginItem n .ringPut (.tap t) false true (d.slot d.tail) t.data d.size
  else if d.fullPolicy = 1 then (b.dropItem n d (some t.initiator) none).answer t.id true []
  else b.refuseTap t .full

/-- A read of the head item for TAKE or PEEK (R44, R45), or the empty policy's answer. -/
def headEffect (work : ItemWork) (n : Nat) (t : Tap) (d : Descriptor) (_e : Entry) (b : Bridge) : Bridge :=
  if 0 < d.count then b.beginItem n work (.tap t) false false (d.slot d.head) [] d.size
  else b.answerEmpty t d

/-- LEVEL (R46). -/
def levelEffect (t : Tap) (d : Descriptor) (_e : Entry) (b : Bridge) : Bridge := b.answer t.id true (leBytes 4 d.count)

/-- STATUS (R37, R47, R78, R98). -/
def statusEffect (t : Tap) (d : Descriptor) (_e : Entry) (b : Bridge) : Bridge := b.answer t.id true d.statusBytes

end Bridge

/-! ## The rows -/

/-- PUT (R43). -/
def execRingPut (n : Nat) (s : State) : Host.Outcome State Fault Refusal :=
  s.event (fun b => (b.tapStep n .put (Bridge.putEffect n)).map Bridge.settle)

/-- TAKE (R44). -/
def execRingTake (n : Nat) (s : State) : Host.Outcome State Fault Refusal :=
  s.event (fun b => (b.tapStep n .take (Bridge.headEffect .ringTake n)).map Bridge.settle)

/-- PEEK (R45). -/
def execRingPeek (n : Nat) (s : State) : Host.Outcome State Fault Refusal :=
  s.event (fun b => (b.tapStep n .peek (Bridge.headEffect .ringPeek n)).map Bridge.settle)

/-- LEVEL (R46). -/
def execRingLevel (n : Nat) (s : State) : Host.Outcome State Fault Refusal :=
  s.event (fun b => (b.tapStep n .level Bridge.levelEffect).map Bridge.settle)

/-- STATUS (R37). -/
def execReadStatus (n : Nat) (s : State) : Host.Outcome State Fault Refusal :=
  s.event (fun b => (b.tapStep n .status Bridge.statusEffect).map Bridge.settle)

end Sys2Proof.Machine
end

