-- ==== Sys2Proof/Machine/Stack.lean ====
section
/-! DEFINITION. The tap operations on a stack (chapter 4). -/

namespace Sys2Proof.Machine

namespace Descriptor

/-- A push is stored as a plain push (R72): below the limit with the guard closed, below the capacity with it open. -/
def pushPlain (d : Descriptor) : Bool :=
  if d.guardOpen then decide (d.depth < d.cap) else decide (d.depth < d.limit)

/-- A push meets reserve exhaustion (R71): the guard is open and the depth is the capacity. -/
def pushExhausted (d : Descriptor) : Bool := d.guardOpen && decide (d.cap ≤ d.depth)

/-- The four items that an overflow push writes after the offending item, with their addresses (R70): saved frame, cause,
initiator, depth before. -/
def faultFrame (d : Descriptor) (saved initiator : Nat) : List (Nat × List Byte) :=
  [(d.slot (d.depth + 1), valueItem d.size saved),
   (d.slot (d.depth + 2), valueItem d.size causeOverflow.toNat),
   (d.slot (d.depth + 3), valueItem d.size initiator),
   (d.slot (d.depth + 4), valueItem d.size d.depth)]

end Descriptor

namespace Bridge

/-! ## Pushing (R70 to R72) -/

/-- The item writes of a push that is not exhausted (R70, R72): one at index depth, or the first of the five of an overflow
push. `saved` is the fault frame's saved frame, `code` its initiator. -/
def pushItem (b : Bridge) (n : Nat) (d : Descriptor) (work : ItemWork) (item : List Byte) (saved code : Nat) (p : Party) :
    Bridge :=
  b.beginItem n (if d.pushPlain then work else .stackOverflow (d.faultFrame saved code)) p true true (d.slot d.depth) item
    d.size

/-- PUSH or MARK, given the item, its work and the frame that a fault frame saves (R72, R76). At reserve exhaustion the FAULT
notice of the halt is queued ahead of the REFUSAL notice (the model's choice, log 31). -/
def pushTap (work : ItemWork) (item : Descriptor → Tap → List Byte) (saved : Descriptor → Nat) (n : Nat) (t : Tap)
    (d : Descriptor) (_e : Entry) (b : Bridge) : Bridge :=
  if d.pushExhausted then (b.halt n d causeReserve).refuseTap t .reserve
  else b.pushItem n d work (item d t) (saved d) t.initiator.val (.tap t)

/-- PUSH (R72): the item is the data; an overflow saves the frame. -/
def pushEffect : Nat → Tap → Descriptor → Entry → Bridge → Bridge :=
  pushTap .stackPush (fun _ t => t.data) (fun d => d.frame)

/-- MARK (R76): the item holds the frame; an overflow saves L + 1 (R70). -/
def markEffect : Nat → Tap → Descriptor → Entry → Bridge → Bridge :=
  pushTap .stackMark (fun d _ => valueItem d.size d.frame) (fun d => d.depth + 1)

/-! ## Popping and reading -/

/-- The UNDERFLOW notice of R79. -/
def underflowNotice (n : Nat) (initiator : Initiator) : Notice :=
  { kind := .underflow, cause := .underflow, struct := some (BitVec.ofNat 8 n), move := none, initiator := some initiator,
    itemLost := false, writeback := false, tag := 0, value := 0 }

/-- An underflow (R79): the cause is recorded and the notice queued when FAULT notices are enabled; the empty policy
answers. -/
def underflow (b : Bridge) (n : Nat) (d : Descriptor) (t : Tap) : Bridge :=
  let b1 := b.writeCopy n d.underflowed
  let b2 := if d.faultNotices then b1.notify (underflowNotice n t.initiator) else b1
  b2.answerEmpty t d

/-- POP (R73). -/
def popEffect (n : Nat) (t : Tap) (d : Descriptor) (_e : Entry) (b : Bridge) : Bridge :=
  if d.depth = 0 then b.underflow n d t
  else if d.depth = d.frame then b.refuseTap t .frame
  else b.beginItem n .stackPop (.tap t) true false (d.slot (d.depth - 1)) [] d.size

/-- TOP (R74). -/
def topEffect (n : Nat) (t : Tap) (d : Descriptor) (_e : Entry) (b : Bridge) : Bridge :=
  if d.depth = 0 then b.answerEmpty t d
  else b.beginItem n .stackTop (.tap t) true false (d.slot (d.depth - 1)) [] d.size

/-- DEPTH (R75). -/
def depthEffect (t : Tap) (d : Descriptor) (_e : Entry) (b : Bridge) : Bridge := b.answer t.id true (leBytes 4 d.depth)

/-- UNWIND (R77): the saved-frame item is read. -/
def unwindEffect (n : Nat) (t : Tap) (d : Descriptor) (_e : Entry) (b : Bridge) : Bridge :=
  if d.frame = 0 then b.refuseTap t .frame
  else b.beginItem n .stackUnwind (.tap t) true false (d.slot (d.frame - 1)) [] d.size

end Bridge

/-! ## The rows -/

/-- PUSH (R72). -/
def execStackPush (n : Nat) (s : State) : Host.Outcome State Fault Refusal :=
  s.event (fun b => (b.tapStep n .push (Bridge.pushEffect n)).map Bridge.settle)

/-- POP (R73). -/
def execStackPop (n : Nat) (s : State) : Host.Outcome State Fault Refusal :=
  s.event (fun b => (b.tapStep n .pop (Bridge.popEffect n)).map Bridge.settle)

/-- TOP (R74). -/
def execStackTop (n : Nat) (s : State) : Host.Outcome State Fault Refusal :=
  s.event (fun b => (b.tapStep n .top (Bridge.topEffect n)).map Bridge.settle)

/-- DEPTH (R75). -/
def execStackDepth (n : Nat) (s : State) : Host.Outcome State Fault Refusal :=
  s.event (fun b => (b.tapStep n .depth Bridge.depthEffect).map Bridge.settle)

/-- MARK (R76). -/
def execStackMark (n : Nat) (s : State) : Host.Outcome State Fault Refusal :=
  s.event (fun b => (b.tapStep n .mark (Bridge.markEffect n)).map Bridge.settle)

/-- UNWIND (R77). -/
def execStackUnwind (n : Nat) (s : State) : Host.Outcome State Fault Refusal :=
  s.event (fun b => (b.tapStep n .unwind (Bridge.unwindEffect n)).map Bridge.settle)

end Sys2Proof.Machine
end

