-- ==== Sys2Proof/Machine/Moves.lean ====
section
/-! DEFINITION. The rows of the move engine and the trigger unit (chapters 7 and 8): the arbiter's choice, the steps of a run as
they are applied to the working copies, the store-back, the pin releases, the report, and completion processing. -/

namespace Sys2Proof.Machine

namespace Bridge

/-! ## The arbiter (R155) -/

/-- The chain that a removed pending entry opens or goes on with (R155). -/
def openChain (p : PendingMove) : Chain :=
  match p.origin with
  | .start o => ⟨o, p.move, none, 1⟩
  | .link c => c

/-- The arbiter's choice (R155): with the engine IDLE in RUN, no link waiting and no completion outstanding, the lowest pending
index is removed and loaded. -/
def choose (b : Bridge) : Option Bridge :=
  if b.control.state = .run ∧ b.engine.state = .idle ∧ b.trigger.link = none ∧ b.trigger.completion = none then
    match b.trigger.pending with
    | p :: rest =>
      some (loadMove { b with trigger := { b.trigger with pending := rest, chain := some (openChain p) } } p.move
        (openChain p).run)
    | [] => none
  else none

/-! ## Loading (R131 to R133) -/

/-- The descriptor read is answered (R131, R132): with an error the run ends MEMORY with nothing stored back; otherwise the
load checks are made. -/
def moveRead (b : Bridge) (ok : Bool) (data : List Byte) : Bridge :=
  if b.engine.step = .readDescriptor then
    if ok then
      let b1 := b.setMoveCopy (MoveDescriptor.ofBytes data)
      if b1.moveCopy.loadOk b1.cfg b1.control.straps then b1.startPins else b1.endRun .invalid false none
    else
      freeMoveWaiters (setStep { b with engine := { b.engine with ending := some ⟨.memory, false, none, 0⟩ } } .report)
  else b

/-- The structure whose pin comes next. -/
def pinTarget (b : Bridge) : Option Nat :=
  match b.engine.step with
  | .pinSource => b.moveCopy.srcStruct
  | .pinDestination => b.moveCopy.dstStruct
  | .none | .readDescriptor | .reserve | .take | .spanRead | .put | .spanWrite | .store | .release | .report => none

/-- A pin is applied (R133, R113): the end's kind and item size are checked, and the pin is set when they pass. -/
def applyPin (n : Nat) (e : Entry) (b : Bridge) : Bridge :=
  if endFits e.copy.kind e.copy.itemSize b.moveCopy.itemSize then
    let b1 := b.setEntry n (fun x => { x with pin := true })
    let b2 := { b1 with engine := { b1.engine with pins := b1.engine.pins ++ [n] } }
    if b.engine.step = .pinSource then b2.afterSourcePin else b2.startRunning
  else b.endRun .invalid false (some n)

/-- PIN: the pin operation is handed over, and applied in its turn. -/
def pinStep (b : Bridge) : Option Bridge :=
  match b.pinTarget with
  | some n => b.askOrApply n (.engine .pin) b.engine.asked markAsked (applyPin n)
  | none => none

/-! ## The reservation step (R135) -/

/-- The disposal is decided, and the take follows. -/
def setDisposal (b : Bridge) (d : Disposal) : Bridge :=
  setStep { b with engine := { b.engine with disposal := some d } } .take

/-- Room is reserved (R114): the reservation is set, and the disposal is RESERVED. -/
def reserveRoom (b : Bridge) (n : Nat) : Bridge :=
  (b.setEntry n (fun x => { x with reservation := true })).setDisposal .reserved

/-- The reservation step is applied (R135, R56, R83). -/
def applyReserve (n : Nat) (e : Entry) (b : Bridge) : Bridge :=
  let d := e.copy
  if d.state ≠ stOpen then b.endRun .refused false (some n)
  else if d.isRing then
    if d.full e.reservation = false then b.reserveRoom n
    else if d.fullPolicy = 1 then b.setDisposal .drop
    else b.endRun .destFull false (some n)
  else if d.pushExhausted then b.endRun .destFull false (some n)
  else b.reserveRoom n

/-- RESERVATION_STEP. -/
def reservationStep (b : Bridge) : Option Bridge :=
  if b.engine.step = .reserve then
    match b.moveCopy.dstStruct with
    | some n => b.askOrApply n (.engine .reserve) b.engine.asked markAsked (applyReserve n)
    | none => none
  else none

/-! ## The take (R136) -/

/-- The source gives nothing: a RING with count 0, a STACK with depth 0 or at its frame (R136). -/
def nothingToTake (d : Descriptor) : Bool :=
  if d.isRing then d.count == 0 else d.depth == 0 || d.depth == d.frame

/-- The take is applied to a STRUCT source (R136, R55, R82; log 30). -/
def applyTake (n : Nat) (e : Entry) (b : Bridge) : Bridge :=
  let d := e.copy
  if d.isHalted then b.endRun .refused false (some n)
  else if nothingToTake d then
    (if b.moveCopy.drain then b.endRun .ok false (some n) else b.endRun .sourceEmpty false (some n))
  else if d.isRing then b.beginItem n .ringTake .engine false false (d.slot d.head) [] d.size
  else b.beginItem n .stackPop .engine true false (d.slot (d.depth - 1)) [] d.size

/-- MOVE_TAKE: the take from a STRUCT source, or the read of a SPAN source. -/
def takeStep (b : Bridge) : Option Bridge :=
  if b.engine.step = .take then
    match b.moveCopy.srcStruct with
    | some n => b.askOrApply n (.engine .take) b.engine.asked markAsked (applyTake n)
    | none => some ((b.setStep .spanRead).issue .spanRead false b.moveCopy.src.toNat [] b.moveCopy.size)
  else none

/-- The span read is answered (R136, R139): the item is in transit and the address advances, or the run ends MEMORY. -/
def spanReadBack (b : Bridge) (ok : Bool) (data : List Byte) : Bridge :=
  if b.engine.step = .spanRead then
    if ok then
      (b.setMoveCopy { b.moveCopy with src := b.moveCopy.src + b.moveCopy.stepOf b.moveCopy.srcStep }).gotItem data
    else b.endRun .memory false none
  else b

/-! ## The put (R137) -/

/-- The transit item. -/
def transitItem (b : Bridge) : List Byte := b.engine.transit.getD []

/-- The put of a RESERVED item is applied (R137, R139, R56, R83). -/
def applyPut (n : Nat) (e : Entry) (b : Bridge) : Bridge :=
  let d := e.copy
  if d.isHalted then b.endRun .refused true (some n)
  else if d.isRing then b.beginItem n .ringPut .engine false true (d.slot d.tail) b.transitItem d.size
  else if d.pushExhausted then (b.halt n d causeReserve).endRun .refused true (some n)
  else b.pushItem n d .stackPush b.transitItem d.frame 255 .engine

/-- The DROP of an item is applied (R137, R139, R49). -/
def applyDrop (n : Nat) (e : Entry) (b : Bridge) : Bridge :=
  if e.copy.isHalted then b.endRun .refused true (some n)
  else (b.dropItem n e.copy none b.moveIndex).disposed

/-- MOVE_PUT: the disposal that was decided is carried out (R137). -/
def putStep (b : Bridge) : Option Bridge :=
  if b.engine.step = .put then
    match b.engine.disposal, b.moveCopy.dstStruct with
    | some .reserved, some n => b.askOrApply n (.engine .put) b.engine.asked markAsked (applyPut n)
    | some .drop, some n => b.askOrApply n (.engine .put) b.engine.asked markAsked (applyDrop n)
    | some .write, _ =>
      some ((b.setStep .spanWrite).issue .spanWrite true b.moveCopy.dst.toNat b.transitItem b.moveCopy.size)
    | _, _ => none
  else none

/-- The span write is answered (R137, R139): the address advances and the item is disposed of, or it is lost and the run ends
MEMORY. -/
def spanWriteBack (b : Bridge) (ok : Bool) : Bridge :=
  if b.engine.step = .spanWrite then
    if ok then
      (b.setMoveCopy { b.moveCopy with dst := b.moveCopy.dst + b.moveCopy.stepOf b.moveCopy.dstStep }).disposed
    else b.endRun .memory true none
  else b

/-! ## The end of a run (R141, R142, R156) -/

/-- The store-back is answered (R141): the pin releases are issued, or the report comes next, and the TABLE accesses that
waited go on. That the first pin release is handed over ahead of them, where a freed access also touches the pinned structure's
descriptor and either may be first (R105), is the model's choice (log 41). -/
def stored (b : Bridge) (ok : Bool) : Bridge :=
  if b.engine.step = .store then
    freeMoveWaiters (releasePins { b with engine := { b.engine with storeFailed := !ok } })
  else b

end Bridge

/-- The entry after a pin release applied in its turn (R113, R13, R119). -/
def Entry.released (e : Entry) : Entry :=
  let d : Descriptor := if e.copy.state = stClosing then { e.copy with state := stClosed } else e.copy
  { e.withCopy d with
    pin := false
    held := []
    heldRelease := false
    waiting := e.held.map CacheOp.tableWrite ++ (if e.heldRelease then [.release] else []) ++ e.waiting }

namespace Bridge

/-- PIN_RELEASE: the release at the front of its entry's waiting list is applied, and the next is handed over (R142). -/
def releaseStep (b : Bridge) : Option Bridge :=
  if b.engine.step = .release then
    match b.engine.pins with
    | n :: rest =>
      match b.frontOp n (.engine .release) with
      | some _ =>
        let b1 := (b.startOp n).setEntry n Entry.released
        some (releasePins { b1 with engine := { b1.engine with pins := rest } })
      | none => none
    | [] => none
  else none

/-- The MOVE_FAULT of a failed store-back (R141; log 20). -/
def storeFault (b : Bridge) (m : Nat) : Bridge := b.notify (moveFaultNotice m b.engine.taken .memory none false 0)

/-- The notices of a run's end (R142, R141). -/
def endNotices (b : Bridge) (m : Nat) (en : Ending) : Bridge :=
  if en.code = .ok then
    if b.engine.storeFailed then b.storeFault m
    else if b.moveCopy.count = 0 ∧ b.moveCopy.doneNotice = true then b.notify (moveDoneNotice m b.engine.taken)
    else b
  else
    let b1 := b.notify (moveFaultNotice m b.engine.taken en.code.reason en.struct en.lost en.tag)
    if b.engine.storeFailed then b1.storeFault m else b1

/-- The count as stored back, if a store-back was made and succeeded (R156). -/
def storedCount (b : Bridge) : Option Half :=
  if b.engine.storeFailed then none else (b.engine.move.bind (·.descriptor)).map (·.count)

/-- STOP_MOVE is done when the engine reports the end of its run (R143). -/
def finishStopMove (b : Bridge) (m : Nat) : Bridge :=
  match b.command.held with
  | some c => if b.command.stage = .started ∧ c.op = opStopMove ∧ c.move.toNat = m then b.commandDone else b
  | none => b

/-- RUN_END_REPORT: the notices, the engine IDLE or PAUSED with nothing loaded (R142), and what the trigger unit makes of the
end (R156). It is move activity (R129). -/
def reportEnd (b : Bridge) : Option Bridge :=
  match b.engine.step, b.engine.move, b.engine.ending with
  | .report, some lm, some en =>
    let ok : Bool := en.code == .ok && !b.engine.storeFailed
    let link := if ok && b.moveCopy.linkEnable then some b.moveCopy.linkIndex.toNat else none
    let b1 := ((b.endNotices lm.index en).activity).finishStopMove lm.index
    let pause := b.engine.pauseRequest
    some (followEnd { b1 with engine := Engine.unloaded (if pause then .paused else .idle) pause } lm.index b.storedCount ok
      link pause)
  | _, _, _ => none

/-! ## Completion processing (R159) -/

/-- The TRIGGER_SPENT notice of R159. -/
def spentNotice (n first : Nat) : Notice :=
  { kind := .triggerSpent, cause := .none, struct := some (BitVec.ofNat 8 n), move := some (BitVec.ofNat 8 first),
    initiator := none, itemLost := false, writeback := false, tag := 0, value := 0 }

/-- Completion processing is applied to the working copy (R159). An absent first count has no line in its table: nothing is
done (log 21). -/
def applyCompletion (c : Completion) (e : Entry) (b0 : Bridge) : Bridge :=
  let b := { b0 with trigger := { b0.trigger with completion := none } }
  let d := e.copy
  if d.armed = false ∨ d.descriptorHalt = true ∨ d.isOff = true ∨ (d.isTally = true ∧ d.condition ≠ condWrap) then b
  else match c.firstCount with
    | none => b
    | some k =>
      if k = 0 then
        let b1 := b.writeCopy c.struct (d.setArmed false)
        if d.faultNotices = true ∧ c.struct ≠ 1 then b1.notify (spentNotice c.struct c.first) else b1
      else if d.holds then b.post d.triggerMove.toNat (.structure c.struct)
      else b

/-- The completion operation stands in the cache. -/
def markCompletion (b : Bridge) : Bridge :=
  { b with trigger := { b.trigger with completion := b.trigger.completion.map (fun c => { c with asked := true }) } }

/-- COMPLETION_PROCESSING. -/
def completionStep (b : Bridge) : Option Bridge :=
  match b.trigger.completion with
  | some c => b.askOrApply c.struct (.engine .completion) c.asked markCompletion (applyCompletion c)
  | none => none

end Bridge

/-! ## The rows -/

/-- Accepts the move descriptor read. -/
def isMoveRead (a : Access) : Bool := a == .moveRead

/-- Accepts a span read. -/
def isSpanRead (a : Access) : Bool := a == .spanRead

/-- Accepts a span write. -/
def isSpanWrite (a : Access) : Bool := a == .spanWrite

/-- Accepts a store-back. -/
def isStoreBack (a : Access) : Bool := a == .storeBack

/-- ARBITER_CHOICE (R155). -/
def execArbiterChoice (s : State) : Host.Outcome State Fault Refusal :=
  s.event (fun b => b.choose.map Bridge.settle)

/-- MOVE_DESCRIPTOR_READ_DONE (R131, R132). -/
def execMoveDescriptorReadDone (id : Nat) (ok : Bool) (s : State) : Host.Outcome State Fault Refusal :=
  s.answered id ok false isMoveRead (fun _ data b => (b.moveRead ok data).settle)

/-- PIN (R133). -/
def execPinEnd (s : State) : Host.Outcome State Fault Refusal :=
  s.event (fun b => b.pinStep.map Bridge.settle)

/-- RESERVATION_STEP (R135). -/
def execReservationStep (s : State) : Host.Outcome State Fault Refusal :=
  s.event (fun b => b.reservationStep.map Bridge.settle)

/-- MOVE_TAKE (R136). -/
def execMoveTake (s : State) : Host.Outcome State Fault Refusal :=
  s.event (fun b => b.takeStep.map Bridge.settle)

/-- SPAN_READ_DONE (R136). -/
def execSpanReadDone (id : Nat) (ok : Bool) (s : State) : Host.Outcome State Fault Refusal :=
  s.answered id ok false isSpanRead (fun _ data b => (b.spanReadBack ok data).settle)

/-- MOVE_PUT (R137). -/
def execMovePut (s : State) : Host.Outcome State Fault Refusal :=
  s.event (fun b => b.putStep.map Bridge.settle)

/-- SPAN_WRITE_DONE (R137). -/
def execSpanWriteDone (id : Nat) (ok : Bool) (s : State) : Host.Outcome State Fault Refusal :=
  s.answered id ok false isSpanWrite (fun _ _ b => (b.spanWriteBack ok).settle)

/-- STORE_BACK_DONE (R141). -/
def execStoreBackDone (id : Nat) (ok : Bool) (s : State) : Host.Outcome State Fault Refusal :=
  s.answered id ok false isStoreBack (fun _ _ b => (b.stored ok).settle)

/-- PIN_RELEASE (R113). -/
def execPinRelease (s : State) : Host.Outcome State Fault Refusal :=
  s.event (fun b => b.releaseStep.map Bridge.settle)

/-- RUN_END_REPORT (R156). -/
def execRunEndReport (s : State) : Host.Outcome State Fault Refusal :=
  s.event (fun b => b.reportEnd.map Bridge.settle)

/-- COMPLETION_PROCESSING (R159). -/
def execCompletionProcessing (s : State) : Host.Outcome State Fault Refusal :=
  s.event (fun b => b.completionStep.map Bridge.settle)

end Sys2Proof.Machine
end

