-- ==== Sys2Proof/Machine/Commands.lean ====
section
/-! DEFINITION. The command unit's take and the commands (chapter 9 and the rules that own each command), and the notice
writer's put (R168). -/

namespace Sys2Proof.Machine

namespace Bridge

/-! ## The take (R163) -/

/-- The command unit's take is applied to structure 0 (R163, R63): from a HALTED or empty ring it yields nothing. -/
def applyCommandTake (e : Entry) (b : Bridge) : Bridge :=
  let d := e.copy
  if d.isHalted then b.takeYieldsNothing (d.count == 0)
  else if d.count = 0 then b.takeYieldsNothing true
  else b.beginItem 0 .ringTake .commandUnit false false (d.slot d.head) [] d.size

/-- The command unit is TAKING (R163): the event that woke it is served. -/
def markTaking (b : Bridge) : Bridge := { b with command := { b.command with state := .taking, wake := false } }

/-- COMMAND_UNIT_TAKE: an IDLE unit that one of the events of R163 woke asks in RUN; the take is applied in its turn, in
STOPPING too (R166). -/
def commandTake (b : Bridge) : Option Bridge :=
  match b.command.state with
  | .idle =>
    if b.control.state = .run ∧ b.command.wake = true then
      b.askOrApply 0 .commandTake false markTaking applyCommandTake
    else none
  | .taking => b.askOrApply 0 .commandTake true markTaking applyCommandTake
  | .carrying => none

/-! ## The notice writer's put (R168) -/

/-- The put of the oldest notice is applied to structure 1 (R64, R168): dropped when it is HALTED or full, written otherwise. -/
def applyNotice (x : Notice) (e : Entry) (b : Bridge) : Bridge :=
  let d := e.copy
  if d.isHalted = true ∨ d.cap ≤ d.count then b.dropOldest
  else b.beginItem 1 .ringPut .noticeWriter false true (d.slot d.tail) x.toBytes d.size

/-- The put of the oldest notice stands in the cache. -/
def markNotice (b : Bridge) : Bridge := { b with notices := { b.notices with asked := true } }

/-- NOTICE_PUT: in RUN and STOPPING the writer puts the oldest notice. -/
def noticeStep (b : Bridge) : Option Bridge :=
  match b.notices.queue with
  | x :: _ =>
    if b.control.state = .run ∨ b.control.state = .stopping then
      b.askOrApply 1 .noticePut b.notices.asked markNotice (applyNotice x)
    else none
  | [] => none

/-! ## Commands applied to a working copy (R164) -/

/-- A command that names structure `n` is applied to its working copy in its turn: refused OFF for kind OFF, else by its own
rule (R164). -/
def commandStep (b : Bridge) (op : Byte) (n : Nat) (effect : CommandItem → Entry → Bridge → Bridge) : Option Bridge :=
  match b.judgedCommand op with
  | some c =>
    if c.struct.toNat = n then
      match b.frontOp n .command with
      | some e =>
        some (if e.copy.isOff then (b.startOp n).commandRefused .off else effect c e (b.startOp n))
      | none => none
    else none
  | none => none

/-- The command changes the working copy and is done. -/
def changeAndDone (b : Bridge) (n : Nat) (d : Descriptor) : Bridge := (b.writeCopy n d).commandDone

end Bridge

namespace Descriptor

/-- A structure after ABORT: a ring (R58), a stack (R86) or a tally (R100). -/
def aborted (d : Descriptor) : Descriptor :=
  if d.isRing then
    { (((d.setHead ((d.head + d.count) % d.cap)).setCount 0).setOverrun false) with flushed := BitVec.ofNat 16 d.count }
  else if d.isStack then
    { ((d.setDepth 0).setFrame 0).setGuard false with
      flushed := BitVec.ofNat 16 d.depth
      cause := if d.cause = causeOverflow ∨ d.cause = causeUnderflow then causeNone else d.cause }
  else { (d.withValue d.lower).setWraps 0 with flushed := 0 }

/-- A structure after OPEN (R13). -/
def opened (d : Descriptor) : Descriptor :=
  if d.state = stOpen then d else { d.setLost false with state := stOpen }

/-- A structure after CLOSE (R13). -/
def closed (d : Descriptor) (pinned : Bool) : Descriptor :=
  if d.state = stOpen then { d with state := if pinned then stClosing else stClosed } else d

/-- A stack after CLOSE_GUARD (R85). -/
def guardClosed (d : Descriptor) : Descriptor :=
  { d.setGuard false with cause := if d.cause = causeOverflow then causeNone else d.cause }

end Descriptor

namespace Bridge

/-- ABORT (R58, R86, R100): refused HALTED with cause DESCRIPTOR; a level that was above 0 is reported. A WATERMARK notice of
its crossing is queued ahead of the command's COMMAND_DONE (the model's choice, log 31). -/
def abortEffect (n : Nat) (_c : CommandItem) (e : Entry) (b : Bridge) : Bridge :=
  let d := e.copy
  if d.descriptorHalt then b.commandRefused .halted
  else if 0 < d.level then (b.changeLevel n d d.aborted .commandUnit).commandDone
  else b.changeAndDone n d.aborted

/-- OPEN (R13). -/
def openEffect (n : Nat) (_c : CommandItem) (e : Entry) (b : Bridge) : Bridge :=
  if e.copy.isHalted then b.commandRefused .halted else b.changeAndDone n e.copy.opened

/-- CLOSE (R13). -/
def closeEffect (n : Nat) (_c : CommandItem) (e : Entry) (b : Bridge) : Bridge :=
  if e.copy.isHalted then b.commandRefused .halted else b.changeAndDone n (e.copy.closed e.pin)

/-- CLEAR_FAULT (R16). -/
def clearFaultEffect (n : Nat) (_c : CommandItem) (e : Entry) (b : Bridge) : Bridge :=
  match e.copy.clearFault b.cfg b.control.straps n with
  | some d => b.changeAndDone n d
  | none => b.commandRefused .causePersists

/-- CLOSE_GUARD (R85). -/
def closeGuardEffect (n : Nat) (_c : CommandItem) (e : Entry) (b : Bridge) : Bridge :=
  let d := e.copy
  if d.isRing = true ∨ d.isTally = true then b.commandRefused .wrongKind
  else if d.isHalted then b.commandRefused .halted
  else if d.limit < d.depth then b.commandRefused .depthAboveLimit
  else b.changeAndDone n d.guardClosed

/-- ARM (R152): armed is set, and the trigger move posted when the condition holds. -/
def armEffect (n : Nat) (_c : CommandItem) (e : Entry) (b : Bridge) : Bridge :=
  let d := e.copy
  let b1 := b.writeCopy n (d.setArmed true)
  (if d.holds = true ∧ d.descriptorHalt = false then b1.post d.triggerMove.toNat (.structure n) else b1).commandDone

/-- DISARM (R153). -/
def disarmEffect (n : Nat) (_c : CommandItem) (e : Entry) (b : Bridge) : Bridge :=
  b.changeAndDone n (e.copy.setArmed false)

/-! ## The other commands -/

/-- NOP (R164): done when judged. -/
def nop (b : Bridge) : Option Bridge := (b.judgedCommand opNop).map (fun _ => b.commandDone)

/-- The held command has had its effect and waits for its end. -/
def commandStarted (b : Bridge) : Bridge := { b with command := { b.command with stage := .started } }

/-- FLUSH (R121): every DIRTY or WRITING entry is marked; `settle` writes the marked ones back and ends the command. -/
def flush (b : Bridge) : Option Bridge :=
  (b.judgedCommand opFlush).map (fun _ =>
    commandStarted { b with cache := b.cache.map (fun e => { e with flushMark := e.flushMark || e.countsDirty }) })

/-- RELEASE (R122): done at once when no entry holds the index; otherwise it joins the waiting list, and `settle` gives it its
turn. -/
def release (b : Bridge) (n : Nat) : Option Bridge :=
  match b.judgedCommand opRelease with
  | some c =>
    if c.struct.toNat = n then
      some (match b.entry? n with
        | none => b.commandDone
        | some _ => (b.enqueue n .release).commandStarted)
    else none
  | none => none

/-- TRIGGER (R154, R160). -/
def postTrigger (b : Bridge) (m : Nat) : Option Bridge :=
  match b.judgedCommand opTrigger with
  | some c => if c.move.toNat = m then some ((b.post m .software).commandDone) else none
  | none => none

/-- The move is loaded in the engine (R143). -/
def isLoaded (b : Bridge) (m : Nat) : Bool := b.moveIndex == some m

/-- The move is in the pending set. -/
def isPending (b : Bridge) (m : Nat) : Bool := b.trigger.pending.any (fun p => p.move == m)

/-- A move is withdrawn from the pending set (R143, R157). -/
def withdraw (b : Bridge) (m : Nat) : Bridge :=
  { b with trigger := { b.trigger with pending := b.trigger.pending.filter (fun p => p.move != m) } }

/-- The stop request of a LOADING or RUNNING engine is set with the command's tag (R143); a STORING run is not affected. -/
def requestStop (b : Bridge) (tag : Half) : Bridge :=
  if b.engine.state = .loading ∨ b.engine.state = .running then
    { b with engine := { b.engine with stopRequest := some tag } }
  else b

/-- STOP_MOVE (R143). -/
def stopMove (b : Bridge) (m : Nat) : Option Bridge :=
  match b.judgedCommand opStopMove with
  | some c =>
    if c.move.toNat = m then
      some (if b.isLoaded m then ((b.withdraw m).requestStop c.tag).commandStarted
        else if b.isPending m then (b.withdraw m).commandDone
        else b.commandRefused .notActive)
    else none
  | none => none

/-- PAUSE_MOVES (R144): the pause request is set, and an IDLE engine is PAUSED. In STOPPING nothing changes (R145). -/
def pauseMoves (b : Bridge) : Option Bridge :=
  (b.judgedCommand opPauseMoves).map (fun _ =>
    commandDone (if b.control.state = .stopping then b else { b with engine := { b.engine with
      pauseRequest := true
      state := if b.engine.state = .idle then .paused else b.engine.state } }))

/-- RESUME_MOVES (R144): the pause request is cleared, and a PAUSED engine is IDLE. In STOPPING nothing changes (R145). -/
def resumeMoves (b : Bridge) : Option Bridge :=
  (b.judgedCommand opResumeMoves).map (fun _ =>
    commandDone (if b.control.state = .stopping then b else { b with engine := { b.engine with
      pauseRequest := false
      state := if b.engine.state = .paused then .idle else b.engine.state } }))

end Bridge

/-! ## The rows -/

/-- COMMAND_UNIT_TAKE (R163). -/
def execCommandUnitTake (s : State) : Host.Outcome State Fault Refusal :=
  s.event (fun b => b.commandTake.map Bridge.settle)

/-- NOTICE_PUT (R168). -/
def execNoticePut (s : State) : Host.Outcome State Fault Refusal :=
  s.event (fun b => b.noticeStep.map Bridge.settle)

/-- NOP (R164). -/
def execCmdNop (s : State) : Host.Outcome State Fault Refusal := s.event (fun b => b.nop.map Bridge.settle)

/-- FLUSH (R121). -/
def execCmdFlush (s : State) : Host.Outcome State Fault Refusal := s.event (fun b => b.flush.map Bridge.settle)

/-- RELEASE (R122). -/
def execCmdRelease (n : Nat) (s : State) : Host.Outcome State Fault Refusal :=
  s.event (fun b => (b.release n).map Bridge.settle)

/-- ABORT (R58, R86, R100). -/
def execCmdAbort (n : Nat) (s : State) : Host.Outcome State Fault Refusal :=
  s.event (fun b => (b.commandStep opAbort n (Bridge.abortEffect n)).map Bridge.settle)

/-- OPEN (R13). -/
def execCmdOpen (n : Nat) (s : State) : Host.Outcome State Fault Refusal :=
  s.event (fun b => (b.commandStep opOpen n (Bridge.openEffect n)).map Bridge.settle)

/-- CLOSE (R13). -/
def execCmdClose (n : Nat) (s : State) : Host.Outcome State Fault Refusal :=
  s.event (fun b => (b.commandStep opClose n (Bridge.closeEffect n)).map Bridge.settle)

/-- CLEAR_FAULT (R16). -/
def execCmdClearFault (n : Nat) (s : State) : Host.Outcome State Fault Refusal :=
  s.event (fun b => (b.commandStep opClearFault n (Bridge.clearFaultEffect n)).map Bridge.settle)

/-- CLOSE_GUARD (R85). -/
def execCmdCloseGuard (n : Nat) (s : State) : Host.Outcome State Fault Refusal :=
  s.event (fun b => (b.commandStep opCloseGuard n (Bridge.closeGuardEffect n)).map Bridge.settle)

/-- ARM (R152). -/
def execCmdArm (n : Nat) (s : State) : Host.Outcome State Fault Refusal :=
  s.event (fun b => (b.commandStep opArm n (Bridge.armEffect n)).map Bridge.settle)

/-- DISARM (R153). -/
def execCmdDisarm (n : Nat) (s : State) : Host.Outcome State Fault Refusal :=
  s.event (fun b => (b.commandStep opDisarm n (Bridge.disarmEffect n)).map Bridge.settle)

/-- TRIGGER (R154). -/
def execCmdTrigger (m : Nat) (s : State) : Host.Outcome State Fault Refusal :=
  s.event (fun b => (b.postTrigger m).map Bridge.settle)

/-- STOP_MOVE (R143). -/
def execCmdStopMove (m : Nat) (s : State) : Host.Outcome State Fault Refusal :=
  s.event (fun b => (b.stopMove m).map Bridge.settle)

/-- PAUSE_MOVES (R144). -/
def execCmdPauseMoves (s : State) : Host.Outcome State Fault Refusal := s.event (fun b => b.pauseMoves.map Bridge.settle)

/-- RESUME_MOVES (R144). -/
def execCmdResumeMoves (s : State) : Host.Outcome State Fault Refusal := s.event (fun b => b.resumeMoves.map Bridge.settle)

end Sys2Proof.Machine
end

