-- ==== Sys2Proof/Machine/Start.lean ====
section
/-! DEFINITION. Starting, the audit, the idle timer and stopping (chapter 11). START and STOP themselves are here as bridge
control takes them; their rows are in Ports.lean, where the start word arrives. -/

namespace Sys2Proof.Machine

namespace Bridge

/-! ## START (R184) -/

/-- START is taken in PASS (R184): the bridge is STARTING, the start refusal reason NONE, the shadows clear, and the anchor
read is issued. -/
def takeStart (b : Bridge) : Bridge :=
  let b1 := setState { b with control := { b.control with
    startReason := .none, noticeShadow := false, demandShadows := [false, false, false, false] } } .starting
  b1.issue .anchorRead false (anchorAddress b.control.straps) [] 32

/-- START is refused (R184, R185): the reason is set, the finding list discarded, and the bridge returns to PASS. -/
def refuseStart (b : Bridge) (r : StartReason) : Bridge :=
  enterPass { b with control := { b.control with startReason := r } }

/-! ## STOP (R188) -/

/-- The bridge state is one of those in which STOP is taken (R177, R183). -/
def takesStop (b : Bridge) : Bool :=
  b.control.state == .starting || b.control.state == .auditing || b.control.state == .run || b.control.state == .quiet

/-- STOP is taken (R188): STOPPING, the idle timer stopped, the audit and its findings discarded, the engine's requests
cleared and a PAUSED engine IDLE (R145). -/
def takeStop (b : Bridge) : Bridge :=
  setState { b with
    control := { b.control with
      audit := none, findings := [], idleTimer := none, emptying := false
      stopStage := if b.startingUp then .halting else .finishing }
    engine := { b.engine with
      pauseRequest := false, stopRequest := none
      state := if b.engine.state = .paused then .idle else b.engine.state } } .stopping

/-! ## The audit (R185) -/

/-- The audit reads the descriptor of a position. -/
def auditRead (b : Bridge) (a : Audit) (p : AuditPosition) : Bridge :=
  let b1 := { b with control := { b.control with audit := some { a with position := p } } }
  match p with
  | .struct n => b1.issue .auditRead false (b.cfg.tableBase + n * 64) [] 64
  | .move m => b1.issue .auditRead false (b.cfg.moveBase + m * 32) [] 32

/-- The STARTED notice (R186). -/
def startedNotice (structs moves : Nat) : Notice :=
  { kind := .started, cause := .none, struct := none, move := none, initiator := none, itemLost := false,
    writeback := false, tag := 0, value := BitVec.ofNat 32 (structs + 65536 * moves) }

/-- Steps 1 to 4 of R186, and what RUN brings at once: waiting requests are classified (R22, R175) and the command unit looks
for a command (R163). -/
def enterRun (b : Bridge) (a : Audit) : Bridge :=
  let b1 := setState { b with control := { b.control with
    dropped := 0, firstDropped := none, lastRefusal := LastRefusal.nothing, audit := none, findings := a.findings } } .run
  (((b1.notify (startedNotice a.findings.length a.movesMarked)).startTimer).wakeCommand).reclassify

/-- The audit goes on to the next descriptor, or brings the bridge into RUN after the last (R185, R186). -/
def auditNext (b : Bridge) (a : Audit) : Bridge :=
  match a.position with
  | .struct n =>
    if n + 1 < b.cfg.structureCount then b.auditRead a (.struct (n + 1))
    else if 0 < b.cfg.moveCount then b.auditRead a (.move 0)
    else b.enterRun a
  | .move m => if m + 1 < b.cfg.moveCount then b.auditRead a (.move (m + 1)) else b.enterRun a

/-- The audit makes its one write for a descriptor (R185). -/
def auditWrite (b : Bridge) (a : Audit) (addr : Nat) (data : List Byte) : Bridge :=
  issue { b with control := { b.control with audit := some a } } .auditWrite true addr data data.length

/-- Structure descriptor `n` is judged (R185, R18). -/
def auditStruct (b : Bridge) (a : Audit) (n : Nat) (raw : Descriptor) : Bridge :=
  let a1 := { a with shapes := a.shapes ++ [(raw.kind, raw.itemSize)] }
  let addr := b.cfg.tableBase + n * 64
  if n ≤ 1 then
    if raw.valid b.cfg b.control.straps n = true ∧ raw.state = stOpen then b.auditNext a1
    else b.refuseStart (if n = 0 then .commandRing else .noticeRing)
  else if raw.passes b.cfg b.control.straps n = false then
    b.auditWrite { a1 with findings := a1.findings ++ [n] } (addr + 1) [stHalted, causeDescriptor]
  else if raw.closingAsClosed ≠ raw then b.auditWrite a1 (addr + 1) [stClosed]
  else b.auditNext a1

/-- A STRUCT end fits the kind and item size that the audit read (R133, R185). -/
def auditEndFits (a : Audit) (size : Byte) : Option Nat → Bool
  | none => true
  | some n => match a.shapes[n]? with
    | some p => endFits p.1 p.2 size
    | none => false

/-- Move descriptor `m` is judged (R185). -/
def auditMove (b : Bridge) (a : Audit) (m : Nat) (d : MoveDescriptor) : Bridge :=
  if d.loadOk b.cfg b.control.straps = true ∧ auditEndFits a d.itemSize d.srcStruct = true
      ∧ auditEndFits a d.itemSize d.dstStruct = true then b.auditNext a
  else b.auditWrite { a with movesMarked := a.movesMarked + 1 } (b.cfg.moveBase + m * 32 + 22) [RunEnd.invalid.code]

/-! ## What the answers bring -/

/-- The anchor read is answered (R184). Out of STARTING its result is discarded (R188, R189). -/
def anchorRead (b : Bridge) (ok : Bool) (data : List Byte) : Bridge :=
  if b.control.state = .starting then
    if ok then
      let g := Settings.ofBytes data
      match g.startRefusal b.control.straps with
      | some r => b.refuseStart r
      | none =>
        auditRead (reclassify (setState { b with control := { b.control with settings := some g } } .auditing))
          ⟨.struct 0, [], 0, []⟩ (.struct 0)
    else b.refuseStart .memory
  else b

/-- An audit read is answered (R185). Out of AUDITING its result is discarded. -/
def auditReadBack (b : Bridge) (ok : Bool) (data : List Byte) : Bridge :=
  match b.control.state, b.control.audit with
  | .auditing, some a =>
    if ok then
      match a.position with
      | .struct n => b.auditStruct a n (Descriptor.ofBytes data)
      | .move m => b.auditMove a m (MoveDescriptor.ofBytes data)
    else b.refuseStart .memory
  | _, _ => b

/-- An audit write is answered (R185). -/
def auditWriteBack (b : Bridge) (ok : Bool) : Bridge :=
  match b.control.state, b.control.audit with
  | .auditing, some a => if ok then b.auditNext a else b.refuseStart .memory
  | _, _ => b

/-- Step 5 of R186: the next FAULT notice of the finding list is queued in RUN when the queue has room. -/
def auditFault (b : Bridge) : Option Bridge :=
  match b.control.findings with
  | n :: rest =>
    if b.control.state = .run ∧ b.notices.queue.length < 8 then
      some (notify { b with control := { b.control with findings := rest } } (faultNotice n .descriptor 0 false))
    else none
  | [] => none

/-! ## The idle timer (R187) -/

/-- No request waits at the I-port for a snoop (R187). -/
def noSnoopWaits (b : Bridge) : Bool :=
  b.iport.inflight.all (fun r => match r.phase with
    | .snooping _ | .moveWait _ => false
    | .waiting | .mirrorWait | .tapped | .forwarded | .answered _ _ => true)

/-- No operation is in progress or waiting in the record cache, its miss list or its held writes (R187). -/
def cacheAtRest (b : Bridge) : Bool :=
  b.misses.isEmpty && b.cache.all (fun e => e.busy.isNone && e.waiting.isEmpty && e.held.isEmpty && !e.heldRelease)

/-- The bridge is at rest (R187). A wake that the command unit has not followed yet, and an audit finding not queued yet, are
work left (log 12). -/
def atRest (b : Bridge) : Bool :=
  b.command.state == .idle && b.command.lastEmpty && !b.command.wake
    && (b.engine.state == .idle || b.engine.state == .paused)
    && b.trigger.link.isNone && b.trigger.completion.isNone && b.trigger.pending.isEmpty
    && b.notices.queue.isEmpty && b.control.findings.isEmpty && b.cacheAtRest && b.noSnoopWaits

/-- The timer expires in RUN (R187): at rest, the record cache is asked to empty itself (R123); otherwise the timer restarts
from the full idle time. -/
def timerExpires (b : Bridge) : Option Bridge :=
  if b.control.state = .run ∧ b.control.idleTimer.isSome = true then
    if b.atRest then some { b with control := { b.control with idleTimer := none, emptying := true } }
    else some b.startTimer
  else none

/-- One microsecond passes with no command in the queue (log 8): a running timer counts down, and expires at 0. -/
def tick (b : Bridge) : Bridge :=
  match b.control.idleTimer with
  | none => b
  | some k =>
    if k ≤ 1 then match b.timerExpires with
      | some b1 => b1.settle
      | none => b
    else { b with control := { b.control with idleTimer := some (k - 1) } }

/-! ## The STOP sequence (R188) -/

/-- Every request classified TAP has been answered (R188). -/
def tapsAnswered (b : Bridge) : Bool :=
  b.iport.inflight.all (fun r => r.cls != .tap || (match r.phase with
    | .answered _ _ => true
    | .waiting | .snooping _ | .moveWait _ | .mirrorWait | .tapped | .forwarded => false))

/-- The cleared-pending count is replaced, and mirrored when it changes (R181). -/
def setCleared (b : Bridge) (k : Nat) : Bridge :=
  if b.control.clearedPending = k then b else mirror { b with control := { b.control with clearedPending := k } }

/-- Step 3 of R188, once step 2 has ended: the run, the command, the completion operation and every tap are done; the pending
set is cleared and counted (R160). -/
def clearPending (b : Bridge) : Option Bridge :=
  if b.control.state = .stopping ∧ b.control.stopStage = .finishing ∧ b.engine.state = .idle ∧ b.engine.move = none
      ∧ b.command.state = .idle ∧ b.trigger.completion = none ∧ b.tapsAnswered = true then
    let b1 := b.setCleared b.trigger.pending.length
    some { b1 with
      trigger := TriggerUnit.nothing
      control := { b1.control with stopStage := .draining } }
  else none

/-- Step 5 of R188, once step 4 has ended: the queue is drained and the record cache is asked to empty itself (R171, R124). -/
def beginEmptying (b : Bridge) : Option Bridge :=
  if b.control.state = .stopping ∧ b.control.stopStage = .draining ∧ b.notices.queue = [] then
    some { b with control := { b.control with stopStage := .emptying } }
  else none

end Bridge

/-! ## The rows -/

/-- Accepts the anchor read. -/
def isAnchorRead (a : Access) : Bool := a == .anchorRead

/-- Accepts an audit read. -/
def isAuditRead (a : Access) : Bool := a == .auditRead

/-- Accepts an audit write. -/
def isAuditWrite (a : Access) : Bool := a == .auditWrite

/-- ANCHOR_READ_DONE (R184). -/
def execAnchorReadDone (id : Nat) (ok : Bool) (s : State) : Host.Outcome State Fault Refusal :=
  s.answered id ok false isAnchorRead (fun _ data b => (b.anchorRead ok data).settle)

/-- AUDIT_READ_DONE (R185). -/
def execAuditReadDone (id : Nat) (ok : Bool) (s : State) : Host.Outcome State Fault Refusal :=
  s.answered id ok false isAuditRead (fun _ data b => (b.auditReadBack ok data).settle)

/-- AUDIT_WRITE_DONE (R185). -/
def execAuditWriteDone (id : Nat) (ok : Bool) (s : State) : Host.Outcome State Fault Refusal :=
  s.answered id ok false isAuditWrite (fun _ _ b => (b.auditWriteBack ok).settle)

/-- AUDIT_FAULT_NOTICE (R186). -/
def execAuditFaultNotice (s : State) : Host.Outcome State Fault Refusal :=
  s.event (fun b => b.auditFault.map Bridge.settle)

/-- IDLE_TIMER_EXPIRY (R187). -/
def execIdleTimerExpiry (s : State) : Host.Outcome State Fault Refusal :=
  s.event (fun b => b.timerExpires.map Bridge.settle)

/-- STOP_CLEAR_PENDING (R160, R188). -/
def execStopClearPending (s : State) : Host.Outcome State Fault Refusal :=
  s.event (fun b => b.clearPending.map Bridge.settle)

/-- STOP_EMPTY_CACHE (R188, R124). -/
def execStopEmptyCache (s : State) : Host.Outcome State Fault Refusal :=
  s.event (fun b => b.beginEmptying.map Bridge.settle)

end Sys2Proof.Machine
end

