-- ==== Sys2Proof/Machine/Tally.lean ====
section
/-! DEFINITION. The tap operations on a tally (chapter 5). -/

namespace Sys2Proof.Machine

namespace Bridge

/-- A tally takes a raw result (R91, R92); a wrap of a tally whose condition is WRAP is a crossing, which posts the trigger
move when the tally is armed (R99). -/
def advanceTally (b : Bridge) (n : Nat) (d : Descriptor) (raw : Int) : Bridge :=
  let b1 := b.writeCopy n (d.advanced raw)
  if d.wrapsOn raw = true ∧ d.condition = condWrap ∧ d.armed = true then b1.post d.triggerMove.toNat (.structure n) else b1

/-- The signed 32-bit number in a tap's data (R24). -/
def amount (t : Tap) : Int := (wordAt t.data 0).toInt

/-- NEXT (R93): the value before the operation, then value + step. -/
def nextEffect (n : Nat) (t : Tap) (d : Descriptor) (_e : Entry) (b : Bridge) : Bridge :=
  (b.advanceTally n d (d.value + d.step)).answer t.id true (leBytes 4 d.valueWord.toNat)

/-- ADD (R94). -/
def addEffect (n : Nat) (t : Tap) (d : Descriptor) (_e : Entry) (b : Bridge) : Bridge :=
  (b.advanceTally n d (d.value + amount t)).answer t.id true []

/-- SET (R95). -/
def setEffect (n : Nat) (t : Tap) (d : Descriptor) (_e : Entry) (b : Bridge) : Bridge :=
  if d.lower ≤ amount t ∧ amount t ≤ d.upper then (b.writeCopy n (d.withValue (amount t))).answer t.id true []
  else b.refuseTap t .bounds

/-- VALUE (R96). -/
def valueEffect (t : Tap) (d : Descriptor) (_e : Entry) (b : Bridge) : Bridge :=
  b.answer t.id true (leBytes 4 d.valueWord.toNat)

/-- WRAPS (R97). -/
def wrapsEffect (t : Tap) (d : Descriptor) (_e : Entry) (b : Bridge) : Bridge := b.answer t.id true (leBytes 4 d.wraps)

end Bridge

/-! ## The rows -/

/-- NEXT (R93). -/
def execTallyNext (n : Nat) (s : State) : Host.Outcome State Fault Refusal :=
  s.event (fun b => (b.tapStep n .next (Bridge.nextEffect n)).map Bridge.settle)

/-- ADD (R94). -/
def execTallyAdd (n : Nat) (s : State) : Host.Outcome State Fault Refusal :=
  s.event (fun b => (b.tapStep n .add (Bridge.addEffect n)).map Bridge.settle)

/-- SET (R95). -/
def execTallySet (n : Nat) (s : State) : Host.Outcome State Fault Refusal :=
  s.event (fun b => (b.tapStep n .set (Bridge.setEffect n)).map Bridge.settle)

/-- VALUE (R96). -/
def execTallyValue (n : Nat) (s : State) : Host.Outcome State Fault Refusal :=
  s.event (fun b => (b.tapStep n .value Bridge.valueEffect).map Bridge.settle)

/-- WRAPS (R97). -/
def execTallyWraps (n : Nat) (s : State) : Host.Outcome State Fault Refusal :=
  s.event (fun b => (b.tapStep n .wraps Bridge.wrapsEffect).map Bridge.settle)

end Sys2Proof.Machine
end

