-- ==== Sys2Proof/Machine/Ports.lean ====
section
/-! DEFINITION. The I-port and the M-port (chapter 10): taking a request, handing it on in its initiator's order, the answer
to a forwarded request with the start word, the arbiter's grant, and the status mirror's completion. -/

namespace Sys2Proof.Machine

namespace Bridge

/-! ## Taking a request (R174, R175) -/

/-- A TAP or TABLE request returns a QUIET bridge to RUN, which starts the timer and lets the command unit look for a command
(R187, R163); a TAP stops a cache that empties itself (R123, R187). -/
def noteAccess (b : Bridge) (c : RequestClass) : Bridge :=
  if b.control.state = .quiet ∧ (c = .tap ∨ c = .table) then
    ((b.setState .run).startTimer).wakeCommand
  else if c = .tap then b.cancelEmptying
  else b

/-- A request is taken (R174): it is in flight, waiting at the I-port, with the mirror writes that a status read waits for
(R181). -/
def takeRequest (b : Bridge) (r : Request) (c : RequestClass) : Bridge :=
  noteAccess { b with
    iport := { b.iport with inflight := b.iport.inflight ++
      [⟨b.nextHandle, r, c, .waiting,
        if r.write = false ∧ r.touchesStatus b.control.straps = true then b.mirrorHandles else []⟩] }
    nextHandle := b.nextHandle + 1 } c

/-! ## Handing a request on (R176) -/

/-- A request in this phase keeps the later requests of its initiator from being handed on (R176). -/
def holdsBack : RequestPhase → Bool
  | .waiting | .snooping _ | .moveWait _ | .mirrorWait => true
  | .tapped | .forwarded | .answered _ _ => false

/-- The turn of a request has come (R176): no earlier request of its initiator waits at the I-port. -/
def turnCome (b : Bridge) (r : InFlight) : Bool :=
  (b.iport.inflight.takeWhile (fun x => x.id != r.id)).all
    (fun x => !(x.request.initiator == r.request.initiator && holdsBack x.phase))

/-- The tap decoder takes a TAP request (R27): tap activity unless it is debug-tagged (R37), the first two checks (R28, R29),
and the hand-over to the record cache. -/
def decode (b : Bridge) (r : InFlight) : Bridge :=
  let t := b.cfg.decodeTap r.id r.request
  let b0 := b.noteAccess .tap
  let b1 := if r.request.debug then b0 else b0.activity
  if b.cfg.shapeOk r.request = false then b1.refuseTap t .shape
  else if b.cfg.structureCount ≤ t.struct then b1.refuseTap t .range
  else (b1.setPhase r.id .tapped).enqueue t.struct (.tap t)

/-- A PLAIN request, or one no table is touched by, is forwarded, after the mirror writes it waits for (R178, R181). -/
def forwardPlain (b : Bridge) (r : InFlight) : Bridge :=
  if r.mirrors ≠ [] then b.setPhase r.id .mirrorWait else b.forward r.id

/-- A request whose class is known is handed on (R175): a TAP to the decoder; a TABLE request, and an ANCHOR-START write that
touches a table outside PASS, to the snoop; the others towards the M-port. A TABLE request waits in STARTING and AUDITING; one
that is handed on in QUIET, whenever it was taken, returns the bridge to RUN as one taken there (log 28). -/
def handOn (b : Bridge) (r : InFlight) : Option Bridge :=
  match r.cls with
  | .tap => some (b.decode r)
  | .table => if b.startingUp then none else some ((b.noteAccess .table).beginSnoop r)
  | .anchorStart =>
    if b.control.state ≠ .pass ∧ b.cfg.touchesTables r.request = true then some (b.beginSnoop r)
    else some (b.forwardPlain r)
  | .plain => some (b.forwardPlain r)
  | .unknown | .apertureWait | .tableWait => none

/-- A request arrives at a row (R175, R176): an offered one of the row's classes is taken, and handed on when its turn has come
and its class is known; a waiting one is handed on (log 9). -/
def arrive (b : Bridge) (row : RequestClass → Bool → Bool) (src : Arrival) : Option Bridge :=
  match src with
  | .offered r =>
    let c := classify b.control.state b.control.settings b.control.straps r
    if r.wf = true ∧ b.iport.inflight.length < 32 ∧ row c r.write = true then
      let b1 := b.takeRequest r c
      match b1.inflight? b.nextHandle with
      | some x => some (if b1.turnCome x then (b1.handOn x).getD b1 else b1)
      | none => some b1
    else none
  | .waiting id =>
    match b.inflight? id with
    | some x =>
      if x.phase = .waiting ∧ row x.cls x.request.write = true ∧ b.turnCome x = true then b.handOn x else none
    | none => none

/-! ## The answer to a forwarded request (R177, R178) -/

/-- Bridge control acts on a start word (R177): START in PASS, STOP where it is taken; any other value and state is ignored. -/
def actOnStartWord (b : Bridge) (v : Nat) : Bridge :=
  if v = 1 ∧ b.control.state = .pass then b.takeStart
  else if v = 2 ∧ b.takesStop = true then b.takeStop
  else b

/-- The data of memory's answer to a forwarded request: the bytes read, or free bytes with an ERROR (log 5). -/
def forwardedData (draw : Nat) (r : Request) (ok : Bool) (data : List Byte) : List Byte :=
  if r.write then [] else if ok then data else errorBytes draw 0 r.size.bytes

/-- The value of the start word that a request in flight writes, if it is an ANCHOR-START write. -/
def startWordOf (b : Bridge) (id : Nat) : Option Nat :=
  match b.inflight? id with
  | some r =>
    if r.cls = .anchorStart ∧ r.request.coversStartWord b.control.straps = true then
      some (r.request.startWord b.control.straps)
    else none
  | none => none

/-- A forwarded request is answered: the answer goes to the I-port, and an OKAY ANCHOR-START write is acted on. -/
def forwardedDone (b : Bridge) (id : Nat) (ok : Bool) (data : List Byte) : Bridge :=
  match b.inflight? id with
  | none => b
  | some r =>
    let b1 := b.answer id ok (forwardedData b.freeDraws r.request ok data)
    match b.startWordOf id with
    | some v => if ok then b1.actOnStartWord v else b1
    | none => b1

/-- STOP as a command (R164, R188): it is done when bridge control takes it; out of the states that take STOP it is ignored
(R177; log 19). -/
def stopCommand (b : Bridge) : Option Bridge :=
  match b.judgedCommand opStop with
  | some _ => some (if b.takesStop then (b.commandDone).takeStop else b.commandDone)
  | none => none

/-! ## The arbiter (R179) -/

end Bridge

/-- The four classes of bridge requests (R179); forwarded traffic is class 0. -/
def Access.bridgeClass : Access → Nat
  | .forward _ => 0
  | .fetch _ => 1
  | .item _ _ move => if move then 2 else 1
  | .moveRead | .storeBack | .spanRead | .spanWrite => 2
  | .writeBack _ _ => 3
  | .anchorRead | .auditRead | .auditWrite | .mirror => 4

/-- The request is forwarded traffic. -/
def MemRequest.forwarded (q : MemRequest) : Bool := q.access.bridgeClass == 0

/-- The request is a must write-back (R115). -/
def MemRequest.must (q : MemRequest) : Bool :=
  match q.access with
  | .writeBack _ must => must
  | _ => false

/-- The first bridge request by the class order, oldest first within a class (R179). -/
def MPort.firstBridge (m : MPort) : Option MemRequest :=
  (m.waiting.find? (fun q => q.access.bridgeClass == 1)).or
    ((m.waiting.find? (fun q => q.access.bridgeClass == 2)).or
      ((m.waiting.find? (fun q => q.access.bridgeClass == 3)).or
        (m.waiting.find? (fun q => q.access.bridgeClass == 4))))

/-- The oldest waiting forwarded request (R179). -/
def MPort.firstForwarded (m : MPort) : Option MemRequest := m.waiting.find? MemRequest.forwarded

/-- The request that the arbiter grants (R179); `must`: the dirty count is at or above the must level. -/
def MPort.choice (m : MPort) (must : Bool) : Option MemRequest :=
  (if must then m.waiting.find? MemRequest.must else none).or
    ((if m.fairness = 8 then m.firstBridge else none).or (m.firstForwarded.or m.firstBridge))

namespace Bridge

/-- The dirty count is at or above the must level (R115, R179). -/
def atMustLevel (b : Bridge) : Bool :=
  match b.control.settings with
  | some g => decide (g.mustLevel ≤ b.dirtyCount)
  | none => false

/-- The arbiter grants the path to one waiting request (R179): it is issued to memory, a status mirror write with the fields as
they now stand (R181), and the fairness count follows. -/
def grant (b : Bridge) : Option Bridge :=
  match b.mport.choice b.atMustLevel with
  | none => none
  | some q =>
    let left := b.mport.waiting.filter (fun x => x.id != q.id)
    some { b with mport := {
      waiting := left
      outstanding := b.mport.outstanding ++
        [if q.access = .mirror then { q with data := b.control.mirrorBytes } else q]
      fairness := if q.forwarded = true ∧ left.any (fun x => !x.forwarded) = true then b.mport.fairness + 1 else 0 } }

/-! ## The status mirror (R181) -/

/-- The status reads that waited for a mirror write and wait for no other go on (R181). A TABLE read among them that the record
cache allowed is not shown to it again, and does not wait in STARTING and AUDITING (the model's choice, log 37). -/
def freeMirrorWaiters (b : Bridge) : Bridge :=
  b.iport.inflight.foldl (fun b r =>
    if r.phase = .mirrorWait ∧ r.mirrors = [] then (if r.cls = .table then b.passOn r else b.forward r.id) else b) b

/-- A status mirror write is answered, OKAY or ERROR (R181). -/
def mirrorDone (b : Bridge) (id : Nat) : Bridge :=
  freeMirrorWaiters { b with iport := { b.iport with
    inflight := b.iport.inflight.map (fun r => { r with mirrors := r.mirrors.filter (fun x => x != id) }) } }

end Bridge

/-! ## The rows -/

/-- The classes of TAP_REQUEST: a request touching the aperture, or one whose class waits. -/
def tapRow (c : RequestClass) (_write : Bool) : Bool := c == .tap || c == .apertureWait || c == .unknown

/-- The classes of PLAIN_REQUEST: PLAIN and ANCHOR-START, or one whose class waits. -/
def plainRow (c : RequestClass) (_write : Bool) : Bool := c == .plain || c == .anchorStart || c == .unknown

/-- The classes of TABLE_READ. -/
def tableReadRow (c : RequestClass) (write : Bool) : Bool :=
  !write && (c == .table || c == .tableWait || c == .unknown)

/-- The classes of TABLE_WRITE. -/
def tableWriteRow (c : RequestClass) (write : Bool) : Bool :=
  write && (c == .table || c == .tableWait || c == .unknown)

/-- Accepts forwarded traffic. -/
def isForward (a : Access) : Bool := a.bridgeClass == 0

/-- Accepts a status mirror write. -/
def isMirror (a : Access) : Bool := a == .mirror

/-- TAP_REQUEST (R27). -/
def execTapRequest (src : Arrival) (s : State) : Host.Outcome State Fault Refusal :=
  s.event (fun b => (b.arrive tapRow src).map Bridge.settle)

/-- PLAIN_REQUEST (R175). -/
def execPlainRequest (src : Arrival) (s : State) : Host.Outcome State Fault Refusal :=
  s.event (fun b => (b.arrive plainRow src).map Bridge.settle)

/-- TABLE_READ (R117). -/
def execTableRead (src : Arrival) (s : State) : Host.Outcome State Fault Refusal :=
  s.event (fun b => (b.arrive tableReadRow src).map Bridge.settle)

/-- TABLE_WRITE (R118). -/
def execTableWrite (src : Arrival) (s : State) : Host.Outcome State Fault Refusal :=
  s.event (fun b => (b.arrive tableWriteRow src).map Bridge.settle)

/-- Memory answers the forwarded request with a handle (R178). -/
def forwardedAnswer (id : Nat) (ok : Bool) (s : State) : Host.Outcome State Fault Refusal :=
  s.answered id ok false isForward (fun _ data b => (b.forwardedDone id ok data).settle)

/-- FORWARDED_REQUEST_DONE (R178). -/
def execForwardedRequestDone (id : Nat) (ok : Bool) (s : State) : Host.Outcome State Fault Refusal :=
  forwardedAnswer id ok s

/-- START (R184): the completion of a start-word write of 1 in PASS. -/
def execStartBridge (id : Nat) (s : State) : Host.Outcome State Fault Refusal :=
  if s.chip.startWordOf id = some 1 ∧ s.chip.control.state = .pass then forwardedAnswer id true s else .next s

/-- STOP (R188): the completion of a start-word write of 2 where STOP is taken, or the STOP command. -/
def execStopBridge (src : StopSource) (s : State) : Host.Outcome State Fault Refusal :=
  match src with
  | .startWord id =>
    if s.chip.startWordOf id = some 2 ∧ s.chip.takesStop = true then forwardedAnswer id true s else .next s
  | .command => s.event (fun b => b.stopCommand.map Bridge.settle)

/-- MPORT_GRANT (R179). -/
def execMportGrant (s : State) : Host.Outcome State Fault Refusal := s.event Bridge.grant

/-- STATUS_MIRROR_WRITE_DONE (R181). A write answered ERROR leaves the mirror stale in memory. -/
def execStatusMirrorWriteDone (id : Nat) (ok : Bool) (s : State) : Host.Outcome State Fault Refusal :=
  s.answered id ok true isMirror (fun _ _ b => (b.mirrorDone id).settle)

end Sys2Proof.Machine
end

