-- ==== Sys2Proof/Machine/Resets.lean ====
section
/-! DEFINITION. The resets (R189, R190): power-on reset, its end, and warm reset with what it undoes in each block (R124, R146,
R162, R166, R171, R174). -/

namespace Sys2Proof.Machine

namespace Bridge

/-! ## Power-on reset (R190) -/

/-- The data of the ERROR response that a reset gives a request: none for a write, zeros for a tap's read (R34), free bytes
for another read (R174; log 5). -/
def resetData (draw : Nat) (r : InFlight) : List Byte :=
  if r.request.write then []
  else if r.cls = .tap then List.replicate r.request.size.bytes 0
  else errorBytes draw (r.id * 64) r.request.size.bytes

/-- A request in flight at power-on reset (R174): one that was issued to memory stays, and so does its answer; every other is
answered ERROR. A TAP never goes to memory, so its answer that has not left yet becomes ERROR too. -/
def resetRequest (draw : Nat) (outstanding : List MemRequest) (r : InFlight) : InFlight :=
  match r.phase with
  | .answered _ _ => if r.cls = .tap then { r with phase := .answered false (resetData draw r) } else r
  | .forwarded =>
    if outstanding.any (fun q => q.id == r.id) then r else { r with phase := .answered false (resetData draw r) }
  | .waiting | .snooping _ | .moveWait _ | .mirrorWait | .tapped =>
    { r with phase := .answered false (resetData draw r) }

/-- Power-on reset (R190): every block at its power-on state; the requests in flight as R174 says; what memory was given before
completes there, and the bridge's own requests among it are let go (R146, R179). -/
def powerOnReset (b : Bridge) : Bridge :=
  drain { Bridge.powerOn with
    iport := { b.iport with inflight := b.iport.inflight.map (resetRequest b.freeDraws b.mport.outstanding) }
    mport := ⟨[], b.mport.outstanding.map (fun q => { q with abandoned := q.abandoned || !q.forwarded }), 0⟩
    control := Control.powerOn b.control.straps
    nextHandle := b.nextHandle
    freeDraws := b.freeDraws + 1 }

/-- Power-on reset ends: the straps are sampled (R180). -/
def endReset (b : Bridge) (straps : Fin 16) : Option Bridge :=
  if b.control.resetHeld then some { b with control := { b.control with straps := straps, resetHeld := false } } else none

/-! ## Warm reset (R189) -/

/-- Step 1 (R189): every TAP request not yet answered is answered ERROR, unrecorded (R34). -/
def abandonTaps (b : Bridge) : Bridge :=
  drain { b with iport := { b.iport with inflight := b.iport.inflight.map (fun r =>
    if r.cls = .tap then
      match r.phase with
      | .answered _ _ => r
      | .waiting | .snooping _ | .moveWait _ | .mirrorWait | .tapped | .forwarded =>
        { r with phase := .answered false (if r.request.write then [] else List.replicate r.request.size.bytes 0) }
    else r) } }

/-- An access of the move engine's own (R146); its item accesses are discarded at their entry. -/
def engineAccess (a : Access) : Bool :=
  a == .moveRead || a == .storeBack || a == .spanRead || a == .spanWrite

/-- Step 2 (R189, R146): the loaded move is abandoned, its own accesses that memory was not given are withdrawn (log 17), the
others let go of, and the TABLE accesses that waited for it go on. -/
def abandonMove (b : Bridge) : Bridge :=
  freeMoveWaiters { b with
    engine := Engine.unloaded .idle false
    mport := { b.mport with
      waiting := b.mport.waiting.filter (fun q => !engineAccess q.access)
      outstanding := b.mport.outstanding.map (fun q => { q with abandoned := q.abandoned || engineAccess q.access }) } }

/-- Step 3 (R189, R162): the trigger unit is cleared and the pending entries counted. -/
def abandonPending (b : Bridge) : Bridge :=
  { b with
    trigger := TriggerUnit.nothing
    control := { b.control with clearedPending := b.trigger.pending.length } }

/-- Step 4 (R189, R171): the queued notices are discarded and counted (R170), oldest first, which decides the first dropped kind
(the model's choice, log 36). -/
def discardNotices (b : Bridge) : Bridge :=
  b.notices.queue.foldl (fun b x => b.dropNotice x.kind) { b with notices := ⟨[], false⟩ }

/-- Step 5 (R189, R166). -/
def abandonCommand (b : Bridge) : Bridge := { b with command := CommandUnit.nothing }

end Bridge

/-- What stays of a waiting list at warm reset: the TABLE accesses (R124). -/
def CacheOp.survivesWarm : CacheOp → Bool
  | .tableRead _ | .tableWrite _ => true
  | .tap _ | .engine _ | .commandTake | .command | .noticePut | .release => false

/-- A write-back that goes on at warm reset is for no claimed index any more (R124). -/
def EntryState.atWarm : EntryState → EntryState
  | .writing (.claim _) => .writing .other
  | .writing .must => .writing .must
  | .writing .tableRead => .writing .tableRead
  | .writing .other => .writing .other
  | .fetching issued => .fetching issued
  | .clean => .clean
  | .dirty => .dirty

/-- The entry with its pin released (R113, R13): CLOSING becomes CLOSED, which makes a CLEAN entry DIRTY; the held writes go to
the front of the waiting list (R119). An entry that is being written back stays so (log 13). -/
def Entry.unpinned (e : Entry) : Entry :=
  let d : Descriptor := if e.copy.state = stClosing then { e.copy with state := stClosed } else e.copy
  { e with
    copy := d
    state := if d = e.copy then e.state else if e.state = .clean then .dirty else e.state
    pin := false
    held := []
    heldRelease := false
    waiting := e.held.map CacheOp.tableWrite ++ (if e.heldRelease then [.release] else []) ++ e.waiting }

/-- An entry at warm reset (R124): an item access in progress goes on without effect; the waiting operations that are not TABLE
accesses are discarded; the pin and the reservation are released. -/
def Entry.atWarm (e : Entry) : Entry :=
  let e1 := if e.pin then e.unpinned else e
  { e1 with
    state := e1.state.atWarm
    reservation := false
    waiting := e1.waiting.filter CacheOp.survivesWarm
    busy := e1.busy.map (fun w => { w with work := .abandoned })
    flushMark := false }

namespace Bridge

/-- The entry of an index, if one holds it, is FREE, with all that waits for it then (R124). -/
def dropIndex (b : Bridge) (n : Nat) : Bridge :=
  match b.entry? n with
  | some e => b.dropEntry e
  | none => b

/-- The entries whose fetch was not issued are FREE at warm reset; the TABLE accesses that wait for them go on (R124), one of
them to the next such entry, it may be. -/
def dropUnissued (b : Bridge) : Bridge :=
  ((b.cache.filter (fun e => e.state == .fetching false)).map Entry.index).foldl dropIndex b

/-- Step 6 (R189, R124) as far as it happens at once: what every entry holds, and the miss list. -/
def warmCache (b : Bridge) : Bridge :=
  dropUnissued { b with cache := b.cache.map Entry.atWarm, misses := [] }

/-- Warm reset is asserted (R189): in PASS and in WARM it does nothing (R183). The write-backs and the return to PASS follow by
themselves (`settle`). -/
def warmReset (b : Bridge) : Option Bridge :=
  if b.control.state = .pass ∨ b.control.state = .warm then none
  else
    let b1 := setState { b with control := { b.control with
      idleTimer := none, audit := none, findings := [], emptying := false, stopStage := .none } } .warm
    some b1.abandonTaps.abandonMove.abandonPending.discardNotices.abandonCommand.warmCache

end Bridge

/-! ## The rows -/

/-- POWER_ON_RESET (R190). -/
def execPowerOnReset (s : State) : Host.Outcome State Fault Refusal := s.event (fun b => some b.powerOnReset)

/-- POWER_ON_RESET_END (R180). -/
def execPowerOnResetEnd (straps : Fin 16) (s : State) : Host.Outcome State Fault Refusal :=
  s.event (fun b => b.endReset straps)

/-- WARM_RESET (R189). -/
def execWarmReset (s : State) : Host.Outcome State Fault Refusal :=
  s.event (fun b => b.warmReset.map Bridge.settle)

end Sys2Proof.Machine
end

