-- ==== Sys2Proof/Machine/Dispatch.lean ====
section
/-! DEFINITION. One arm per command of `Instr`, each one call of its meaning. -/

namespace Sys2Proof.Machine

/-- The effect of a command on everything but the queue. -/
def exec (i : Instr) (s : State) : Host.Outcome State Fault Refusal :=
  match i with
  | .powerOnReset => Sys2Proof.Machine.execPowerOnReset s
  | .warmReset => Sys2Proof.Machine.execWarmReset s
  | .tapRequest src => Sys2Proof.Machine.execTapRequest src s
  | .plainRequest src => Sys2Proof.Machine.execPlainRequest src s
  | .tableRead src => Sys2Proof.Machine.execTableRead src s
  | .tableWrite src => Sys2Proof.Machine.execTableWrite src s
  | .forwardedRequestDone id ok => Sys2Proof.Machine.execForwardedRequestDone id ok s
  | .mportGrant => Sys2Proof.Machine.execMportGrant s
  | .statusMirrorWriteDone id ok => Sys2Proof.Machine.execStatusMirrorWriteDone id ok s
  | .ringPut n => Sys2Proof.Machine.execRingPut n s
  | .ringTake n => Sys2Proof.Machine.execRingTake n s
  | .ringPeek n => Sys2Proof.Machine.execRingPeek n s
  | .ringLevel n => Sys2Proof.Machine.execRingLevel n s
  | .readStatus n => Sys2Proof.Machine.execReadStatus n s
  | .stackPush n => Sys2Proof.Machine.execStackPush n s
  | .stackPop n => Sys2Proof.Machine.execStackPop n s
  | .stackTop n => Sys2Proof.Machine.execStackTop n s
  | .stackDepth n => Sys2Proof.Machine.execStackDepth n s
  | .stackMark n => Sys2Proof.Machine.execStackMark n s
  | .stackUnwind n => Sys2Proof.Machine.execStackUnwind n s
  | .tallyNext n => Sys2Proof.Machine.execTallyNext n s
  | .tallyAdd n => Sys2Proof.Machine.execTallyAdd n s
  | .tallySet n => Sys2Proof.Machine.execTallySet n s
  | .tallyValue n => Sys2Proof.Machine.execTallyValue n s
  | .tallyWraps n => Sys2Proof.Machine.execTallyWraps n s
  | .ringItemAccessDone id ok => Sys2Proof.Machine.execRingItemAccessDone id ok s
  | .stackItemAccessDone id ok => Sys2Proof.Machine.execStackItemAccessDone id ok s
  | .commandUnitTake => Sys2Proof.Machine.execCommandUnitTake s
  | .cmdNop => Sys2Proof.Machine.execCmdNop s
  | .cmdFlush => Sys2Proof.Machine.execCmdFlush s
  | .cmdRelease n => Sys2Proof.Machine.execCmdRelease n s
  | .cmdAbort n => Sys2Proof.Machine.execCmdAbort n s
  | .cmdOpen n => Sys2Proof.Machine.execCmdOpen n s
  | .cmdClose n => Sys2Proof.Machine.execCmdClose n s
  | .cmdClearFault n => Sys2Proof.Machine.execCmdClearFault n s
  | .cmdCloseGuard n => Sys2Proof.Machine.execCmdCloseGuard n s
  | .cmdArm n => Sys2Proof.Machine.execCmdArm n s
  | .cmdDisarm n => Sys2Proof.Machine.execCmdDisarm n s
  | .cmdTrigger m => Sys2Proof.Machine.execCmdTrigger m s
  | .cmdStopMove m => Sys2Proof.Machine.execCmdStopMove m s
  | .cmdPauseMoves => Sys2Proof.Machine.execCmdPauseMoves s
  | .cmdResumeMoves => Sys2Proof.Machine.execCmdResumeMoves s
  | .startBridge id => Sys2Proof.Machine.execStartBridge id s
  | .stopBridge src => Sys2Proof.Machine.execStopBridge src s
  | .anchorReadDone id ok => Sys2Proof.Machine.execAnchorReadDone id ok s
  | .auditReadDone id ok => Sys2Proof.Machine.execAuditReadDone id ok s
  | .auditWriteDone id ok => Sys2Proof.Machine.execAuditWriteDone id ok s
  | .auditFaultNotice => Sys2Proof.Machine.execAuditFaultNotice s
  | .fetchComplete id ok => Sys2Proof.Machine.execFetchComplete id ok s
  | .writeBackComplete id ok => Sys2Proof.Machine.execWriteBackComplete id ok s
  | .arbiterChoice => Sys2Proof.Machine.execArbiterChoice s
  | .moveDescriptorReadDone id ok => Sys2Proof.Machine.execMoveDescriptorReadDone id ok s
  | .pinEnd => Sys2Proof.Machine.execPinEnd s
  | .reservationStep => Sys2Proof.Machine.execReservationStep s
  | .moveTake => Sys2Proof.Machine.execMoveTake s
  | .spanReadDone id ok => Sys2Proof.Machine.execSpanReadDone id ok s
  | .movePut => Sys2Proof.Machine.execMovePut s
  | .spanWriteDone id ok => Sys2Proof.Machine.execSpanWriteDone id ok s
  | .storeBackDone id ok => Sys2Proof.Machine.execStoreBackDone id ok s
  | .pinRelease => Sys2Proof.Machine.execPinRelease s
  | .runEndReport => Sys2Proof.Machine.execRunEndReport s
  | .completionProcessing => Sys2Proof.Machine.execCompletionProcessing s
  | .noticePut => Sys2Proof.Machine.execNoticePut s
  | .idleTimerExpiry => Sys2Proof.Machine.execIdleTimerExpiry s
  | .stopClearPending => Sys2Proof.Machine.execStopClearPending s
  | .stopEmptyCache => Sys2Proof.Machine.execStopEmptyCache s
  | .powerOnResetEnd straps => Sys2Proof.Machine.execPowerOnResetEnd straps s

end Sys2Proof.Machine
end

