-- ==== Sys2Proof/Machine/Step.lean ====
section
/-! DEFINITION. A step: the command at the front of the queue, or one microsecond of the idle timer when the queue is empty
(log 8). -/

namespace Sys2Proof.Machine

/-- One step (the row's cut): the front command's effect on the state with the rest of the queue. -/
def step (s : State) : Host.Outcome State Fault Refusal :=
  match s.pending with
  | [] => .next { s with chip := s.chip.tick }
  | c :: rest => exec c { s with pending := rest }

/-- The state with the command that a word of the table spells put at the front of its queue; unchanged where the word spells
none. -/
def State.withFetchWord (s : State) (nbits w : Nat) : State :=
  match decodeTableWord nbits w with
  | some c => { s with pending := c :: s.pending }
  | none => s

end Sys2Proof.Machine
end

