-- ==== Sys2Proof/Safety.lean ====
section
/-! DEFINITION. The terms in which the statements about this machine are made: whose turn has come, which answer has come, what
a step leaves, and the invariants of a run. -/

namespace Sys2Proof.Machine

/-! ## Whose turn has come -/

/-- The tap `t` stands at the front of the waiting list of the ready entry `e` of structure `n`, selects the operation `k`,
and passes the third, fourth and fifth checks (R24, R26, R105). -/
abbrev TapTurn (b : Bridge) (n : Nat) (k : TapKind) (t : Tap) (e : Entry) : Prop :=
  b.entry? n = some e ∧ e.ready = true ∧ e.waiting.head? = some (.tap t) ∧ e.copy.fit t = some k
    ∧ e.copy.gate n k t.initiator = none

/-- The command unit holds the command `c` with operation `op`, judged and not yet carried out (R163, R164). -/
abbrev Holds (b : Bridge) (op : Byte) (c : CommandItem) : Prop :=
  b.command.state = .carrying ∧ b.command.stage = .judged ∧ b.command.held = some c ∧ c.op = op

/-- The held command `c` names structure `n`, and its operation stands at the front of the waiting list of the ready entry
`e`, whose kind is not OFF (R164). -/
abbrev CommandTurn (b : Bridge) (op : Byte) (n : Nat) (c : CommandItem) (e : Entry) : Prop :=
  Holds b op c ∧ c.struct.toNat = n ∧ b.entry? n = some e ∧ e.ready = true ∧ e.waiting.head? = some .command
    ∧ e.copy.isOff = false

/-- The engine's operation stands at the front of the waiting list of the ready entry `e` of structure `n` (R105). -/
abbrev EngineTurn (b : Bridge) (n : Nat) (op : EngineOp) (e : Entry) : Prop :=
  b.entry? n = some e ∧ e.ready = true ∧ e.waiting.head? = some (.engine op)

/-- The request in flight `x`, with handle `id`, waits at the I-port, and no earlier request of its initiator does (R176). -/
abbrev ItsTurn (b : Bridge) (id : Nat) (x : InFlight) : Prop :=
  b.inflight? id = some x ∧ x.phase = .waiting
    ∧ ∀ y ∈ b.iport.inflight.takeWhile (fun y => y.id != id),
        y.request.initiator = x.request.initiator → Bridge.holdsBack y.phase = false

/-- A bridge that has forwarded the request in flight `x` under its own handle, unchanged (R178). -/
def Bridge.forwarded (b : Bridge) (x : InFlight) : Bridge :=
  { b with
    iport := { b.iport with
      inflight := b.iport.inflight.map (fun r => if r.id = x.id then { r with phase := .forwarded } else r) }
    mport := { b.mport with waiting := b.mport.waiting ++
      [⟨x.id, .forward x.id, x.request.write, x.request.addr.toNat, x.request.data, x.request.size.bytes, false⟩] } }

/-- The entry `e` of structure `n` with its first waiting operation applied as `f` says, at the front of the recency list
(R104, R105), also when the operation is refused (the model's reading, log 33). -/
def Bridge.applied (b : Bridge) (n : Nat) (e : Entry) (f : Entry → Entry) : Bridge :=
  { b with cache := f { e with waiting := e.waiting.tail } :: b.cache.filter (fun x => x.index != n) }

/-- A bridge with one more request waiting at the M-port (R178). -/
def Bridge.requesting (b : Bridge) (access : Access) (write : Bool) (addr : Nat) (data : List Byte) (length : Nat) : Bridge :=
  { b with
    mport := { b.mport with waiting := b.mport.waiting ++ [⟨b.nextHandle, access, write, addr, data, length, false⟩] }
    nextHandle := b.nextHandle + 1 }

/-! ## What becomes of operations and of those they serve -/

/-- The command unit IDLE after a take that yields nothing (R163). -/
def Bridge.unitIdles (b : Bridge) (empty : Bool) : Bridge :=
  { b with command := { b.command with state := .idle, held := none, stage := .judged, lastEmpty := empty } }

/-- The oldest notice dropped and counted (R168, R170). -/
def Bridge.dropsFirst (b : Bridge) : Bridge :=
  match b.notices.queue with
  | [] => { b with notices := ⟨[], false⟩ }
  | x :: rest => Bridge.dropNotice { b with notices := ⟨rest, false⟩ } x.kind

/-- An item was stored for a party (R43, R72, R137, R168). -/
def Bridge.storesFor (b : Bridge) (p : Party) : Bridge :=
  match p with
  | .tap t => b.answer t.id true []
  | .engine => b.disposed
  | .noticeWriter => { b with notices := ⟨b.notices.queue.tail, false⟩ }
  | .commandUnit => b

/-- An item left its structure, or was read, for a party (R44, R73, R136, R164). -/
def Bridge.takesFor (b : Bridge) (p : Party) (item : List Byte) : Bridge :=
  match p with
  | .tap t => b.answer t.id true item
  | .engine => b.gotItem item
  | .commandUnit => b.judgeCommand (CommandItem.ofBytes item)
  | .noticeWriter => b

/-- An item access answered with an error (R42, R68, R14): the structure is HALTED with cause MEMORY, a FAULT notice carries
its level, and the party is told (R139, R163, R168); a tap's REFUSAL notice joins behind it (the model's choice, log 31), and
a debug-tagged read halts as any other (log 34). A structure HALTED already stays so and no FAULT notice is queued, also when
its cause is RESERVE (the model's reading, log 44). -/
def Bridge.failsFor (b : Bridge) (n : Nat) (d : Descriptor) (p : Party) : Bridge :=
  let halted (b : Bridge) : Bridge := if d.state = stHalted then b else
    (b.writeCopy n { d with state := stHalted, cause := causeMemory }).notify
      { kind := .fault, cause := .memory, struct := some (BitVec.ofNat 8 n), move := none, initiator := none,
        itemLost := false, writeback := false, tag := 0, value := BitVec.ofNat 32 d.level }
  match p with
  | .tap t => (halted b).refuseTap t .memory
  | .engine => (halted b).endRun .memory b.engine.transit.isSome (some n)
  | .commandUnit => (halted b).unitIdles false
  | .noticeWriter => halted b.dropsFirst

/-- An operation whose entry of structure `n` was dropped (R108, R118, R119, R122; log 15): a TABLE access is allowed, a
RELEASE is done, every other operation is a miss. -/
def Bridge.goesOn (n : Nat) (b : Bridge) (op : CacheOp) : Bridge :=
  match op with
  | .tableRead id | .tableWrite id => b.allow n id
  | .release => b.commandDone
  | .tap _ | .engine _ | .commandTake | .command | .noticePut => { b with misses := b.misses ++ [(n, op)] }

/-- An operation whose fetch of structure `n` failed (R110, R159, R163, R168). -/
def Bridge.fetchFails (n : Nat) (b : Bridge) (op : CacheOp) : Bridge :=
  match op with
  | .tap t => b.refuseTap t .halted
  | .engine .completion => { b with trigger := { b.trigger with completion := none } }
  | .engine _ => b.endRun .memory false (some n)
  | .command => b.commandRefused .halted
  | .commandTake => b.unitIdles false
  | .noticePut => b.dropsFirst
  | .tableRead id | .tableWrite id => b.allow n id
  | .release => b.commandDone

/-! ## What a step leaves -/

/-- A step of the bridge that touches no memory: the effect `b`, and what the bridge then does by itself. -/
def After (s : State) (b : Bridge) : Host.Outcome State Fault Refusal := .next { s with chip := b.settle }

/-- The answer to the request `q` of the access kind `accepts` can come: it is outstanding and no reset let go of it. -/
abbrev AnswerDue (s : State) (id : Nat) (accepts : Access → Bool) (q : MemRequest) : Prop :=
  s.chip.mport.outstanding.find? (fun x => x.id == id && accepts x.access) = some q ∧ q.abandoned = false

/-- The bridge once the request with handle `id` has left the M-port. -/
def Bridge.received (b : Bridge) (id : Nat) : Bridge :=
  { b with
    mport := { b.mport with outstanding := b.mport.outstanding.filter (fun x => x.id != id) }
    freeDraws := b.freeDraws + 1 }

/-- A step in which memory answers the request `q`: memory as `memAfter` says, the effect `b`, and what the bridge then does
by itself. -/
def AfterAnswer (s : State) (q : MemRequest) (ok keeps : Bool) (b : Bridge) : Host.Outcome State Fault Refusal :=
  .next { s with mem := s.memAfter q ok keeps, chip := b.settle }

/-- The handle of the memory request whose answer a command is. -/
def answeredHandle : Instr → Option Nat
  | .forwardedRequestDone id _ | .statusMirrorWriteDone id _ | .ringItemAccessDone id _ | .stackItemAccessDone id _
  | .startBridge id | .stopBridge (.startWord id) | .anchorReadDone id _ | .auditReadDone id _ | .auditWriteDone id _
  | .fetchComplete id _ | .writeBackComplete id _ | .moveDescriptorReadDone id _ | .spanReadDone id _
  | .spanWriteDone id _ | .storeBackDone id _ => some id
  | _ => none

/-! ## Regions -/

/-- Two runs of bytes, each an address and a length, share a byte. -/
def Meet (a n b k : Nat) : Prop := ∃ x, a ≤ x ∧ x < a + n ∧ b ≤ x ∧ x < b + k

/-- A run of bytes avoids the anchor, the aperture, the structure table and the move table (R17, R126). -/
def ClearOfRegions (g : Settings) (straps : Fin 16) (a n : Nat) : Prop :=
  ¬ Meet a n (straps.val * 2 ^ 28) 64 ∧ ¬ Meet a n g.apertureBase 8192 ∧ ¬ Meet a n g.tableBase (g.structureCount * 64)
    ∧ ¬ Meet a n g.moveBase (g.moveCount * 32)

/-! ## Records -/

/-- The byte of a record at an offset; 0 past its end. -/
def byteIn (bs : List Byte) (i : Nat) : Byte := bs[i]?.getD 0

/-- The 16-bit number of a record at an offset, the low byte first (spec/00 "Addresses and data"). -/
def halfIn (bs : List Byte) (i : Nat) : Half := byteIn bs (i + 1) ++ byteIn bs i

/-- The 32-bit number of a record at an offset, the low byte first. -/
def wordIn (bs : List Byte) (i : Nat) : Word := halfIn bs (i + 2) ++ halfIn bs i

/-! ## Invariants -/

/-- Memory is in its canonical form (log 2). -/
abbrev MemoryOk (s : State) : Prop := Memory.wf s.mem = true

/-- The index that a WRITING entry is claimed for (R108). -/
def Entry.claim (e : Entry) : Option Nat :=
  match e.state with
  | .writing (.claim n) => some n
  | _ => none

/-- The record cache holds at most 16 entries, no index in two of them, none both held and claimed nor claimed twice, and no
index of the miss list (R102, R106, R108). -/
abbrev CacheOk (b : Bridge) : Prop :=
  b.cache.length ≤ 16 ∧ (b.cache.map Entry.index ++ b.cache.filterMap Entry.claim).Nodup
    ∧ ∀ p ∈ b.misses, p.1 ∉ b.cache.map Entry.index

/-- The I-port holds at most 32 requests in flight (R174). -/
abbrev InFlightOk (b : Bridge) : Prop := b.iport.inflight.length ≤ 32

/-- The fairness count is at most 8 (R179). -/
abbrev FairnessOk (b : Bridge) : Prop := b.mport.fairness ≤ 8

/-- The notice writer queue holds at most 8 notices, and the dropped-notice count is at most 65535 (R168, R170). -/
abbrev NoticesOk (b : Bridge) : Prop := b.notices.queue.length ≤ 8 ∧ b.control.dropped ≤ 65535

/-- The requests in flight have handles of their own, and later ones will have others (log 16). -/
abbrev HandlesOk (b : Bridge) : Prop :=
  (b.iport.inflight.map InFlight.id).Nodup ∧ ∀ r ∈ b.iport.inflight, r.id < b.nextHandle

/-- The release level in use is below the must level (R115, R184). -/
abbrev SettingsOk (b : Bridge) : Prop := ∀ g, b.control.settings = some g → g.releaseLevel < g.mustLevel

/-- The pending set holds each move index once, in rising order, so that its first move is the lowest (R148, R150, R155). -/
abbrev PendingOk (b : Bridge) : Prop := b.trigger.pending.Pairwise (fun x y => x.move < y.move)

/-! ## The laws of the device (R40, R41, R66, R69, R90) -/

/-- A working copy of structure `n`, held with reservation `r`, that is not HALTED with cause DESCRIPTOR obeys the law of its
kind: a ring's head below the capacity and its count with the reservation within it (R40, R41); a stack's frame within its depth
and its depth within the capacity, and within the limit while the guard is closed, a guard open only with OVERFLOW or a halting
cause, and the limit five below the capacity (R66, R69); a tally's value within its bounds (R90). Its kind is legal, and RING
for structures 0 and 1 (R17, R19, R20). -/
structure CopyLaw (n : Nat) (d : Descriptor) (r : Bool) : Prop where
  legal : d.kind.toNat ≤ 3
  ends : n ≤ 1 → d.kind = kindRing
  ring : d.kind = kindRing → d.head < d.cap ∧ d.count + (if r then 1 else 0) ≤ d.cap
  stack : d.kind = kindStack → d.frame ≤ d.depth ∧ d.depth ≤ d.cap ∧ d.limit + 5 ≤ d.cap
    ∧ (d.b38 ≠ 1 → d.depth ≤ d.limit)
    ∧ (d.b38 = 1 → d.cause = causeOverflow ∨ d.cause = causeReserve ∨ d.cause = causeMemory ∨ d.cause = causeDescriptor)
  tally : d.kind = kindTally → d.lower ≤ d.value ∧ d.value ≤ d.upper

/-- The item access in progress on a working copy (R42, R68) was found possible and still is: the operation belongs to the
kind, and its completion leaves the law of the kind intact. The move engine's put into a ring takes the place that its
reservation kept (R56). -/
abbrev AccessLaw (d : Descriptor) (r : Bool) (w : Busy) : Prop :=
  let ring := d.kind = kindRing ∧ d.descriptorHalt = false
  let stack := d.kind = kindStack ∧ d.descriptorHalt = false
  match w.work with
  | .ringPut => ring ∧ d.count + (if r = true ∧ w.party ≠ .engine then 1 else 0) < d.cap
  | .ringTake => ring
  | .stackPush | .stackMark => stack ∧ d.depth < d.cap ∧ (d.b38 ≠ 1 → d.depth < d.limit)
  | .stackPop => stack ∧ d.frame < d.depth
  | .stackUnwind => stack
  | .stackOverflow _ => stack ∧ d.depth + 5 ≤ d.cap
  | .ringPeek | .stackTop | .abandoned => True

/-- The entry is being fetched (R103). -/
def EntryState.isFetching : EntryState → Bool
  | .fetching _ => true
  | .clean | .dirty | .writing _ => false

/-- An entry of the record cache: while it is FETCHING it has no pin, no reservation and no operation in progress, and while it
is claimed no pin (R106, R107, R113); otherwise its working copy and its item access obey the laws, a pinned copy is of a kind
that can be an end (R133), and a reservation stands on no marked copy and not on structure 1 (R135, R132). -/
structure EntryLaw (e : Entry) : Prop where
  fetching : e.state.isFetching = true → e.pin = false ∧ e.reservation = false ∧ e.busy = none
  claimed : e.claim.isSome = true → e.pin = false
  copy : e.state.isFetching = false → e.copy.descriptorHalt = false → CopyLaw e.index e.copy e.reservation
  access : ∀ w, e.busy = some w → AccessLaw e.copy e.reservation w
  pinned : e.pin = true → e.copy.kind ≠ kindOff ∧ e.copy.kind ≠ kindTally
  reserved : e.reservation = true → e.index ≠ 1 ∧ e.copy.descriptorHalt = false

/-- An operation of a run of the move engine (R105): not the trigger unit's completion processing. -/
def CacheOp.ofRun : CacheOp → Bool
  | .engine .completion => false
  | .engine _ => true
  | .tap _ | .commandTake | .command | .noticePut | .tableRead _ | .tableWrite _ | .release => false

/-- The item access reads an item out of its structure (R44, R73). -/
def ItemWork.takes : ItemWork → Bool
  | .ringTake | .stackPop => true
  | .ringPut | .ringPeek | .stackPush | .stackTop | .stackMark | .stackUnwind | .stackOverflow _ | .abandoned => false

/-- The item access stores an item (R43, R72, R70). -/
def ItemWork.puts : ItemWork → Bool
  | .ringPut | .stackPush | .stackOverflow _ => true
  | .ringTake | .ringPeek | .stackPop | .stackTop | .stackMark | .stackUnwind | .abandoned => false

/-- The item access of a run of the move engine, not abandoned (R42, R68). -/
def Busy.ofRun (w : Busy) : Bool := w.party == .engine && w.work != .abandoned

/-- The operations of a run that stand in an entry: waiting in its list, or in progress on it. -/
def Entry.runs (e : Entry) : Nat := e.waiting.countP CacheOp.ofRun + (if e.busy.any Busy.ofRun then 1 else 0)

/-- The operations of a run that stand in the record cache. -/
def Bridge.runs (b : Bridge) : Nat := b.misses.countP (fun p => p.2.ofRun) + (b.cache.map Entry.runs).sum

/-- The structure on which the engine's step acts (R133 to R137, R142). -/
def Bridge.target (b : Bridge) : Option Nat :=
  match b.engine.step with
  | .pinSource | .take => b.moveCopy.srcStruct
  | .pinDestination | .reserve | .put => b.moveCopy.dstStruct
  | .release => b.engine.pins.head?
  | .none | .readDescriptor | .spanRead | .spanWrite | .store | .report => none

/-- The engine is in an item: its ends are pinned (R133, R134). -/
def EngineStep.inItem : EngineStep → Bool
  | .reserve | .take | .spanRead | .put | .spanWrite => true
  | .none | .readDescriptor | .pinSource | .pinDestination | .store | .release | .report => false

/-- Structure `n` is held and pinned. -/
def Bridge.Pinned (b : Bridge) (n : Nat) : Prop := ∃ e ∈ b.cache, e.index = n ∧ e.pin = true

/-- The move engine and the record cache agree: at most one operation of the run stands in the cache, once it was asked, on the
structure of the engine's step (R105); an access of the run is the take's or the put's; an IDLE or PAUSED engine has nothing
loaded (R130), nor has any out of RUN, QUIET and step 2 of STOPPING (R188, R189); the ends of a run are pinned (R113), its
destination is not structure 1 (R132), an end that is read or written as a SPAN is one (R136, R137), no disposal is decided before
the first item (R135), and a RESERVED item has its reservation (R114, R135). -/
structure EngineLaw (b : Bridge) : Prop where
  one : b.runs ≤ (if b.engine.asked then 1 else 0)
  waits : (∀ p ∈ b.misses, p.2.ofRun = true → b.target = some p.1)
    ∧ ∀ e ∈ b.cache, 0 < e.runs → b.target = some e.index
  access : ∀ e ∈ b.cache, ∀ w, e.busy = some w → w.ofRun = true →
    (w.work.takes = true ∧ b.engine.step = .take) ∨ (w.work.puts = true ∧ b.engine.step = .put)
  idle : b.engine.state = .idle ∨ b.engine.state = .paused → b.engine.step = .none
  rest : b.control.state = .run ∨ b.control.state = .quiet
    ∨ (b.control.state = .stopping ∧ b.control.stopStage = .finishing) ∨ b.engine.step = .none
  source : b.engine.step = .pinDestination ∨ b.engine.step.inItem = true → ∀ n, b.moveCopy.srcStruct = some n → b.Pinned n
  destination : b.engine.step.inItem = true → ∀ n, b.moveCopy.dstStruct = some n → b.Pinned n
  notNotices : b.engine.step = .pinSource ∨ b.engine.step = .pinDestination ∨ b.engine.step.inItem = true →
    b.moveCopy.dstStruct ≠ some 1
  spans : (b.engine.step = .spanRead → b.moveCopy.srcStruct = none)
    ∧ (b.engine.step = .spanWrite ∨ b.engine.disposal = some .write → b.moveCopy.dstStruct = none)
  fresh : b.engine.step = .readDescriptor ∨ b.engine.step = .pinSource ∨ b.engine.step = .pinDestination →
    b.engine.disposal = none
  reserved : b.engine.disposal = some .reserved →
    (b.engine.step = .take ∨ b.engine.step = .spanRead ∨ b.engine.step = .put)
      ∧ ∀ n, b.moveCopy.dstStruct = some n → ∃ e ∈ b.cache, e.index = n ∧ e.pin = true ∧ e.reservation = true

/-- The laws of the device hold of every working copy, with what makes them last: what each item access in progress was found to
be, and the agreement of the move engine with the record cache. -/
structure StructuresOk (b : Bridge) : Prop where
  entries : ∀ e ∈ b.cache, EntryLaw e
  engine : EngineLaw b

/-- What the bridge does by itself leaves of a working copy: an index held with a working copy afterwards was held before,
with the same copy, pin and reservation, and the same item access in progress. -/
def CopiesKept (b b' : Bridge) : Prop :=
  ∀ n e', b'.entry? n = some e' → (∀ issued, e'.state ≠ .fetching issued) →
    ∃ e, b.entry? n = some e ∧ e'.copy = e.copy ∧ e'.pin = e.pin ∧ e'.reservation = e.reservation ∧ e'.busy = e.busy

end Sys2Proof.Machine
end

