-- ==== Sys2Proof/Certificates/Slice0/Obligations.lean ====
section
/-! DEFINITION. The statements for the provers. `s`, `s'` are states, `b` the bridge's effect of the command alone, before what
the bridge then does by itself (`settle`); handles are the model's own (log 16). -/

open Sys2Proof Sys2Proof.Machine

/-! ## Steps, reset, memory -/

/-- A step of the command at the front of the queue is `exec` of it on the state with the rest of the queue (the row's cut;
log 8). -/
def Obligations.StepRunsFrontCommand : Prop :=
  ∀ (c : Instr) (rest : List Instr) (s : State), step { s with pending := c :: rest } = exec c { s with pending := rest }

/-- With no command waiting, a microsecond passes (the model's choice, log 8): a running idle timer counts down by 1, at 1 it
expires as IDLE_TIMER_EXPIRY, and a stopped timer leaves the state as it is. -/
def Obligations.EmptyQueueStepIsOneMicrosecond : Prop :=
  ∀ s : State, s.pending = [] →
    (s.chip.control.idleTimer = none → step s = .next s)
    ∧ (∀ k, s.chip.control.idleTimer = some (k + 2) →
        step s = .next { s with chip := { s.chip with control := { s.chip.control with idleTimer := some (k + 1) } } })
    ∧ (s.chip.control.idleTimer = some 1 → s.chip.control.state = .run → step s = exec .idleTimerExpiry s)

/-- Right after reset (R102, R124, R129, R148, R163, R168, R170, R172, R173, R174, R179, R181, R187, R190): PASS, no request
in flight, no entry, no move, nothing pending, an IDLE command unit, an empty notice queue, stopped timer, clear shadows,
empty status fields; memory lists nothing (log 2). -/
def Obligations.ResetLeavesEveryBlockEmpty : Prop :=
  let b := State.reset.chip
  b.control.state = .pass ∧ b.control.settings = none ∧ b.control.startReason = .none ∧ b.control.dropped = 0
    ∧ b.control.firstDropped = none ∧ b.control.clearedPending = 0 ∧ b.control.lastRefusal = ⟨0, .none, 0, 0⟩
    ∧ b.control.idleTimer = none ∧ b.control.noticeShadow = false
    ∧ b.control.demandShadows = [false, false, false, false]
    ∧ b.iport.inflight = [] ∧ b.mport.waiting = [] ∧ b.mport.outstanding = [] ∧ b.mport.fairness = 0
    ∧ b.cache = [] ∧ b.misses = [] ∧ b.episode = false
    ∧ b.engine.state = .idle ∧ b.engine.move = none ∧ b.engine.transit = none ∧ b.engine.taken = 0
    ∧ b.engine.pauseRequest = false ∧ b.engine.stopRequest = none
    ∧ b.trigger.pending = [] ∧ b.trigger.chain = none ∧ b.trigger.link = none ∧ b.trigger.completion = none
    ∧ b.command.state = .idle ∧ b.command.held = none ∧ b.notices.queue = []
    ∧ State.reset.mem = [] ∧ State.reset.pending = []

/-- The invariants below hold right after reset. -/
def Obligations.InvariantsHoldAtReset : Prop :=
  MemoryOk State.reset ∧ CacheOk State.reset.chip ∧ InFlightOk State.reset.chip ∧ FairnessOk State.reset.chip
    ∧ NoticesOk State.reset.chip ∧ HandlesOk State.reset.chip ∧ SettingsOk State.reset.chip ∧ PendingOk State.reset.chip
    ∧ StructuresOk State.reset.chip

/-- Every step keeps memory's canonical form (log 2). -/
def Obligations.EveryStepKeepsMemoryCanonical : Prop :=
  ∀ s s' : State, MemoryOk s → step s = .next s' → MemoryOk s'

/-- Every step keeps at most 16 entries in the record cache, and no structure index in two of them (R102, with R106 and R108
for the claims and the miss list). -/
def Obligations.EveryStepKeepsEachIndexHeldOnce : Prop :=
  ∀ s s' : State, CacheOk s.chip → step s = .next s' → CacheOk s'.chip

/-- Every step keeps at most 32 requests in flight (R174), the fairness count between 0 and 8 (R179), at most 8 notices in the
queue, and the dropped-notice count at most 65535 (R168, R170); the handles of the requests in flight different and below the
next one (log 16); while settings are in use, the release level below the must level (R184); and each pending move once, the
lowest first (R148, R150, R155). And the laws of the device for the structures, of every working copy held that is not HALTED
with cause DESCRIPTOR: a ring's head below the capacity, its count with the reservation within it (R40, R41); a stack's frame
within its depth, that within the capacity, and within the limit while the guard is closed, which is open only with OVERFLOW
or a halting cause (R66, R69); a tally's value within its bounds (R90). They last with the premise, kept by every step too,
that each item access in progress was found possible (R42, R68) and that the move engine and the record cache agree. -/
def Obligations.EveryStepKeepsCountsInBounds : Prop :=
  ∀ s s' : State, step s = .next s' →
    (InFlightOk s.chip → InFlightOk s'.chip) ∧ (FairnessOk s.chip → FairnessOk s'.chip)
      ∧ (NoticesOk s.chip → NoticesOk s'.chip) ∧ (HandlesOk s.chip → HandlesOk s'.chip)
      ∧ (SettingsOk s.chip → SettingsOk s'.chip) ∧ (PendingOk s.chip → PendingOk s'.chip)
      ∧ (CacheOk s.chip → StructuresOk s.chip → StructuresOk s'.chip ∧ ∀ e ∈ s'.chip.cache,
        (∀ issued, e.state ≠ .fetching issued) →
        let d := e.copy
        let halting := d.cause = causeReserve ∨ d.cause = causeMemory ∨ d.cause = causeDescriptor
        ¬ (d.state = stHalted ∧ d.cause = causeDescriptor) →
          (d.kind = kindRing → d.head < d.cap ∧ d.count + (if e.reservation then 1 else 0) ≤ d.cap)
          ∧ (d.kind = kindStack → d.frame ≤ d.depth ∧ d.depth ≤ d.cap ∧ (d.b38 ≠ 1 → d.depth ≤ d.limit)
            ∧ (d.b38 = 1 → d.cause = causeOverflow ∨ halting))
          ∧ (d.kind = kindTally → d.lower ≤ d.value ∧ d.value ≤ d.upper))

/-- A byte of canonical memory reads as it was last written, and every other byte as before; several bytes land at rising
addresses, modulo 2^32. -/
def Obligations.MemoryReadsWhatWasWritten : Prop :=
  (∀ (m : Memory) (a x : Nat) (v : Byte), Memory.wf m = true →
    Memory.read (Memory.write m a v) x = if x = a then v else Memory.read m x)
  ∧ (∀ (m : Memory) (a : Nat) (bs : List Byte), Memory.wf m = true → a + bs.length ≤ addressSpace →
    Memory.readBytes (Memory.writeBytes m a bs) a bs.length = bs)
  ∧ (∀ (m : Memory) (a x : Nat) (bs : List Byte), (∀ i, i < bs.length → x ≠ (a + i) % addressSpace) →
    Memory.read (Memory.writeBytes m a bs) x = Memory.read m x)

/-- The frame of memory and of the queue, for every command: the queue is unchanged, and every byte of memory outside the
write whose answer the command is reads as before; a command that is no answer, or the answer to a read, changes no byte. -/
def Obligations.OnlyAnsweredWritesChangeMemory : Prop :=
  ∀ (c : Instr) (s s' : State), exec c s = .next s' →
    s'.pending = s.pending
    ∧ ∀ x, (∀ q ∈ s.chip.mport.outstanding, answeredHandle c = some q.id → q.write = true →
          ∀ i, i < max q.data.length q.length → x ≠ (q.addr + i) % addressSpace) →
        Memory.read s'.mem x = Memory.read s.mem x

/-- What the bridge does by itself after an effect goes on until nothing is left: with the invariants, `settle` is the first
of those things and then `settle` again, and leaves none. It changes no engine, trigger unit, granted request, fairness count,
strap or draw, and, with the cache's invariant, no working copy, pin, reservation or item access of an entry that stays held
(R103, R111; the order: log 9). -/
def Obligations.SettlingKeepsCopiesAndEngine : Prop :=
  ∀ b : Bridge, b.settle.engine = b.engine ∧ b.settle.trigger = b.trigger
    ∧ b.settle.mport.outstanding = b.mport.outstanding ∧ b.settle.mport.fairness = b.mport.fairness
    ∧ b.settle.control.straps = b.control.straps ∧ b.settle.freeDraws = b.freeDraws
    ∧ (CacheOk b → CopiesKept b b.settle)
    ∧ (CacheOk b → HandlesOk b → SettingsOk b →
      b.settle.autoStep = none ∧ (b.autoStep = none → b.settle = b) ∧ ∀ b', b.autoStep = some b' → b.settle = b'.settle)

/-- Responses leave in the order of their initiator's requests (R176): with `drain` a request leaves exactly when it is
answered and every earlier request of its initiator is answered too, so that none of those stays behind it; the requests that
stay keep their order; and one response for each that left, in taking order, joins those sent before. -/
def Obligations.ResponsesLeaveInInitiatorOrder : Prop :=
  ∀ b : Bridge, ∃ leaves : Nat → Bool,
    let taken := b.iport.inflight
    let answered (x : InFlight) := ∃ ok data, x.phase = .answered ok data
    (∀ i r, taken[i]? = some r → (leaves i = true ↔
      answered r ∧ ∀ j x, j < i → taken[j]? = some x → x.request.initiator = r.request.initiator → answered x))
    ∧ b.drain.iport.inflight = (taken.zipIdx.filter (fun p => !leaves p.2)).map Prod.fst
    ∧ (∃ out, b.drain.iport.sent = b.iport.sent ++ out
      ∧ out.map (fun x => (x.id, x.initiator, RequestPhase.answered x.ok x.data))
        = (taken.zipIdx.filter (fun p => leaves p.2)).map (fun p => (p.1.id, p.1.request.initiator, p.1.phase)))

/-! ## The shared effects -/

/-- A refused tap is answered ERROR, zeros for a read; unless it is a debug-tagged read, the last-refusal record is replaced
and a REFUSAL notice queued when the anchor enables them (R34, R35, R36, R38). -/
def Obligations.RefusalIsAnsweredErrorAndRecorded : Prop :=
  ∀ (b : Bridge) (t : Tap) (r : Reason),
    let a := b.answer t.id false (if t.write then [] else List.replicate t.length 0)
    (t.debug = true → t.write = false → b.refuseTap t r = a)
    ∧ (t.debug = false ∨ t.write = true →
        (b.refuseTap t r).control.lastRefusal = ⟨t.initiator, r, t.struct, t.offset⟩
        ∧ (b.refuseTap t r).iport = a.iport
        ∧ (b.cfg.refusalNotices = false → (b.refuseTap t r).notices = b.notices)
        ∧ (b.cfg.refusalNotices = true → b.notices.queue.length < 8 →
            (b.refuseTap t r).notices.queue = b.notices.queue ++
              [{ kind := .refusal, cause := r, struct := some (BitVec.ofNat 8 t.struct), move := none,
                 initiator := some t.initiator, itemLost := false, writeback := false, tag := 0,
                 value := BitVec.ofNat 32 t.offset }]))

/-- A notice joins the end of a queue of fewer than 8, and changes nothing else, but that a cache which empties itself for
QUIET stops doing so and the idle timer restarts (R123, R187). It is dropped and counted at a queue of 8 or more: the count
rises by 1 up to 65535, and a drop that finds it at 0 records its kind (R168, R170). -/
def Obligations.NoticeJoinsQueueOrIsCounted : Prop :=
  ∀ (b : Bridge) (x : Notice),
    (b.notices.queue.length < 8 → b.notify x = { b with
      notices := { b.notices with queue := b.notices.queue ++ [x] }
      control := if b.control.emptying = true then { b.control with
          emptying := false, idleTimer := if b.cfg.idleTime = 0 then none else some b.cfg.idleTime }
        else b.control })
    ∧ (8 ≤ b.notices.queue.length → (b.notify x).notices = b.notices
      ∧ (b.control.dropped < 65535 → (b.notify x).control.dropped = b.control.dropped + 1)
      ∧ (b.control.dropped = 65535 → (b.notify x).control = b.control)
      ∧ (b.control.dropped = 0 → (b.notify x).control.firstDropped = some x.kind)
      ∧ (0 < b.control.dropped → (b.notify x).control.firstDropped = b.control.firstDropped))

/-- The report of an operation that changed a level (R54, R81, R149, R151, R169): the trigger move of an armed structure is
posted on a crossing, in RUN and QUIET; a WATERMARK notice is queued on a crossing when enabled, never for structure 1. A post
of a move that is pending merges and the entry keeps its origin; another is added in index order; no other entry changes
(R150, R151). -/
def Obligations.CrossingPostsAndNotifies : Prop :=
  (∀ (b : Bridge) (n : Nat) (before after : Descriptor) (i : Option Initiator) (m : Option Nat),
    let crossing := before.holds = false ∧ after.holds = true
    let b' := b.report n before after i m
    (crossing → after.armed = true → b.control.state = .run ∨ b.control.state = .quiet →
      b'.trigger = { b.trigger with
        pending := Bridge.insertPending b.trigger.pending ⟨after.triggerMove.toNat, .start (.structure n)⟩ })
    ∧ (¬ crossing ∨ after.armed = false ∨ (b.control.state ≠ .run ∧ b.control.state ≠ .quiet) → b'.trigger = b.trigger)
    ∧ (crossing → after.watermarkNotices = true → n ≠ 1 → b.notices.queue.length < 8 →
      b'.notices.queue = b.notices.queue ++
        [{ kind := .watermark, cause := .none, struct := some (BitVec.ofNat 8 n), move := m.map (BitVec.ofNat 8 ·),
           initiator := i, itemLost := false, writeback := false, tag := 0, value := BitVec.ofNat 32 after.level }])
    ∧ (¬ crossing ∨ after.watermarkNotices = false ∨ n = 1 → b'.notices = b.notices)
    ∧ b'.cache = b.cache ∧ b'.engine = b.engine ∧ b'.iport = b.iport)
  ∧ (∀ (l : List PendingMove) (p : PendingMove), l.Pairwise (fun x y => x.move < y.move) →
    (Bridge.insertPending l p).Pairwise (fun x y => x.move < y.move)
      ∧ ((∃ q ∈ l, q.move = p.move) → Bridge.insertPending l p = l)
      ∧ ((∀ q ∈ l, q.move ≠ p.move) → ∀ x, x ∈ Bridge.insertPending l p ↔ x = p ∨ x ∈ l))

/-- The notice line and the demand lines (R172, R173): a line is high in RUN and QUIET while it is enabled and its shadow is
set, a demand line only when its binding names a structure below the count. An operation that changed a level judges them on
the working copy it left: the notice shadow by structure 1's count and high watermark, a demand shadow by the condition of the
bound structure, both clear for a copy HALTED with cause DESCRIPTOR. `judgeLines`, which a fetch uses too, lets each line for
which the copy counts follow that condition, and clears the shadow of a line for which it does not. -/
def Obligations.LinesFollowTheirShadows : Prop :=
  ∀ b : Bridge,
    let live := b.control.state = .run ∨ b.control.state = .quiet
    (b.noticeLineHigh = true ↔ live ∧ b.cfg.noticeLine = true ∧ b.control.noticeShadow = true)
    ∧ (∀ k, b.demandLineHigh k = true ↔ live ∧ b.control.demandShadows[k]? = some true
        ∧ ∃ x, b.cfg.bindings[k]? = some x ∧ x.enable = true ∧ x.index < b.cfg.structureCount)
    ∧ (∀ (n : Nat) (before d : Descriptor) (i : Option Initiator) (m : Option Nat),
      let sound := ¬ (d.state = stHalted ∧ d.cause = causeDescriptor)
      let c := (b.report n before d i m).control
      (n = 1 → (c.noticeShadow = true ↔ d.high.toNat ≤ d.count ∧ sound))
      ∧ (n ≠ 1 → c.noticeShadow = b.control.noticeShadow)
      ∧ (∀ (k : Nat) (x : Binding) (old : Bool), b.cfg.bindings[k]? = some x → b.control.demandShadows[k]? = some old →
        (x.index = n → (c.demandShadows[k]? = some true ↔ d.holds = true ∧ sound))
        ∧ (x.index ≠ n → c.demandShadows[k]? = some old)))
    ∧ (∀ (n : Nat) (d : Descriptor) (demand notice : Bool),
      let c := (b.judgeLines n d demand notice).control
      (n = 1 → (c.noticeShadow = true ↔ d.high.toNat ≤ d.count ∧ notice = true))
      ∧ (n ≠ 1 → c.noticeShadow = b.control.noticeShadow)
      ∧ (∀ (k : Nat) (x : Binding) (old : Bool), b.cfg.bindings[k]? = some x → b.control.demandShadows[k]? = some old →
        (x.index = n → (c.demandShadows[k]? = some true ↔ d.holds = true ∧ demand = true))
        ∧ (x.index ≠ n → c.demandShadows[k]? = some old))
      ∧ b.judgeLines n d demand notice = { b with control := { b.control with
          noticeShadow := c.noticeShadow, demandShadows := c.demandShadows } }
      ∧ (d.holds = true ↔ (d.kind = kindRing ∨ d.kind = kindStack)
        ∧ ((d.condition = condHigh ∧ d.high.toNat ≤ (if d.kind = kindRing then d.count else d.depth))
          ∨ (d.condition = condLow ∧ (if d.kind = kindRing then d.count else d.depth) ≤ d.low.toNat))))

/-! ## Resets -/

/-- Power-on reset (R190, R174, R124, R147, R162): it completes in every state; every block is at its power-on state, memory
and the queue untouched. A request in flight that was issued to memory stays forwarded, or keeps its answer; every other is
answered ERROR, a TAP too whose answer has not left, zeros for a tap's read and free bytes for another read (log 5); answered
requests leave in order. What memory was given completes there, forwarded requests for their initiators and the bridge's own
let go (log 17). When the reset ends, the straps are sampled and nothing else changes (R180); not before it, and not twice.
That the straps keep their last sampled value until then is the model's choice (log 1). -/
def Obligations.PowerOnResetEmptiesEveryBlock : Prop :=
  (∀ s : State,
    let b := s.chip
    let error (r : InFlight) : List Byte := if r.request.write = true then [] else
      if r.cls = .tap then List.replicate r.request.size.bytes 0
      else errorBytes b.freeDraws (r.id * 64) r.request.size.bytes
    let kept (r : InFlight) : Bool := match r.phase with
      | .answered _ _ => decide (r.cls ≠ .tap)
      | .forwarded => b.mport.outstanding.any (fun q => q.id == r.id)
      | _ => false
    let after : Bridge :=
      { iport := ⟨b.iport.inflight.map (fun r => if kept r then r else { r with phase := .answered false (error r) }),
          b.iport.sent⟩
        mport := ⟨[], b.mport.outstanding.map (fun q => if q.forwarded then q else { q with abandoned := true }), 0⟩
        cache := [], misses := [], episode := false
        engine := Engine.unloaded .idle false
        trigger := ⟨[], none, none, none⟩
        command := ⟨.idle, none, .judged, false, false⟩
        notices := ⟨[], false⟩
        control := Control.powerOn b.control.straps
        nextHandle := b.nextHandle
        freeDraws := b.freeDraws + 1 }
    exec .powerOnReset s = .next { s with chip := after.drain })
  ∧ (∀ (s : State) (straps : Fin 16),
    (s.chip.control.resetHeld = true → exec (.powerOnResetEnd straps) s =
      .next { s with chip := { s.chip with control := { s.chip.control with straps := straps, resetHeld := false } } })
    ∧ (s.chip.control.resetHeld = false → exec (.powerOnResetEnd straps) s = .next s))

/-- Warm reset out of PASS and WARM (R189, R124, R146, R162, R166, R171): the engine is IDLE with nothing loaded and none of
its accesses left to grant, the pending set cleared and counted, the queue empty, the command abandoned, the bridge in WARM;
memory is not touched. Every TAP request that was not answered is answered ERROR, with zeros for a read. The entries whose
fetch was not issued are gone; every other stays for the cache to write back, a CLOSING copy whose pin is released as CLOSED,
DIRTY ones DIRTY, WRITING ones WRITING, item accesses in progress without effect, and TABLE accesses alone in its waiting
list, those that waited before in their order, the held writes first. In PASS and WARM it does nothing (R183). That an access
of the engine not granted yet is withdrawn is the model's reading (log 17). -/
def Obligations.WarmResetAbandonsWork : Prop :=
  ∀ s : State,
    ((s.chip.control.state = .pass ∨ s.chip.control.state = .warm) → exec .warmReset s = .next s)
    ∧ (s.chip.control.state ≠ .pass → s.chip.control.state ≠ .warm →
      ∃ b, exec .warmReset s = After s b
        ∧ b.control.state = .warm ∧ b.control.idleTimer = none ∧ b.control.startReason = s.chip.control.startReason
        ∧ b.engine = Engine.unloaded .idle false ∧ b.trigger = ⟨[], none, none, none⟩
        ∧ b.control.clearedPending = s.chip.trigger.pending.length
        ∧ b.notices = ⟨[], false⟩ ∧ b.command = CommandUnit.nothing ∧ b.misses = []
        ∧ (s.chip.control.dropped + s.chip.notices.queue.length ≤ 65535 →
            b.control.dropped = s.chip.control.dropped + s.chip.notices.queue.length)
        ∧ (∀ e ∈ b.cache, e.pin = false ∧ e.reservation = false)
        ∧ ((s.chip.iport.inflight.map InFlight.id).Nodup →
            ∀ r ∈ b.iport.inflight, r.cls = .tap → ∃ ok data, r.phase = .answered ok data)
        ∧ ((s.chip.iport.inflight.map InFlight.id).Nodup →
            ∀ r ∈ s.chip.iport.inflight, r.cls = .tap → (∀ ok data, r.phase ≠ .answered ok data) →
              let zeros : List Byte := if r.request.write = true then [] else List.replicate r.request.size.bytes 0
              { r with phase := .answered false zeros } ∈ b.iport.inflight
                ∨ ⟨r.id, r.request.initiator, false, zeros⟩ ∈ b.iport.sent)
        ∧ (let own (a : Access) := a = .moveRead ∨ a = .storeBack ∨ a = .spanRead ∨ a = .spanWrite
          (∀ q ∈ b.mport.waiting, ¬ own q.access)
          ∧ (∀ q ∈ s.chip.mport.outstanding, ¬ own q.access → q ∈ b.mport.outstanding)
          ∧ (∀ q ∈ s.chip.mport.outstanding, own q.access → { q with abandoned := true } ∈ b.mport.outstanding)
          ∧ b.mport.outstanding.map MemRequest.id = s.chip.mport.outstanding.map MemRequest.id)
        ∧ (CacheOk s.chip →
          (∀ e ∈ s.chip.cache, e.state ≠ .fetching false → ∃ x ∈ b.cache,
            let waited := e.waiting.filter (fun op => match op with
              | .tableRead _ | .tableWrite _ => true
              | _ => false)
            x.index = e.index
            ∧ x.copy = (if e.pin = true ∧ e.copy.state = stClosing then { e.copy with state := stClosed } else e.copy)
            ∧ (e.state = .clean → x.state = if x.copy = e.copy then .clean else .dirty)
            ∧ (e.state = .dirty → x.state = .dirty)
            ∧ (∀ r, e.state = .writing r → ∃ r', x.state = .writing r')
            ∧ (e.state = .fetching true → x.state = .fetching true)
            ∧ x.busy = e.busy.map (fun w => { w with work := .abandoned }) ∧ x.flushMark = false
            ∧ (∀ op ∈ x.waiting, ∃ id, op = .tableRead id ∨ op = .tableWrite id)
            ∧ ((if e.pin = true then e.held.map CacheOp.tableWrite else []) ++ waited).Sublist x.waiting)
          ∧ (∀ x ∈ b.cache, ∃ e ∈ s.chip.cache, e.index = x.index ∧ e.state ≠ .fetching false)))

/-! ## Requests at the I-port -/

/-- A PLAIN request that is offered while fewer than 32 are in flight and no earlier request of its initiator waits is
forwarded at once, unchanged, unless it reads the anchor's status behind a mirror write; an ANCHOR-START write likewise, when
it touches no table in use; a PLAIN request that waited is forwarded when its turn comes (R174, R175, R176, R177, R178, R181).
The classes are those of R175: in PASS a write of all four bytes of the start word is ANCHOR-START and all else PLAIN;
elsewhere TAP comes before ANCHOR-START, that before TABLE, and that before PLAIN; a request waits to be classified while the
regions are not known, while it touches the aperture out of RUN and QUIET, and while it touches a table in STARTING and
AUDITING (R22). That it waits in STOPPING and WARM too while no regions are known, out of a start that was stopped or reset,
is the model's reading (log 24). -/
def Obligations.PlainRequestIsForwarded : Prop :=
  (∀ (s : State) (r : Request) (c : RequestClass),
    classify s.chip.control.state s.chip.control.settings s.chip.control.straps r = c →
    c = .plain ∨ (c = .anchorStart ∧ (s.chip.control.state = .pass ∨ s.chip.cfg.touchesTables r = false)) →
    r.wf = true → s.chip.iport.inflight.length < 32 → (∀ x ∈ s.chip.iport.inflight, x.id < s.chip.nextHandle) →
    (∀ x ∈ s.chip.iport.inflight, x.request.initiator = r.initiator → Bridge.holdsBack x.phase = false) →
    (r.write = true ∨ r.touchesStatus s.chip.control.straps = false ∨ s.chip.mirrorHandles = []) →
    exec (.plainRequest (.offered r)) s = After s { s.chip with
      iport := { s.chip.iport with
        inflight := s.chip.iport.inflight ++ [⟨s.chip.nextHandle, r, c, .forwarded, []⟩] }
      mport := { s.chip.mport with waiting := s.chip.mport.waiting ++
        [⟨s.chip.nextHandle, .forward s.chip.nextHandle, r.write, r.addr.toNat, r.data, r.size.bytes, false⟩] }
      nextHandle := s.chip.nextHandle + 1 })
  ∧ (∀ (s : State) (id : Nat) (x : InFlight), ItsTurn s.chip id x → x.cls = .plain → x.mirrors = [] →
    exec (.plainRequest (.waiting id)) s = After s (s.chip.forwarded x))
  ∧ (∀ (st : BridgeState) (g : Settings) (straps : Fin 16) (r : Request),
    let touches (a n : Nat) := Meet r.addr.toNat r.size.bytes a n
    let start := r.write = true ∧ r.addr.toNat ≤ straps.val * 2 ^ 28 ∧ straps.val * 2 ^ 28 + 4 ≤ r.addr.toNat + r.size.bytes
    let tap := touches g.apertureBase 8192
    let table := touches g.tableBase (g.structureCount * 64) ∨ touches g.moveBase (g.moveCount * 32)
    let c := classify st (some g) straps r
    (∀ x, start → classify .pass x straps r = .anchorStart) ∧ (∀ x, ¬ start → classify .pass x straps r = .plain)
    ∧ (st ≠ .pass → classify st none straps r = .unknown)
    ∧ (st ≠ .pass →
      (tap → c = if st = .run ∨ st = .quiet then .tap else .apertureWait)
      ∧ (¬ tap → start → c = .anchorStart)
      ∧ (¬ tap → ¬ start → table → c = if st = .starting ∨ st = .auditing then .tableWait else .table)
      ∧ (¬ tap → ¬ start → ¬ table → c = .plain)))

/-- A TABLE request, read or write, that touches no descriptor held in the record cache and not the loaded move, offered, or
handed on in its turn, in a state other than QUIET, is forwarded at once; in STARTING and AUDITING it goes on waiting (R116,
R117, R118, R120, R175). -/
def Obligations.TableRequestOfUnheldDescriptorIsForwarded : Prop :=
  ∀ s : State, s.chip.control.state ≠ .quiet →
    let row (r : Request) (a : Arrival) : Instr := if r.write then .tableWrite a else .tableRead a
    let free (r : Request) := (∀ n ∈ s.chip.cfg.touchedStructures r, ∀ e ∈ s.chip.cache, e.index ≠ n)
      ∧ s.chip.touchesLoaded r = false
    (∀ r : Request,
      classify s.chip.control.state s.chip.control.settings s.chip.control.straps r = .table →
      r.wf = true → s.chip.iport.inflight.length < 32 → (∀ x ∈ s.chip.iport.inflight, x.id < s.chip.nextHandle) →
      (∀ x ∈ s.chip.iport.inflight, x.request.initiator = r.initiator → Bridge.holdsBack x.phase = false) →
      (r.write = true ∨ r.touchesStatus s.chip.control.straps = false ∨ s.chip.mirrorHandles = []) → free r →
      exec (row r (.offered r)) s = After s { s.chip with
        iport := { s.chip.iport with
          inflight := s.chip.iport.inflight ++ [⟨s.chip.nextHandle, r, .table, .forwarded, []⟩] }
        mport := { s.chip.mport with waiting := s.chip.mport.waiting ++
          [⟨s.chip.nextHandle, .forward s.chip.nextHandle, r.write, r.addr.toNat, r.data, r.size.bytes, false⟩] }
        nextHandle := s.chip.nextHandle + 1 })
    ∧ (s.chip.control.state ≠ .starting → s.chip.control.state ≠ .auditing →
      ∀ (id : Nat) (x : InFlight), ItsTurn s.chip id x → x.cls = .table → x.mirrors = [] → free x.request →
      exec (row x.request (.waiting id)) s = After s (s.chip.forwarded x))
    ∧ (s.chip.control.state = .starting ∨ s.chip.control.state = .auditing →
      ∀ (id : Nat) (x : InFlight), ItsTurn s.chip id x → x.cls = .table →
      exec (row x.request (.waiting id)) s = .next s)

/-- A TABLE request that touches one descriptor, held in entry `e` (R117, R118, R119): a write to a pinned one is held on the
entry; a write to an unpinned one, and a read of one that is not CLEAN, joins the waiting list; a read of a CLEAN one is
forwarded. Of several, a read waits for the first that is held and not CLEAN; a write, as a whole, for the first that is
pinned, and is judged for that one and then the others afterwards, else for the first of those still to allow it that is held
(log 14); with none to wait for it is passed on, unless it touches the loaded move (R120) or waits for mirror writes (R181).
So judged are a TABLE request, out of STARTING and AUDITING, and an ANCHOR-START write that touches a table, out of PASS,
offered in its turn or handed on (R116, R175); a TABLE request in QUIET after the return to RUN (R187), when handed on in
QUIET too (log 28). That a read which its structure descriptors allowed and that then waits for the loaded move is not judged
for them again is the model's reading (log 45). -/
def Obligations.TableRequestWaitsForHeldDescriptor : Prop :=
  (∀ (b : Bridge) (x : InFlight) (n : Nat) (e : Entry),
    b.cfg.touchedStructures x.request = [n] → b.entry? n = some e → b.touchesLoaded x.request = false → x.mirrors = [] →
    (x.request.write = true → e.pin = true → b.beginSnoop x =
      (b.setEntry n (fun e => { e with held := e.held ++ [x.id] })).setPhase x.id (.snooping [n]))
    ∧ (x.request.write = true → (∀ y ∈ b.cache, y.index = n → y.pin = false) → b.beginSnoop x =
      (b.setEntry n (fun e => { e with waiting := e.waiting ++ [.tableWrite x.id] })).setPhase x.id (.snooping [n]))
    ∧ (x.request.write = false → e.state ≠ .clean → b.beginSnoop x =
      (b.setEntry n (fun e => { e with waiting := e.waiting ++ [.tableRead x.id] })).setPhase x.id (.snooping [n]))
    ∧ (x.request.write = false → e.state = .clean → b.beginSnoop x = b.forward x.id)
    ∧ (∀ (b : Bridge) (x : InFlight) (n : Nat) (todo : List Nat),
      let all := b.cfg.touchedStructures x.request
      let passes := if b.touchesLoaded x.request = true then
          b.setPhase x.id (.moveWait (if x.request.write = true then all else []))
        else if x.mirrors = [] then b.forward x.id else b.setPhase x.id .mirrorWait
      let waits (n : Nat) (op : CacheOp) (left : List Nat) :=
        (b.setEntry n (fun e => { e with waiting := e.waiting ++ [op] })).setPhase x.id (.snooping left)
      let reads (left : List Nat) (r : Bridge) :=
        ((∀ n ∈ left, ∀ e, b.entry? n = some e → e.state = .clean) → r = passes)
        ∧ (∀ l n k e, left = l ++ n :: k → (∀ m ∈ l, ∀ e, b.entry? m = some e → e.state = .clean) →
          b.entry? n = some e → e.state ≠ .clean → r = waits n (.tableRead x.id) (n :: k))
      let writes (left : List Nat) (r : Bridge) :=
        (∀ l n k e, all = l ++ n :: k → (∀ m ∈ l, ∀ e, b.entry? m = some e → e.pin = false) →
          b.entry? n = some e → e.pin = true →
          r = (b.setEntry n (fun e => { e with held := e.held ++ [x.id] })).setPhase x.id
            (.snooping (n :: all.filter (fun m => m != n))))
        ∧ ((∀ m ∈ all, ∀ e, b.entry? m = some e → e.pin = false) →
          ((∀ n ∈ left, b.entry? n = none) → r = passes)
          ∧ (∀ l n k e, left = l ++ n :: k → (∀ m ∈ l, b.entry? m = none) → b.entry? n = some e →
            r = waits n (.tableWrite x.id) (n :: k)))
      (b.touchesLoaded x.request = true → b.beginSnoop x = b.setPhase x.id (.moveWait all))
      ∧ (b.touchesLoaded x.request = false → (x.request.write = false → reads all (b.beginSnoop x))
        ∧ (x.request.write = true → writes all (b.beginSnoop x)))
      ∧ (b.inflight? x.id = some x → x.phase = .snooping (n :: todo) →
        (x.request.write = false → reads todo (b.allow n x.id)) ∧ (x.request.write = true → writes todo (b.allow n x.id)))))
  ∧ (∀ s : State,
    let b := s.chip
    let class? (r : Request) := classify b.control.state b.control.settings b.control.straps r
    let row (r : Request) (a : Arrival) : Instr := if r.write then .tableWrite a else .tableRead a
    let noted (b : Bridge) : Bridge := if b.control.state = .quiet then ((b.setState .run).startTimer).wakeCommand else b
    let new (r : Request) (c : RequestClass) : InFlight := ⟨b.nextHandle, r, c, .waiting,
      if r.write = false ∧ r.touchesStatus b.control.straps = true then b.mirrorHandles else []⟩
    let takes (x : InFlight) : Bridge := { b with
      iport := { b.iport with inflight := b.iport.inflight ++ [x] }, nextHandle := b.nextHandle + 1 }
    let inTurn (r : Request) := r.wf = true ∧ b.iport.inflight.length < 32 ∧ (∀ x ∈ b.iport.inflight, x.id < b.nextHandle)
      ∧ ∀ x ∈ b.iport.inflight, x.request.initiator = r.initiator → Bridge.holdsBack x.phase = false
    (∀ r, inTurn r → class? r = .table →
      exec (row r (.offered r)) s = After s ((noted (takes (new r .table))).beginSnoop (new r .table)))
    ∧ (∀ r, inTurn r → class? r = .anchorStart → b.control.state ≠ .pass → b.cfg.touchesTables r = true →
      exec (.plainRequest (.offered r)) s = After s ((takes (new r .anchorStart)).beginSnoop (new r .anchorStart)))
    ∧ (∀ id x, ItsTurn b id x → x.cls = .table → b.control.state ≠ .starting → b.control.state ≠ .auditing →
      exec (row x.request (.waiting id)) s = After s ((noted b).beginSnoop x))
    ∧ (∀ id x, ItsTurn b id x → x.cls = .anchorStart →
      (b.control.state ≠ .pass → b.cfg.touchesTables x.request = true →
        exec (.plainRequest (.waiting id)) s = After s (b.beginSnoop x))
      ∧ (b.control.state = .pass ∨ b.cfg.touchesTables x.request = false → x.mirrors = [] →
        exec (.plainRequest (.waiting id)) s = After s (b.forwarded x))))

/-- A TAP request handed to the decoder, offered with room and its turn come in RUN or QUIET, or handed on in its turn in any
state, in STOPPING one that was taken before STOP (R23, R27, R28, R29, R37, R123, R187, R188). With a form no tap word accepts
it is refused SHAPE, with an index at or above the structure count RANGE, and otherwise handed to the record cache. Out of
QUIET it first stops a cache that empties itself for QUIET and restarts the idle timer, a debug-tagged one too; otherwise it
restarts a running timer unless it is debug-tagged. In QUIET the bridge first returns to RUN, starts the timer from the idle
time and lets an IDLE command unit look for a command (R163). That one handed on while the cache empties itself, or in QUIET,
counts as one taken then is the model's reading (log 28). -/
def Obligations.TapRequestIsDecoded : Prop :=
  ∀ s : State,
    let state := s.chip.control.state
    let off (r : Request) := s.chip.cfg.apertureOffset r
    let tap (id : Nat) (r : Request) : Tap :=
      { id := id, word := off r % 32, write := r.write, length := r.size.bytes, data := r.data,
        initiator := r.initiator, debug := r.debug, struct := off r / 32, offset := off r % 32 }
    let timed (r : Request) (b : Bridge) : Bridge := { b with control := { s.chip.control with
      emptying := false
      idleTimer :=
        if s.chip.control.emptying = true ∨ (r.debug = false ∧ s.chip.control.idleTimer.isSome = true) then
          (if s.chip.cfg.idleTime = 0 then none else some s.chip.cfg.idleTime)
        else s.chip.control.idleTimer } }
    let back (b : Bridge) : Bridge := ((b.setState .run).startTimer).wakeCommand
    let judged (r : Request) (id : Nat) (c : Instr) (b : RequestPhase → Bridge) :=
      (s.chip.cfg.shapeOk r = false → exec c s = After s ((b .waiting).refuseTap (tap id r) .shape))
      ∧ (s.chip.cfg.shapeOk r = true → s.chip.cfg.structureCount ≤ off r / 32 →
          exec c s = After s ((b .waiting).refuseTap (tap id r) .range))
      ∧ (s.chip.cfg.shapeOk r = true → off r / 32 < s.chip.cfg.structureCount →
          exec c s = After s ((b .tapped).enqueue (off r / 32) (.tap (tap id r))))
    let takes (r : Request) (p : RequestPhase) : Bridge := { s.chip with
      iport := { s.chip.iport with inflight := s.chip.iport.inflight ++ [⟨s.chip.nextHandle, r, .tap, p,
        if r.write = false ∧ r.touchesStatus s.chip.control.straps = true then s.chip.mirrorHandles else []⟩] }
      nextHandle := s.chip.nextHandle + 1 }
    (∀ r : Request, classify state s.chip.control.settings s.chip.control.straps r = .tap →
      r.wf = true → s.chip.iport.inflight.length < 32 → (∀ x ∈ s.chip.iport.inflight, x.id < s.chip.nextHandle) →
      (∀ x ∈ s.chip.iport.inflight, x.request.initiator = r.initiator → Bridge.holdsBack x.phase = false) →
      (state ≠ .quiet → judged r s.chip.nextHandle (.tapRequest (.offered r)) (fun p => timed r (takes r p)))
      ∧ (state = .quiet → judged r s.chip.nextHandle (.tapRequest (.offered r)) (fun p =>
          { back (takes r p) with control := { (back (takes r p)).control with emptying := false } })))
    ∧ (∀ (id : Nat) (x : InFlight), ItsTurn s.chip id x → x.cls = .tap →
      (state ≠ .quiet → judged x.request id (.tapRequest (.waiting id)) (fun p => timed x.request (s.chip.setPhase id p)))
      ∧ (state = .quiet → judged x.request id (.tapRequest (.waiting id)) (fun p => back (s.chip.setPhase id p))))

/-- A TAP or TABLE request that is offered in QUIET, with room, returns the bridge to RUN, starts the idle timer from the idle
time, and lets an IDLE command unit look for a command (R163, R187). -/
def Obligations.AccessInQuietReturnsToRun : Prop :=
  ∀ (s : State) (r : Request), s.chip.control.state = .quiet → r.wf = true → s.chip.iport.inflight.length < 32 →
    let c := classify .quiet s.chip.control.settings s.chip.control.straps r
    let back (i : Instr) := ∃ b, exec i s = After s b ∧ b.control.state = .run
      ∧ (s.chip.cfg.idleTime ≠ 0 → b.control.idleTimer = some s.chip.cfg.idleTime)
      ∧ (s.chip.cfg.idleTime = 0 → b.control.idleTimer = none)
      ∧ (s.chip.command.state = .idle → b.command.wake = true)
    (c = .tap → back (.tapRequest (.offered r)))
    ∧ (c = .table → back (if r.write then .tableWrite (.offered r) else .tableRead (.offered r)))

/-- The first check of a tap (R28): of the requests that touch the aperture it passes exactly a 4-byte beat at byte offset 0,
8, 16 or 24, and an 8-byte beat or a 2-beat burst at 0 or 8, that is no debug-tagged write, lies within the aperture, and lies
within the 32 bytes of the decoded structure; every other is refused SHAPE, whatever the structure. -/
def Obligations.FirstCheckAcceptsExactlyTapWords : Prop :=
  ∀ (b : Bridge) (x : InFlight),
    let g := b.cfg
    let r := x.request
    let own := g.apertureBase + g.apertureOffset r / 32 * 32
    let off := g.apertureOffset r % 32
    let passes := ((r.size = .beat4 ∧ (off = 0 ∨ off = 8 ∨ off = 16 ∨ off = 24))
        ∨ ((r.size = .beat8 ∨ r.size = .burst 2) ∧ (off = 0 ∨ off = 8)))
      ∧ ¬ (r.debug = true ∧ r.write = true)
      ∧ g.apertureBase ≤ r.addr.toNat ∧ r.addr.toNat + r.size.bytes ≤ g.apertureBase + 8192
      ∧ own ≤ r.addr.toNat ∧ r.addr.toNat + r.size.bytes ≤ own + 32
    let noted := if r.debug then b.noteAccess .tap else (b.noteAccess .tap).activity
    r.region.overlaps g.aperture = true →
      (g.shapeOk r = true ↔ passes) ∧ (¬ passes → b.decode x = noted.refuseTap (g.decodeTap x.id r) .shape)

/-- Memory's answer to a forwarded request is returned to its initiator: OKAY with the bytes read, ERROR with free bytes (log
5); an answer that starts or stops nothing changes nothing else (R178): to a request that writes no start word, to a start
word of 1 out of PASS, of 2 in PASS, STOPPING or WARM, or of any other value (R177). -/
def Obligations.ForwardedAnswerIsReturned : Prop :=
  ∀ (s : State) (id : Nat) (ok : Bool) (q : MemRequest) (r : InFlight),
    let v := r.request.startWord s.chip.control.straps
    AnswerDue s id isForward q → s.chip.inflight? id = some r →
    (ok = false ∨ r.cls ≠ .anchorStart ∨ r.request.coversStartWord s.chip.control.straps = false
      ∨ ((v ≠ 1 ∨ s.chip.control.state ≠ .pass)
        ∧ (v ≠ 2 ∨ s.chip.control.state = .pass ∨ s.chip.control.state = .stopping ∨ s.chip.control.state = .warm))) →
    exec (.forwardedRequestDone id ok) s = AfterAnswer s q ok false ((s.chip.received id).answer id ok
      (if r.request.write then [] else if ok then Memory.readBytes s.mem q.addr q.length
        else errorBytes (s.chip.freeDraws + 1) 0 r.request.size.bytes))

/-- The M-port arbiter (R179): it grants the oldest must write-back at the must level; otherwise, with the fairness count at 8
and a bridge request waiting, the first bridge request by class; otherwise the oldest forwarded request; otherwise the first
bridge request by class. The fairness count rises at a forwarded grant while a bridge request waits and else becomes 0. The
classes: fetches and the item accesses of taps, command unit and notice writer; the move engine's accesses; write-backs;
bridge control's. A status mirror write takes the fields as they stand at its grant (R181), in the layout of section 10.5
(R182). -/
def Obligations.ArbiterGrantsInItsOrder : Prop :=
  (∀ (s : State) (q : MemRequest),
    let w := s.chip.mport.waiting
    let firstBridge := ∃ k, 1 ≤ k ∧ k ≤ 4 ∧ w.find? (fun x => x.access.bridgeClass == k) = some q
      ∧ ∀ j, 1 ≤ j → j < k → w.find? (fun x => x.access.bridgeClass == j) = none
    let noMust := s.chip.atMustLevel = false ∨ w.find? MemRequest.must = none
    let left := w.filter (fun x => x.id != q.id)
    let granted := exec .mportGrant s = .next { s with chip := { s.chip with mport := {
      waiting := left
      outstanding := s.chip.mport.outstanding ++
        [if q.access = .mirror then { q with data := s.chip.control.mirrorBytes } else q]
      fairness := if q.forwarded = true ∧ (∃ x ∈ left, x.forwarded = false) then s.chip.mport.fairness + 1 else 0 } } }
    (s.chip.atMustLevel = true → w.find? MemRequest.must = some q → granted)
    ∧ (noMust → s.chip.mport.fairness = 8 → firstBridge → granted)
    ∧ (noMust → s.chip.mport.fairness ≠ 8 ∨ (∀ x ∈ w, x.forwarded = true) → w.find? MemRequest.forwarded = some q → granted)
    ∧ (noMust → w.find? MemRequest.forwarded = none → firstBridge → granted)
    ∧ (w = [] → exec .mportGrant s = .next s))
  ∧ (∀ (n : Nat) (f : Bool),
    ([.fetch n, .item n f false] : List Access).map Access.bridgeClass = [1, 1]
    ∧ ([.item n f true, .moveRead, .storeBack, .spanRead, .spanWrite] : List Access).map Access.bridgeClass = [2, 2, 2, 2, 2]
    ∧ (Access.writeBack n f).bridgeClass = 3
    ∧ ([.anchorRead, .auditRead, .auditWrite, .mirror] : List Access).map Access.bridgeClass = [4, 4, 4, 4])
  ∧ (∀ q : MemRequest, (q.forwarded = true ↔ ∃ id, q.access = .forward id) ∧ (q.must = true ↔ ∃ n, q.access = .writeBack n true))
  ∧ (∀ c : Control,
    let bs := c.mirrorBytes
    bs.length = 32 ∧ byteIn bs 0 = c.state.code ∧ byteIn bs 1 = c.startReason.code ∧ halfIn bs 2 = BitVec.ofNat 16 c.dropped
    ∧ (c.firstDropped = none → byteIn bs 4 = 0xFF) ∧ (∀ k, c.firstDropped = some k → byteIn bs 4 = k.code)
    ∧ byteIn bs 5 = BitVec.ofNat 8 c.clearedPending ∧ byteIn bs 6 = BitVec.ofNat 8 c.lastRefusal.initiator.val
    ∧ byteIn bs 7 = c.lastRefusal.reason.code ∧ byteIn bs 8 = BitVec.ofNat 8 c.lastRefusal.struct
    ∧ byteIn bs 9 = BitVec.ofNat 8 c.lastRefusal.offset ∧ ∀ i, 10 ≤ i → byteIn bs i = 0)
  ∧ [BridgeState.pass, .starting, .auditing, .run, .quiet, .stopping, .warm].map BridgeState.code = [0, 1, 2, 3, 4, 5, 6]
  ∧ [StartReason.none, .layout, .levels, .commandRing, .noticeRing, .memory].map StartReason.code = [0, 1, 2, 3, 4, 5]

/-- A status mirror write that is answered releases the status reads that waited for it alone, in order: each is forwarded,
but a TABLE one that touches the loaded move waits for that (R120; one that writes, which no run makes wait here, as a whole);
an ERROR leaves memory as it was (R181). That a TABLE read which the record cache allowed before is not judged again, and does
not wait in STARTING and AUDITING, is the model's choice (log 37; behind the loaded move too, log 45). -/
def Obligations.MirrorAnswerReleasesStatusReads : Prop :=
  ∀ (s : State) (id : Nat) (ok : Bool) (q : MemRequest), AnswerDue s id isMirror q →
    ∃ b, exec (.statusMirrorWriteDone id ok) s = AfterAnswer s q ok true b
      ∧ b.control = s.chip.control ∧ b.engine = s.chip.engine
      ∧ (∀ r ∈ b.iport.inflight, id ∉ r.mirrors)
      ∧ ((∀ x ∈ s.chip.iport.inflight, x.phase ≠ .mirrorWait) → b.mport.waiting = s.chip.mport.waiting)
      ∧ (∀ r, s.chip.iport.inflight = [r] → r.phase = .mirrorWait → r.mirrors = [id] → r.cls = .plain →
          b.mport.waiting = s.chip.mport.waiting ++
            [⟨r.id, .forward r.id, r.request.write, r.request.addr.toNat, r.request.data, r.request.size.bytes, false⟩])
      ∧ (HandlesOk s.chip →
        let received := s.chip.received id
        let freed (r : InFlight) : Bool := decide (r.phase = .mirrorWait) && r.mirrors.all (fun k => k == id)
        let toMove (r : InFlight) : Bool := decide (r.cls = .table) && s.chip.touchesLoaded r.request
        let touched (r : InFlight) := if r.request.write then s.chip.cfg.touchedStructures r.request else []
        b = { received with
          iport := { received.iport with inflight := received.iport.inflight.map (fun r =>
            { r with
              mirrors := r.mirrors.filter (fun k => k != id)
              phase := if freed r then (if toMove r then .moveWait (touched r) else .forwarded) else r.phase }) }
          mport := { received.mport with waiting := received.mport.waiting ++
            (received.iport.inflight.filter (fun r => freed r && !toMove r)).map (fun r =>
              ⟨r.id, .forward r.id, r.request.write, r.request.addr.toNat, r.request.data, r.request.size.bytes, false⟩) } })

/-! ## Taps on a working copy -/

/-- PUT with room (R43, R42, R41): the item write to the tail slot, base + ((head + count) mod capacity) × item size, is
requested, and the operation is in progress; the working copy does not change yet. -/
def Obligations.PutWritesItemAtTail : Prop :=
  ∀ (s : State) (n : Nat) (t : Tap) (e : Entry), TapTurn s.chip n .put t e →
    e.copy.count + (if e.reservation then 1 else 0) < e.copy.cap →
    exec (.ringPut n) s = After s
      ((s.chip.applied n e (fun x => { x with busy := some ⟨.ringPut, .tap t⟩ })).requesting (.item n false false) true
        ((e.copy.base.toNat + ((e.copy.head + e.copy.count) % e.copy.cap) * e.copy.size) % 2 ^ 32) t.data e.copy.size)

/-- PUT without room, count + reservation at the capacity (R43, R48, R49, R50, R51): under REFUSE it is refused FULL; under
DISCARD the discard count rises by one up to 65535, the overrun flag is set, an OVERRUN notice is queued when the flag was
clear and FAULT notices are enabled, and the answer is OKAY. That the entry of a refused operation moves to the front of the
recency list is the model's reading (log 33). -/
def Obligations.PutWithoutRoomFollowsFullPolicy : Prop :=
  ∀ (s : State) (n : Nat) (t : Tap) (e : Entry), TapTurn s.chip n .put t e →
    e.copy.cap ≤ e.copy.count + (if e.reservation then 1 else 0) →
    (e.copy.fullPolicy ≠ 1 → exec (.ringPut n) s = After s ((s.chip.applied n e id).refuseTap t .full))
    ∧ (e.copy.fullPolicy = 1 →
        let d : Descriptor := { e.copy with
          discard := BitVec.ofNat 16 (min 65535 (e.copy.discard.toNat + 1)), flags := withBit e.copy.flags 2 true }
        let b := s.chip.applied n e (fun x => { x with copy := d, state := if d = e.copy then e.state else .dirty })
        exec (.ringPut n) s = After s
          ((if e.copy.overrun = false ∧ e.copy.faultNotices = true then
              b.notify { kind := .overrun, cause := .none, struct := some (BitVec.ofNat 8 n), move := none,
                         initiator := some t.initiator, itemLost := false, writeback := false, tag := 0,
                         value := BitVec.ofNat 32 (min 65535 (e.copy.discard.toNat + 1)) }
            else b).answer t.id true []))

/-- TAKE and PEEK on an empty ring and TOP on an empty stack (R52, R53, R74): under FILL the answer is OKAY with item-size
bytes of 0x00 or 0xFF as the fill value says; under REFUSE they are refused EMPTY; the working copy does not change. That the
entry of a refused operation moves to the front of the recency list is the model's reading (log 33), and so is that a TOP
refused EMPTY is recorded and queues its REFUSAL notice like any refused tap (log 39). -/
def Obligations.EmptyPolicyAnswersOrRefuses : Prop :=
  ∀ (s : State) (n : Nat) (t : Tap) (e : Entry),
    let b := s.chip.applied n e id
    let fill := b.answer t.id true (List.replicate e.copy.size (if e.copy.fillValue = 1 then 0xFF else 0x00))
    let r := if e.copy.emptyPolicy = 1 then After s fill else After s (b.refuseTap t .empty)
    (TapTurn s.chip n .take t e → e.copy.count = 0 → exec (.ringTake n) s = r)
    ∧ (TapTurn s.chip n .peek t e → e.copy.count = 0 → exec (.ringPeek n) s = r)
    ∧ (TapTurn s.chip n .top t e → e.copy.depth = 0 → exec (.stackTop n) s = r)

/-- LEVEL, DEPTH, VALUE, WRAPS and STATUS are answered OKAY when they are applied, with the count, the depth, the value, the
wrap count, and the STATUS word, little-endian; the working copy does not change (R37, R46, R75, R96, R97, R182). That the
guard of a stack HALTED with cause DESCRIPTOR shows closed for a guard byte of 2 to 255 is the model's choice (log 42). -/
def Obligations.FieldReadsAreAnsweredAtOnce : Prop :=
  ∀ (s : State) (n : Nat) (t : Tap) (e : Entry),
    let r (data : List Byte) := After s ((s.chip.applied n e id).answer t.id true data)
    (TapTurn s.chip n .level t e → exec (.ringLevel n) s = r (leBytes 4 e.copy.w34.toNat))
    ∧ (TapTurn s.chip n .depth t e → exec (.stackDepth n) s = r (leBytes 4 e.copy.w32.toNat))
    ∧ (TapTurn s.chip n .value t e → exec (.tallyValue n) s = r (leBytes 4 (e.copy.w34 ++ e.copy.w32).toNat))
    ∧ (TapTurn s.chip n .wraps t e → exec (.tallyWraps n) s = r (leBytes 4 e.copy.w48.toNat))
    ∧ (TapTurn s.chip n .status t e → ∃ flags : Byte, exec (.readStatus n) s = r [e.copy.state, e.copy.cause, flags, 0]
        ∧ flags.getLsbD 0 = e.copy.guardOpen ∧ flags.getLsbD 1 = e.copy.lost
        ∧ flags.getLsbD 2 = (e.copy.isRing && e.copy.overrun) ∧ flags.getLsbD 3 = e.copy.armed
        ∧ flags.getLsbD 4 = (e.copy.isTally && e.copy.atBound) ∧ flags.getLsbD 5 = e.copy.holds
        ∧ flags.getLsbD 6 = false ∧ flags.getLsbD 7 = false)

/-- PUSH and MARK that store one item, below the limit with the guard closed or below the capacity with it open (R72, R76,
R67): the write at index depth of the item offered, or of the frame as a 32-bit number followed by zeros, is requested. With
the guard open and the depth at the capacity (R71, R14) the stack becomes HALTED with cause RESERVE, a FAULT notice carries
the depth, the tap is refused RESERVE, and no item is written; that the FAULT notice joins ahead of the tap's REFUSAL notice
is the model's choice (log 31). That the entry of a refused operation moves to the front of the recency list is the model's
reading (log 33). -/
def Obligations.PushWritesAtDepthOrHalts : Prop :=
  ∀ (s : State) (n : Nat) (t : Tap) (e : Entry),
    let plain := if e.copy.guardOpen then e.copy.depth < e.copy.cap else e.copy.depth < e.copy.limit
    let exhausted := e.copy.guardOpen = true ∧ e.copy.cap ≤ e.copy.depth
    let b (w : ItemWork) (item : List Byte) :=
      (s.chip.applied n e (fun x => { x with busy := some ⟨w, .tap t⟩ })).requesting (.item n true false) true
        ((e.copy.base.toNat + e.copy.depth * e.copy.size) % 2 ^ 32) item e.copy.size
    let r := After s (((s.chip.applied n e (fun x => { x with
        copy := { e.copy with state := stHalted, cause := causeReserve }, state := .dirty })).notify
          { kind := .fault, cause := .reserve, struct := some (BitVec.ofNat 8 n), move := none, initiator := none,
            itemLost := false, writeback := false, tag := 0, value := BitVec.ofNat 32 e.copy.depth }).refuseTap t .reserve)
    (TapTurn s.chip n .push t e → (plain → exec (.stackPush n) s = After s (b .stackPush t.data))
      ∧ (exhausted → exec (.stackPush n) s = r))
    ∧ (TapTurn s.chip n .mark t e →
      (plain → exec (.stackMark n) s =
        After s (b .stackMark (leBytes 4 e.copy.frame ++ List.replicate (e.copy.size - 4) 0)))
      ∧ (exhausted → exec (.stackMark n) s = r))

/-- PUSH and MARK at or above the limit with the guard closed (R70): the offending item's write is requested, and the fault
frame is left to write at the next four indexes: saved frame (F for PUSH, L + 1 for MARK), the code of OVERFLOW, the initiator
number, and the depth L. -/
def Obligations.OverflowPushBeginsFaultFrame : Prop :=
  ∀ (s : State) (n : Nat) (t : Tap) (e : Entry), e.copy.guardOpen = false → e.copy.limit ≤ e.copy.depth →
    let slot (i : Nat) := (e.copy.base.toNat + i * e.copy.size) % 2 ^ 32
    let item (v : Nat) : List Byte := leBytes 4 v ++ List.replicate (e.copy.size - 4) 0
    let frame (saved : Nat) := [(slot (e.copy.depth + 1), item saved), (slot (e.copy.depth + 2), item 1),
      (slot (e.copy.depth + 3), item t.initiator.val), (slot (e.copy.depth + 4), item e.copy.depth)]
    let b (saved : Nat) (first : List Byte) :=
      (s.chip.applied n e (fun x => { x with busy := some ⟨.stackOverflow (frame saved), .tap t⟩ })).requesting
        (.item n true false) true (slot e.copy.depth) first e.copy.size
    (TapTurn s.chip n .push t e → exec (.stackPush n) s = After s (b e.copy.frame t.data))
    ∧ (TapTurn s.chip n .mark t e → exec (.stackMark n) s = After s (b (e.copy.depth + 1) (item e.copy.frame)))

/-- TAKE and PEEK on a ring that holds an item, POP above the frame, TOP above 0 and UNWIND above frame 0 (R42, R44, R45, R73,
R74, R77): the read of the head slot, of the item at depth − 1, or at frame − 1 for UNWIND, is requested, and the operation is
in progress. -/
def Obligations.TakingOperationsReadTheirItem : Prop :=
  ∀ (s : State) (n : Nat) (t : Tap) (e : Entry),
    let b (stack : Bool) (w : ItemWork) (i : Nat) :=
      (s.chip.applied n e (fun x => { x with busy := some ⟨w, .tap t⟩ })).requesting
        (.item n stack false) false ((e.copy.base.toNat + i * e.copy.size) % 2 ^ 32) [] e.copy.size
    (TapTurn s.chip n .take t e → 0 < e.copy.count →
      exec (.ringTake n) s = After s (b false .ringTake e.copy.head))
    ∧ (TapTurn s.chip n .peek t e → 0 < e.copy.count →
      exec (.ringPeek n) s = After s (b false .ringPeek e.copy.head))
    ∧ (TapTurn s.chip n .pop t e → 0 < e.copy.depth → e.copy.depth ≠ e.copy.frame →
      exec (.stackPop n) s = After s (b true .stackPop (e.copy.depth - 1)))
    ∧ (TapTurn s.chip n .top t e → 0 < e.copy.depth →
      exec (.stackTop n) s = After s (b true .stackTop (e.copy.depth - 1)))
    ∧ (TapTurn s.chip n .unwind t e → 0 < e.copy.frame →
      exec (.stackUnwind n) s = After s (b true .stackUnwind (e.copy.frame - 1)))

/-- Underflow and frame breaches (R73, R77, R79, R80): a POP at depth 0 records UNDERFLOW unless the guard is open, queues its
notice when FAULT notices are enabled, and meets the empty policy; a POP at depth = frame > 0 and an UNWIND at frame 0 are
refused FRAME with no change. That the entry of a refused operation moves to the front of the recency list is the model's
reading (log 33). -/
def Obligations.UnderflowAndFrameBreachesAreRefused : Prop :=
  ∀ (s : State) (n : Nat) (t : Tap) (e : Entry),
    let d : Descriptor := if e.copy.guardOpen then e.copy else { e.copy with cause := causeUnderflow }
    let b := s.chip.applied n e (fun x => { x with copy := d, state := if d = e.copy then e.state else .dirty })
    let b1 := if e.copy.faultNotices then
        b.notify { kind := .underflow, cause := .underflow, struct := some (BitVec.ofNat 8 n), move := none,
                   initiator := some t.initiator, itemLost := false, writeback := false, tag := 0, value := 0 }
      else b
    let breach := After s ((s.chip.applied n e id).refuseTap t .frame)
    (TapTurn s.chip n .pop t e → e.copy.depth = 0 → exec (.stackPop n) s = After s
      (if e.copy.emptyPolicy = 1 then
        b1.answer t.id true (List.replicate e.copy.size (if e.copy.fillValue = 1 then 0xFF else 0x00))
       else b1.refuseTap t .empty))
    ∧ (TapTurn s.chip n .pop t e → 0 < e.copy.depth → e.copy.depth = e.copy.frame → exec (.stackPop n) s = breach)
    ∧ (TapTurn s.chip n .unwind t e → e.copy.frame = 0 → exec (.stackUnwind n) s = breach)

/-- NEXT, ADD and SET complete at their application (R90, R93, R94, R95, R99): NEXT answers the value before it and takes the
raw result value + step; ADD takes value + the amount written; a raw result that wraps an armed tally of condition WRAP posts
its trigger move; SET takes a value within the bounds and refuses any other BOUNDS. That the entry of a refused operation
moves to the front of the recency list is the model's reading (log 33). -/
def Obligations.TallyOperationsCompleteAtOnce : Prop :=
  ∀ (s : State) (n : Nat) (t : Tap) (e : Entry),
    let x : Int := (wordAt t.data 0).toInt
    let b (d : Descriptor) :=
      s.chip.applied n e (fun y => { y with copy := d, state := if d = e.copy then e.state else .dirty })
    let take (raw : Int) :=
      if e.copy.wrapsOn raw = true ∧ e.copy.condition = condWrap ∧ e.copy.armed = true then
        (b (e.copy.advanced raw)).post e.copy.triggerMove.toNat (.structure n)
      else b (e.copy.advanced raw)
    (TapTurn s.chip n .next t e → exec (.tallyNext n) s =
      After s ((take (e.copy.value + e.copy.step)).answer t.id true (leBytes 4 (e.copy.w34 ++ e.copy.w32).toNat)))
    ∧ (TapTurn s.chip n .add t e → exec (.tallyAdd n) s = After s ((take (e.copy.value + x)).answer t.id true []))
    ∧ (TapTurn s.chip n .set t e → e.copy.lower ≤ x → x ≤ e.copy.upper →
      exec (.tallySet n) s = After s ((b (e.copy.withValue x)).answer t.id true []))
    ∧ (TapTurn s.chip n .set t e → x < e.copy.lower ∨ e.copy.upper < x →
      exec (.tallySet n) s = After s ((s.chip.applied n e id).refuseTap t .bounds))

/-- WRAP arithmetic (R91): with d the raw result less lower, q = d divided by the span rounded towards minus infinity and m
the rest, the value becomes lower + m, the wrap count rises by |q| and stays at 65535, the at-bound flag is cleared, and the
operation wraps exactly when q is not 0. STICK arithmetic (R92): a raw result is clamped to the bounds, the wrap count does
not change, the operation never wraps, and the at-bound flag is set exactly when the new value equals a bound. A value that
SET or ABORT gives is taken as it is, the wrap count kept, the flag set in STICK mode exactly when it equals a bound and clear
in WRAP mode (R92, R95, R100). Nothing else of the descriptor changes. -/
def Obligations.TallyModesWrapOrStick : Prop :=
  ∀ (d : Descriptor) (raw : Int), d.lower ≤ d.upper →
    let span := d.upper - d.lower + 1
    (∀ q m : Int, d.stick = false → 0 ≤ m → m < span → raw - d.lower = q * span + m →
      (d.advanced raw).value = d.lower + m ∧ (d.advanced raw).wraps = min 65535 (d.wraps + q.natAbs)
        ∧ (d.advanced raw).atBound = false ∧ (d.wrapsOn raw = true ↔ q ≠ 0))
    ∧ (d.stick = true →
      (d.advanced raw).value = max d.lower (min raw d.upper) ∧ (d.advanced raw).wraps = d.wraps
        ∧ d.wrapsOn raw = false
        ∧ ((d.advanced raw).atBound = true ↔ (d.advanced raw).value = d.lower ∨ (d.advanced raw).value = d.upper))
    ∧ (∀ v : Int, -2147483648 ≤ v → v ≤ 2147483647 →
      (d.withValue v).value = v ∧ (d.withValue v).wraps = d.wraps
        ∧ ((d.withValue v).atBound = true ↔ d.stick = true ∧ (v = d.lower ∨ v = d.upper)))
    ∧ (let others (d' : Descriptor) := d' = { d with w32 := d'.w32, w34 := d'.w34, w48 := d'.w48, flags := d'.flags }
        ∧ ∀ i, i ≠ 5 → d'.flags.getLsbD i = d.flags.getLsbD i
      others (d.advanced raw) ∧ ∀ v, others (d.withValue v))

/-- A tap whose fourth or fifth check fails is refused by it, for all sixteen operations (R26, R31, R32, R34): by CLOSED on a
CLOSING structure with the lost flag set, otherwise with the working copy unchanged. That the entry of a refused operation
moves to the front of the recency list is the model's reading (log 33). -/
def Obligations.GateRefusesEveryTapOperation : Prop :=
  ∀ (s : State) (n : Nat) (t : Tap) (e : Entry) (k : TapKind) (r : Reason),
    s.chip.entry? n = some e → e.ready = true → e.waiting.head? = some (.tap t) → e.copy.fit t = some k →
    e.copy.gate n k t.initiator = some r →
    let i : Instr := match k with
      | .put => .ringPut n | .take => .ringTake n | .peek => .ringPeek n | .level => .ringLevel n
      | .status => .readStatus n | .push => .stackPush n | .pop => .stackPop n | .top => .stackTop n
      | .depth => .stackDepth n | .mark => .stackMark n | .unwind => .stackUnwind n | .next => .tallyNext n
      | .add => .tallyAdd n | .set => .tallySet n | .value => .tallyValue n | .wraps => .tallyWraps n
    let lost : Descriptor := { e.copy with flags := withBit e.copy.flags 1 true }
    exec i s = After s ((if r = .closed ∧ e.copy.state = stClosing then
        s.chip.applied n e (fun x => { x with copy := lost, state := if lost = e.copy then e.state else .dirty })
      else s.chip.applied n e id).refuseTap t r)

/-- The operation that a tap selects by kind, tap word and direction, untagged and debug-tagged, and the exact size it needs
(R24, R30, R38). The classes of R25 and the fourth and fifth checks (R31, R32, R12, R19, R20): exactly PUT, PUSH, MARK, ADD,
SET and NEXT are producing, exactly TAKE, POP and UNWIND consuming, and what a debug-tagged read selects is neither. DENIED
exactly for a producing operation without its producer bit or on structure 1, or a consuming one without its consumer bit or
on structure 0; then HALTED for producing and consuming operations on a HALTED structure, and for PEEK and TOP when its cause
is DESCRIPTOR; then CLOSED for producing operations in CLOSING and CLOSED. -/
def Obligations.TapClassesDecideMasksAndStates : Prop :=
  (∀ k : TapKind, k.producing = true ↔ k = .put ∨ k = .push ∨ k = .mark ∨ k = .add ∨ k = .set ∨ k = .next)
  ∧ (∀ k : TapKind, k.consuming = true ↔ k = .take ∨ k = .pop ∨ k = .unwind)
  ∧ (∀ (kind : Byte) (word : Nat) (k : TapKind), selectTap kind word false true = some k →
      k.producing = false ∧ k.consuming = false)
  ∧ (∀ (d : Descriptor) (n : Nat) (k : TapKind) (i : Initiator),
    let denied := (k.producing = true ∧ (d.producers.getLsbD i.val = false ∨ n = 1))
      ∨ (k.consuming = true ∧ (d.consumers.getLsbD i.val = false ∨ n = 0))
    let halted := d.state = stHalted ∧ (k.producing = true ∨ k.consuming = true
      ∨ ((k = .peek ∨ k = .top) ∧ d.cause = causeDescriptor))
    let closed := (d.state = stClosing ∨ d.state = stClosed) ∧ k.producing = true
    (d.gate n k i = some .denied ↔ denied) ∧ (d.gate n k i = some .halted ↔ ¬ denied ∧ halted)
      ∧ (d.gate n k i = some .closed ↔ ¬ denied ∧ closed) ∧ (d.gate n k i = none ↔ ¬ denied ∧ ¬ halted ∧ ¬ closed))
  ∧ (∀ (kind : Byte) (word : Nat) (write : Bool) (k : TapKind),
    let table : List (Byte × Nat × Bool × TapKind) :=
      [(1, 0, false, .take), (1, 0, true, .put), (1, 8, false, .peek), (1, 16, false, .level), (1, 24, false, .status),
       (2, 0, false, .pop), (2, 0, true, .push), (2, 8, false, .top), (2, 16, false, .depth), (2, 16, true, .mark),
       (2, 24, false, .status), (2, 24, true, .unwind),
       (3, 0, false, .next), (3, 0, true, .add), (3, 8, false, .value), (3, 8, true, .set), (3, 16, false, .wraps),
       (3, 24, false, .status)]
    (selectTap kind word write false = some k ↔ (kind, word, write, k) ∈ table)
    ∧ (word ≠ 0 ∨ write = true → selectTap kind word write true = selectTap kind word write false)
    ∧ (selectTap kind 0 false true = some k ↔ (kind, k) = (1, .peek) ∨ (kind, k) = (2, .top) ∨ (kind, k) = (3, .value)))
  ∧ (∀ (d : Descriptor) (t : Tap) (k : TapKind),
    d.fit t = some k ↔ selectTap d.kind t.word t.write t.debug = some k
      ∧ t.length = if (t.word = 0 ∨ t.word = 8) ∧ d.kind ≠ 3 then d.itemSize.toNat else 4)

/-! ## Item accesses -/

/-- A ring operation whose item access completes (R42, R43, R44, R45, R54): a put raises the count, a take advances the head
modulo the capacity, lowers the count and clears the overrun flag, each reported with the party's initiator and move; a peek
changes nothing; the party gets its answer. With an error the structure halts MEMORY and the party is told: the tap is refused
MEMORY, the engine's run ends MEMORY with an item in transit lost, the command unit's take yields nothing, the notice is
dropped (R68, R139, R163, R168; `storesFor`, `takesFor` and `failsFor` of Safety.lean). An access that a warm reset abandoned
completes, OKAY or not, with the working copy as it was (R124). The FAULT notice ahead of a tap's REFUSAL notice, and
structure 0's WATERMARK notice ahead of a COMMAND_REFUSED, are the model's choice (log 31). That a debug-tagged read halts the
structure too is its choice between R38 and R45 (log 34), and that a PEEK which fails on a ring HALTED with cause RESERVE
queues no FAULT notice its reading (R14, R15, R42; log 44). -/
def Obligations.RingItemAccessCompletes : Prop :=
  ∀ (s : State) (id : Nat) (q : MemRequest) (n : Nat) (move : Bool) (e : Entry) (p : Party),
    AnswerDue s id isRingItem q → q.access = .item n false move → s.chip.entry? n = some e →
    let b := (s.chip.received id).setEntry n (fun x => { x with busy := none })
    let data := Memory.readBytes s.mem q.addr q.length
    let change (d : Descriptor) := (b.writeCopy n d).report n e.copy d (Bridge.partyInitiator p) (b.partyMove p)
    let put : Descriptor := { e.copy with w34 := BitVec.ofNat 16 (e.copy.count + 1) }
    let taken : Descriptor := { e.copy with
      w32 := BitVec.ofNat 16 ((e.copy.head + 1) % e.copy.cap), w34 := BitVec.ofNat 16 (e.copy.count - 1),
      flags := withBit e.copy.flags 2 false }
    (e.busy = some ⟨.ringPut, p⟩ →
      exec (.ringItemAccessDone id true) s = AfterAnswer s q true false ((change put).storesFor p))
    ∧ (e.busy = some ⟨.ringTake, p⟩ →
      exec (.ringItemAccessDone id true) s = AfterAnswer s q true false ((change taken).takesFor p data))
    ∧ (e.busy = some ⟨.ringPeek, p⟩ →
      exec (.ringItemAccessDone id true) s = AfterAnswer s q true false (b.takesFor p data))
    ∧ (e.busy = some ⟨.ringPut, p⟩ ∨ e.busy = some ⟨.ringTake, p⟩ ∨ e.busy = some ⟨.ringPeek, p⟩ →
      exec (.ringItemAccessDone id false) s = AfterAnswer s q false false (b.failsFor n e.copy p))
    ∧ (e.busy = some ⟨.abandoned, p⟩ → ∀ ok, exec (.ringItemAccessDone id ok) s = AfterAnswer s q ok false b)

/-- A stack operation whose item access completes (R68, R70, R72, R73, R74, R76, R77, R81): PUSH and MARK raise the depth by
one, MARK with the frame at the new depth; POP lowers it; TOP changes nothing; UNWIND leaves frame − 1 with the saved frame,
or is refused FRAME when that exceeds it; an overflow push goes on to its next write, and after the fifth leaves depth L + 5,
frame L + 2, guard OPEN and cause OVERFLOW. An error halts the stack MEMORY and the party is told, as for a ring (notice
order: log 31). An access that a warm reset abandoned completes with the working copy as it was, and an overflow push stops
there (R124). That a debug-tagged read halts the structure too is the model's choice between R38 and R74 (log 34), and that a
TOP which fails on a stack HALTED with cause RESERVE queues no FAULT notice its reading (R14, R15, R68; log 44). -/
def Obligations.StackItemAccessCompletes : Prop :=
  ∀ (s : State) (id : Nat) (q : MemRequest) (n : Nat) (move : Bool) (e : Entry) (p : Party) (w : ItemWork),
    AnswerDue s id isStackItem q → q.access = .item n true move → s.chip.entry? n = some e → e.busy = some ⟨w, p⟩ →
    let r := s.chip.received id
    let b := r.setEntry n (fun x => { x with busy := none })
    let data := Memory.readBytes s.mem q.addr q.length
    let change (d : Descriptor) := (b.writeCopy n d).report n e.copy d (Bridge.partyInitiator p) (b.partyMove p)
    let resized (depth frame : Nat) : Descriptor :=
      { e.copy with w32 := BitVec.ofNat 16 depth, w34 := BitVec.ofNat 16 frame }
    let grown : Descriptor := { resized (e.copy.depth + 5) (e.copy.depth + 2) with b38 := 1, cause := causeOverflow }
    (w = .stackPush → exec (.stackItemAccessDone id true) s = AfterAnswer s q true false
      ((change { e.copy with w32 := BitVec.ofNat 16 (e.copy.depth + 1) }).storesFor p))
    ∧ (w = .stackMark → exec (.stackItemAccessDone id true) s = AfterAnswer s q true false
      ((change (resized (e.copy.depth + 1) (e.copy.depth + 1))).storesFor p))
    ∧ (w = .stackPop → exec (.stackItemAccessDone id true) s = AfterAnswer s q true false
      ((change { e.copy with w32 := BitVec.ofNat 16 (e.copy.depth - 1) }).takesFor p data))
    ∧ (w = .stackTop → exec (.stackItemAccessDone id true) s = AfterAnswer s q true false (b.takesFor p data))
    ∧ (∀ t, w = .stackUnwind → p = .tap t → exec (.stackItemAccessDone id true) s = AfterAnswer s q true false
      (if natAt data 0 4 ≤ e.copy.frame - 1 then
        (change (resized (e.copy.frame - 1) (natAt data 0 4))).answer t.id true []
       else b.refuseTap t .frame))
    ∧ (∀ addr item left, w = .stackOverflow ((addr, item) :: left) →
      exec (.stackItemAccessDone id true) s = AfterAnswer s q true false
        ((r.setEntry n (fun x => { x with busy := some ⟨.stackOverflow left, p⟩ })).requesting
          (.item n true (p == .engine)) true addr item e.copy.size))
    ∧ (w = .stackOverflow [] → exec (.stackItemAccessDone id true) s = AfterAnswer s q true false
      (((if e.copy.faultNotices then (b.writeCopy n grown).notify
            { kind := .overflow, cause := .overflow, struct := some (BitVec.ofNat 8 n),
              move := (b.partyMove p).map (BitVec.ofNat 8 ·), initiator := Bridge.partyInitiator p, itemLost := false,
              writeback := false, tag := 0, value := BitVec.ofNat 32 grown.depth }
         else b.writeCopy n grown).report n e.copy grown (Bridge.partyInitiator p) (b.partyMove p)).storesFor p))
    ∧ (w ≠ .abandoned → exec (.stackItemAccessDone id false) s = AfterAnswer s q false false (b.failsFor n e.copy p))
    ∧ (w = .abandoned → ∀ ok, exec (.stackItemAccessDone id ok) s = AfterAnswer s q ok false b)

/-! ## The command unit and the notice writer -/

/-- The command unit's take, judgement and reports. The take (R163, R63): an IDLE unit that was woken asks in RUN, as a miss
when structure 0 is not held and otherwise in its entry's waiting list, where it is applied at once when nothing is ahead; in
its turn it yields nothing on a HALTED or empty ring, and otherwise requests the head item. The judgement (R164): UNKNOWN,
RANGE, INVALID_MOVE and PROTECTED in this order, or an operation of ABORT to DISARM handed to the record cache; other commands
are held. The reports (R165): COMMAND_DONE when the report flag asks for it, COMMAND_REFUSED always, and the unit is IDLE and
woken; the idle timer restarts (R187). The item's fields and operation codes are those of R182. That the entry moves to the
front of the recency list also when the take yields nothing is the model's reading (log 33). -/
def Obligations.CommandUnitTakesTheHeadItem : Prop :=
  ∀ s : State,
    (s.chip.command.state = .idle → s.chip.control.state = .run → s.chip.command.wake = true →
      (∀ e ∈ s.chip.cache, e.index ≠ 0) →
      exec .commandUnitTake s = After s { s.chip with
        command := { s.chip.command with state := .taking, wake := false }
        misses := s.chip.misses ++ [(0, .commandTake)] })
    ∧ (∀ e, s.chip.command.state = .idle → s.chip.control.state = .run → s.chip.command.wake = true →
      s.chip.entry? 0 = some e →
      let asked : Bridge := { s.chip.setEntry 0 (fun x => { x with waiting := x.waiting ++ [.commandTake] }) with
        command := { s.chip.command with state := .taking, wake := false } }
      (e.ready = false ∨ (∃ x l, e.waiting = x :: l ∧ x ≠ .commandTake) → exec .commandUnitTake s = After s asked)
      ∧ (e.ready = true → e.waiting = [] → exec .commandUnitTake s = exec .commandUnitTake { s with chip := asked }))
    ∧ (∀ e, s.chip.command.state = .taking → s.chip.entry? 0 = some e → e.ready = true →
      e.waiting.head? = some .commandTake →
      let b := s.chip.applied 0 e id
      let idle (empty : Bool) : Bridge := { b with command := { b.command with
        state := .idle, held := none, stage := .judged, lastEmpty := empty } }
      (e.copy.state = stHalted → exec .commandUnitTake s = After s (idle (decide (e.copy.count = 0))))
      ∧ (e.copy.state ≠ stHalted → e.copy.count = 0 → exec .commandUnitTake s = After s (idle true))
      ∧ (e.copy.state ≠ stHalted → 0 < e.copy.count → exec .commandUnitTake s = After s
        ((s.chip.applied 0 e (fun x => { x with busy := some ⟨.ringTake, .commandUnit⟩ })).requesting
          (.item 0 false false) false ((e.copy.base.toNat + e.copy.head * e.copy.size) % 2 ^ 32) [] e.copy.size)))
    ∧ (∀ (b : Bridge) (c : CommandItem),
      let structs := b.cfg.structureCount
      let moves := b.cfg.moveCount
      let held := Bridge.activity { b with command := { b.command with
        state := .carrying, held := some c, stage := .judged, wake := false, lastEmpty := false } }
      let unknown := 14 < c.op.toNat
      let names := 2 ≤ c.op.toNat ∧ c.op.toNat ≤ 9
      let range := names ∧ structs ≤ c.struct.toNat
      let move := (c.op = opTrigger ∨ c.op = opStopMove) ∧ moves ≤ c.move.toNat
      let guarded := (c.struct = 0 ∧ (c.op = opOpen ∨ c.op = opClose ∨ c.op = opAbort))
        ∨ (c.struct = 1 ∧ (c.op = opOpen ∨ c.op = opClose))
      (unknown → b.judgeCommand c = held.commandRefused .unknown)
      ∧ (range → b.judgeCommand c = held.commandRefused .range)
      ∧ (move → b.judgeCommand c = held.commandRefused (if c.op = opTrigger then .invalidMove else .range))
      ∧ (¬ range → guarded → b.judgeCommand c = held.commandRefused .protectedRing)
      ∧ (¬ range → ¬ guarded → 3 ≤ c.op.toNat → c.op.toNat ≤ 9 → ∀ n, c.struct.toNat = n →
        (b.entry? n = none → b.judgeCommand c = { held with misses := b.misses ++ [(n, .command)] })
        ∧ ((b.entry? n).isSome = true → b.judgeCommand c =
          held.setEntry n (fun e => { e with waiting := e.waiting ++ [.command] })))
      ∧ (¬ unknown → ¬ range → ¬ move → (c.op.toNat < 3 ∨ 9 < c.op.toNat) → b.judgeCommand c = held))
    ∧ (∀ (b : Bridge) (c : CommandItem) (r : Reason), b.command.held = some c →
      let notice (k : NoticeKind) (r : Reason) : Notice :=
        { kind := k, cause := r, struct := if 2 ≤ c.op.toNat ∧ c.op.toNat ≤ 9 then some c.struct else none,
          move := if c.op = opTrigger ∨ c.op = opStopMove then some c.move else none, initiator := none, itemLost := false,
          writeback := false, tag := c.tag, value := BitVec.ofNat 32 c.op.toNat }
      let ends (b : Bridge) := Bridge.activity { b with command := { b.command with
        state := .idle, held := none, stage := .judged, wake := true } }
      b.commandDone = ends (if c.flags.getLsbD 0 = true then b.notify (notice .commandDone .none) else b)
      ∧ b.commandRefused r = ends (b.notify (notice .commandRefused r)))
    ∧ (∀ b : Bridge, b.activity = { b with control := { b.control with
        idleTimer := if b.control.idleTimer.isSome = true ∧ b.cfg.idleTime ≠ 0 then some b.cfg.idleTime else none } })
    ∧ (∀ bs : List Byte, CommandItem.ofBytes bs = ⟨byteIn bs 0, byteIn bs 1, byteIn bs 2, byteIn bs 3, halfIn bs 4⟩)
    ∧ [opNop, opFlush, opRelease, opAbort, opOpen, opClose, opClearFault, opCloseGuard, opArm, opDisarm, opTrigger, opStopMove,
        opPauseMoves, opResumeMoves, opStop] = [0, 1, 2, 3, 4, 5, 6, 7, 8, 9, 10, 11, 12, 13, 14]

/-- The notice writer's put in its turn, in RUN or STOPPING (R64, R168, R170): the oldest notice is dropped and counted when
structure 1 is HALTED or full, and otherwise its 16-byte record, in the layout and codes of R182, is written to the tail slot.
That the entry moves to the front of the recency list also when the notice is dropped is the model's reading (log 33). -/
def Obligations.NoticeWriterPutsTheOldestNotice : Prop :=
  (∀ (s : State) (x : Notice) (rest : List Notice) (e : Entry),
    s.chip.notices = ⟨x :: rest, true⟩ → s.chip.control.state = .run ∨ s.chip.control.state = .stopping →
    s.chip.entry? 1 = some e → e.ready = true → e.waiting.head? = some .noticePut →
    (e.copy.state = stHalted ∨ e.copy.cap ≤ e.copy.count → exec .noticePut s = After s
      (Bridge.dropNotice { s.chip.applied 1 e id with notices := ⟨rest, false⟩ } x.kind))
    ∧ (e.copy.state ≠ stHalted → e.copy.count < e.copy.cap → exec .noticePut s = After s
      ((s.chip.applied 1 e (fun y => { y with busy := some ⟨.ringPut, .noticeWriter⟩ })).requesting (.item 1 false false)
        true ((e.copy.base.toNat + ((e.copy.head + e.copy.count) % e.copy.cap) * e.copy.size) % 2 ^ 32) x.toBytes
        e.copy.size)))
  ∧ (∀ x : Notice,
    let bs := x.toBytes
    bs.length = 16 ∧ byteIn bs 0 = x.kind.code ∧ byteIn bs 1 = x.cause.code ∧ byteIn bs 2 = x.struct.getD 0xFF
    ∧ byteIn bs 3 = x.move.getD 0xFF ∧ (x.initiator = none → byteIn bs 4 = 0xFF)
    ∧ (∀ i, x.initiator = some i → byteIn bs 4 = BitVec.ofNat 8 i.val)
    ∧ (byteIn bs 5).getLsbD 0 = x.itemLost ∧ (byteIn bs 5).getLsbD 1 = x.writeback
    ∧ (∀ i, 2 ≤ i → (byteIn bs 5).getLsbD i = false)
    ∧ halfIn bs 6 = x.tag ∧ wordIn bs 8 = x.value ∧ wordIn bs 12 = 0)
  ∧ [NoticeKind.watermark, .overrun, .overflow, .underflow, .fault, .moveDone, .moveFault, .triggerSpent, .commandDone,
      .commandRefused, .refusal, .started].map NoticeKind.code = [1, 2, 3, 4, 5, 6, 7, 8, 9, 10, 11, 12]
  ∧ [Reason.none, .overflow, .underflow, .reserve, .memory, .descriptor].map Reason.code = [0, 1, 2, 3, 4, 5]
  ∧ [Reason.shape, .range, .off, .denied, .closed, .halted, .full, .empty, .frame, .bounds].map Reason.code
    = [8, 9, 10, 11, 12, 13, 14, 15, 16, 17]
  ∧ [Reason.unknown, .protectedRing, .causePersists, .wrongKind, .depthAboveLimit, .notActive, .invalidMove].map Reason.code
    = [24, 25, 26, 27, 28, 29, 30]
  ∧ [Reason.sourceEmpty, .destFull, .refused, .invalid, .stopped, .chainLimit].map Reason.code = [40, 41, 42, 43, 44, 45]

/-- OPEN, CLOSE, CLOSE_GUARD and CLEAR_FAULT on a working copy (R13, R16, R85): refused HALTED, WRONG_KIND, DEPTH_ABOVE_LIMIT
or CAUSE_PERSISTS with the copy unchanged, or applied and done. On a copy of kind OFF each is refused OFF (R2, R164). That the
entry of a refused operation moves to the front of the recency list is the model's reading (log 33). -/
def Obligations.StateCommandsChangeTheWorkingCopy : Prop :=
  ∀ (s : State) (n : Nat) (c : CommandItem) (e : Entry),
    let done (d : Descriptor) := After s
      (s.chip.applied n e (fun y => { y with copy := d, state := if d = e.copy then e.state else .dirty })).commandDone
    let refused (r : Reason) := After s ((s.chip.applied n e id).commandRefused r)
    let d := e.copy
    (CommandTurn s.chip opOpen n c e →
      (d.state = stHalted → exec (.cmdOpen n) s = refused .halted)
      ∧ (d.state = stOpen → exec (.cmdOpen n) s = done d)
      ∧ (d.state = stClosing ∨ d.state = stClosed →
        exec (.cmdOpen n) s = done { d with state := stOpen, flags := withBit d.flags 1 false }))
    ∧ (CommandTurn s.chip opClose n c e →
      (d.state = stHalted → exec (.cmdClose n) s = refused .halted)
      ∧ (d.state = stOpen → exec (.cmdClose n) s = done { d with state := if e.pin then stClosing else stClosed })
      ∧ (d.state = stClosing ∨ d.state = stClosed → exec (.cmdClose n) s = done d))
    ∧ (CommandTurn s.chip opCloseGuard n c e →
      (d.kind = kindRing ∨ d.kind = kindTally → exec (.cmdCloseGuard n) s = refused .wrongKind)
      ∧ (d.kind = kindStack → d.state = stHalted → exec (.cmdCloseGuard n) s = refused .halted)
      ∧ (d.kind = kindStack → d.state ≠ stHalted → d.limit < d.depth →
        exec (.cmdCloseGuard n) s = refused .depthAboveLimit)
      ∧ (d.kind = kindStack → d.state ≠ stHalted → d.depth ≤ d.limit →
        exec (.cmdCloseGuard n) s =
          done { d with b38 := 0, cause := if d.cause = causeOverflow then causeNone else d.cause }))
    ∧ (CommandTurn s.chip opClearFault n c e →
      let cleared : Descriptor := { d with state := stOpen, cause := if d.guardOpen then causeOverflow else causeNone }
      (d.cause = causeNone → exec (.cmdClearFault n) s = done d)
      ∧ (d.cause = causeUnderflow ∨ (d.cause = causeOverflow ∧ d.guardOpen = false) →
        exec (.cmdClearFault n) s = done { d with cause := causeNone })
      ∧ (d.cause = causeOverflow ∧ d.guardOpen = true → exec (.cmdClearFault n) s = refused .causePersists)
      ∧ (d.cause = causeMemory → exec (.cmdClearFault n) s = done cleared)
      ∧ (d.cause = causeReserve → d.kind = kindStack → d.depth < d.cap → exec (.cmdClearFault n) s = done cleared)
      ∧ (d.cause = causeReserve → d.kind = kindStack → d.cap ≤ d.depth →
        exec (.cmdClearFault n) s = refused .causePersists)
      ∧ (d.cause = causeDescriptor → cleared.valid s.chip.cfg s.chip.control.straps n = true →
        exec (.cmdClearFault n) s = done cleared)
      ∧ (d.cause = causeDescriptor → cleared.valid s.chip.cfg s.chip.control.straps n = false →
        exec (.cmdClearFault n) s = refused .causePersists))
    ∧ (∀ op, Holds s.chip op c → c.struct.toNat = n → s.chip.entry? n = some e → e.ready = true →
      e.waiting.head? = some .command → d.kind = kindOff →
      (op = opOpen → exec (.cmdOpen n) s = refused .off) ∧ (op = opClose → exec (.cmdClose n) s = refused .off)
      ∧ (op = opCloseGuard → exec (.cmdCloseGuard n) s = refused .off)
      ∧ (op = opClearFault → exec (.cmdClearFault n) s = refused .off))

/-- ABORT, ARM and DISARM on a working copy (R58, R86, R100, R152, R153): ABORT is refused HALTED with cause DESCRIPTOR, and
otherwise empties a ring or stack into the flushed count, reporting a level that was above 0, or returns a tally to its lower
bound; ARM sets armed and posts the trigger move when the condition holds; DISARM clears it. On a copy of kind OFF each is
refused OFF (R2, R164). That the WATERMARK notice of an ABORT's crossing joins ahead of its COMMAND_DONE is the model's choice
(log 31). That the entry of a refused operation moves to the front of the recency list is the model's reading (log 33). -/
def Obligations.AbortAndArmingChangeTheWorkingCopy : Prop :=
  ∀ (s : State) (n : Nat) (c : CommandItem) (e : Entry),
    let d := e.copy
    let b (d' : Descriptor) := s.chip.applied n e (fun y =>
      { y with copy := d', state := if d' = d then e.state else .dirty })
    let change (d' : Descriptor) (level : Nat) :=
      After s ((if 0 < level then (b d').report n d d' none none else b d').commandDone)
    (CommandTurn s.chip opAbort n c e →
      (d.state = stHalted ∧ d.cause = causeDescriptor →
        exec (.cmdAbort n) s = After s ((s.chip.applied n e id).commandRefused .halted))
      ∧ (¬ (d.state = stHalted ∧ d.cause = causeDescriptor) → d.kind = kindRing → exec (.cmdAbort n) s = change
          { d with w32 := BitVec.ofNat 16 ((d.head + d.count) % d.cap), w34 := 0, flags := withBit d.flags 2 false,
                   flushed := d.w34 } d.count)
      ∧ (¬ (d.state = stHalted ∧ d.cause = causeDescriptor) → d.kind = kindStack → exec (.cmdAbort n) s = change
          { d with w32 := 0, w34 := 0, b38 := 0, flushed := d.w32,
                   cause := if d.cause = causeOverflow ∨ d.cause = causeUnderflow then causeNone else d.cause } d.depth)
      ∧ (¬ (d.state = stHalted ∧ d.cause = causeDescriptor) → d.kind = kindTally → exec (.cmdAbort n) s =
          change { d.withValue d.lower with w48 := 0, flushed := 0 } 0))
    ∧ (CommandTurn s.chip opArm n c e →
      let armed : Descriptor := { d with flags := withBit d.flags 0 true }
      exec (.cmdArm n) s = After s ((if d.holds = true ∧ d.descriptorHalt = false then
        (b armed).post d.triggerMove.toNat (.structure n) else b armed).commandDone))
    ∧ (CommandTurn s.chip opDisarm n c e →
      exec (.cmdDisarm n) s = change { d with flags := withBit d.flags 0 false } 0)
    ∧ (∀ op, Holds s.chip op c → c.struct.toNat = n → s.chip.entry? n = some e → e.ready = true →
      e.waiting.head? = some .command → d.kind = kindOff →
      let refused := After s ((s.chip.applied n e id).commandRefused .off)
      (op = opAbort → exec (.cmdAbort n) s = refused) ∧ (op = opArm → exec (.cmdArm n) s = refused)
      ∧ (op = opDisarm → exec (.cmdDisarm n) s = refused))

/-- The commands that name no working copy (R121, R122, R143, R144, R145, R154, R164): NOP is done; FLUSH marks the DIRTY and
WRITING entries, and is done when no mark is left; RELEASE is done when no entry holds the index and otherwise joins the
waiting list; TRIGGER posts; STOP_MOVE withdraws a pending move, asks a LOADING or RUNNING one to stop, or is refused
NOT_ACTIVE; PAUSE_MOVES and RESUME_MOVES set and clear the pause request, but not in STOPPING. -/
def Obligations.OtherCommandsAreCarriedOut : Prop :=
  ∀ (s : State) (c : CommandItem) (n m : Nat),
    let b := s.chip
    let started : CommandUnit := { b.command with stage := .started }
    let left := b.trigger.pending.filter (fun p => p.move != m)
    let withdrawn : Bridge := { b with trigger := { b.trigger with pending := left } }
    let loaded := b.engine.move.map LoadedMove.index = some m
    (Holds b opNop c → exec .cmdNop s = After s b.commandDone)
    ∧ (Holds b opFlush c → exec .cmdFlush s = After s { b with
        cache := b.cache.map (fun e => { e with flushMark := e.flushMark || e.countsDirty }), command := started })
    ∧ (Holds b opRelease c → c.struct.toNat = n → b.entry? n = none → exec (.cmdRelease n) s = After s b.commandDone)
    ∧ (∀ e, Holds b opRelease c → c.struct.toNat = n → b.entry? n = some e → exec (.cmdRelease n) s = After s
        { b.setEntry n (fun e => { e with waiting := e.waiting ++ [.release] }) with command := started })
    ∧ (Holds b opTrigger c → c.move.toNat = m → exec (.cmdTrigger m) s = After s ((b.post m .software).commandDone))
    ∧ (Holds b opStopMove c → c.move.toNat = m → loaded → b.engine.state = .loading ∨ b.engine.state = .running →
        exec (.cmdStopMove m) s = After s { withdrawn with
          engine := { b.engine with stopRequest := some c.tag }, command := started })
    ∧ (Holds b opStopMove c → c.move.toNat = m → loaded → b.engine.state = .storing →
        exec (.cmdStopMove m) s = After s { withdrawn with command := started })
    ∧ (Holds b opStopMove c → c.move.toNat = m → ¬ loaded → (∃ p ∈ b.trigger.pending, p.move = m) →
        exec (.cmdStopMove m) s = After s withdrawn.commandDone)
    ∧ (Holds b opStopMove c → c.move.toNat = m → ¬ loaded → (∀ p ∈ b.trigger.pending, p.move ≠ m) →
        exec (.cmdStopMove m) s = After s (b.commandRefused .notActive))
    ∧ (Holds b opPauseMoves c → b.control.state ≠ .stopping → exec .cmdPauseMoves s = After s
        (Bridge.commandDone { b with engine := { b.engine with
          pauseRequest := true, state := if b.engine.state = .idle then .paused else b.engine.state } }))
    ∧ (Holds b opResumeMoves c → b.control.state ≠ .stopping → exec .cmdResumeMoves s = After s
        (Bridge.commandDone { b with engine := { b.engine with
          pauseRequest := false, state := if b.engine.state = .paused then .idle else b.engine.state } }))
    ∧ (b.control.state = .stopping →
        (Holds b opPauseMoves c → exec .cmdPauseMoves s = After s b.commandDone)
        ∧ (Holds b opResumeMoves c → exec .cmdResumeMoves s = After s b.commandDone))
    ∧ (b.command.held = some c → b.command.stage = .started → c.op = opFlush →
        ((∀ e ∈ b.cache, e.flushMark = false) → b.flushStep = some b.commandDone)
        ∧ ((∃ e ∈ b.cache, e.flushMark = true) → b.flushStep = none))

/-! ## Starting and stopping -/

/-- START (R177, R184): when memory answers OKAY to a write of 1 to the start word in PASS, the bridge is STARTING, the start
refusal reason is NONE, the shadows are clear, and the 32-byte anchor read is the last request queued. That the rows START and
FORWARDED_REQUEST_DONE are one step here is the model's choice (log 23). -/
def Obligations.StartBeginsWithTheAnchorRead : Prop :=
  ∀ (s : State) (id : Nat) (q : MemRequest) (r : InFlight),
    AnswerDue s id isForward q → s.chip.inflight? id = some r → r.cls = .anchorStart →
    r.request.coversStartWord s.chip.control.straps = true → r.request.startWord s.chip.control.straps = 1 →
    s.chip.control.state = .pass →
    ∃ b, exec (.startBridge id) s = AfterAnswer s q true false b
      ∧ exec (.forwardedRequestDone id true) s = AfterAnswer s q true false b
      ∧ b.control.state = .starting ∧ b.control.startReason = .none ∧ b.control.noticeShadow = false
      ∧ b.control.demandShadows = [false, false, false, false]
      ∧ (∃ h, b.mport.waiting.getLast? =
          some ⟨h, .anchorRead, false, s.chip.control.straps.val * 268435456, [], 32, false⟩)
      ∧ b.iport = ((s.chip.received id).answer id true []).iport

/-- STOP (R177, R188, R145), from the start word or as a command, in STARTING, AUDITING, RUN and QUIET: the bridge is
STOPPING, the timer stopped, the audit gone, the pause and stop requests clear, a PAUSED engine IDLE. Two clauses are the
model's choice: the findings not yet queued are gone, in RUN and QUIET too (log 22), and the rows STOP and
FORWARDED_REQUEST_DONE are one step for the start word (log 23). -/
def Obligations.StopBeginsTheStopSequence : Prop :=
  ∀ s : State,
    (s.chip.control.state = .starting ∨ s.chip.control.state = .auditing ∨ s.chip.control.state = .run
      ∨ s.chip.control.state = .quiet) →
    let stopped (b : Bridge) := b.control.state = .stopping ∧ b.control.idleTimer = none ∧ b.control.audit = none
      ∧ b.control.findings = [] ∧ b.control.emptying = false
      ∧ b.control.stopStage = (if s.chip.control.state = .starting ∨ s.chip.control.state = .auditing
          then .halting else .finishing)
      ∧ b.engine.pauseRequest = false ∧ b.engine.stopRequest = none
      ∧ b.engine.state = (if s.chip.engine.state = .paused then .idle else s.chip.engine.state)
      ∧ b.engine.move = s.chip.engine.move ∧ b.trigger = s.chip.trigger ∧ b.cache = s.chip.cache
    (∀ (id : Nat) (q : MemRequest) (r : InFlight), AnswerDue s id isForward q → s.chip.inflight? id = some r →
      r.cls = .anchorStart → r.request.coversStartWord s.chip.control.straps = true →
      r.request.startWord s.chip.control.straps = 2 →
      ∃ b, exec (.stopBridge (.startWord id)) s = AfterAnswer s q true false b
        ∧ exec (.forwardedRequestDone id true) s = AfterAnswer s q true false b ∧ stopped b)
    ∧ (∀ c, Holds s.chip opStop c → ∃ b, exec (.stopBridge .command) s = After s b ∧ stopped b
        ∧ b.command.state = .idle ∧ b.command.held = none)

/-- The anchor read is answered in STARTING (R184): an error or a failing check sets the start refusal reason and returns the
bridge to PASS with nothing held; otherwise the values read are in use, the bridge is AUDITING, and the read of structure
descriptor 0 is the last request queued. The requests that waited to be classified are classified then, by PASS or by AUDITING
(R22, R175). The checks, in their order: bases aligned, counts in their ranges, no region past the top of memory, no two
regions that meet (LAYOUT); the must level from 1 to 16 and above the release level (LEVELS). The values are read in the
layout of the anchor block (R182). -/
def Obligations.AnchorReadLeadsToPassOrAuditing : Prop :=
  (∀ (s : State) (id : Nat) (ok : Bool) (q : MemRequest), AnswerDue s id isAnchorRead q → s.chip.control.state = .starting →
    let g := Settings.ofBytes (Memory.readBytes s.mem q.addr q.length)
    let classified (st : BridgeState) (x : Option Settings) : IPort := { s.chip.iport with
      inflight := s.chip.iport.inflight.map (fun r =>
        if r.cls = .unknown ∨ r.cls = .apertureWait ∨ r.cls = .tableWait then
          { r with cls := classify st x s.chip.control.straps r.request }
        else r) }
    ∃ b, exec (.anchorReadDone id ok) s = AfterAnswer s q ok false b
      ∧ (ok = false → b.control.state = .pass ∧ b.control.startReason = .memory ∧ b.control.settings = none
          ∧ b.cache = [] ∧ b.misses = [] ∧ b.iport = classified .pass none)
      ∧ (∀ r, ok = true → g.startRefusal s.chip.control.straps = some r →
          b.control.state = .pass ∧ b.control.startReason = r ∧ b.control.settings = none ∧ b.cache = [] ∧ b.misses = []
          ∧ b.iport = classified .pass none)
      ∧ (ok = true → g.startRefusal s.chip.control.straps = none →
          b.control.state = .auditing ∧ b.control.settings = some g ∧ b.iport = classified .auditing (some g)
          ∧ b.control.audit = some ⟨.struct 0, [], 0, []⟩
          ∧ ∃ h, b.mport.waiting.getLast? = some ⟨h, .auditRead, false, g.tableBase, [], 64, false⟩)
      ∧ (∀ (g : Settings) (straps : Fin 16),
        let anchor := straps.val * 2 ^ 28
        let structs := g.structureCount * 64
        let moves := g.moveCount * 32
        let layout := g.tableBase % 64 ≠ 0 ∨ g.moveBase % 32 ≠ 0 ∨ g.apertureBase % 8192 ≠ 0
          ∨ g.structureCount < 2 ∨ 256 < g.structureCount ∨ 64 < g.moveCount
          ∨ 2 ^ 32 < g.apertureBase + 8192 ∨ 2 ^ 32 < g.tableBase + structs
          ∨ (0 < g.moveCount ∧ 2 ^ 32 < g.moveBase + moves)
          ∨ Meet anchor 64 g.apertureBase 8192 ∨ Meet anchor 64 g.tableBase structs ∨ Meet anchor 64 g.moveBase moves
          ∨ Meet g.apertureBase 8192 g.tableBase structs ∨ Meet g.apertureBase 8192 g.moveBase moves
          ∨ Meet g.tableBase structs g.moveBase moves
        let levels := g.mustLevel < 1 ∨ 16 < g.mustLevel ∨ g.mustLevel ≤ g.releaseLevel
        (layout → g.startRefusal straps = some .layout) ∧ (¬ layout → levels → g.startRefusal straps = some .levels)
          ∧ (¬ layout → ¬ levels → g.startRefusal straps = none)))
  ∧ (∀ bs : List Byte,
    let byte (i : Nat) := (byteIn bs i).toNat
    let enables (i : Nat) := (byteIn bs i).getLsbD 0
    Settings.ofBytes bs =
      { tableBase := (wordIn bs 4).toNat, moveBase := (wordIn bs 8).toNat, apertureBase := (wordIn bs 12).toNat
        structureCount := (halfIn bs 16).toNat, moveCount := byte 18, mustLevel := byte 19, releaseLevel := byte 20
        noticeLine := enables 21, refusalNotices := (byteIn bs 21).getLsbD 1, idleTime := (halfIn bs 22).toNat
        bindings := [⟨byte 24, enables 25⟩, ⟨byte 26, enables 27⟩, ⟨byte 28, enables 29⟩, ⟨byte 30, enables 31⟩] })

/-- The audit (R185, R186): an error refuses START with MEMORY; a bad descriptor 0 or 1 refuses it with COMMAND_RING or
NOTICE_RING, and what waited to be classified is classified by PASS; another failing structure has HALTED and DESCRIPTOR
written to its bytes 1 and 2 and joins the finding list; one read as CLOSING has CLOSED written; a failing move has INVALID
written to byte 22, one whose STRUCT end was not read, or read as OFF, as TALLY or with another item size, among them (R133);
a descriptor that passes, and one whose write is done, is followed by what comes next. Validation is that of R17, with the
shapes of structures 0 and 1 (R19, R20): codes, state and cause, condition and trigger move, item storage clear of the
regions, watermarks, policies, and the fields of each kind; OFF is not examined (R2); CLOSING counts as CLOSED, of every kind
(R13), and HALTED with cause DESCRIPTOR, with a legal kind, passes. That an OFF descriptor 0 or 1 fails at a fetch too is the
model's reading (log 38). -/
def Obligations.AuditJudgesEachDescriptor : Prop :=
  ∀ (s : State) (a : Audit) (id : Nat) (q : MemRequest), s.chip.control.audit = some a →
    let g := s.chip.cfg
    let data := Memory.readBytes s.mem q.addr q.length
    let refused (c : Instr) (ok : Bool) (r : StartReason) := ∃ b, exec c s = AfterAnswer s q ok false b
      ∧ b.control.state = .pass ∧ b.control.startReason = r ∧ b.control.findings = [] ∧ b.control.settings = none
      ∧ b.iport = { s.chip.iport with inflight := s.chip.iport.inflight.map (fun x =>
          if x.cls = .unknown ∨ x.cls = .apertureWait ∨ x.cls = .tableWait then
            { x with cls := classify .pass none s.chip.control.straps x.request }
          else x) }
    let writes (addr : Nat) (bytes : List Byte) (a' : Audit) := ∃ b, exec (.auditReadDone id true) s =
      AfterAnswer s q true false b ∧ b.control.audit = some a' ∧ b.control.state = .auditing
      ∧ ∃ h, b.mport.waiting.getLast? = some ⟨h, .auditWrite, true, addr, bytes, bytes.length, false⟩
    (s.chip.control.state = .auditing →
      (AnswerDue s id isAuditRead q → refused (.auditReadDone id false) false .memory)
      ∧ (AnswerDue s id isAuditWrite q → refused (.auditWriteDone id false) false .memory)
      ∧ (∀ n, AnswerDue s id isAuditRead q → a.position = .struct n →
        let d := Descriptor.ofBytes data
        let a' : Audit := { a with shapes := a.shapes ++ [(d.kind, d.itemSize)] }
        (n ≤ 1 → ¬ (d.valid g s.chip.control.straps n = true ∧ d.state = stOpen) →
          refused (.auditReadDone id true) true (if n = 0 then .commandRing else .noticeRing))
        ∧ (1 < n → d.passes g s.chip.control.straps n = false →
          writes (g.tableBase + n * 64 + 1) [stHalted, causeDescriptor] { a' with findings := a.findings ++ [n] })
        ∧ (1 < n → d.passes g s.chip.control.straps n = true → d.closingAsClosed ≠ d →
          writes (g.tableBase + n * 64 + 1) [stClosed] a')
        ∧ ((n ≤ 1 ∧ d.valid g s.chip.control.straps n = true ∧ d.state = stOpen)
            ∨ (1 < n ∧ d.passes g s.chip.control.straps n = true ∧ d.closingAsClosed = d) →
          exec (.auditReadDone id true) s = AfterAnswer s q true false ((s.chip.received id).auditNext a')))
      ∧ (∀ m, AnswerDue s id isAuditRead q → a.position = .move m →
        let d := MoveDescriptor.ofBytes data
        let passes := d.loadOk g s.chip.control.straps = true ∧ Bridge.auditEndFits a d.itemSize d.srcStruct = true
          ∧ Bridge.auditEndFits a d.itemSize d.dstStruct = true
        (passes → exec (.auditReadDone id true) s = AfterAnswer s q true false ((s.chip.received id).auditNext a))
        ∧ (¬ passes → writes (g.moveBase + m * 32 + 22) [5] { a with movesMarked := a.movesMarked + 1 }))
      ∧ (AnswerDue s id isAuditWrite q →
        exec (.auditWriteDone id true) s = AfterAnswer s q true false ((s.chip.received id).auditNext a)))
    ∧ (∀ (d : Descriptor) (g : Settings) (straps : Fin 16) (n : Nat),
      let ring := d.kind = kindRing
      let stack := d.kind = kindStack
      let tally := d.kind = kindTally
      let shape := (n = 0 → ring ∧ d.itemSize = 8 ∧ (d.state = stOpen ∨ d.state = stHalted))
        ∧ (n = 1 → ring ∧ d.itemSize = 16 ∧ d.fullPolicy = 0 ∧ 1 ≤ d.high.toNat ∧ (d.state = stOpen ∨ d.state = stHalted))
      let common := (d.state = stOpen ∨ d.state = stClosed ∨ d.state = stHalted) ∧ d.cause.toNat ≤ 5
        ∧ (d.state = stHalted ↔ d.cause = causeReserve ∨ d.cause = causeMemory ∨ d.cause = causeDescriptor)
        ∧ (d.condition = condNone ∨ ((d.condition = condHigh ∨ d.condition = condLow) ∧ (ring ∨ stack))
          ∨ (d.condition = condWrap ∧ tally))
        ∧ (d.condition ≠ condNone → d.triggerMove.toNat < g.moveCount)
      let storage := (d.itemSize = 4 ∨ d.itemSize = 8 ∨ d.itemSize = 16) ∧ 1 ≤ d.cap ∧ d.base.toNat % d.size = 0
        ∧ d.base.toNat + d.cap * d.size ≤ 2 ^ 32 ∧ ClearOfRegions g straps d.base.toNat (d.cap * d.size)
        ∧ d.high.toNat ≤ d.cap ∧ d.low.toNat ≤ d.cap ∧ d.emptyPolicy.toNat ≤ 1 ∧ d.fillValue.toNat ≤ 1
      let ringOk := d.fullPolicy.toNat ≤ 1 ∧ d.head < d.cap ∧ d.count ≤ d.cap
      let stackOk := 1 ≤ d.limit ∧ d.limit + 5 ≤ d.cap ∧ d.frame ≤ d.depth ∧ d.depth ≤ d.cap ∧ d.b38.toNat ≤ 1
        ∧ (d.b38 = 0 → d.depth ≤ d.limit)
        ∧ (d.b38 = 1 → d.cause = causeOverflow ∨ d.cause = causeReserve ∨ d.cause = causeMemory ∨ d.cause = causeDescriptor)
      let tallyOk := d.lower ≤ d.value ∧ d.value ≤ d.upper ∧ d.step ≠ 0 ∧ d.b38.toNat ≤ 1
      (∀ size e, Bridge.auditEndFits a size e = true ↔ e = none
        ∨ ∃ i k, e = some i ∧ a.shapes[i]? = some (k, size) ∧ k ≠ kindOff ∧ k ≠ kindTally)
      ∧ (d.valid g straps n = true ↔ shape ∧ (d.kind = kindOff ∨ (common
        ∧ ((ring ∧ storage ∧ ringOk) ∨ (stack ∧ storage ∧ stackOk) ∨ (tally ∧ tallyOk)))))
      ∧ d.closingAsClosed = (if d.state = stClosing then { d with state := stClosed } else d)
      ∧ (d.passes g straps n = true ↔ (d.state = stHalted ∧ d.cause = causeDescriptor ∧ d.kind.toNat ≤ 3)
        ∨ d.closingAsClosed.valid g straps n = true))

/-- What follows a judged descriptor (R185, R186): the read of the next structure descriptor, then of each move descriptor,
and after the last RUN: counts and record cleared, the timer started, the findings kept, STARTED the last notice of a queue
with room, the requests that waited classified (R22, R175), an IDLE command unit woken (R163). Then each finding's FAULT
notice is queued in order while the queue holds fewer than 8. -/
def Obligations.AuditEndsInRun : Prop :=
  (∀ (b : Bridge) (a : Audit),
    (∀ n, a.position = .struct n → n + 1 < b.cfg.structureCount → ∃ h, (b.auditNext a).mport.waiting.getLast? =
      some ⟨h, .auditRead, false, b.cfg.tableBase + (n + 1) * 64, [], 64, false⟩)
    ∧ (∀ n, a.position = .struct n → b.cfg.structureCount ≤ n + 1 → 0 < b.cfg.moveCount →
      ∃ h, (b.auditNext a).mport.waiting.getLast? = some ⟨h, .auditRead, false, b.cfg.moveBase, [], 32, false⟩)
    ∧ (∀ m, a.position = .move m → m + 1 < b.cfg.moveCount → ∃ h, (b.auditNext a).mport.waiting.getLast? =
      some ⟨h, .auditRead, false, b.cfg.moveBase + (m + 1) * 32, [], 32, false⟩)
    ∧ ((∃ n, a.position = .struct n ∧ b.cfg.structureCount ≤ n + 1 ∧ b.cfg.moveCount = 0)
        ∨ (∃ m, a.position = .move m ∧ b.cfg.moveCount ≤ m + 1) → b.notices.queue.length < 8 →
      let r := b.auditNext a
      r.control.state = .run ∧ r.control.dropped = 0 ∧ r.control.firstDropped = none
        ∧ r.control.lastRefusal = ⟨0, .none, 0, 0⟩ ∧ r.control.findings = a.findings ∧ r.control.audit = none
        ∧ r.control.idleTimer = (if b.cfg.idleTime = 0 then none else some b.cfg.idleTime)
        ∧ r.command = (if b.command.state = .idle then { b.command with wake := true } else b.command)
        ∧ r.iport = { b.iport with inflight := b.iport.inflight.map (fun x =>
            if x.cls = .unknown ∨ x.cls = .apertureWait ∨ x.cls = .tableWait then
              { x with cls := classify .run b.control.settings b.control.straps x.request }
            else x) }
        ∧ r.notices.queue = b.notices.queue ++
          [{ kind := .started, cause := .none, struct := none, move := none, initiator := none, itemLost := false,
             writeback := false, tag := 0, value := BitVec.ofNat 32 (a.findings.length + 65536 * a.movesMarked) }]))
  ∧ (∀ (s : State) (n : Nat) (rest : List Nat), s.chip.control.findings = n :: rest → s.chip.control.state = .run →
    s.chip.notices.queue.length < 8 →
    exec .auditFaultNotice s = After s (Bridge.notify { s.chip with control := { s.chip.control with findings := rest } }
      { kind := .fault, cause := .descriptor, struct := some (BitVec.ofNat 8 n), move := none, initiator := none,
        itemLost := false, writeback := false, tag := 0, value := 0 }))

/-- The idle timer's expiry and the steps of STOPPING (R187, R188, R160, R171): at rest in RUN the cache is asked to empty
itself and the timer stops, otherwise the timer restarts; once the run, the command, the completion and every tap are done the
pending set is cleared and counted; once the queue is drained the cache is asked to empty itself. At rest: nothing done, held,
queued, pending or waiting, and the last take of the command unit found count 0 (with a wake and a finding as work left: log
12). When every entry is CLEAN and unpinned with nothing in progress or waiting, every entry is freed: a RUN that empties
itself is QUIET (R123), STOPPING is in PASS (R188), and WARM too, once the access of a start is answered (R189); STOPPING out
of a start is in PASS once that is answered, its cleared-pending count 0 (log 22). PASS holds nothing and classifies what
waits (R183, R175). That a request whose regions were not known waits until then, out of a start that was stopped or reset, is
the model's reading (log 24). That a write which touches the aperture and covers the start word is then ANCHOR-START is the
model's choice between R22 and R175 (log 35). -/
def Obligations.IdleExpiryAndStopStepsComplete : Prop :=
  ∀ s : State,
    let b := s.chip
    (b.control.state = .run → b.control.idleTimer.isSome = true →
      (b.atRest = true → exec .idleTimerExpiry s = After s { b with control := { b.control with
        idleTimer := none, emptying := true } })
      ∧ (b.atRest = false → exec .idleTimerExpiry s = After s { b with control := { b.control with
        idleTimer := if b.cfg.idleTime = 0 then none else some b.cfg.idleTime } }))
    ∧ (b.control.state = .stopping → b.control.stopStage = .finishing → b.engine.state = .idle → b.engine.move = none →
      b.command.state = .idle → b.trigger.completion = none →
      (∀ r ∈ b.iport.inflight, r.cls = .tap → ∃ ok data, r.phase = .answered ok data) →
      ∃ b', exec .stopClearPending s = After s b' ∧ b'.trigger = ⟨[], none, none, none⟩
        ∧ b'.control.clearedPending = b.trigger.pending.length ∧ b'.control.stopStage = .draining
        ∧ b'.cache = b.cache ∧ b'.notices = b.notices)
    ∧ (b.control.state = .stopping → b.control.stopStage = .draining → b.notices.queue = [] →
      exec .stopEmptyCache s = After s { b with control := { b.control with stopStage := .emptying } })
    ∧ (b.atRest = true ↔ b.command.state = .idle ∧ b.command.lastEmpty = true ∧ b.command.wake = false
      ∧ (b.engine.state = .idle ∨ b.engine.state = .paused) ∧ b.trigger.link = none ∧ b.trigger.completion = none
      ∧ b.trigger.pending = [] ∧ b.notices.queue = [] ∧ b.control.findings = [] ∧ b.misses = []
      ∧ (∀ e ∈ b.cache, e.busy = none ∧ e.waiting = [] ∧ e.held = [] ∧ e.heldRelease = false)
      ∧ (∀ r ∈ b.iport.inflight, ∀ todo, r.phase ≠ .snooping todo ∧ r.phase ≠ .moveWait todo))
    ∧ (let settled := b.misses = [] ∧ ∀ e ∈ b.cache, e.state = .clean ∧ e.busy = none ∧ e.waiting = [] ∧ e.pin = false
      let answered := ∀ q ∈ b.mport.waiting ++ b.mport.outstanding, q.abandoned = false →
        q.access ≠ .anchorRead ∧ q.access ≠ .auditRead ∧ q.access ≠ .auditWrite
      let empties := b.control.state = .run ∧ b.control.emptying = true ∧ settled
      let stops := b.control.state = .stopping ∧ b.control.stopStage = .emptying ∧ settled
      let halts := b.control.state = .stopping ∧ b.control.stopStage = .halting ∧ answered
      let resets := b.control.state = .warm ∧ settled ∧ answered
      let frees (b' : Bridge) := b'.cache = [] ∧ b'.misses = [] ∧ b'.episode = false ∧ b'.engine = b.engine
        ∧ b'.trigger = b.trigger ∧ b'.command = b.command ∧ b'.notices = b.notices ∧ b'.mport.outstanding = b.mport.outstanding
        ∧ (∃ q ∈ b'.mport.waiting, q.access = .mirror)
      let passes (k : Nat) := ∃ b', b.emptyStep = some b' ∧ frees b'
        ∧ b'.control = { b.control with
            state := .pass, settings := none, stopStage := .none, emptying := false, idleTimer := none, audit := none
            findings := [], clearedPending := k }
        ∧ b'.iport = { b.iport with inflight := b.iport.inflight.map (fun r =>
            if r.cls = .unknown ∨ r.cls = .apertureWait ∨ r.cls = .tableWait then
              { r with cls := if r.request.coversStartWord b.control.straps = true then .anchorStart else .plain }
            else r) }
      (empties → ∃ b', b.emptyStep = some b' ∧ frees b' ∧ b'.iport = b.iport
        ∧ b'.control = { b.control with state := .quiet, emptying := false, idleTimer := none })
      ∧ (stops → passes b.control.clearedPending) ∧ (halts → passes 0) ∧ (resets → passes b.control.clearedPending)
      ∧ (¬ empties → ¬ stops → ¬ halts → ¬ resets → b.emptyStep = none))

/-! ## The record cache -/

/-- A fetch is answered, its entry FETCHING (R18, R109, R110, R124): the descriptor is taken in, a CLOSING one as CLOSED and a
failing one marked HALTED and DESCRIPTOR with its FAULT notice, DIRTY even when it was so marked already; a copy that passes
judges the lines it feeds, the notice line only as a ring, and one that fails clears them (R172, R173; OFF and no ring: log
26). After an error the entry is free, a FAULT notice queued, and each operation that waited refused, ended or let go, in
order, the notice writer's first, and in either order with that notice (log 6); in WARM the entry is free, and what waited
goes on as after a drop (the model's reading, log 15). That an OFF descriptor 0 or 1 fails is the model's reading (log 38).
The descriptor's fields, flags and codes are those of R182. That a guard byte of 2 to 255 is read as closed is the model's
choice (log 42). -/
def Obligations.FetchFillsOrFreesTheEntry : Prop :=
  (∀ (s : State) (id : Nat) (q : MemRequest) (n : Nat) (e : Entry),
    AnswerDue s id isFetch q → q.access = .fetch n → s.chip.entry? n = some e → (∃ issued, e.state = .fetching issued) →
    let raw := Descriptor.ofBytes (Memory.readBytes s.mem q.addr q.length)
    let b := s.chip.received id
    let taken (d : Descriptor) (st : EntryState) := b.setEntry n (fun x => { x with copy := d, state := st })
    let woken (b : Bridge) := if n = 0 then b.wakeCommand else b
    let good := raw.closingAsClosed
    let bad : Descriptor := { raw with state := stHalted, cause := causeDescriptor }
    let fault (r : Reason) (b : Bridge) := b.notify
      { kind := .fault, cause := r, struct := some (BitVec.ofNat 8 n), move := none, initiator := none, itemLost := false,
        writeback := false, tag := 0, value := 0 }
    let freed : Bridge := { b with cache := b.cache.filter (fun x => x.index != n) }
    let puts := e.waiting.filter (fun op => op == .noticePut)
    let others := e.waiting.filter (fun op => op != .noticePut)
    let dropped := puts.foldl (Bridge.fetchFails n) freed
    let ended (b : Bridge) := others.foldl (Bridge.fetchFails n) b
    (s.chip.control.state ≠ .warm →
      (raw.passes b.cfg b.control.straps n = true → exec (.fetchComplete id true) s =
        AfterAnswer s q true false (woken ((taken good (if good = raw then .clean else .dirty)).judgeLines n good true
          (decide (good.kind = kindRing)))))
      ∧ (raw.passes b.cfg b.control.straps n = false → exec (.fetchComplete id true) s =
        AfterAnswer s q true false (woken ((fault .descriptor (taken bad .dirty)).judgeLines n bad false false)))
      ∧ (exec (.fetchComplete id false) s = AfterAnswer s q false false (ended (fault .memory dropped))
        ∨ exec (.fetchComplete id false) s = AfterAnswer s q false false (fault .memory (ended dropped)))
      ∧ (e.waiting = [] → exec (.fetchComplete id false) s = AfterAnswer s q false false (fault .memory freed)))
    ∧ (s.chip.control.state = .warm → ∀ ok,
      exec (.fetchComplete id ok) s = AfterAnswer s q ok false (e.waiting.foldl (Bridge.goesOn n) freed)))
  ∧ (∀ bs : List Byte,
    let d := Descriptor.ofBytes bs
    let byte := byteIn bs
    let half := halfIn bs
    let word := wordIn bs
    (d.kind = byte 0 ∧ d.state = byte 1 ∧ d.cause = byte 2 ∧ d.itemSize = byte 3 ∧ d.capacity = half 4 ∧ d.condition = byte 6
      ∧ d.triggerMove = byte 7 ∧ d.base = word 8 ∧ d.high = half 12 ∧ d.low = half 14 ∧ d.producers = half 16
      ∧ d.consumers = half 18 ∧ d.fullPolicy = byte 20 ∧ d.emptyPolicy = byte 21 ∧ d.fillValue = byte 22
      ∧ d.discard = half 24 ∧ d.flushed = half 26)
    ∧ (d.armed = (byte 23).getLsbD 0 ∧ d.lost = (byte 23).getLsbD 1 ∧ d.overrun = (byte 23).getLsbD 2
      ∧ d.watermarkNotices = (byte 23).getLsbD 3 ∧ d.faultNotices = (byte 23).getLsbD 4 ∧ d.atBound = (byte 23).getLsbD 5)
    ∧ (d.head = (half 32).toNat ∧ d.count = (half 34).toNat)
    ∧ (d.depth = (half 32).toNat ∧ d.frame = (half 34).toNat ∧ d.limit = (half 36).toNat
      ∧ (d.guardOpen = true ↔ d.kind = kindStack ∧ byte 38 = 1))
    ∧ (d.value = (word 32).toInt ∧ d.step = (half 36).toInt ∧ (d.stick = true ↔ byte 38 = 1) ∧ d.lower = (word 40).toInt
      ∧ d.upper = (word 44).toInt ∧ d.wraps = (half 48).toNat))
  ∧ [kindOff, kindRing, kindStack, kindTally] = [0, 1, 2, 3] ∧ [stOpen, stClosing, stClosed, stHalted] = [0, 1, 2, 3]
  ∧ [causeNone, causeOverflow, causeUnderflow, causeReserve, causeMemory, causeDescriptor] = [0, 1, 2, 3, 4, 5]
  ∧ [condNone, condHigh, condLow, condWrap] = [0, 1, 2, 3]

/-- A write-back is answered (R108, R111, R112, R124): the entry is CLEAN, or DIRTY when its copy changed meanwhile, with its
FLUSH mark served; a victim is reused for the new index. After an error, with a FAULT notice (but in STOPPING and WARM) and
memory as before, a pinned entry stays DIRTY and an unpinned one is dropped, or reused; of what waited on a dropped or reused
entry TABLE accesses are allowed, a RELEASE is done, and the rest become misses; the TABLE read that a pinned entry was
written back for is allowed (R117). What becomes of the rest behind a drop is the model's reading where R108 and R117 to R119
are silent (log 15), and the order of the FAULT notice and the notices of what waited is open (log 6); that it joins ahead of
the COMMAND_DONE of a FLUSH that it ends is the model's choice (log 31). That a copy changed meanwhile leaves the entry DIRTY
is the model's reading (log 13), and that a pinned entry with another reason leaves a waiting TABLE read for its next turn its
choice (log 32). The 64 bytes written and read are one layout (R182): each descriptor reads back as it was written, and each
64 bytes are written back as they were read, the bytes no layout names among them. -/
def Obligations.WriteBackCleansReusesOrDrops : Prop :=
  (∀ (s : State) (id : Nat) (q : MemRequest) (n : Nat) (must : Bool) (e : Entry) (reason : WriteBackFor),
    AnswerDue s id isWriteBack q → q.access = .writeBack n must → s.chip.entry? n = some e → e.state = .writing reason →
    let b := s.chip.received id
    let freed (ops : List CacheOp) : Bridge := { b with
      cache := b.cache.filter (fun x => x.index != n), misses := b.misses ++ ops.map (fun op => (n, op)) }
    let reused (m : Nat) : Bridge := { b with
      cache := ⟨m, .fetching false, Descriptor.blank, false, false,
        (b.misses.filter (fun p => p.1 == m)).map (fun p => p.2), [], false, none, false⟩
          :: b.cache.filter (fun x => x.index != n)
      misses := b.misses.filter (fun p => p.1 != m) }
    let noted (b : Bridge) := if b.control.state = .stopping ∨ b.control.state = .warm then b else b.notify
      { kind := .fault, cause := .memory, struct := some (BitVec.ofNat 8 n), move := none, initiator := none,
        itemLost := false, writeback := true, tag := 0, value := 0 }
    let r (ok : Bool) (b : Bridge) := exec (.writeBackComplete id ok) s = AfterAnswer s q ok true b
    let dropped (b : Bridge) := e.waiting.foldl (Bridge.goesOn n) { b with cache := b.cache.filter (fun x => x.index != n) }
    let takes (m : Nat) (b : Bridge) : Bridge := { b with
      cache := ⟨m, .fetching false, Descriptor.blank, false, false,
        (b.misses.filter (fun p => p.1 == m)).map (fun p => p.2), [], false, none, false⟩ :: b.cache
      misses := b.misses.filter (fun p => p.1 != m) }
    let fails (f : Bridge → Bridge) := if b.control.state = .stopping ∨ b.control.state = .warm then r false (f b)
      else r false (f (noted b)) ∨ r false (noted (f b))
    ((∀ m, reason ≠ .claim m) → r true (b.setEntry n (fun x => { x with
        state := if x.copy.toBytes = q.data then .clean else .dirty, flushMark := false })))
    ∧ (∀ m, reason = .claim m → e.waiting = [] → r true (reused m))
    ∧ (e.pin = true → reason ≠ .tableRead →
      r false (noted (b.setEntry n (fun x => { x with state := .dirty, flushMark := false }))))
    ∧ (e.pin = false → (∀ m, reason ≠ .claim m) → e.waiting = [] → r false (noted (freed [])))
    ∧ (∀ t, e.pin = false → (∀ m, reason ≠ .claim m) → e.waiting = [.tap t] → r false (noted (freed [.tap t])))
    ∧ (∀ m, e.pin = false → reason = .claim m → e.waiting = [] → r false (noted (reused m)))
    ∧ (∀ m, reason = .claim m → r true (takes m (dropped b)))
    ∧ (e.pin = false → (∀ m, reason ≠ .claim m) → fails dropped)
    ∧ (∀ m, e.pin = false → reason = .claim m → fails (fun b => takes m (dropped b)))
    ∧ (∀ rid l, e.pin = true → reason = .tableRead → e.waiting = .tableRead rid :: l → fails (fun b =>
        (b.setEntry n (fun x => { x with state := .dirty, flushMark := false, waiting := x.waiting.tail })).allow n rid))
    ∧ (e.pin = true → reason = .tableRead → (∀ rid l, e.waiting ≠ .tableRead rid :: l) →
        r false (noted (b.setEntry n (fun x => { x with state := .dirty, flushMark := false })))))
  ∧ (∀ d : Descriptor, d.toBytes.length = 64 ∧ Descriptor.ofBytes d.toBytes = d)
  ∧ (∀ bs : List Byte, bs.length = 64 → (Descriptor.ofBytes bs).toBytes = bs)

/-- What the record cache does by itself (R106, R107, R108, R115, R117, R118, R119, R121, R122): the oldest miss takes a FREE
entry, else the least recent idle CLEAN one, else claims the least recent idle DIRTY one and writes it back; a must episode
begins at the must level, writes the least recent idle DIRTY entry back, and ends at the release level; an entry in its turn
writes a FLUSH mark back, refuses a tap whose third check fails, and lets a TABLE access or a RELEASE act on it. A fetch is
issued unless a TABLE write that its descriptor has let go is outstanding, forwarded or still waiting in the list of another
descriptor (log 14); a DIRTY entry with nothing waiting is written back while the cache empties itself (R123, R124); a TABLE
write that still waits on a pinned entry is held, at once and not in its turn, and one whose turn has come is held on another
pinned entry that it touches: it waits as a whole (R119; log 14). Entries come first, the least recent ahead (R104; log 9),
then misses, must episodes, FLUSH, and the end of the emptying: that a miss takes the one idle DIRTY entry ahead of a must
episode is the model's choice (log 43). That an illegal kind refuses a tap SHAPE (log 25), that a refused tap moves its entry
to the front (log 33), and that a TABLE read which found its entry WRITING behind other operations has it written back again
when they left it DIRTY (log 40), are the model's readings. -/
def Obligations.CacheServesItsListsByItself : Prop :=
  ∀ b : Bridge,
    let entryFor (n : Nat) (rest : List Entry) : Bridge := { b with
      cache := ⟨n, .fetching false, Descriptor.blank, false, false,
        (b.misses.filter (fun p => p.1 == n)).map (fun p => p.2), [], false, none, false⟩ :: rest
      misses := b.misses.filter (fun p => p.1 != n) }
    let without (e : Entry) := b.cache.filter (fun x => x.index != e.index)
    let lastSuch (p : Entry → Bool) (e : Entry) := ∃ l r, b.cache = l ++ e :: r ∧ p e = true ∧ ∀ x ∈ r, p x = false
    let clean (e : Entry) : Bool := e.idle && e.state == .clean
    let dirty (e : Entry) : Bool := e.idle && e.state == .dirty
    let writing (e : Entry) (r : WriteBackFor) := Bridge.requesting
      { b with cache := b.cache.map (fun x => if x.index = e.index then { x with state := .writing r } else x) }
      (.writeBack e.index (r == .must)) true (b.cfg.tableBase + e.index * 64) e.copy.toBytes 64
    let popped (e : Entry) : Bridge := { b with
      cache := b.cache.map (fun x => if x.index = e.index then { x with waiting := x.waiting.tail } else x) }
    let unpinned (n : Nat) := ∀ y, b.entry? n = some y → y.pin = false
    let held (b : Bridge) (n : Nat) (r : InFlight) : Bridge := { b with
      cache := b.cache.map (fun x => if x.index = n then { x with held := x.held ++ [r.id] } else x)
      iport := { b.iport with inflight := b.iport.inflight.map (fun y => if y.id = r.id then
        { y with phase := .snooping (n :: (b.cfg.touchedStructures r.request).filter (fun m => m != n)) } else y) } }
    (∀ n op l r, b.misses = l ++ (n, op) :: r → b.claimed n = false → (∀ p ∈ l, b.claimed p.1 = true) →
      (b.cache.length < 16 → b.serveMiss = some (entryFor n b.cache))
      ∧ (∀ e, 16 ≤ b.cache.length → lastSuch clean e → b.serveMiss = some (entryFor n (without e)))
      ∧ (∀ e, 16 ≤ b.cache.length → (∀ x ∈ b.cache, clean x = false) → lastSuch dirty e →
        b.serveMiss = some (writing e (.claim n)))
      ∧ (16 ≤ b.cache.length → (∀ x ∈ b.cache, clean x = false ∧ dirty x = false) → b.serveMiss = none))
    ∧ (∀ g, b.control.settings = some g →
      (b.episode = false → g.mustLevel ≤ b.dirtyCount → b.mustStep = some { b with episode := true })
      ∧ (b.episode = false → b.dirtyCount < g.mustLevel → b.mustStep = none)
      ∧ (b.episode = true → b.dirtyCount ≤ g.releaseLevel → b.mustStep = some { b with episode := false })
      ∧ (∀ e, b.episode = true → g.releaseLevel + b.mustInFlight < b.dirtyCount → lastSuch dirty e →
        b.mustStep = some (writing e .must)))
    ∧ (∀ e, e.ready = true →
      (e.flushMark = true → e.state = .dirty → b.turn e = some (writing e .other))
      ∧ (¬ (e.flushMark = true ∧ e.state = .dirty) →
        (∀ t l, e.waiting = .tap t :: l → e.copy.fit t = none → b.entry? e.index = some e → b.turn e =
          some ((b.applied e.index e (fun x => x)).refuseTap t (if e.copy.kind = kindOff then .off else .shape)))
        ∧ (∀ id l, e.waiting = .tableRead id :: l → e.state = .clean → b.turn e = some ((popped e).allow e.index id))
        ∧ (∀ id l, e.waiting = .tableRead id :: l → e.state = .dirty → b.turn e = some (writing e .tableRead))
        ∧ (∀ id l r, e.waiting = .tableWrite id :: l → b.inflight? id = some r → r.request.write = true →
          (e.pin = true → b.turn e = some (held (popped e) e.index r))
          ∧ (∀ before m after y, e.pin = false → b.cfg.touchedStructures r.request = before ++ m :: after →
            (∀ i ∈ before, unpinned i) → b.entry? m = some y → y.pin = true → b.turn e = some (held (popped e) m r))
          ∧ (e.pin = false → (∀ i ∈ b.cfg.touchedStructures r.request, unpinned i) →
            (e.state = .dirty → b.turn e = some (writing e .other)) ∧ (e.state = .clean → b.turn e = some (b.dropEntry e))))
        ∧ (∀ l, e.waiting = .release :: l → e.pin = false →
            (e.state = .dirty → b.turn e = some (writing e .other)) ∧ (e.state = .clean → b.turn e = some (b.dropEntry e)))
        ∧ (∀ l, e.waiting = .release :: l → e.pin = true → b.turn e = some { b with
            cache := b.cache.map (fun x => if x.index = e.index then
              { x with waiting := x.waiting.tail, heldRelease := true } else x) })
        ∧ (e.waiting = [] → e.state = .dirty → b.control.emptying = true
            ∨ (b.control.state = .stopping ∧ b.control.stopStage = .emptying) ∨ b.control.state = .warm →
            b.turn e = some (writing e .other))
        ∧ (e.waiting = [] → e.state = .clean ∨ (b.control.emptying = false
            ∧ ¬ (b.control.state = .stopping ∧ b.control.stopStage = .emptying) ∧ b.control.state ≠ .warm) → b.turn e = none)))
    ∧ (∀ e, e.state = .fetching false →
      let blocked := ∃ r ∈ b.iport.inflight, r.request.write = true ∧ (r.cls = .table ∨ r.cls = .anchorStart)
        ∧ e.index ∈ b.cfg.touchedStructures r.request
        ∧ (r.phase = .forwarded ∨ ∃ todo, r.phase = .snooping todo ∧ e.index ∉ todo)
      (¬ blocked → b.turn e = some (Bridge.requesting
        { b with cache := b.cache.map (fun x => if x.index = e.index then { x with state := .fetching true } else x) }
        (.fetch e.index) false (b.cfg.tableBase + e.index * 64) [] 64))
      ∧ (blocked → e.pin = false → b.turn e = none))
    ∧ (∀ e id l k r, b.frontTurn e = none → e.pin = true → e.waiting = l ++ .tableWrite id :: k →
      (∀ op ∈ l, ∀ i, op ≠ .tableWrite i) → b.inflight? id = some r → r.request.write = true →
      b.turn e = some (held { b with cache := b.cache.map (fun x =>
        if x.index = e.index then { x with waiting := x.waiting.erase (.tableWrite id) } else x) } e.index r))
    ∧ (∀ l e r, b.cache = l ++ e :: r → (∀ x ∈ r, b.turn x = none) → (b.turn e).isSome = true → b.autoStep = b.turn e)
    ∧ ((∀ e ∈ b.cache, b.turn e = none) →
      (b.serveMiss.isSome = true → b.autoStep = b.serveMiss)
      ∧ (b.serveMiss = none → b.mustStep.isSome = true → b.autoStep = b.mustStep)
      ∧ (b.serveMiss = none → b.mustStep = none → b.flushStep.isSome = true → b.autoStep = b.flushStep)
      ∧ (b.serveMiss = none → b.mustStep = none → b.flushStep = none → b.autoStep = b.emptyStep))

/-! ## Moves -/

/-- The arbiter, the load and the pins (R131, R132, R133, R155): the lowest pending move becomes LOADING and its descriptor is
read; a read that fails ends the run MEMORY with nothing stored back; a descriptor that fails R132 ends INVALID; each STRUCT
end is pinned in turn, and one that does not fit ends the run INVALID. That such an end names the structure is the model's
reading (log 27). The checks of R132: mode, item size, each end a structure that it may be or a span with a legal step,
aligned and clear of the regions, block length from 1 to 256 in BLOCK, an enabled link below the move count. The move chosen
is below every other that is pending while the set is in order. The descriptor's fields are those of R182. -/
def Obligations.RunsLoadAndPin : Prop :=
  ∀ s : State,
    let b := s.chip
    let asking (e : Engine) (st : EngineStep) : Engine := { e with step := st, asked := false }
    (∀ p rest, b.control.state = .run → b.engine.state = .idle → b.trigger = ⟨p :: rest, none, none, none⟩ →
      let c : Chain := match p.origin with
        | .start o => ⟨o, p.move, none, 1⟩
        | .link c => c
      exec .arbiterChoice s = After s (Bridge.activity { b with
        trigger := ⟨rest, some c, none, none⟩
        engine := { Engine.unloaded .loading b.engine.pauseRequest with
          move := some ⟨p.move, c.run, none⟩, step := .readDescriptor }
        mport := { b.mport with waiting := b.mport.waiting ++
          [⟨b.nextHandle, .moveRead, false, b.cfg.moveBase + p.move * 32, [], 32, false⟩] }
        nextHandle := b.nextHandle + 1 }))
    ∧ (∀ (id : Nat) (q : MemRequest), AnswerDue s id isMoveRead q → b.engine.step = .readDescriptor →
      let d := MoveDescriptor.ofBytes (Memory.readBytes s.mem q.addr q.length)
      let r := b.received id
      let read : Bridge := { r with
        engine := { r.engine with move := r.engine.move.map (fun m => { m with descriptor := some d }) } }
      let goes (b : Bridge) := exec (.moveDescriptorReadDone id true) s = AfterAnswer s q true false b
      let ok := b.engine.move.isSome = true ∧ d.loadOk b.cfg b.control.straps = true
      (b.engine.move.isSome = true → d.loadOk b.cfg b.control.straps = false → goes (read.endRun .invalid false none))
      ∧ (ok → d.srcStruct.isSome = true → goes { read with engine := asking read.engine .pinSource })
      ∧ (ok → d.srcStruct = none → d.dstStruct.isSome = true → goes { read with engine := asking read.engine .pinDestination })
      ∧ (ok → d.srcStruct = none → d.dstStruct = none → goes read.startRunning)
      ∧ ((∀ x ∈ b.iport.inflight, ∀ todo, x.phase ≠ .moveWait todo) →
        exec (.moveDescriptorReadDone id false) s = AfterAnswer s q false false { r with
          engine := { asking r.engine .report with ending := some ⟨.memory, false, none, 0⟩ } }))
    ∧ (∀ n e, EngineTurn b n .pin e → b.engine.asked = true →
      let src := b.engine.step = .pinSource ∧ b.moveCopy.srcStruct = some n
      let dst := b.engine.step = .pinDestination ∧ b.moveCopy.dstStruct = some n
      let fits := (e.copy.kind ≠ kindOff ∧ e.copy.kind ≠ kindTally) ∧ e.copy.itemSize = b.moveCopy.itemSize
      let a := b.applied n e (fun x => { x with pin := true })
      let pinned : Bridge := { a with engine := { b.engine with pins := b.engine.pins ++ [n] } }
      (src ∨ dst → ¬ fits → exec .pinEnd s = After s ((b.applied n e id).endRun .invalid false (some n)))
      ∧ (src → fits → (∃ m, b.moveCopy.dstStruct = some m ∧ m ≠ n) → exec .pinEnd s =
        After s { pinned with engine := asking pinned.engine .pinDestination })
      ∧ ((src ∧ (∀ m, b.moveCopy.dstStruct = some m → m = n)) ∨ dst → fits →
        exec .pinEnd s = After s pinned.startRunning))
    ∧ (∀ (d : MoveDescriptor) (g : Settings) (straps : Fin 16),
      let endOk (type step : Byte) (place : Word) (last : Nat) :=
        (type = 0 ∧ place.toNat % 256 < g.structureCount ∧ last < place.toNat % 256)
        ∨ (type = 1 ∧ step.toNat ≤ 2 ∧ place.toNat % d.itemSize.toNat = 0
          ∧ ClearOfRegions g straps place.toNat d.itemSize.toNat)
      d.loadOk g straps = true ↔ d.mode.toNat ≤ 2 ∧ (d.itemSize = 4 ∨ d.itemSize = 8 ∨ d.itemSize = 16)
        ∧ endOk d.srcType d.srcStep d.src 0 ∧ endOk d.dstType d.dstStep d.dst 1
        ∧ (d.mode = 2 → 1 ≤ d.blockLength.toNat ∧ d.blockLength.toNat ≤ 256)
        ∧ (d.linkEnable = true → d.linkIndex.toNat < g.moveCount))
    ∧ (∀ p rest, PendingOk b → b.trigger.pending = p :: rest → ∀ x ∈ rest, p.move < x.move)
    ∧ (∀ bs : List Byte,
      let d := MoveDescriptor.ofBytes bs
      let byte := byteIn bs
      (d.mode = byte 0 ∧ d.itemSize = byte 1 ∧ d.srcType = byte 2 ∧ d.srcStep = byte 3 ∧ d.src = wordIn bs 4
        ∧ d.dstType = byte 8 ∧ d.dstStep = byte 9 ∧ d.dst = wordIn bs 12 ∧ d.count = halfIn bs 16
        ∧ d.blockLength = halfIn bs 18 ∧ d.linkIndex = byte 21 ∧ d.lastEnd = byte 22)
      ∧ (d.recycle = (byte 20).getLsbD 0 ∧ d.linkEnable = (byte 20).getLsbD 1 ∧ d.doneNotice = (byte 20).getLsbD 2)
      ∧ d.srcStruct = (if byte 2 = 0 then some (byte 4).toNat else none)
      ∧ d.dstStruct = (if byte 8 = 0 then some (byte 12).toNat else none)
      ∧ d.stepOf 0 = 0 ∧ d.stepOf 1 = BitVec.ofNat 32 d.itemSize.toNat ∧ d.stepOf 2 = - BitVec.ofNat 32 d.itemSize.toNat)

/-- The reservation step (R135): REFUSED for a destination that is HALTED, CLOSING or CLOSED; on an OPEN ring with room, or an
OPEN stack whose guard is closed or depth below the capacity, reservation 1 and disposal RESERVED; on a full ring DROP under
DISCARD and the end DEST_FULL under REFUSE; at reserve exhaustion DEST_FULL, the stack not halted. The destination is named,
and no item is lost. For a SPAN destination no step is made, and the disposal is WRITE. -/
def Obligations.ReservationStepJudgesTheDestination : Prop :=
  (∀ (s : State) (n : Nat) (e : Entry), EngineTurn s.chip n .reserve e → s.chip.engine.asked = true →
    s.chip.engine.step = .reserve → s.chip.moveCopy.dstStruct = some n →
    let d := e.copy
    let a := s.chip.applied n e id
    let ends (c : RunEnd) := exec .reservationStep s = After s (a.endRun c false (some n))
    let decides (b : Bridge) (x : Disposal) := exec .reservationStep s = After s { b with
      engine := { s.chip.engine with disposal := some x, step := .take, asked := false } }
    let reserves := decides (s.chip.applied n e (fun x => { x with reservation := true })) .reserved
    let held := d.count + (if e.reservation then 1 else 0)
    (d.state = stHalted ∨ d.state = stClosing ∨ d.state = stClosed → ends .refused)
    ∧ (d.state = stOpen → d.kind = kindRing → held < d.cap → reserves)
    ∧ (d.state = stOpen → d.kind = kindRing → d.cap ≤ held → d.fullPolicy = 1 → decides a .drop)
    ∧ (d.state = stOpen → d.kind = kindRing → d.cap ≤ held → d.fullPolicy = 0 → ends .destFull)
    ∧ (d.state = stOpen → d.kind = kindStack → d.b38 = 0 → reserves)
    ∧ (d.state = stOpen → d.kind = kindStack → d.b38 = 1 → d.depth < d.cap → reserves)
    ∧ (d.state = stOpen → d.kind = kindStack → d.b38 = 1 → d.depth = d.cap → ends .destFull))
  ∧ (∀ b : Bridge, b.engine.stopRequest = none → b.moveCopy.spansOk b.cfg b.control.straps = true →
    b.moveCopy.dstStruct = none →
    b.startItem = { b with engine := { b.engine with disposal := some .write, step := .take, asked := false } })

/-- The take and the put (R136, R137, R139): a HALTED source ends REFUSED, an empty one SOURCE_EMPTY, or OK in DRAIN;
otherwise its item is read, or the span's bytes. A RESERVED item is written at the ring's tail or pushed, a DROP counts in the
discard count, a WRITE goes to the span; a destination meanwhile HALTED or exhausted ends REFUSED with the item lost. A span
access that completes advances its address; one that fails ends MEMORY. That the entry moves to the front of the recency list
also when the run ends there is the model's reading (log 33). -/
def Obligations.ItemsAreTakenAndPut : Prop :=
  ∀ s : State,
    let b := s.chip
    let d := b.moveCopy
    let item := b.engine.transit.getD []
    (∀ n e, EngineTurn b n .take e → b.engine.asked = true → b.engine.step = .take → d.srcStruct = some n →
      let a := b.applied n e id
      let nothing := if e.copy.kind = kindRing then e.copy.count = 0 else e.copy.depth = 0 ∨ e.copy.depth = e.copy.frame
      let reads (w : ItemWork) (i : Nat) := exec .moveTake s = After s
        ((b.applied n e (fun x => { x with busy := some ⟨w, .engine⟩ })).requesting
          (.item n (decide (w = .stackPop)) true) false ((e.copy.base.toNat + i * e.copy.size) % 2 ^ 32) [] e.copy.size)
      (e.copy.state = stHalted → exec .moveTake s = After s (a.endRun .refused false (some n)))
      ∧ (e.copy.state ≠ stHalted → nothing → exec .moveTake s =
        After s (a.endRun (if d.mode = 1 then .ok else .sourceEmpty) false (some n)))
      ∧ (e.copy.state ≠ stHalted → ¬ nothing → e.copy.kind = kindRing → reads .ringTake e.copy.head)
      ∧ (e.copy.state ≠ stHalted → ¬ nothing → e.copy.kind ≠ kindRing → reads .stackPop (e.copy.depth - 1)))
    ∧ (b.engine.step = .take → d.srcStruct = none → exec .moveTake s = After s
      (Bridge.requesting { b with engine := { b.engine with step := .spanRead, asked := false } }
        .spanRead false d.src.toNat [] d.size))
    ∧ (∀ n e, EngineTurn b n .put e → b.engine.asked = true → b.engine.step = .put → d.dstStruct = some n →
      let a := b.applied n e id
      let lost := exec .movePut s = After s (a.endRun .refused true (some n))
      let writes (stack : Bool) (w : ItemWork) (i : Nat) := exec .movePut s = After s
        ((b.applied n e (fun x => { x with busy := some ⟨w, .engine⟩ })).requesting
          (.item n stack true) true ((e.copy.base.toNat + i * e.copy.size) % 2 ^ 32) item e.copy.size)
      (b.engine.disposal = some .reserved ∨ b.engine.disposal = some .drop → e.copy.state = stHalted → lost)
      ∧ (b.engine.disposal = some .reserved → e.copy.state ≠ stHalted →
        (e.copy.kind = kindRing → writes false .ringPut ((e.copy.head + e.copy.count) % e.copy.cap))
        ∧ (e.copy.kind = kindStack → (if e.copy.b38 = 1 then e.copy.depth < e.copy.cap else e.copy.depth < e.copy.limit) →
          writes true .stackPush e.copy.depth)
        ∧ (e.copy.kind = kindStack → e.copy.b38 ≠ 1 → e.copy.limit ≤ e.copy.depth →
          writes true (.stackOverflow (e.copy.faultFrame e.copy.frame 255)) e.copy.depth)
        ∧ (e.copy.kind = kindStack → e.copy.b38 = 1 → e.copy.cap ≤ e.copy.depth → exec .movePut s =
          After s ((a.halt n e.copy causeReserve).endRun .refused true (some n))))
      ∧ (b.engine.disposal = some .drop → e.copy.state ≠ stHalted →
        exec .movePut s = After s ((a.dropItem n e.copy none (b.engine.move.map LoadedMove.index)).disposed)))
    ∧ (b.engine.step = .put → b.engine.disposal = some .write → exec .movePut s = After s
      (Bridge.requesting { b with engine := { b.engine with step := .spanWrite, asked := false } }
        .spanWrite true d.dst.toNat item d.size))
    ∧ (∀ id q, AnswerDue s id isSpanRead q → b.engine.step = .spanRead →
      let r := b.received id
      exec (.spanReadDone id true) s = AfterAnswer s q true false
        ((r.setMoveCopy { d with src := d.src + d.stepOf d.srcStep }).gotItem (Memory.readBytes s.mem q.addr q.length))
      ∧ exec (.spanReadDone id false) s = AfterAnswer s q false false (r.endRun .memory false none))
    ∧ (∀ id q, AnswerDue s id isSpanWrite q → b.engine.step = .spanWrite →
      let r := b.received id
      exec (.spanWriteDone id true) s = AfterAnswer s q true false
        (r.setMoveCopy { d with dst := d.dst + d.stepOf d.dstStep }).disposed
      ∧ exec (.spanWriteDone id false) s = AfterAnswer s q false false (r.endRun .memory true none))

/-- Operations wait their turn (R105, R106): the engine's pin, reservation step, take and put, completion processing and the
notice writer's put, when first asked, join the miss list when no entry holds the index, or the end of the entry's waiting
list; when the entry is ready and nothing waits, the operation joins and is applied at once. -/
def Obligations.OperationsWaitTheirTurn : Prop :=
  ∀ (s : State) (n : Nat),
    let b := s.chip
    let waits (i : Instr) (n : Nat) (op : CacheOp) (mark : Bridge → Bridge) :=
      let joined := mark (b.setEntry n (fun x => { x with waiting := x.waiting ++ [op] }))
      (b.entry? n = none → exec i s = After s (mark { b with misses := b.misses ++ [(n, op)] }))
      ∧ (∀ e, b.entry? n = some e → e.ready = false ∨ (∃ x l, e.waiting = x :: l ∧ x ≠ op) → exec i s = After s joined)
      ∧ (∀ e, b.entry? n = some e → e.ready = true → e.waiting = [] → exec i s = exec i { s with chip := joined })
    let asked (x : Bridge) : Bridge := { x with engine := { x.engine with asked := true } }
    (b.engine.asked = false →
      ((b.engine.step = .pinSource ∧ b.moveCopy.srcStruct = some n)
          ∨ (b.engine.step = .pinDestination ∧ b.moveCopy.dstStruct = some n) → waits .pinEnd n (.engine .pin) asked)
      ∧ (b.engine.step = .reserve → b.moveCopy.dstStruct = some n → waits .reservationStep n (.engine .reserve) asked)
      ∧ (b.engine.step = .take → b.moveCopy.srcStruct = some n → waits .moveTake n (.engine .take) asked)
      ∧ (b.engine.step = .put → b.moveCopy.dstStruct = some n →
        b.engine.disposal = some .reserved ∨ b.engine.disposal = some .drop → waits .movePut n (.engine .put) asked))
    ∧ (∀ cm, b.trigger.completion = some cm → cm.asked = false → waits .completionProcessing cm.struct (.engine .completion)
        (fun x => { x with trigger := { x.trigger with completion := some { cm with asked := true } } }))
    ∧ (b.notices.queue ≠ [] → b.notices.asked = false → b.control.state = .run ∨ b.control.state = .stopping →
        waits .noticePut 1 .noticePut (fun x => { x with notices := { x.notices with asked := true } }))

/-- How items and runs begin and end (R129, R133, R134, R138, R141, R157): a run of count 0 ends OK; an item begins with the
stop request and the span test; a taken item is in transit; a disposed one spends the count of SINGLE and DRAIN, or one block
of BLOCK; a run that ends is STORING, its reservation cleared, and its copy is written back with the last end set. That a
CHAIN_LIMIT in place of OK keeps the structure given for the OK is the model's reading (log 30). The 32 bytes stored back and
read are one layout (R182), both ways, with the codes of the last end. -/
def Obligations.RunsSpendTheirCountAndAreStored : Prop :=
  (∀ (b : Bridge) (m : LoadedMove) (d : MoveDescriptor), b.engine.move = some m → m.descriptor = some d →
    let spans := (d.srcType = 0 ∨ spanOk b.cfg b.control.straps d.size d.src = true)
      ∧ (d.dstType = 0 ∨ spanOk b.cfg b.control.straps d.size d.dst = true)
    let carrying (d' : MoveDescriptor) (x : Bridge) := x.engine.move = some { m with descriptor := some d' }
    let endsOk (d' : MoveDescriptor) := b.disposed.engine.state = .storing
      ∧ b.disposed.engine.ending.map Ending.code = some (if m.run = 64 ∧ d.linkEnable = true then .chainLimit else .ok)
      ∧ ∃ last, carrying { d' with lastEnd := last } b.disposed
    (d.count = 0 → b.startRunning = b.endRun .ok false none)
    ∧ (d.count ≠ 0 → b.startRunning = Bridge.startItem { b with engine := { b.engine with
        state := .running, srcStart := d.src, dstStart := d.dst, blockItems := 0 } })
    ∧ (b.engine.stopRequest.isSome = true → b.startItem = b.endRun .stopped false none)
    ∧ (b.engine.stopRequest = none → ¬ spans → b.startItem = b.endRun .invalid false none)
    ∧ (b.engine.stopRequest = none → spans → d.dstType = 0 →
      b.startItem = { b with engine := { b.engine with step := .reserve, asked := false } })
    ∧ (b.engine.stopRequest = none → spans → d.dstType ≠ 0 →
      b.startItem = { b with engine := { b.engine with disposal := some .write, step := .take, asked := false } })
    ∧ (∀ item, b.gotItem item = { b with engine := { b.engine with
        transit := some item, taken := b.engine.taken + 1, step := .put, asked := false } })
    ∧ (∀ code lost st, ∃ c, b.endRun code lost st = Bridge.requesting
        { b with
          cache := if d.dstType = 0 then b.cache.map (fun e => if e.index = d.dst.toNat % 256 then
            { e with reservation := false } else e) else b.cache
          engine := { b.engine with
            state := .storing, transit := none, disposal := none, step := .store, asked := false
            move := some { m with descriptor := some { d with lastEnd := c.code } }
            ending := some ⟨c, lost, st, if code = .stopped then b.engine.stopRequest.getD 0 else 0⟩ } }
        .storeBack true (b.cfg.moveBase + m.index * 32) { d with lastEnd := c.code }.toBytes 32
      ∧ c = (if code = .ok ∧ m.run = 64 ∧ d.linkEnable = true then .chainLimit else code))
    ∧ (d.mode = 0 → endsOk { d with count := d.count - 1 })
    ∧ (d.mode = 1 → d.count = 1 → endsOk { d with count := 0 })
    ∧ (d.mode = 1 → d.count ≠ 1 → b.engine.stopRequest = none → spans →
      carrying { d with count := d.count - 1 } b.disposed
        ∧ b.disposed.engine.step = (if d.dstType = 0 then .reserve else .take))
    ∧ (d.mode = 2 → b.engine.blockItems + 1 < d.blockLength.toNat → b.engine.stopRequest = none → spans →
      carrying d b.disposed ∧ b.disposed.engine.blockItems = b.engine.blockItems + 1
        ∧ b.disposed.engine.step = (if d.dstType = 0 then .reserve else .take))
    ∧ (d.mode = 2 → d.blockLength.toNat ≤ b.engine.blockItems + 1 → endsOk { d with
        count := d.count - 1
        src := if d.recycle = true ∧ d.srcType ≠ 0 then b.engine.srcStart else d.src
        dst := if d.recycle = true ∧ d.dstType ≠ 0 then b.engine.dstStart else d.dst }))
  ∧ (∀ d : MoveDescriptor, d.toBytes.length = 32 ∧ MoveDescriptor.ofBytes d.toBytes = d)
  ∧ (∀ bs : List Byte, bs.length = 32 → (MoveDescriptor.ofBytes bs).toBytes = bs)
  ∧ [RunEnd.ok, .sourceEmpty, .destFull, .refused, .memory, .invalid, .stopped, .chainLimit].map RunEnd.code
    = [0, 1, 2, 3, 4, 5, 6, 7]

/-- The store-back, the pin releases, the report and completion processing (R113, R141, R142, R156, R158, R159): the
store-back answered, the pins are released in order; a released entry has its pin clear, CLOSING become CLOSED, and its held
writes at the front; the report queues MOVE_DONE or MOVE_FAULT, leaves the engine IDLE or PAUSED and starts or posts the link;
a clean chain of a structure asks for completion processing, which posts its trigger move again or disarms it with
TRIGGER_SPENT. A run whose descriptor read failed reports its MEMORY end alike (R131). TABLE accesses that waited for the
loaded move go on in order once its store-back, or its failed read, is answered (R120), behind the first pin release by the
model's choice (R105; log 41), a read that its structure descriptors had allowed without being judged again (log 45). The
fields of a failed store-back's MOVE_FAULT are the model's reading (log 20). -/
def Obligations.RunsAreReportedAndCompleted : Prop :=
  ∀ s : State,
    let b := s.chip
    (∀ id q ok, AnswerDue s id isStoreBack q → b.engine.step = .store →
      (∀ x ∈ b.iport.inflight, ∀ todo, x.phase ≠ .moveWait todo) →
      let r := b.received id
      let eng (st : EngineStep) (asked : Bool) : Engine := { b.engine with storeFailed := !ok, step := st, asked := asked }
      (b.engine.pins = [] → exec (.storeBackDone id ok) s = AfterAnswer s q ok false { r with engine := eng .report false })
      ∧ (∀ n rest e, b.engine.pins = n :: rest → b.entry? n = some e →
        exec (.storeBackDone id ok) s = AfterAnswer s q ok false
          { r.setEntry n (fun x => { x with waiting := x.waiting ++ [.engine .release] }) with engine := eng .release true }))
    ∧ (let resumes (b : Bridge) := b.iport.inflight.foldl (fun b x => match x.phase with
        | .moveWait todo => b.snoop x todo
        | _ => b) b
      (∀ id q ok, AnswerDue s id isStoreBack q → b.engine.step = .store →
        let r := b.received id
        let eng (st : EngineStep) (asked : Bool) : Engine := { b.engine with storeFailed := !ok, step := st, asked := asked }
        (b.engine.pins = [] → exec (.storeBackDone id ok) s =
          AfterAnswer s q ok false (resumes { r with engine := eng .report false }))
        ∧ (∀ n rest e, b.engine.pins = n :: rest → b.entry? n = some e → exec (.storeBackDone id ok) s =
          AfterAnswer s q ok false (resumes { r.setEntry n (fun x => { x with waiting := x.waiting ++ [.engine .release] }) with
            engine := eng .release true })))
      ∧ (∀ id q, AnswerDue s id isMoveRead q → b.engine.step = .readDescriptor →
        exec (.moveDescriptorReadDone id false) s = AfterAnswer s q false false (resumes { (b.received id) with
          engine := { b.engine with step := .report, asked := false, ending := some ⟨.memory, false, none, 0⟩ } })))
    ∧ (∀ n e, EngineTurn b n .release e → b.engine.step = .release →
      let r := b.applied n e (fun x => { x with
        copy := if e.copy.state = stClosing then { e.copy with state := stClosed } else e.copy
        state := if e.copy.state = stClosing then .dirty else e.state
        pin := false, held := [], heldRelease := false
        waiting := e.held.map CacheOp.tableWrite ++ (if e.heldRelease then [.release] else []) ++ e.waiting.tail })
      (b.engine.pins = [n] → exec .pinRelease s = After s { r with
        engine := { b.engine with pins := [], step := .report, asked := false } })
      ∧ (∀ m e', b.engine.pins = [n, m] → m ≠ n → b.entry? m = some e' → exec .pinRelease s = After s
        { r.setEntry m (fun x => { x with waiting := x.waiting ++ [.engine .release] }) with
          engine := { b.engine with pins := [m], step := .release, asked := true } }))
    ∧ (∀ lm d en c, b.engine.step = .report → b.engine.move = some lm → lm.descriptor = some d → b.engine.ending = some en →
      b.trigger.chain = some c → b.trigger.link = none → b.trigger.completion = none →
      let first : Option Half := if c.first = lm.index then some d.count else c.firstCount
      let next : Chain := { c with run := c.run + 1, firstCount := first }
      let pause := b.engine.pauseRequest
      let fault (r : Reason) (n : Option Nat) (lost : Bool) (tag : Half) (b' : Bridge) := b'.notify
        { kind := .moveFault, cause := r, struct := n.map (BitVec.ofNat 8 ·), move := some (BitVec.ofNat 8 lm.index),
          initiator := none, itemLost := lost, writeback := false, tag := tag, value := BitVec.ofNat 32 b.engine.taken }
      let own := fault en.code.reason en.struct en.lost en.tag b
      let finished := if d.count = 0 ∧ d.doneNotice = true then b.notify
        { kind := .moveDone, cause := .none, struct := none, move := some (BitVec.ofNat 8 lm.index), initiator := none,
          itemLost := false, writeback := false, tag := 0, value := BitVec.ofNat 32 b.engine.taken } else b
      let stopper := b.command.held.any (fun x =>
        decide (b.command.stage = .started ∧ x.op = opStopMove ∧ x.move.toNat = lm.index))
      let idle (b' : Bridge) : Bridge := { (if stopper then b'.activity.commandDone else b'.activity) with
        engine := Engine.unloaded (if pause then .paused else .idle) pause }
      let reports (b' : Bridge) (t : TriggerUnit) := exec .runEndReport s = After s { idle b' with trigger := t }
      let ended : TriggerUnit := ⟨b.trigger.pending, none, none, none⟩
      let clean : TriggerUnit := ⟨b.trigger.pending, none, none, match c.origin with
        | .structure n => some ⟨n, c.first, first, false⟩
        | .software => none⟩
      (en.code ≠ .ok → b.engine.storeFailed = false → reports own ended)
      ∧ (en.code ≠ .ok → b.engine.storeFailed = true → reports (fault .memory none false 0 own) ended)
      ∧ (en.code = .ok → b.engine.storeFailed = true → reports (fault .memory none false 0 b) ended)
      ∧ (en.code = .ok → b.engine.storeFailed = false → b.control.state = .stopping → reports finished ended)
      ∧ (en.code = .ok → b.engine.storeFailed = false → b.control.state ≠ .stopping →
        (d.linkEnable = false → reports finished clean)
        ∧ (d.linkEnable = true → pause = false → exec .runEndReport s = After s (Bridge.loadMove
          { idle finished with trigger := ⟨b.trigger.pending, some next, none, none⟩ } d.linkIndex.toNat (c.run + 1)))
        ∧ (d.linkEnable = true → pause = true → (∀ p ∈ b.trigger.pending, p.move ≠ d.linkIndex.toNat) → reports finished
          ⟨Bridge.insertPending b.trigger.pending ⟨d.linkIndex.toNat, .link next⟩, none, none, none⟩)
        ∧ (d.linkEnable = true → pause = true → (∃ p ∈ b.trigger.pending, p.move = d.linkIndex.toNat) →
          reports finished clean)))
    ∧ (∀ lm c, b.engine.step = .report → b.engine.move = some lm → lm.descriptor = none →
      b.engine.ending = some ⟨.memory, false, none, 0⟩ → b.engine.storeFailed = false → b.trigger.chain = some c →
      let told := (b.notify
        { kind := .moveFault, cause := .memory, struct := none, move := some (BitVec.ofNat 8 lm.index), initiator := none,
          itemLost := false, writeback := false, tag := 0, value := BitVec.ofNat 32 b.engine.taken }).activity
      let stopper := b.command.held.any (fun x =>
        decide (b.command.stage = .started ∧ x.op = opStopMove ∧ x.move.toNat = lm.index))
      let pause := b.engine.pauseRequest
      exec .runEndReport s = After s { (if stopper then told.commandDone else told) with
        engine := Engine.unloaded (if pause then .paused else .idle) pause
        trigger := { b.trigger with
          chain := none, link := if b.control.state = .stopping then none else b.trigger.link } })
    ∧ (∀ cm e k, b.trigger.completion = some cm → cm.asked = true → EngineTurn b cm.struct .completion e →
      cm.firstCount = some k →
      let n := cm.struct
      let a (d : Descriptor) : Bridge := { b.applied n e (fun x =>
        { x with copy := d, state := if d = e.copy then e.state else .dirty }) with
          trigger := { b.trigger with completion := none } }
      let idles := e.copy.armed = false ∨ (e.copy.state = stHalted ∧ e.copy.cause = causeDescriptor) ∨ e.copy.kind = kindOff
        ∨ (e.copy.kind = kindTally ∧ e.copy.condition ≠ condWrap)
      let spent : Descriptor := { e.copy with flags := withBit e.copy.flags 0 false }
      (idles → exec .completionProcessing s = After s (a e.copy))
      ∧ (¬ idles → k ≠ 0 → exec .completionProcessing s = After s
        (if e.copy.holds = true then (a e.copy).post e.copy.triggerMove.toNat (.structure n) else a e.copy))
      ∧ (¬ idles → k = 0 → exec .completionProcessing s = After s
        (if e.copy.faultNotices = true ∧ n ≠ 1 then (a spent).notify
          { kind := .triggerSpent, cause := .none, struct := some (BitVec.ofNat 8 n), move := some (BitVec.ofNat 8 cm.first),
            initiator := none, itemLost := false, writeback := false, tag := 0, value := 0 }
         else a spent)))
end

