-- ==== Sys2Proof/Laws/State.lean ====
section
/-! SUPPORT. What every update of the state leaves: one lemma for each update, a part for each field, all true by computation.
Proofs cite them instead of unfolding a record update. -/

namespace Sys2Proof.Machine

/-! ## The state -/

/-- The fields of a state with another bridge. -/
@[simp] theorem State.with_chip (s : State) (b : Bridge) :
    ({ s with chip := b } : State).mem = s.mem ∧ ({ s with chip := b } : State).chip = b
      ∧ ({ s with chip := b } : State).pending = s.pending := ⟨rfl, rfl, rfl⟩

/-- The fields of a state with another queue. -/
@[simp] theorem State.with_pending (s : State) (l : List Instr) :
    ({ s with pending := l } : State).mem = s.mem ∧ ({ s with pending := l } : State).chip = s.chip
      ∧ ({ s with pending := l } : State).pending = l := ⟨rfl, rfl, rfl⟩

/-- The fields of a state with another memory and bridge. -/
@[simp] theorem State.with_mem_chip (s : State) (m : Memory) (b : Bridge) :
    ({ s with mem := m, chip := b } : State).mem = m ∧ ({ s with mem := m, chip := b } : State).chip = b
      ∧ ({ s with mem := m, chip := b } : State).pending = s.pending := ⟨rfl, rfl, rfl⟩

namespace Bridge

/-! ## The bridge -/

/-- What a request that joins the M-port's waiting list leaves (R178). -/
@[simp] theorem issue_fields (b : Bridge) (a : Access) (w : Bool) (addr : Nat) (data : List Byte) (k : Nat) :
    (b.issue a w addr data k).iport = b.iport ∧ (b.issue a w addr data k).cache = b.cache
      ∧ (b.issue a w addr data k).misses = b.misses ∧ (b.issue a w addr data k).episode = b.episode
      ∧ (b.issue a w addr data k).engine = b.engine ∧ (b.issue a w addr data k).trigger = b.trigger
      ∧ (b.issue a w addr data k).command = b.command ∧ (b.issue a w addr data k).notices = b.notices
      ∧ (b.issue a w addr data k).control = b.control ∧ (b.issue a w addr data k).freeDraws = b.freeDraws
      ∧ (b.issue a w addr data k).nextHandle = b.nextHandle + 1
      ∧ (b.issue a w addr data k).mport.outstanding = b.mport.outstanding
      ∧ (b.issue a w addr data k).mport.fairness = b.mport.fairness
      ∧ (b.issue a w addr data k).mport.waiting = b.mport.waiting ++ [⟨b.nextHandle, a, w, addr, data, k, false⟩] := by and_intros <;> rfl

/-- What a draw leaves. -/
@[simp] theorem draw_fields (b : Bridge) :
    (b.draw).iport = b.iport ∧ (b.draw).mport = b.mport ∧ (b.draw).cache = b.cache ∧ (b.draw).misses = b.misses
      ∧ (b.draw).episode = b.episode ∧ (b.draw).engine = b.engine ∧ (b.draw).trigger = b.trigger
      ∧ (b.draw).command = b.command ∧ (b.draw).notices = b.notices ∧ (b.draw).control = b.control
      ∧ (b.draw).nextHandle = b.nextHandle ∧ b.draw.freeDraws = b.freeDraws + 1 := by and_intros <;> rfl

/-- What the start of the idle timer leaves (R187). -/
@[simp] theorem startTimer_fields (b : Bridge) :
    (b.startTimer).iport = b.iport ∧ (b.startTimer).mport = b.mport ∧ (b.startTimer).cache = b.cache
      ∧ (b.startTimer).misses = b.misses ∧ (b.startTimer).episode = b.episode ∧ (b.startTimer).engine = b.engine
      ∧ (b.startTimer).trigger = b.trigger ∧ (b.startTimer).command = b.command ∧ (b.startTimer).notices = b.notices
      ∧ (b.startTimer).nextHandle = b.nextHandle ∧ (b.startTimer).freeDraws = b.freeDraws
      ∧ b.startTimer.control.state = b.control.state ∧ b.startTimer.control.settings = b.control.settings
      ∧ b.startTimer.control.straps = b.control.straps := by and_intros <;> rfl

/-- What the notice writer's queue leaves when its oldest notice goes (R168). -/
@[simp] theorem dequeueNotice_fields (b : Bridge) :
    (b.dequeueNotice).iport = b.iport ∧ (b.dequeueNotice).mport = b.mport ∧ (b.dequeueNotice).cache = b.cache
      ∧ (b.dequeueNotice).misses = b.misses ∧ (b.dequeueNotice).episode = b.episode
      ∧ (b.dequeueNotice).engine = b.engine ∧ (b.dequeueNotice).trigger = b.trigger
      ∧ (b.dequeueNotice).command = b.command ∧ (b.dequeueNotice).control = b.control
      ∧ (b.dequeueNotice).nextHandle = b.nextHandle ∧ (b.dequeueNotice).freeDraws = b.freeDraws
      ∧ b.dequeueNotice.notices.queue = b.notices.queue.tail := by and_intros <;> rfl

/-- What leaving responses leave (R176). -/
@[simp] theorem drain_fields (b : Bridge) :
    (b.drain).mport = b.mport ∧ (b.drain).cache = b.cache ∧ (b.drain).misses = b.misses
      ∧ (b.drain).episode = b.episode ∧ (b.drain).engine = b.engine ∧ (b.drain).trigger = b.trigger
      ∧ (b.drain).command = b.command ∧ (b.drain).notices = b.notices ∧ (b.drain).control = b.control
      ∧ (b.drain).nextHandle = b.nextHandle ∧ (b.drain).freeDraws = b.freeDraws := by and_intros <;> rfl

/-- What a change of phase leaves (R175). -/
@[simp] theorem setPhase_fields (b : Bridge) (id : Nat) (p : RequestPhase) :
    (b.setPhase id p).mport = b.mport ∧ (b.setPhase id p).cache = b.cache ∧ (b.setPhase id p).misses = b.misses
      ∧ (b.setPhase id p).episode = b.episode ∧ (b.setPhase id p).engine = b.engine
      ∧ (b.setPhase id p).trigger = b.trigger ∧ (b.setPhase id p).command = b.command
      ∧ (b.setPhase id p).notices = b.notices ∧ (b.setPhase id p).control = b.control
      ∧ (b.setPhase id p).nextHandle = b.nextHandle ∧ (b.setPhase id p).freeDraws = b.freeDraws
      ∧ (b.setPhase id p).iport.sent = b.iport.sent := by and_intros <;> rfl

/-- What an answer leaves (R174, R176). -/
@[simp] theorem answer_fields (b : Bridge) (id : Nat) (ok : Bool) (data : List Byte) :
    (b.answer id ok data).mport = b.mport ∧ (b.answer id ok data).cache = b.cache
      ∧ (b.answer id ok data).misses = b.misses ∧ (b.answer id ok data).episode = b.episode
      ∧ (b.answer id ok data).engine = b.engine ∧ (b.answer id ok data).trigger = b.trigger
      ∧ (b.answer id ok data).command = b.command ∧ (b.answer id ok data).notices = b.notices
      ∧ (b.answer id ok data).control = b.control ∧ (b.answer id ok data).nextHandle = b.nextHandle
      ∧ (b.answer id ok data).freeDraws = b.freeDraws := by and_intros <;> rfl

/-- What a change of an entry leaves (R102). -/
@[simp] theorem setEntry_fields (b : Bridge) (n : Nat) (f : Entry → Entry) :
    (b.setEntry n f).iport = b.iport ∧ (b.setEntry n f).mport = b.mport ∧ (b.setEntry n f).misses = b.misses
      ∧ (b.setEntry n f).episode = b.episode ∧ (b.setEntry n f).engine = b.engine ∧ (b.setEntry n f).trigger = b.trigger
      ∧ (b.setEntry n f).command = b.command ∧ (b.setEntry n f).notices = b.notices
      ∧ (b.setEntry n f).control = b.control ∧ (b.setEntry n f).nextHandle = b.nextHandle
      ∧ (b.setEntry n f).freeDraws = b.freeDraws := by and_intros <;> rfl

/-- What a change of a working copy leaves (R103). -/
@[simp] theorem writeCopy_fields (b : Bridge) (n : Nat) (d : Descriptor) :
    (b.writeCopy n d).iport = b.iport ∧ (b.writeCopy n d).mport = b.mport ∧ (b.writeCopy n d).misses = b.misses
      ∧ (b.writeCopy n d).episode = b.episode ∧ (b.writeCopy n d).engine = b.engine
      ∧ (b.writeCopy n d).trigger = b.trigger ∧ (b.writeCopy n d).command = b.command
      ∧ (b.writeCopy n d).notices = b.notices ∧ (b.writeCopy n d).control = b.control
      ∧ (b.writeCopy n d).nextHandle = b.nextHandle ∧ (b.writeCopy n d).freeDraws = b.freeDraws := by and_intros <;> rfl

/-- What the start of an item access leaves (R42, R68). -/
@[simp] theorem beginItem_fields (b : Bridge) (n : Nat) (w : ItemWork) (p : Party) (st wr : Bool) (addr : Nat) (data : List Byte) (k : Nat) :
    (b.beginItem n w p st wr addr data k).iport = b.iport ∧ (b.beginItem n w p st wr addr data k).misses = b.misses
      ∧ (b.beginItem n w p st wr addr data k).episode = b.episode
      ∧ (b.beginItem n w p st wr addr data k).engine = b.engine
      ∧ (b.beginItem n w p st wr addr data k).trigger = b.trigger
      ∧ (b.beginItem n w p st wr addr data k).command = b.command
      ∧ (b.beginItem n w p st wr addr data k).notices = b.notices
      ∧ (b.beginItem n w p st wr addr data k).control = b.control
      ∧ (b.beginItem n w p st wr addr data k).freeDraws = b.freeDraws
      ∧ (b.beginItem n w p st wr addr data k).mport.outstanding = b.mport.outstanding := by and_intros <;> rfl

/-- What the lines' judgement leaves (R172, R173). -/
@[simp] theorem judgeLines_fields (b : Bridge) (n : Nat) (d : Descriptor) (x y : Bool) :
    (b.judgeLines n d x y).iport = b.iport ∧ (b.judgeLines n d x y).mport = b.mport ∧ (b.judgeLines n d x y).cache = b.cache
      ∧ (b.judgeLines n d x y).misses = b.misses ∧ (b.judgeLines n d x y).episode = b.episode
      ∧ (b.judgeLines n d x y).engine = b.engine ∧ (b.judgeLines n d x y).trigger = b.trigger
      ∧ (b.judgeLines n d x y).command = b.command ∧ (b.judgeLines n d x y).notices = b.notices
      ∧ (b.judgeLines n d x y).nextHandle = b.nextHandle ∧ (b.judgeLines n d x y).freeDraws = b.freeDraws
      ∧ (b.judgeLines n d x y).control.state = b.control.state ∧ (b.judgeLines n d x y).control.settings = b.control.settings := by and_intros <;> rfl

/-- What a command take that yields nothing leaves (R163). -/
@[simp] theorem takeYieldsNothing_fields (b : Bridge) (e : Bool) :
    (b.takeYieldsNothing e).iport = b.iport ∧ (b.takeYieldsNothing e).mport = b.mport
      ∧ (b.takeYieldsNothing e).cache = b.cache ∧ (b.takeYieldsNothing e).misses = b.misses
      ∧ (b.takeYieldsNothing e).episode = b.episode ∧ (b.takeYieldsNothing e).engine = b.engine
      ∧ (b.takeYieldsNothing e).trigger = b.trigger ∧ (b.takeYieldsNothing e).notices = b.notices
      ∧ (b.takeYieldsNothing e).control = b.control ∧ (b.takeYieldsNothing e).nextHandle = b.nextHandle
      ∧ (b.takeYieldsNothing e).freeDraws = b.freeDraws := by and_intros <;> rfl

/-- What a change of the engine's copy leaves (R129). -/
@[simp] theorem setMoveCopy_fields (b : Bridge) (d : MoveDescriptor) :
    (b.setMoveCopy d).iport = b.iport ∧ (b.setMoveCopy d).mport = b.mport ∧ (b.setMoveCopy d).cache = b.cache
      ∧ (b.setMoveCopy d).misses = b.misses ∧ (b.setMoveCopy d).episode = b.episode
      ∧ (b.setMoveCopy d).trigger = b.trigger ∧ (b.setMoveCopy d).command = b.command
      ∧ (b.setMoveCopy d).notices = b.notices ∧ (b.setMoveCopy d).control = b.control
      ∧ (b.setMoveCopy d).nextHandle = b.nextHandle ∧ (b.setMoveCopy d).freeDraws = b.freeDraws := by and_intros <;> rfl

/-- What the engine's next step leaves. -/
@[simp] theorem setStep_fields (b : Bridge) (t : EngineStep) :
    (b.setStep t).iport = b.iport ∧ (b.setStep t).mport = b.mport ∧ (b.setStep t).cache = b.cache
      ∧ (b.setStep t).misses = b.misses ∧ (b.setStep t).episode = b.episode ∧ (b.setStep t).trigger = b.trigger
      ∧ (b.setStep t).command = b.command ∧ (b.setStep t).notices = b.notices ∧ (b.setStep t).control = b.control
      ∧ (b.setStep t).nextHandle = b.nextHandle ∧ (b.setStep t).freeDraws = b.freeDraws ∧ (b.setStep t).engine.step = t
      ∧ (b.setStep t).engine.asked = false ∧ (b.setStep t).engine.move = b.engine.move := by and_intros <;> rfl

/-- What the mark of an asked step leaves. -/
@[simp] theorem markAsked_fields (b : Bridge) :
    (b.markAsked).iport = b.iport ∧ (b.markAsked).mport = b.mport ∧ (b.markAsked).cache = b.cache
      ∧ (b.markAsked).misses = b.misses ∧ (b.markAsked).episode = b.episode ∧ (b.markAsked).trigger = b.trigger
      ∧ (b.markAsked).command = b.command ∧ (b.markAsked).notices = b.notices ∧ (b.markAsked).control = b.control
      ∧ (b.markAsked).nextHandle = b.nextHandle ∧ (b.markAsked).freeDraws = b.freeDraws := by and_intros <;> rfl

/-- What a cleared reservation leaves (R114). -/
@[simp] theorem clearReservation_fields (b : Bridge) (n : Nat) :
    (b.clearReservation n).iport = b.iport ∧ (b.clearReservation n).mport = b.mport
      ∧ (b.clearReservation n).misses = b.misses ∧ (b.clearReservation n).episode = b.episode
      ∧ (b.clearReservation n).engine = b.engine ∧ (b.clearReservation n).trigger = b.trigger
      ∧ (b.clearReservation n).command = b.command ∧ (b.clearReservation n).notices = b.notices
      ∧ (b.clearReservation n).control = b.control ∧ (b.clearReservation n).nextHandle = b.nextHandle
      ∧ (b.clearReservation n).freeDraws = b.freeDraws := by and_intros <;> rfl

/-- What freeing every entry leaves (R123). -/
@[simp] theorem freeAll_fields (b : Bridge) :
    (b.freeAll).iport = b.iport ∧ (b.freeAll).mport = b.mport ∧ (b.freeAll).engine = b.engine
      ∧ (b.freeAll).trigger = b.trigger ∧ (b.freeAll).command = b.command ∧ (b.freeAll).notices = b.notices
      ∧ (b.freeAll).control = b.control ∧ (b.freeAll).nextHandle = b.nextHandle ∧ (b.freeAll).freeDraws = b.freeDraws
      ∧ b.freeAll.cache = [] ∧ b.freeAll.misses = [] := by and_intros <;> rfl

/-- What the classification of waiting requests leaves (R175). -/
@[simp] theorem reclassify_fields (b : Bridge) :
    (b.reclassify).mport = b.mport ∧ (b.reclassify).cache = b.cache ∧ (b.reclassify).misses = b.misses
      ∧ (b.reclassify).episode = b.episode ∧ (b.reclassify).engine = b.engine ∧ (b.reclassify).trigger = b.trigger
      ∧ (b.reclassify).command = b.command ∧ (b.reclassify).notices = b.notices ∧ (b.reclassify).control = b.control
      ∧ (b.reclassify).nextHandle = b.nextHandle ∧ (b.reclassify).freeDraws = b.freeDraws
      ∧ b.reclassify.iport.sent = b.iport.sent := by and_intros <;> rfl

/-- What the allocation of an entry leaves (R106). -/
@[simp] theorem allocate_fields (b : Bridge) (n : Nat) :
    (b.allocate n).iport = b.iport ∧ (b.allocate n).mport = b.mport ∧ (b.allocate n).episode = b.episode
      ∧ (b.allocate n).engine = b.engine ∧ (b.allocate n).trigger = b.trigger ∧ (b.allocate n).command = b.command
      ∧ (b.allocate n).notices = b.notices ∧ (b.allocate n).control = b.control
      ∧ (b.allocate n).nextHandle = b.nextHandle ∧ (b.allocate n).freeDraws = b.freeDraws := by and_intros <;> rfl

/-- What the start of a write-back leaves (R111). -/
@[simp] theorem startWriteBack_fields (b : Bridge) (e : Entry) (r : WriteBackFor) :
    (b.startWriteBack e r).iport = b.iport ∧ (b.startWriteBack e r).misses = b.misses
      ∧ (b.startWriteBack e r).episode = b.episode ∧ (b.startWriteBack e r).engine = b.engine
      ∧ (b.startWriteBack e r).trigger = b.trigger ∧ (b.startWriteBack e r).command = b.command
      ∧ (b.startWriteBack e r).notices = b.notices ∧ (b.startWriteBack e r).control = b.control
      ∧ (b.startWriteBack e r).freeDraws = b.freeDraws ∧ (b.startWriteBack e r).mport.outstanding = b.mport.outstanding := by and_intros <;> rfl

/-- What the issue of a fetch leaves (R106). -/
@[simp] theorem issueFetch_fields (b : Bridge) (n : Nat) :
    (b.issueFetch n).iport = b.iport ∧ (b.issueFetch n).misses = b.misses ∧ (b.issueFetch n).episode = b.episode
      ∧ (b.issueFetch n).engine = b.engine ∧ (b.issueFetch n).trigger = b.trigger ∧ (b.issueFetch n).command = b.command
      ∧ (b.issueFetch n).notices = b.notices ∧ (b.issueFetch n).control = b.control
      ∧ (b.issueFetch n).freeDraws = b.freeDraws ∧ (b.issueFetch n).mport.outstanding = b.mport.outstanding := by and_intros <;> rfl

/-- What an operation that leaves a waiting list leaves (R105). -/
@[simp] theorem popFront_fields (b : Bridge) (n : Nat) :
    (b.popFront n).iport = b.iport ∧ (b.popFront n).mport = b.mport ∧ (b.popFront n).misses = b.misses
      ∧ (b.popFront n).episode = b.episode ∧ (b.popFront n).engine = b.engine ∧ (b.popFront n).trigger = b.trigger
      ∧ (b.popFront n).command = b.command ∧ (b.popFront n).notices = b.notices ∧ (b.popFront n).control = b.control
      ∧ (b.popFront n).nextHandle = b.nextHandle ∧ (b.popFront n).freeDraws = b.freeDraws := by and_intros <;> rfl

/-- What a started command leaves. -/
@[simp] theorem commandStarted_fields (b : Bridge) :
    (b.commandStarted).iport = b.iport ∧ (b.commandStarted).mport = b.mport ∧ (b.commandStarted).cache = b.cache
      ∧ (b.commandStarted).misses = b.misses ∧ (b.commandStarted).episode = b.episode
      ∧ (b.commandStarted).engine = b.engine ∧ (b.commandStarted).trigger = b.trigger
      ∧ (b.commandStarted).notices = b.notices ∧ (b.commandStarted).control = b.control
      ∧ (b.commandStarted).nextHandle = b.nextHandle ∧ (b.commandStarted).freeDraws = b.freeDraws := by and_intros <;> rfl

/-- What the command unit's reset leaves (R166). -/
@[simp] theorem abandonCommand_fields (b : Bridge) :
    (b.abandonCommand).iport = b.iport ∧ (b.abandonCommand).mport = b.mport ∧ (b.abandonCommand).cache = b.cache
      ∧ (b.abandonCommand).misses = b.misses ∧ (b.abandonCommand).episode = b.episode
      ∧ (b.abandonCommand).engine = b.engine ∧ (b.abandonCommand).trigger = b.trigger
      ∧ (b.abandonCommand).notices = b.notices ∧ (b.abandonCommand).control = b.control
      ∧ (b.abandonCommand).nextHandle = b.nextHandle ∧ (b.abandonCommand).freeDraws = b.freeDraws
      ∧ b.abandonCommand.command = CommandUnit.nothing := by and_intros <;> rfl

/-- What the trigger unit's reset leaves (R162). -/
@[simp] theorem abandonPending_fields (b : Bridge) :
    (b.abandonPending).iport = b.iport ∧ (b.abandonPending).mport = b.mport ∧ (b.abandonPending).cache = b.cache
      ∧ (b.abandonPending).misses = b.misses ∧ (b.abandonPending).episode = b.episode
      ∧ (b.abandonPending).engine = b.engine ∧ (b.abandonPending).command = b.command
      ∧ (b.abandonPending).notices = b.notices ∧ (b.abandonPending).nextHandle = b.nextHandle
      ∧ (b.abandonPending).freeDraws = b.freeDraws ∧ b.abandonPending.trigger = TriggerUnit.nothing := by and_intros <;> rfl

/-- What the answering of every tap leaves (R189). -/
@[simp] theorem abandonTaps_fields (b : Bridge) :
    (b.abandonTaps).mport = b.mport ∧ (b.abandonTaps).cache = b.cache ∧ (b.abandonTaps).misses = b.misses
      ∧ (b.abandonTaps).episode = b.episode ∧ (b.abandonTaps).engine = b.engine ∧ (b.abandonTaps).trigger = b.trigger
      ∧ (b.abandonTaps).command = b.command ∧ (b.abandonTaps).notices = b.notices ∧ (b.abandonTaps).control = b.control
      ∧ (b.abandonTaps).nextHandle = b.nextHandle ∧ (b.abandonTaps).freeDraws = b.freeDraws := by and_intros <;> rfl

end Bridge

end Sys2Proof.Machine
end

