-- ==== Sys2Proof/Laws/Frames.lean ====
section
/-! SUPPORT. Everything that the shared operations with a choice in them can change: one frame lemma each. -/

namespace Sys2Proof.Machine

namespace Bridge

/-- The status mirror changes the M-port's waiting list and the handles only (R181). -/
@[simp] theorem mirror_frame (b : Bridge) :
    b.mirror.iport = b.iport ∧ b.mirror.cache = b.cache ∧ b.mirror.misses = b.misses ∧ b.mirror.episode = b.episode
      ∧ b.mirror.engine = b.engine ∧ b.mirror.trigger = b.trigger ∧ b.mirror.command = b.command
      ∧ b.mirror.notices = b.notices ∧ b.mirror.control = b.control ∧ b.mirror.freeDraws = b.freeDraws
      ∧ b.mirror.mport.outstanding = b.mport.outstanding ∧ b.mirror.mport.fairness = b.mport.fairness := by
  unfold mirror
  split <;> simp

/-- A change of state changes the state, and queues a mirror write (R183). -/
@[simp] theorem setState_frame (b : Bridge) (t : BridgeState) :
    (b.setState t).iport = b.iport ∧ (b.setState t).cache = b.cache ∧ (b.setState t).misses = b.misses
      ∧ (b.setState t).episode = b.episode ∧ (b.setState t).engine = b.engine ∧ (b.setState t).trigger = b.trigger
      ∧ (b.setState t).command = b.command ∧ (b.setState t).notices = b.notices
      ∧ (b.setState t).freeDraws = b.freeDraws ∧ (b.setState t).control = { b.control with state := t }
      ∧ (b.setState t).mport.outstanding = b.mport.outstanding
      ∧ (b.setState t).mport.fairness = b.mport.fairness := by
  simp [setState]

/-- A wake changes the command unit only (R163). -/
@[simp] theorem wakeCommand_frame (b : Bridge) :
    b.wakeCommand.iport = b.iport ∧ b.wakeCommand.mport = b.mport ∧ b.wakeCommand.cache = b.cache
      ∧ b.wakeCommand.misses = b.misses ∧ b.wakeCommand.episode = b.episode ∧ b.wakeCommand.engine = b.engine
      ∧ b.wakeCommand.trigger = b.trigger ∧ b.wakeCommand.notices = b.notices ∧ b.wakeCommand.control = b.control
      ∧ b.wakeCommand.nextHandle = b.nextHandle ∧ b.wakeCommand.freeDraws = b.freeDraws := by
  unfold wakeCommand
  split <;> simp

/-- Activity changes the idle timer only (R187). -/
@[simp] theorem activity_frame (b : Bridge) :
    b.activity.iport = b.iport ∧ b.activity.mport = b.mport ∧ b.activity.cache = b.cache ∧ b.activity.misses = b.misses
      ∧ b.activity.episode = b.episode ∧ b.activity.engine = b.engine ∧ b.activity.trigger = b.trigger
      ∧ b.activity.command = b.command ∧ b.activity.notices = b.notices ∧ b.activity.nextHandle = b.nextHandle
      ∧ b.activity.freeDraws = b.freeDraws ∧ b.activity.control.state = b.control.state
      ∧ b.activity.control.settings = b.control.settings ∧ b.activity.control.straps = b.control.straps := by
  unfold activity
  split <;> simp

/-- A cancelled emptying changes bridge control only (R123). -/
@[simp] theorem cancelEmptying_frame (b : Bridge) :
    b.cancelEmptying.iport = b.iport ∧ b.cancelEmptying.mport = b.mport ∧ b.cancelEmptying.cache = b.cache
      ∧ b.cancelEmptying.misses = b.misses ∧ b.cancelEmptying.episode = b.episode ∧ b.cancelEmptying.engine = b.engine
      ∧ b.cancelEmptying.trigger = b.trigger ∧ b.cancelEmptying.command = b.command
      ∧ b.cancelEmptying.notices = b.notices ∧ b.cancelEmptying.nextHandle = b.nextHandle
      ∧ b.cancelEmptying.freeDraws = b.freeDraws ∧ b.cancelEmptying.control.state = b.control.state
      ∧ b.cancelEmptying.control.settings = b.control.settings
      ∧ b.cancelEmptying.control.straps = b.control.straps := by
  unfold cancelEmptying
  split <;> simp

/-- A dropped notice changes the counts of bridge control and queues a mirror write (R170). -/
@[simp] theorem dropNotice_frame (b : Bridge) (k : NoticeKind) :
    (b.dropNotice k).iport = b.iport ∧ (b.dropNotice k).cache = b.cache ∧ (b.dropNotice k).misses = b.misses
      ∧ (b.dropNotice k).episode = b.episode ∧ (b.dropNotice k).engine = b.engine
      ∧ (b.dropNotice k).trigger = b.trigger ∧ (b.dropNotice k).command = b.command
      ∧ (b.dropNotice k).notices = b.notices ∧ (b.dropNotice k).freeDraws = b.freeDraws
      ∧ (b.dropNotice k).control.state = b.control.state ∧ (b.dropNotice k).control.settings = b.control.settings
      ∧ (b.dropNotice k).control.straps = b.control.straps
      ∧ (b.dropNotice k).mport.outstanding = b.mport.outstanding
      ∧ (b.dropNotice k).mport.fairness = b.mport.fairness := by
  unfold dropNotice
  split <;> simp

/-- A notice changes the notice writer, the counts of bridge control, its timer, and the mirror (R168). -/
@[simp] theorem notify_frame (b : Bridge) (x : Notice) :
    (b.notify x).iport = b.iport ∧ (b.notify x).cache = b.cache ∧ (b.notify x).misses = b.misses
      ∧ (b.notify x).episode = b.episode ∧ (b.notify x).engine = b.engine ∧ (b.notify x).trigger = b.trigger
      ∧ (b.notify x).command = b.command ∧ (b.notify x).freeDraws = b.freeDraws
      ∧ (b.notify x).control.state = b.control.state ∧ (b.notify x).control.settings = b.control.settings
      ∧ (b.notify x).control.straps = b.control.straps ∧ (b.notify x).mport.outstanding = b.mport.outstanding
      ∧ (b.notify x).mport.fairness = b.mport.fairness := by
  unfold notify
  split <;> simp

/-- A recorded refusal changes bridge control, the notice writer and the mirror (R35, R36). -/
@[simp] theorem recordRefusal_frame (b : Bridge) (t : Tap) (r : Reason) :
    (b.recordRefusal t r).iport = b.iport ∧ (b.recordRefusal t r).cache = b.cache
      ∧ (b.recordRefusal t r).misses = b.misses ∧ (b.recordRefusal t r).episode = b.episode
      ∧ (b.recordRefusal t r).engine = b.engine ∧ (b.recordRefusal t r).trigger = b.trigger
      ∧ (b.recordRefusal t r).command = b.command ∧ (b.recordRefusal t r).freeDraws = b.freeDraws
      ∧ (b.recordRefusal t r).control.state = b.control.state
      ∧ (b.recordRefusal t r).control.settings = b.control.settings
      ∧ (b.recordRefusal t r).control.straps = b.control.straps
      ∧ (b.recordRefusal t r).mport.outstanding = b.mport.outstanding
      ∧ (b.recordRefusal t r).mport.fairness = b.mport.fairness := by
  unfold recordRefusal
  split
  · simp
  · dsimp only
    split <;> simp

/-- A refusal changes the I-port beside what its record changes (R34). -/
@[simp] theorem refuseTap_frame (b : Bridge) (t : Tap) (r : Reason) :
    (b.refuseTap t r).cache = b.cache ∧ (b.refuseTap t r).misses = b.misses ∧ (b.refuseTap t r).episode = b.episode
      ∧ (b.refuseTap t r).engine = b.engine ∧ (b.refuseTap t r).trigger = b.trigger
      ∧ (b.refuseTap t r).command = b.command ∧ (b.refuseTap t r).freeDraws = b.freeDraws
      ∧ (b.refuseTap t r).control.state = b.control.state
      ∧ (b.refuseTap t r).control.settings = b.control.settings
      ∧ (b.refuseTap t r).control.straps = b.control.straps
      ∧ (b.refuseTap t r).mport.outstanding = b.mport.outstanding
      ∧ (b.refuseTap t r).mport.fairness = b.mport.fairness := by
  simp [refuseTap]

/-- A post changes the trigger unit only (R151). -/
@[simp] theorem post_frame (b : Bridge) (m : Nat) (o : ChainOrigin) :
    (b.post m o).iport = b.iport ∧ (b.post m o).mport = b.mport ∧ (b.post m o).cache = b.cache
      ∧ (b.post m o).misses = b.misses ∧ (b.post m o).episode = b.episode ∧ (b.post m o).engine = b.engine
      ∧ (b.post m o).command = b.command ∧ (b.post m o).notices = b.notices ∧ (b.post m o).control = b.control
      ∧ (b.post m o).nextHandle = b.nextHandle ∧ (b.post m o).freeDraws = b.freeDraws := by
  unfold post
  split <;> simp

/-- A report of a level changes the trigger unit, the notice writer, the lines and the command unit's wake (R54, R81). -/
@[simp] theorem report_frame (b : Bridge) (n : Nat) (d d' : Descriptor) (i : Option Initiator) (m : Option Nat) :
    (b.report n d d' i m).iport = b.iport ∧ (b.report n d d' i m).cache = b.cache
      ∧ (b.report n d d' i m).misses = b.misses ∧ (b.report n d d' i m).episode = b.episode
      ∧ (b.report n d d' i m).engine = b.engine ∧ (b.report n d d' i m).freeDraws = b.freeDraws
      ∧ (b.report n d d' i m).control.state = b.control.state
      ∧ (b.report n d d' i m).control.settings = b.control.settings
      ∧ (b.report n d d' i m).mport.outstanding = b.mport.outstanding
      ∧ (b.report n d d' i m).mport.fairness = b.mport.fairness := by
  unfold report
  dsimp only
  repeat' split
  all_goals simp

/-- A halt changes the working copy and queues a FAULT notice (R14, R15). -/
@[simp] theorem halt_frame (b : Bridge) (n : Nat) (d : Descriptor) (c : Byte) :
    (b.halt n d c).iport = b.iport ∧ (b.halt n d c).misses = b.misses ∧ (b.halt n d c).episode = b.episode
      ∧ (b.halt n d c).engine = b.engine ∧ (b.halt n d c).trigger = b.trigger ∧ (b.halt n d c).command = b.command
      ∧ (b.halt n d c).freeDraws = b.freeDraws ∧ (b.halt n d c).control.state = b.control.state
      ∧ (b.halt n d c).control.settings = b.control.settings
      ∧ (b.halt n d c).mport.outstanding = b.mport.outstanding
      ∧ (b.halt n d c).mport.fairness = b.mport.fairness := by
  unfold halt
  split <;> simp

/-- The end of a command changes the command unit and the idle timer (R163, R187). -/
@[simp] theorem commandEnd_frame (b : Bridge) :
    b.commandEnd.iport = b.iport ∧ b.commandEnd.mport = b.mport ∧ b.commandEnd.cache = b.cache
      ∧ b.commandEnd.misses = b.misses ∧ b.commandEnd.episode = b.episode ∧ b.commandEnd.engine = b.engine
      ∧ b.commandEnd.trigger = b.trigger ∧ b.commandEnd.notices = b.notices
      ∧ b.commandEnd.nextHandle = b.nextHandle ∧ b.commandEnd.freeDraws = b.freeDraws
      ∧ b.commandEnd.control.state = b.control.state ∧ b.commandEnd.control.settings = b.control.settings
      ∧ b.commandEnd.control.straps = b.control.straps := by
  simp [commandEnd]

/-- A command done changes the command unit, the idle timer, the notice writer and the mirror (R165). -/
@[simp] theorem commandDone_frame (b : Bridge) :
    b.commandDone.iport = b.iport ∧ b.commandDone.cache = b.cache ∧ b.commandDone.misses = b.misses
      ∧ b.commandDone.episode = b.episode ∧ b.commandDone.engine = b.engine ∧ b.commandDone.trigger = b.trigger
      ∧ b.commandDone.freeDraws = b.freeDraws ∧ b.commandDone.control.state = b.control.state
      ∧ b.commandDone.control.settings = b.control.settings ∧ b.commandDone.control.straps = b.control.straps
      ∧ b.commandDone.mport.outstanding = b.mport.outstanding
      ∧ b.commandDone.mport.fairness = b.mport.fairness := by
  unfold commandDone
  split
  · split <;> simp
  · simp

/-- A refused command changes what a command done does (R165). -/
@[simp] theorem commandRefused_frame (b : Bridge) (r : Reason) :
    (b.commandRefused r).iport = b.iport ∧ (b.commandRefused r).cache = b.cache
      ∧ (b.commandRefused r).misses = b.misses ∧ (b.commandRefused r).episode = b.episode
      ∧ (b.commandRefused r).engine = b.engine ∧ (b.commandRefused r).trigger = b.trigger
      ∧ (b.commandRefused r).freeDraws = b.freeDraws ∧ (b.commandRefused r).control.state = b.control.state
      ∧ (b.commandRefused r).control.settings = b.control.settings
      ∧ (b.commandRefused r).control.straps = b.control.straps
      ∧ (b.commandRefused r).mport.outstanding = b.mport.outstanding
      ∧ (b.commandRefused r).mport.fairness = b.mport.fairness := by
  unfold commandRefused
  split <;> simp

/-- An operation handed to the record cache joins a waiting list or the miss list (R105, R106). -/
@[simp] theorem enqueue_frame (b : Bridge) (n : Nat) (op : CacheOp) :
    (b.enqueue n op).iport = b.iport ∧ (b.enqueue n op).mport = b.mport ∧ (b.enqueue n op).episode = b.episode
      ∧ (b.enqueue n op).engine = b.engine ∧ (b.enqueue n op).trigger = b.trigger
      ∧ (b.enqueue n op).command = b.command ∧ (b.enqueue n op).notices = b.notices
      ∧ (b.enqueue n op).control = b.control ∧ (b.enqueue n op).nextHandle = b.nextHandle
      ∧ (b.enqueue n op).freeDraws = b.freeDraws := by
  unfold enqueue
  split <;> simp

/-- The end of a run changes the engine, the reservation it clears, and the M-port's waiting list (R141). -/
@[simp] theorem endRun_frame (b : Bridge) (c : RunEnd) (l : Bool) (n : Option Nat) :
    (b.endRun c l n).iport = b.iport ∧ (b.endRun c l n).misses = b.misses ∧ (b.endRun c l n).episode = b.episode
      ∧ (b.endRun c l n).trigger = b.trigger ∧ (b.endRun c l n).command = b.command
      ∧ (b.endRun c l n).notices = b.notices ∧ (b.endRun c l n).control = b.control
      ∧ (b.endRun c l n).freeDraws = b.freeDraws ∧ (b.endRun c l n).mport.outstanding = b.mport.outstanding
      ∧ (b.endRun c l n).mport.fairness = b.mport.fairness ∧ (b.endRun c l n).engine.state = .storing
      ∧ (b.endRun c l n).engine.transit = none ∧ (b.endRun c l n).engine.step = .store := by
  unfold endRun clearDestination
  dsimp only
  split <;> simp [clearReservation]

end Bridge

end Sys2Proof.Machine
end

