-- ==== Sys2Proof/Laws/Settle.lean ====
section
/-! SUPPORT. What the bridge does by itself comes to an end: a measure of the work left, which each step of `settle` makes less,
and which the bound of `settle` covers (log 9). -/

namespace Sys2Proof.Machine

/-- A list of entries or requests of which each has a key of its own: a change under one key changes one term of a sum. -/
theorem sum_update {α : Type} (l : List α) (key : α → Nat) (f : α → α) (g : α → Nat) (e : α)
    (hn : (l.map key).Nodup) (he : e ∈ l) :
    ((l.map (fun x => if key x = key e then f x else x)).map g).sum + g e = (l.map g).sum + g (f e) := by
  induction l with
  | nil => cases he
  | cons a l ih =>
    simp only [List.map_cons, List.nodup_cons, List.mem_map, not_exists, not_and] at hn
    simp only [List.map_cons, List.sum_cons]
    by_cases ha : key a = key e
    · have hae : e = a := by
        rcases List.mem_cons.mp he with h | h
        · exact h
        · exact absurd ha.symm (hn.1 e h)
      subst hae
      have hl : l.map (fun x => if key x = key e then f x else x) = l := by
        conv => rhs; rw [← List.map_id l]
        apply List.map_congr_left
        intro x hx
        simp [hn.1 x hx]
      rw [hl]
      simp
      omega
    · have hel : e ∈ l := by
        rcases List.mem_cons.mp he with h | h
        · subst h; exact absurd rfl ha
        · exact h
      have := ih hn.2 hel
      rw [if_neg ha]
      omega

/-- A change under a key that no element has changes nothing. -/
theorem map_update_absent {α : Type} (l : List α) (key : α → Nat) (f : α → α) (n : Nat) (h : ∀ x ∈ l, key x ≠ n) :
    l.map (fun x => if key x = n then f x else x) = l := by
  conv => rhs; rw [← List.map_id l]
  apply List.map_congr_left
  intro x hx
  simp [h x hx]

/-- A part of a list of numbers has no larger sum. -/
theorem sum_sublist_le {l l' : List Nat} (h : l.Sublist l') : l.sum ≤ l'.sum := by
  induction h with
  | slnil => exact Nat.le_refl _
  | cons a _ ih => simp only [List.sum_cons]; omega
  | cons_cons a _ ih => simp only [List.sum_cons]; omega

/-- What an element weighs leaves a sum with it. -/
theorem sum_filter_le {α : Type} (l : List α) (p : α → Bool) (g : α → Nat) (e : α) (he : e ∈ l) (hp : p e = false) :
    ((l.filter p).map g).sum + g e ≤ (l.map g).sum := by
  induction l with
  | nil => cases he
  | cons a l ih =>
    have hle := sum_sublist_le (List.Sublist.map g (List.filter_sublist (l := l) (p := p)))
    rcases List.mem_cons.mp he with h | h
    · subst h
      rw [List.filter_cons_of_neg (by simp [hp])]
      simp only [List.map_cons, List.sum_cons]
      omega
    · have := ih h
      by_cases ha : p a = true
      · rw [List.filter_cons_of_pos ha]
        simp only [List.map_cons, List.sum_cons]
        omega
      · rw [List.filter_cons_of_neg ha]
        simp only [List.map_cons, List.sum_cons]
        omega

/-! ## The measure -/

/-- The most that an operation of a waiting list can give rise to. -/
def CacheOp.work : CacheOp → Nat
  | .tableRead _ => 4
  | .tap _ | .engine _ | .commandTake | .command | .noticePut | .tableWrite _ | .release => 3

/-- The most that the operations of a waiting list can give rise to. -/
def opsWork (ops : List CacheOp) : Nat := (ops.map CacheOp.work).sum

/-- What an entry can give rise to: while it is being fetched, its fetch and the writes it may have to hold. -/
def Entry.work (e : Entry) : Nat :=
  match e.state with
  | .fetching issued => (if issued then 0 else 1) + e.waiting.length
  | .dirty => 2 + opsWork e.waiting
  | .clean | .writing _ => 1 + opsWork e.waiting

namespace Bridge

/-- What the entries, the miss list and the snooped requests can give rise to. -/
def listWork (b : Bridge) : Nat :=
  (b.cache.map Entry.work).sum + 3 * b.misses.length + (b.iport.inflight.map todoLength).sum

/-- A must episode that can begin or end, a FLUSH that can be done, an emptying that can end. -/
def restWork (b : Bridge) : Nat :=
  (if b.episode then 1 else match b.control.settings with
    | some g => if g.mustLevel ≤ b.dirtyCount then 2 else 0
    | none => 0)
  + (if b.command.held.isSome then 1 else 0)
  + (if b.control.state = .run ∨ b.control.state = .stopping ∨ b.control.state = .warm then 1 else 0)

/-- The work left. -/
def workLeft (b : Bridge) : Nat := b.listWork + b.restWork

/-- The part of the invariants on which the measure rests. -/
structure Tidy (b : Bridge) : Prop where
  indices : (b.cache.map Entry.index).Nodup
  missing : ∀ p ∈ b.misses, p.1 ∉ b.cache.map Entry.index
  handles : (b.iport.inflight.map InFlight.id).Nodup
  levels : SettingsOk b

theorem Tidy.eq_of_index {b : Bridge} (t : Tidy b) {x y : Entry} (hx : x ∈ b.cache) (hy : y ∈ b.cache)
    (h : x.index = y.index) : x = y := by
  have aux : ∀ l : List Entry, (l.map Entry.index).Nodup → x ∈ l → y ∈ l → x = y := by
    intro l
    induction l with
    | nil => intro _ hx; cases hx
    | cons a l ih =>
      intro hn hx hy
      simp only [List.map_cons, List.nodup_cons, List.mem_map, not_exists, not_and] at hn
      rcases List.mem_cons.mp hx with h1 | h1 <;> rcases List.mem_cons.mp hy with h2 | h2
      · rw [h1, h2]
      · subst h1; exact absurd h.symm (hn.1 y h2)
      · subst h2; exact absurd h (hn.1 x h1)
      · exact ih hn.2 h1 h2
  exact aux b.cache t.indices hx hy

/-- Of what the measure looks at beside the lists, nothing grows. -/
structure Calm (b b' : Bridge) : Prop where
  state : b'.control.state = b.control.state
  settings : b'.control.settings = b.control.settings
  episode : b'.episode = b.episode
  held : b'.command.held = b.command.held ∨ b'.command.held = none
  dirty : b'.dirtyCount ≤ b.dirtyCount

theorem Calm.refl (b : Bridge) : Calm b b := ⟨rfl, rfl, rfl, Or.inl rfl, Nat.le_refl _⟩

theorem Calm.trans {a b c : Bridge} (h : Calm a b) (k : Calm b c) : Calm a c :=
  ⟨k.state.trans h.state, k.settings.trans h.settings, k.episode.trans h.episode,
    by rcases k.held with x | x
       · rcases h.held with y | y
         · exact Or.inl (x.trans y)
         · exact Or.inr (x.trans y)
       · exact Or.inr x,
    Nat.le_trans k.dirty h.dirty⟩

theorem Calm.restWork_le {b b' : Bridge} (h : Calm b b') : b'.restWork ≤ b.restWork := by
  unfold restWork
  rw [h.state, h.settings, h.episode]
  have hd := h.dirty
  have hh : (if b'.command.held.isSome = true then 1 else 0) ≤ (if b.command.held.isSome = true then 1 else 0) := by
    rcases h.held with x | x
    · exact Nat.le_of_eq (by rw [x])
    · simp [x]
  have he : (if b.episode = true then 1 else match b.control.settings with
      | some g => if g.mustLevel ≤ b'.dirtyCount then 2 else 0
      | none => 0) ≤ (if b.episode = true then 1 else match b.control.settings with
      | some g => if g.mustLevel ≤ b.dirtyCount then 2 else 0
      | none => 0) := by
    split
    · exact Nat.le_refl _
    · split
      · split
        · exact Nat.le_of_eq (if_pos (by omega)).symm
        · exact Nat.zero_le _
      · exact Nat.le_refl _
  omega

/-! ## The operations on entries and requests -/

theorem entry?_mem (b : Bridge) (n : Nat) (e : Entry) (h : b.entry? n = some e) : e ∈ b.cache ∧ e.index = n :=
  ⟨List.mem_of_find?_eq_some h, by simpa using List.find?_some h⟩

theorem inflight?_mem (b : Bridge) (id : Nat) (r : InFlight) (h : b.inflight? id = some r) :
    r ∈ b.iport.inflight ∧ r.id = id :=
  ⟨List.mem_of_find?_eq_some h, by simpa using List.find?_some h⟩

/-- An entry is changed: its own work changes, and nothing else the measure looks at. -/
theorem setEntry_work (b : Bridge) (n : Nat) (e : Entry) (f : Entry → Entry) (t : Tidy b) (h : e ∈ b.cache)
    (hn : e.index = n) (hf : ∀ x, (f x).index = x.index) (hs : ∀ x, (f x).countsDirty = true → x.countsDirty = true) :
    Tidy (b.setEntry n f) ∧ Calm b (b.setEntry n f) ∧ (b.setEntry n f).listWork + e.work = b.listWork + (f e).work
      ∧ (b.setEntry n f).cache.map Entry.index = b.cache.map Entry.index := by
  have hi : (b.setEntry n f).cache.map Entry.index = b.cache.map Entry.index := by
    simp only [setEntry, List.map_map]
    apply List.map_congr_left
    intro x _
    simp only [Function.comp]
    split <;> simp [hf]
  refine ⟨⟨?_, ?_, t.handles, t.levels⟩, ⟨rfl, rfl, rfl, Or.inl rfl, ?_⟩, ?_, hi⟩
  · rw [hi]; exact t.indices
  · rw [hi]; exact t.missing
  · simp only [dirtyCount, setEntry, List.countP_map]
    apply List.countP_mono_left
    intro x _ hx
    simp only [Function.comp] at hx
    split at hx
    · exact hs x hx
    · exact hx
  · subst hn
    have := sum_update b.cache Entry.index f Entry.work e t.indices h
    simp only [listWork, setEntry]
    omega

/-- A request moves to another phase. -/
theorem setPhase_work (b : Bridge) (id : Nat) (r : InFlight) (p : RequestPhase) (t : Tidy b)
    (h : b.inflight? id = some r) :
    Tidy (b.setPhase id p) ∧ Calm b (b.setPhase id p)
      ∧ (b.setPhase id p).listWork + todoLength r = b.listWork + todoLength { r with phase := p } := by
  obtain ⟨hm, hid⟩ := inflight?_mem b id r h
  have hi : (b.setPhase id p).iport.inflight.map InFlight.id = b.iport.inflight.map InFlight.id := by
    simp only [setPhase, List.map_map]
    apply List.map_congr_left
    intro x _
    simp only [Function.comp]
    split <;> rfl
  refine ⟨⟨t.indices, t.missing, by rw [hi]; exact t.handles, t.levels⟩, ⟨rfl, rfl, rfl, Or.inl rfl, Nat.le_refl _⟩, ?_⟩
  subst hid
  have := sum_update b.iport.inflight InFlight.id (fun r => { r with phase := p }) todoLength r t.handles hm
  simp only [listWork, setPhase]
  omega

/-- A request that waits for descriptors counts for at most as many as it waits for. -/
theorem todoLength_snooping (r : InFlight) (n : Nat) (todo : List Nat) :
    todoLength { r with phase := .snooping (n :: todo) } ≤ todo.length + 1 := by
  unfold todoLength
  split <;> simp

/-- A request that waits for no descriptor counts for nothing, or once when it is a write, as before. -/
theorem todoLength_passed (r : InFlight) (p : RequestPhase) (h : ∀ todo, p ≠ .snooping todo) :
    todoLength { r with phase := p } ≤ todoLength r ∧ todoLength { r with phase := p } ≤ 1 := by
  unfold todoLength
  split
  · exact ⟨Nat.le_refl _, Nat.le_refl _⟩
  · cases p <;> simp_all

/-- A write counts once. -/
theorem todoLength_write (r : InFlight) (h : r.request.write = true) : todoLength r = 1 := by simp [todoLength, h]

/-- A write moves to another phase: the measure stays. -/
theorem setPhase_write (b : Bridge) (id : Nat) (r : InFlight) (p : RequestPhase) (t : Tidy b)
    (h : b.inflight? id = some r) (hw : r.request.write = true) :
    Tidy (b.setPhase id p) ∧ Calm b (b.setPhase id p) ∧ (b.setPhase id p).listWork = b.listWork := by
  obtain ⟨h1, h2, h3⟩ := setPhase_work b id r p t h
  rw [todoLength_write r hw, todoLength_write { r with phase := p } hw] at h3
  exact ⟨h1, h2, by omega⟩

/-- A request joins the M-port: nothing the measure looks at changes. -/
theorem forward_work (b : Bridge) (id : Nat) (r : InFlight) (t : Tidy b) (h : b.inflight? id = some r) :
    Tidy (b.forward id) ∧ Calm b (b.forward id) ∧ (b.forward id).listWork ≤ b.listWork
      ∧ (b.forward id).listWork + todoLength r ≤ b.listWork + 1 ∧ (b.forward id).cache = b.cache := by
  obtain ⟨h1, h2, h3⟩ := setPhase_work b id r .forwarded t h
  have := todoLength_passed r .forwarded (fun _ h => nomatch h)
  simp only [forward, h]
  exact ⟨⟨h1.indices, h1.missing, h1.handles, h1.levels⟩, ⟨rfl, rfl, rfl, Or.inl rfl, Nat.le_refl _⟩,
    by simp only [listWork] at h3 ⊢; omega, by simp only [listWork] at h3 ⊢; omega, rfl⟩

/-- A request that every descriptor allows waits for nothing in the cache. -/
theorem passOn_work (b : Bridge) (r x : InFlight) (t : Tidy b) (h : b.inflight? r.id = some x) :
    Tidy (b.passOn r) ∧ Calm b (b.passOn r) ∧ (b.passOn r).listWork ≤ b.listWork
      ∧ (b.passOn r).listWork + todoLength x ≤ b.listWork + 1 ∧ (b.passOn r).cache = b.cache := by
  have waits (p : RequestPhase) (hp : ∀ todo, p ≠ .snooping todo) : Tidy (b.setPhase r.id p) ∧ Calm b (b.setPhase r.id p)
      ∧ (b.setPhase r.id p).listWork ≤ b.listWork ∧ (b.setPhase r.id p).listWork + todoLength x ≤ b.listWork + 1
      ∧ (b.setPhase r.id p).cache = b.cache := by
    obtain ⟨h1, h2, h3⟩ := setPhase_work b r.id x p t h
    have := todoLength_passed x p hp
    exact ⟨h1, h2, by omega, by omega, rfl⟩
  unfold passOn
  split
  · exact waits _ (fun _ h => nomatch h)
  · split
    · exact waits _ (fun _ h => nomatch h)
    · exact forward_work b r.id x t h

/-- An operation more in a waiting list. -/
theorem work_append (e : Entry) (op : CacheOp) : ({ e with waiting := e.waiting ++ [op] } : Entry).work ≤ e.work + op.work := by
  have : 1 ≤ op.work := by cases op <;> simp [CacheOp.work]
  unfold Entry.work opsWork
  cases e.state <;> simp <;> omega

/-- A request joins an entry's waiting list. -/
theorem join_work (b : Bridge) (n : Nat) (e : Entry) (r x : InFlight) (op : CacheOp) (p : RequestPhase) (t : Tidy b)
    (he : b.entry? n = some e) (h : b.inflight? r.id = some x) :
    let b' := (b.enqueue n op).setPhase r.id p
    Tidy b' ∧ Calm b b' ∧ b'.listWork + todoLength x ≤ b.listWork + op.work + todoLength { x with phase := p }
      ∧ b'.cache.map Entry.index = b.cache.map Entry.index := by
  obtain ⟨hm, hi⟩ := entry?_mem b n e he
  have hq : b.enqueue n op = b.setEntry n (fun e => { e with waiting := e.waiting ++ [op] }) := by simp [enqueue, he]
  obtain ⟨h1, h2, h3, h4⟩ := setEntry_work b n e (fun e => { e with waiting := e.waiting ++ [op] }) t hm hi
    (fun _ => rfl) (fun _ h => h)
  rw [← hq] at h1 h2 h3 h4
  have hx : (b.enqueue n op).inflight? r.id = some x := by simpa [inflight?] using h
  obtain ⟨k1, k2, k3⟩ := setPhase_work (b.enqueue n op) r.id x p h1 hx
  have hw := work_append e op
  exact ⟨k1, h2.trans k2, by omega, h4⟩

/-- A TABLE read that is judged waits for one descriptor, or for none. -/
theorem snoopRead_work (r x : InFlight) (todo : List Nat) : ∀ b : Bridge, Tidy b → b.inflight? r.id = some x →
    Tidy (b.snoopRead r todo) ∧ Calm b (b.snoopRead r todo)
      ∧ (b.snoopRead r todo).listWork + todoLength x ≤ b.listWork + 4 + todo.length
      ∧ (b.snoopRead r todo).cache.map Entry.index = b.cache.map Entry.index := by
  induction todo with
  | nil =>
    intro b t h
    obtain ⟨h1, h2, _, h3, h4⟩ := passOn_work b r x t h
    exact ⟨h1, h2, by simp only [snoopRead]; omega, by simp only [snoopRead]; rw [h4]⟩
  | cons n rest ih =>
    intro b t h
    obtain ⟨i1, i2, i3, i4⟩ := ih b t h
    unfold snoopRead
    split
    · exact ⟨i1, i2, by simp only [List.length_cons]; omega, i4⟩
    · next e he =>
      split
      · exact ⟨i1, i2, by simp only [List.length_cons]; omega, i4⟩
      · obtain ⟨j1, j2, j3, j4⟩ := join_work b n e r x (.tableRead r.id) (.snooping (n :: rest)) t he h
        have := todoLength_snooping x n rest
        simp only [CacheOp.work] at j3
        exact ⟨j1, j2, by simp only [List.length_cons]; omega, j4⟩

/-- A TABLE write is held on a pinned entry: the measure stays. -/
theorem holdRequest_work (b : Bridge) (n : Nat) (e : Entry) (r x : InFlight) (t : Tidy b) (he : e ∈ b.cache)
    (hn : e.index = n) (h : b.inflight? r.id = some x) (hw : x.request.write = true) :
    Tidy (b.holdRequest n r) ∧ Calm b (b.holdRequest n r) ∧ (b.holdRequest n r).listWork = b.listWork
      ∧ (b.holdRequest n r).cache.map Entry.index = b.cache.map Entry.index := by
  obtain ⟨h1, h2, h3, h4⟩ := setEntry_work b n e (fun e => { e with held := e.held ++ [r.id] }) t he hn
    (fun _ => rfl) (fun _ h => h)
  obtain ⟨k1, k2, k3⟩ := setPhase_write _ r.id x
    (.snooping (n :: (b.cfg.touchedStructures r.request).filter (fun m => m != n))) h1 (by simpa [inflight?] using h) hw
  have e1 : ({ e with held := e.held ++ [r.id] } : Entry).work = e.work := rfl
  exact ⟨k1, h2.trans k2, by simp only [holdRequest]; omega, h4⟩

/-- A pinned descriptor is held in an entry. -/
theorem pinnedOf_entry {b : Bridge} {r : Request} {n : Nat} (h : b.pinnedOf r = some n) : ∃ e, b.entry? n = some e := by
  have hp := List.find?_some h
  unfold pinned at hp
  split at hp
  · next e he => exact ⟨e, he⟩
  · cases hp

/-- A TABLE write that is judged waits for one descriptor, or for none. -/
theorem snoopWrite_work (b : Bridge) (r x : InFlight) (todo : List Nat) (t : Tidy b) (h : b.inflight? r.id = some x)
    (hw : x.request.write = true) :
    Tidy (b.snoopWrite r todo) ∧ Calm b (b.snoopWrite r todo) ∧ (b.snoopWrite r todo).listWork ≤ b.listWork + 3
      ∧ (b.snoopWrite r todo).cache.map Entry.index = b.cache.map Entry.index := by
  unfold snoopWrite
  split
  · next n hn =>
    obtain ⟨e, he⟩ := pinnedOf_entry hn
    obtain ⟨hm, hi⟩ := entry?_mem b n e he
    obtain ⟨h1, h2, h3, h4⟩ := holdRequest_work b n e r x t hm hi h hw
    exact ⟨h1, h2, by omega, h4⟩
  · split
    · obtain ⟨h1, h2, h3, _, h4⟩ := passOn_work b r x t h
      exact ⟨h1, h2, by omega, by rw [h4]⟩
    · next n rest hd =>
      obtain ⟨e, he⟩ : ∃ e, b.entry? n = some e := by
        have := List.head?_dropWhile_not (fun n => (b.entry? n).isNone) todo
        rw [hd] at this
        exact Option.isSome_iff_exists.mp (by simpa using this)
      obtain ⟨j1, j2, j3, j4⟩ := join_work b n e r x (.tableWrite r.id) (.snooping (n :: rest)) t he h
      rw [todoLength_write x hw, todoLength_write { x with phase := .snooping (n :: rest) } hw] at j3
      simp only [CacheOp.work] at j3
      exact ⟨j1, j2, by omega, j4⟩

/-- A request that one descriptor allows gives rise to less than a TABLE read that waits. -/
theorem allow_work (b : Bridge) (n id : Nat) (t : Tidy b) :
    Tidy (b.allow n id) ∧ Calm b (b.allow n id) ∧ (b.allow n id).listWork ≤ b.listWork + 3
      ∧ (b.allow n id).cache.map Entry.index = b.cache.map Entry.index := by
  have same : Tidy b ∧ Calm b b ∧ b.listWork ≤ b.listWork + 3 ∧ b.cache.map Entry.index = b.cache.map Entry.index :=
    ⟨t, Calm.refl b, by omega, rfl⟩
  unfold allow
  split
  · next r hr =>
    have hid := (inflight?_mem b id r hr).2
    subst hid
    split
    · next todo hp =>
      split
      · next hh =>
        obtain ⟨k, hk⟩ : ∃ k, todo = n :: k := by
          cases todo with
          | nil => simp at hh
          | cons a k => exact ⟨k, by simp at hh; rw [hh]⟩
        subst hk
        unfold snoop
        split
        · next hw => exact snoopWrite_work b r r _ t hr hw
        · next hw =>
          have hl : todoLength r = k.length + 1 := by simp [todoLength, hp, hw]
          obtain ⟨h1, h2, h3, h4⟩ := snoopRead_work r r (n :: k).tail b t hr
          exact ⟨h1, h2, by simp only [List.tail_cons] at h3 ⊢; omega, h4⟩
      · exact same
    all_goals exact same
  · exact same

/-- What changes neither entries, misses, requests nor what bridge control counts. -/
theorem work_of_frame (b b' : Bridge) (t : Tidy b) (hc : b'.cache = b.cache) (hm : b'.misses = b.misses)
    (hi : b'.iport = b.iport) (he : b'.episode = b.episode) (h1 : b'.control.state = b.control.state)
    (h2 : b'.control.settings = b.control.settings) (hh : b'.command.held = b.command.held ∨ b'.command.held = none) :
    Tidy b' ∧ Calm b b' ∧ b'.listWork = b.listWork := by
  refine ⟨⟨by rw [hc]; exact t.indices, by rw [hc, hm]; exact t.missing, by rw [hi]; exact t.handles, ?_⟩,
    ⟨h1, h2, he, hh, by rw [dirtyCount, hc]; exact Nat.le_refl _⟩, by rw [listWork, hc, hm, hi]; rfl⟩
  intro g hg
  rw [h2] at hg
  exact t.levels g hg

/-- A command that is done, or nothing. -/
theorem commandDone_work (b : Bridge) (t : Tidy b) :
    Tidy b.commandDone ∧ Calm b b.commandDone ∧ b.commandDone.listWork = b.listWork := by
  refine work_of_frame b b.commandDone t (by simp) (by simp) (by simp) (by simp) (by simp) (by simp) ?_
  unfold commandDone
  split
  · right
    simp [commandEnd]
  · left; rfl

/-- A refused tap leaves the I-port, or waits there answered. -/
theorem refuseTap_work (b : Bridge) (x : Tap) (r : Reason) (t : Tidy b) :
    Tidy (b.refuseTap x r) ∧ Calm b (b.refuseTap x r) ∧ (b.refuseTap x r).listWork ≤ b.listWork := by
  have hsub : ∀ l k, ((drainList k l).1).Sublist l := by
    intro l
    induction l with
    | nil => intro k; exact List.Sublist.refl _
    | cons r l ih =>
      intro k
      unfold drainList
      split
      · split
        · exact (ih k).cons_cons r
        · exact (ih k).cons r
      all_goals exact (ih _).cons_cons r
  have hp : ∀ l : List InFlight, ((l.map (fun y => if y.id = x.id then { y with phase := .answered false (errorData x) }
      else y)).map todoLength).sum ≤ (l.map todoLength).sum := by
    intro l
    induction l with
    | nil => exact Nat.le_refl _
    | cons y l ih =>
      simp only [List.map_cons, List.sum_cons]
      have : todoLength (if y.id = x.id then { y with phase := .answered false (errorData x) } else y) ≤ todoLength y := by
        split
        · exact (todoLength_passed y (.answered false (errorData x)) (fun _ h => nomatch h)).1
        · exact Nat.le_refl _
      omega
  have hi : (b.refuseTap x r).iport.inflight = (drainList [] (b.iport.inflight.map (fun y => if y.id = x.id then
      { y with phase := .answered false (errorData x) } else y))).1 := by
    simp [refuseTap, answer, drain, setPhase]
  have hids : (b.iport.inflight.map (fun y => if y.id = x.id then { y with phase := .answered false (errorData x) }
      else y)).map InFlight.id = b.iport.inflight.map InFlight.id := by
    rw [List.map_map]
    apply List.map_congr_left
    intro y _
    simp only [Function.comp]
    split <;> rfl
  refine ⟨⟨by simp [t.indices], by simpa using t.missing, ?_, ?_⟩, ⟨by simp, by simp, by simp, Or.inl (by simp), ?_⟩, ?_⟩
  · rw [hi]
    exact List.Nodup.sublist ((hsub _ _).map InFlight.id) (by rw [hids]; exact t.handles)
  · intro g hg
    exact t.levels g (by simpa using hg)
  · simp [dirtyCount]
  · have h1 := sum_sublist_le ((hsub (b.iport.inflight.map (fun y => if y.id = x.id then
      { y with phase := .answered false (errorData x) } else y)) []).map todoLength)
    have h2 := hp b.iport.inflight
    simp only [listWork, hi, refuseTap_frame]
    omega

/-- The operations of a dropped entry go on. -/
theorem orphans_work (n : Nat) (ops : List CacheOp) : ∀ b : Bridge, Tidy b → n ∉ b.cache.map Entry.index →
    Tidy (ops.foldl (orphan n) b) ∧ Calm b (ops.foldl (orphan n) b)
      ∧ (ops.foldl (orphan n) b).listWork ≤ b.listWork + opsWork ops
      ∧ (ops.foldl (orphan n) b).cache.map Entry.index = b.cache.map Entry.index := by
  induction ops with
  | nil => intro b t _; exact ⟨t, Calm.refl b, Nat.le_refl _, rfl⟩
  | cons op ops ih =>
    intro b t hn
    have one : Tidy (orphan n b op) ∧ Calm b (orphan n b op) ∧ (orphan n b op).listWork ≤ b.listWork + op.work
        ∧ (orphan n b op).cache.map Entry.index = b.cache.map Entry.index := by
      have miss : Tidy { b with misses := b.misses ++ [(n, op)] } ∧ Calm b { b with misses := b.misses ++ [(n, op)] }
          ∧ ({ b with misses := b.misses ++ [(n, op)] } : Bridge).listWork ≤ b.listWork + 3
          ∧ ({ b with misses := b.misses ++ [(n, op)] } : Bridge).cache.map Entry.index = b.cache.map Entry.index := by
        refine ⟨⟨t.indices, ?_, t.handles, t.levels⟩, ⟨rfl, rfl, rfl, Or.inl rfl, Nat.le_refl _⟩, ?_, rfl⟩
        · intro p hp
          rcases List.mem_append.mp hp with h | h
          · exact t.missing p h
          · rw [List.mem_singleton.mp h]; exact hn
        · simp only [listWork, List.length_append, List.length_cons, List.length_nil]
          omega
      cases op with
      | tableRead id =>
        obtain ⟨h1, h2, h3, h4⟩ := allow_work b n id t
        exact ⟨h1, h2, by simp only [orphan, CacheOp.work]; omega, h4⟩
      | tableWrite id =>
        obtain ⟨h1, h2, h3, h4⟩ := allow_work b n id t
        exact ⟨h1, h2, by simp only [orphan, CacheOp.work]; omega, h4⟩
      | release =>
        obtain ⟨h1, h2, h3⟩ := commandDone_work b t
        exact ⟨h1, h2, by simp only [orphan, CacheOp.work]; omega, by simp [orphan]⟩
      | tap x => exact miss
      | engine x => exact miss
      | commandTake => exact miss
      | command => exact miss
      | noticePut => exact miss
    obtain ⟨h1, h2, h3, h4⟩ := one
    obtain ⟨k1, k2, k3, k4⟩ := ih (orphan n b op) h1 (by rw [h4]; exact hn)
    refine ⟨k1, h2.trans k2, ?_, k4.trans h4⟩
    simp only [List.foldl_cons]
    have : opsWork (op :: ops) = op.work + opsWork ops := rfl
    omega

/-- An entry leaves the cache. -/
theorem remove_work (b : Bridge) (e : Entry) (t : Tidy b) (h : e ∈ b.cache) :
    let b' : Bridge := { b with cache := b.cache.filter (fun x => x.index != e.index) }
    Tidy b' ∧ Calm b b' ∧ b'.listWork + e.work ≤ b.listWork ∧ e.index ∉ b'.cache.map Entry.index := by
  have hsub : (b.cache.filter (fun x => x.index != e.index)).Sublist b.cache := List.filter_sublist
  refine ⟨⟨List.Nodup.sublist (hsub.map Entry.index) t.indices, ?_, t.handles, t.levels⟩,
    ⟨rfl, rfl, rfl, Or.inl rfl, hsub.countP_le⟩, ?_, ?_⟩
  · intro p hp hc
    exact t.missing p hp ((hsub.map Entry.index).subset hc)
  · have := sum_filter_le b.cache (fun x => x.index != e.index) Entry.work e h (by simp)
    simp only [listWork]
    omega
  · simp

/-- A dropped entry, held and not being fetched, leaves less to do. -/
theorem dropEntry_work (b : Bridge) (e : Entry) (t : Tidy b) (h : e ∈ b.cache) (hs : e.state = .clean) :
    Tidy (b.dropEntry e) ∧ Calm b (b.dropEntry e) ∧ (b.dropEntry e).listWork < b.listWork := by
  obtain ⟨h1, h2, h3, h4⟩ := remove_work b e t h
  obtain ⟨k1, k2, k3, _⟩ := orphans_work e.index e.waiting _ h1 h4
  have : e.work = 1 + opsWork e.waiting := by simp [Entry.work, hs]
  exact ⟨k1, h2.trans k2, by simp only [dropEntry]; omega⟩

/-- A write-back that starts. -/
theorem startWriteBack_work (b : Bridge) (e : Entry) (r : WriteBackFor) (t : Tidy b) (h : e ∈ b.cache)
    (hs : e.state = .dirty) :
    Tidy (b.startWriteBack e r) ∧ Calm b (b.startWriteBack e r) ∧ (b.startWriteBack e r).listWork < b.listWork := by
  have hd : ∀ x ∈ b.cache, x.index = e.index → x = e := by
    intro x hx hxe
    exact t.eq_of_index hx h hxe
  have hi : (b.setEntry e.index (fun x => { x with state := .writing r })).cache.map Entry.index
      = b.cache.map Entry.index := by
    simp only [setEntry, List.map_map]
    apply List.map_congr_left
    intro x _
    simp only [Function.comp]
    split <;> rfl
  refine ⟨⟨?_, ?_, t.handles, t.levels⟩, ⟨rfl, rfl, rfl, Or.inl rfl, ?_⟩, ?_⟩
  · exact hi ▸ t.indices
  · intro p hp hc
    exact t.missing p hp (hi ▸ hc)
  · simp only [dirtyCount, startWriteBack, issue, setEntry, List.countP_map]
    apply List.countP_mono_left
    intro x hx hc
    simp only [Function.comp] at hc
    split at hc
    · next hxe => rw [hd x hx hxe]; simp [Entry.countsDirty, hs]
    · exact hc
  · have := sum_update b.cache Entry.index (fun x => { x with state := .writing r }) Entry.work e t.indices h
    have e1 : e.work = 2 + opsWork e.waiting := by simp [Entry.work, hs]
    have e2 : ({ e with state := .writing r } : Entry).work = 1 + opsWork e.waiting := rfl
    simp only [listWork, startWriteBack, issue, setEntry]
    omega

/-! ## What one entry does by itself -/

theorem opsWork_tail (op : CacheOp) (l : List CacheOp) : opsWork (op :: l) = op.work + opsWork l := rfl

theorem opsWork_erase (op : CacheOp) (l : List CacheOp) (h : op ∈ l) : opsWork (l.erase op) + op.work = opsWork l := by
  induction l with
  | nil => cases h
  | cons a l ih =>
    by_cases ha : a = op
    · subst ha; rw [List.erase_cons_head]; simp only [opsWork_tail]; omega
    · rw [List.erase_cons_tail (by simpa using ha)]
      have := ih (by rcases List.mem_cons.mp h with x | x
                     · exact absurd x.symm ha
                     · exact x)
      simp only [opsWork_tail]
      omega

/-- What a step of the bridge's own has to show. -/
def Lessens (b b' : Bridge) : Prop := Tidy b' ∧ Calm b b' ∧ b'.listWork < b.listWork

/-- A waiting list that loses an operation. -/
theorem lessens_setEntry (b : Bridge) (e : Entry) (f : Entry → Entry) (t : Tidy b) (h : e ∈ b.cache)
    (hf : ∀ x, (f x).index = x.index) (hs : ∀ x, (f x).countsDirty = true → x.countsDirty = true)
    (hw : (f e).work < e.work) : Lessens b (b.setEntry e.index f) := by
  obtain ⟨h1, h2, h3, _⟩ := setEntry_work b e.index e f t h rfl hf hs
  exact ⟨h1, h2, by omega⟩

theorem work_ready (e : Entry) (h : e.ready = true) : e.work = (if e.state = .dirty then 2 else 1) + opsWork e.waiting := by
  simp only [Entry.ready, Bool.and_eq_true, Bool.or_eq_true, beq_iff_eq] at h
  rcases h.1 with h | h <;> simp [Entry.work, h]

theorem mem_tableWrite {l : List CacheOp} {id : Nat} (h : l.findSome? CacheOp.tableWrite? = some id) :
    .tableWrite id ∈ l := by
  obtain ⟨op, hop, hs⟩ := List.exists_of_findSome?_eq_some h
  cases op <;> simp [CacheOp.tableWrite?] at hs
  subst hs
  exact hop

/-- A TABLE write that has left a waiting list is held on a pinned entry: the measure stays. -/
theorem hold_work (b : Bridge) (n id : Nat) (e : Entry) (t : Tidy b) (he : e ∈ b.cache) (hn : e.index = n) :
    Tidy (b.hold n id) ∧ Calm b (b.hold n id) ∧ (b.hold n id).listWork = b.listWork := by
  unfold hold
  split
  · next r hr =>
    obtain ⟨hf, hw⟩ := Option.filter_eq_some_iff.mp hr
    have hid := (inflight?_mem b id r hf).2
    subst hid
    obtain ⟨h1, h2, h3, _⟩ := holdRequest_work b n e r r t he hn hf hw
    exact ⟨h1, h2, h3⟩
  · obtain ⟨h1, h2, h3, _⟩ := setEntry_work b n e (fun e => { e with held := e.held ++ [id] }) t he hn
      (fun _ => rfl) (fun _ h => h)
    have e1 : ({ e with held := e.held ++ [id] } : Entry).work = e.work := rfl
    exact ⟨h1, h2, by omega⟩

/-- A TABLE write leaves a waiting list and is held on a pinned entry: less is left to do. -/
theorem lessens_hold (b : Bridge) (e : Entry) (f : Entry → Entry) (n id : Nat) (t : Tidy b) (h : e ∈ b.cache)
    (hf : ∀ x, (f x).index = x.index) (hs : ∀ x, (f x).countsDirty = true → x.countsDirty = true)
    (hw : (f e).work < e.work) (hn : n ∈ b.cache.map Entry.index) : Lessens b ((b.setEntry e.index f).hold n id) := by
  obtain ⟨h1, h2, h3, h4⟩ := setEntry_work b e.index e f t h rfl hf hs
  rw [← h4] at hn
  obtain ⟨y, hy, hyn⟩ := List.mem_map.mp hn
  obtain ⟨k1, k2, k3⟩ := hold_work _ n id y h1 hy hyn
  exact ⟨k1, h2.trans k2, by omega⟩

/-- The entry on which a TABLE write is to be held is in the cache. -/
theorem holdPlace_mem {b : Bridge} {e : Entry} {id n : Nat} (h : e ∈ b.cache) (hp : b.holdPlace e id = some n) :
    n ∈ b.cache.map Entry.index := by
  unfold holdPlace at hp
  split at hp
  · simp only [Option.some.injEq] at hp
    exact hp ▸ List.mem_map_of_mem h
  · obtain ⟨r, _, hr⟩ := Option.bind_eq_some_iff.mp hp
    obtain ⟨y, hy⟩ := pinnedOf_entry hr
    obtain ⟨hm, hi⟩ := entry?_mem b n y hy
    exact hi ▸ List.mem_map_of_mem hm

theorem holdWrite_lessens (b b' : Bridge) (e : Entry) (t : Tidy b) (h : e ∈ b.cache) (hs : b.holdWrite e = some b') :
    Lessens b b' := by
  unfold holdWrite at hs
  split at hs
  · next id hid =>
    split at hs
    · simp only [Option.some.injEq] at hs
      subst hs
      refine lessens_hold b e _ e.index id t h (fun _ => rfl) (fun _ h => h) ?_ (List.mem_map_of_mem h)
      have hm := mem_tableWrite hid
      have h1 := opsWork_erase _ _ hm
      have h2 := List.length_erase_of_mem hm
      have h3 := List.length_pos_of_mem hm
      simp only [CacheOp.work] at h1
      unfold Entry.work
      split <;> simp_all <;> omega
    · cases hs
  · cases hs

theorem frontTurn_lessens (b b' : Bridge) (e : Entry) (t : Tidy b) (h : e ∈ b.cache) (hs : b.frontTurn e = some b') :
    Lessens b b' := by
  have popped : ∀ (op : CacheOp) (l : List CacheOp), e.ready = true → e.waiting = op :: l →
      ({ e with waiting := e.waiting.tail } : Entry).work + op.work = e.work := by
    intro op l hr hw
    rw [work_ready e hr]
    have hr' : ({ e with waiting := e.waiting.tail } : Entry).ready = true := hr
    rw [work_ready _ hr', hw]
    simp only [List.tail_cons, opsWork_tail]
    omega
  have opPos : ∀ op : CacheOp, 3 ≤ op.work := by intro op; cases op <;> simp [CacheOp.work]
  have dirtyOf : e.ready = true → ¬ e.state = .clean → e.state = .dirty := by
    intro hr hc
    simp only [Entry.ready, Bool.and_eq_true, Bool.or_eq_true, beq_iff_eq] at hr
    exact hr.1.resolve_left hc
  unfold frontTurn at hs
  split at hs
  · next hr =>
    split at hs
    · next hf =>
      cases hs
      exact startWriteBack_work b e .other t h hf.2
    · split at hs
      · next x l hw =>
        split at hs
        · simp only [Option.some.injEq] at hs
          subst hs
          have hst : Lessens b (b.startOp e.index) := by
            unfold startOp
            split
            · next y hy =>
              have hye : y = e := by
                obtain ⟨m1, m2⟩ := entry?_mem b e.index y hy
                exact t.eq_of_index m1 h m2
              subst hye
              obtain ⟨r1, r2, r3, r4⟩ := remove_work b y t h
              have hp := popped _ l hr hw
              have := opPos (.tap x)
              refine ⟨⟨?_, ?_, r1.handles, r1.levels⟩, ⟨rfl, rfl, rfl, Or.inl rfl, ?_⟩, ?_⟩
              · simp only [List.map_cons, List.nodup_cons]
                exact ⟨r4, r1.indices⟩
              · intro p hp hc
                simp only [List.map_cons, List.mem_cons] at hc
                rcases hc with hc | hc
                · exact t.missing p hp (hc ▸ List.mem_map_of_mem h)
                · exact r1.missing p hp hc
              · simp only [dirtyCount, List.countP_cons]
                obtain ⟨l1, l2, hl⟩ := List.append_of_mem h
                have hn := t.indices
                rw [hl] at hn ⊢
                simp only [List.map_append, List.map_cons, List.nodup_append, List.nodup_cons, List.mem_map,
                  List.mem_cons] at hn
                have f1 : l1.filter (fun x => x.index != y.index) = l1 := by
                  rw [List.filter_eq_self]
                  intro a ha
                  simp only [bne_iff_ne, ne_eq]
                  intro hc
                  exact hn.2.2 a.index ⟨a, ha, rfl⟩ y.index (Or.inl rfl) hc
                have f2 : l2.filter (fun x => x.index != y.index) = l2 := by
                  rw [List.filter_eq_self]
                  intro a ha
                  simp only [bne_iff_ne, ne_eq]
                  intro hc
                  exact hn.2.1.1 ⟨a, ha, hc⟩
                rw [List.filter_append, List.filter_cons_of_neg (by simp), f1, f2]
                have hc : ({ y with waiting := y.waiting.tail } : Entry).countsDirty = y.countsDirty := rfl
                rw [hc]
                simp only [List.countP_append, List.countP_cons]
                omega
              · simp only [listWork, List.map_cons, List.sum_cons] at r3 ⊢
                omega
            · next hy =>
              have := List.find?_eq_none.mp hy e h
              simp at this
          obtain ⟨s1, s2, s3⟩ := hst
          obtain ⟨q1, q2, q3⟩ := refuseTap_work (b.startOp e.index) x e.copy.misfit s1
          exact ⟨q1, s2.trans q2, by omega⟩
        · cases hs
      · next id l hw =>
        split at hs
        · simp only [Option.some.injEq] at hs
          subst hs
          obtain ⟨p1, p2, p3, _⟩ := setEntry_work b e.index e (fun e => { e with waiting := e.waiting.tail }) t h rfl
            (fun _ => rfl) (fun _ h => h)
          have hp := popped _ l hr hw
          obtain ⟨a1, a2, a3, _⟩ := allow_work _ e.index id p1
          simp only [CacheOp.work] at hp
          exact ⟨a1, Calm.trans p2 a2, by simp only [popFront]; omega⟩
        · next hc => cases hs; exact startWriteBack_work b e _ t h (dirtyOf hr hc)
      · next id l hw =>
        split at hs
        · next n hn =>
          simp only [Option.some.injEq] at hs
          subst hs
          refine lessens_hold b e _ n id t h (fun _ => rfl) (fun _ h => h) ?_ (holdPlace_mem h hn)
          have hp := popped _ l hr hw
          have := opPos (.tableWrite id)
          omega
        · split at hs
          · next hc => cases hs; exact dropEntry_work b e t h hc
          · next hc => cases hs; exact startWriteBack_work b e _ t h (dirtyOf hr hc)
      · next l hw =>
        split at hs
        · simp only [Option.some.injEq] at hs
          subst hs
          refine lessens_setEntry b e _ t h (fun _ => rfl) (fun _ h => h) ?_
          have hp := popped _ l hr hw
          have := opPos .release
          have e1 : ({ e with waiting := e.waiting.tail, heldRelease := true } : Entry).work
            = ({ e with waiting := e.waiting.tail } : Entry).work := rfl
          omega
        · split at hs
          · next hc => cases hs; exact dropEntry_work b e t h hc
          · next hc => cases hs; exact startWriteBack_work b e _ t h (dirtyOf hr hc)
      all_goals first | cases hs | skip
      · split at hs
        · next hc => cases hs; exact startWriteBack_work b e _ t h hc.2
        · cases hs
  · split at hs
    · next hf =>
      simp only [Option.some.injEq] at hs
      subst hs
      obtain ⟨h1, h2, h3⟩ := lessens_setEntry b e (fun x => { x with state := .fetching true }) t h (fun _ => rfl)
        (fun _ h => by simp [Entry.countsDirty] at h)
        (by simp only [Entry.work, hf.1]; simp)
      exact ⟨⟨h1.indices, h1.missing, h1.handles, h1.levels⟩, ⟨h2.state, h2.settings, h2.episode, h2.held, h2.dirty⟩, h3⟩
    · cases hs

theorem turns_lessens (b b' : Bridge) (t : Tidy b) (l : List Entry) (hl : ∀ e ∈ l, e ∈ b.cache)
    (hs : b.turns l = some b') : Lessens b b' := by
  induction l with
  | nil => cases hs
  | cons e l ih =>
    unfold turns at hs
    split at hs
    · next x hx =>
      simp only [Option.some.injEq] at hs
      subst hs
      rcases Option.or_eq_some_iff.mp hx with h | h
      · exact frontTurn_lessens b x e t (hl e (by simp)) h
      · exact holdWrite_lessens b x e t (hl e (by simp)) h.2
    · exact ih (fun x hx => hl x (by simp [hx])) hs

/-! ## What else the bridge does by itself -/

/-- An index takes a free entry. -/
theorem allocate_work (b : Bridge) (n : Nat) (t : Tidy b) (hn : n ∉ b.cache.map Entry.index)
    (hm : ∃ p ∈ b.misses, p.1 = n) :
    Tidy (b.allocate n) ∧ Calm b (b.allocate n) ∧ (b.allocate n).listWork < b.listWork := by
  have split : ∀ l : List (Nat × CacheOp), (l.filter (fun p => p.1 == n)).length + (l.filter (fun p => p.1 != n)).length
      = l.length := by
    intro l
    induction l with
    | nil => rfl
    | cons a l ih =>
      by_cases h : a.1 = n
      · rw [List.filter_cons_of_pos (by simp [h]), List.filter_cons_of_neg (by simp [h])]
        simp only [List.length_cons]
        omega
      · rw [List.filter_cons_of_neg (by simp [h]), List.filter_cons_of_pos (by simp [h])]
        simp only [List.length_cons]
        omega
  refine ⟨⟨?_, ?_, t.handles, t.levels⟩, ⟨rfl, rfl, rfl, Or.inl rfl, ?_⟩, ?_⟩
  · simp only [allocate, List.map_cons, List.nodup_cons]
    exact ⟨hn, t.indices⟩
  · intro p hp hc
    simp only [allocate, List.mem_filter, bne_iff_ne, ne_eq] at hp
    simp only [allocate, List.map_cons, List.mem_cons] at hc
    rcases hc with hc | hc
    · exact hp.2 hc
    · exact t.missing p hp.1 hc
  · simp [dirtyCount, allocate, Entry.countsDirty]
  · obtain ⟨p, hp, hpn⟩ := hm
    have h1 := split b.misses
    have h2 : 0 < (b.misses.filter (fun p => p.1 == n)).length :=
      List.length_pos_of_mem (List.mem_filter.mpr ⟨hp, by simp [hpn]⟩)
    simp only [listWork, allocate, List.map_cons, List.sum_cons, Entry.work, List.length_map]
    simp
    omega

theorem serveMiss_lessens (b b' : Bridge) (t : Tidy b) (hs : b.serveMiss = some b') : Lessens b b' := by
  unfold serveMiss at hs
  split at hs
  · cases hs
  · next n op hf =>
    have hm : ∃ p ∈ b.misses, p.1 = n := ⟨(n, op), List.mem_of_find?_eq_some hf, rfl⟩
    have hn : n ∉ b.cache.map Entry.index := t.missing (n, op) (List.mem_of_find?_eq_some hf)
    split at hs
    · simp only [Option.some.injEq] at hs
      subst hs
      exact allocate_work b n t hn hm
    · split at hs
      · next e he =>
        simp only [Option.some.injEq] at hs
        subst hs
        have hmem : e ∈ b.cache := by simpa using List.mem_of_find?_eq_some he
        obtain ⟨h1, h2, h3, h4⟩ := remove_work b e t hmem
        obtain ⟨k1, k2, k3⟩ := allocate_work _ n h1 (fun h => hn (by
          simp only [List.mem_map] at h ⊢
          obtain ⟨a, ha, hi⟩ := h
          exact ⟨a, (List.mem_filter.mp ha).1, hi⟩)) hm
        exact ⟨k1, Calm.trans h2 k2, by omega⟩
      · split at hs
        · next e he =>
          simp only [Option.some.injEq] at hs
          subst hs
          have hmem : e ∈ b.cache := by simpa using List.mem_of_find?_eq_some he
          have hp := List.find?_some he
          simp only [Bool.and_eq_true, beq_iff_eq] at hp
          exact startWriteBack_work b e _ t hmem hp.2
        · cases hs

/-- What `autoStep` has to show. -/
def Ends (b b' : Bridge) : Prop := Tidy b' ∧ b'.workLeft < b.workLeft

theorem Lessens.ends {b b' : Bridge} (h : Lessens b b') : Ends b b' :=
  ⟨h.1, by have := h.2.1.restWork_le; have := h.2.2; unfold workLeft; omega⟩

theorem mustStep_ends (b b' : Bridge) (t : Tidy b) (hs : b.mustStep = some b') : Ends b b' := by
  unfold mustStep at hs
  split at hs
  · cases hs
  · next g hg =>
    have hl := t.levels g hg
    split at hs
    · next he =>
      split at hs
      · next hd =>
        simp only [Option.some.injEq] at hs
        subst hs
        refine ⟨⟨t.indices, t.missing, t.handles, t.levels⟩, ?_⟩
        have h1 : ¬ g.mustLevel ≤ b.dirtyCount := by omega
        have h2 : ({ b with episode := false } : Bridge).dirtyCount = b.dirtyCount := rfl
        simp only [workLeft, restWork, listWork, he, hg, h2, h1]
        simp
      · split at hs
        · split at hs
          · next e hf =>
            simp only [Option.some.injEq] at hs
            subst hs
            have hmem : e ∈ b.cache := by simpa using List.mem_of_find?_eq_some hf
            have hp := List.find?_some hf
            simp only [Bool.and_eq_true, beq_iff_eq] at hp
            exact Lessens.ends (startWriteBack_work b e _ t hmem hp.2)
          · cases hs
        · cases hs
    · next he =>
      split at hs
      · next hd =>
        simp only [Option.some.injEq] at hs
        subst hs
        refine ⟨⟨t.indices, t.missing, t.handles, t.levels⟩, ?_⟩
        have he' : b.episode = false := by simpa using he
        simp only [workLeft, restWork, listWork, he', hg, hd]
        simp
      · cases hs

theorem flushStep_ends (b b' : Bridge) (t : Tidy b) (hs : b.flushStep = some b') : Ends b b' := by
  unfold flushStep at hs
  split at hs
  · next c hc =>
    split at hs
    · simp only [Option.some.injEq] at hs
      subst hs
      obtain ⟨h1, h2, h3⟩ := commandDone_work b t
      have hn : b.commandDone.command.held = none := by
        simp [commandDone, hc, commandEnd]
      refine ⟨h1, ?_⟩
      have hr : b.commandDone.restWork < b.restWork := by
        have hd' : b.commandDone.dirtyCount = b.dirtyCount := by simp [dirtyCount]
        simp only [restWork, h2.state, h2.settings, h2.episode, hn, hd', hc]
        simp
      unfold workLeft
      omega
    · cases hs
  · cases hs

theorem enterPass_ends (b : Bridge) (t : Tidy b) (h : b.control.state = .stopping ∨ b.control.state = .warm) :
    Ends b b.enterPass := by
  have hl : ∀ l : List InFlight, (l.map (fun r => if r.cls = .unknown ∨ r.cls = .apertureWait ∨ r.cls = .tableWait then
      { r with cls := classify .pass none b.control.straps r.request } else r)).map todoLength = l.map todoLength := by
    intro l
    rw [List.map_map]
    apply List.map_congr_left
    intro x _
    simp only [Function.comp]
    split <;> rfl
  have hi : ∀ l : List InFlight, (l.map (fun r => if r.cls = .unknown ∨ r.cls = .apertureWait ∨ r.cls = .tableWait then
      { r with cls := classify .pass none b.control.straps r.request } else r)).map InFlight.id = l.map InFlight.id := by
    intro l
    rw [List.map_map]
    apply List.map_congr_left
    intro x _
    simp only [Function.comp]
    split <;> rfl
  have f : b.enterPass.cache = [] ∧ b.enterPass.misses = [] ∧ b.enterPass.episode = false
      ∧ b.enterPass.command = b.command ∧ b.enterPass.control.state = .pass ∧ b.enterPass.control.settings = none := by
    simp [enterPass, freeAll]
  have fi : b.enterPass.iport.inflight = b.iport.inflight.map (fun r =>
      if r.cls = .unknown ∨ r.cls = .apertureWait ∨ r.cls = .tableWait then
        { r with cls := classify .pass none b.control.straps r.request } else r) := by
    simp [enterPass, reclassify, freeAll]
  obtain ⟨f1, f2, f3, f4, f5, f6⟩ := f
  refine ⟨⟨by rw [f1]; exact List.nodup_nil, by rw [f2]; simp, by rw [fi, hi]; exact t.handles, ?_⟩, ?_⟩
  · intro g hg
    rw [f6] at hg
    cases hg
  · have e1 : b.enterPass.listWork ≤ b.listWork := by
      simp only [listWork, f1, f2, fi, hl]
      simp
    have e2 : b.enterPass.restWork < b.restWork := by
      simp only [restWork, f3, f4, f5, f6]
      rcases h with h | h <;> first | (simp [h]; done) | (simp [h]; omega)
    unfold workLeft
    omega

theorem emptyStep_ends (b b' : Bridge) (t : Tidy b) (hs : b.emptyStep = some b') : Ends b b' := by
  unfold emptyStep at hs
  split at hs
  · next h =>
    simp only [Option.some.injEq] at hs
    subst hs
    refine ⟨⟨by simp, by simp, by simpa using t.handles, ?_⟩, ?_⟩
    · intro g hg
      exact t.levels g (by simpa using hg)
    · have h1 := h.1
      simp only [workLeft, restWork, listWork, setState_frame, freeAll, dirtyCount, h1]
      simp
      cases hg : b.control.settings with
      | none => simp; omega
      | some g =>
        have := t.levels g hg
        have h0 : ¬ g.mustLevel = 0 := by omega
        simp [h0]
        omega
  · split at hs
    · next h =>
      simp only [Option.some.injEq] at hs
      subst hs
      exact enterPass_ends b t (Or.inl h.1)
    · split at hs
      · next h =>
        simp only [Option.some.injEq] at hs
        subst hs
        have t' : Tidy { b with control := { b.control with clearedPending := 0 } } :=
          ⟨t.indices, t.missing, t.handles, t.levels⟩
        exact enterPass_ends _ t' (Or.inl h.1)
      · split at hs
        · next h =>
          simp only [Option.some.injEq] at hs
          subst hs
          exact enterPass_ends b t (Or.inr h.1)
        · cases hs

/-- Each thing that the bridge does by itself leaves less to do. -/
theorem autoStep_ends (b b' : Bridge) (t : Tidy b) (hs : b.autoStep = some b') : Ends b b' := by
  unfold autoStep at hs
  rcases Option.or_eq_some_iff.mp hs with h | ⟨_, h⟩
  · exact Lessens.ends (turns_lessens b b' t _ (fun e he => by simpa using he) h)
  · rcases Option.or_eq_some_iff.mp h with h | ⟨_, h⟩
    · exact Lessens.ends (serveMiss_lessens b b' t h)
    · rcases Option.or_eq_some_iff.mp h with h | ⟨_, h⟩
      · exact mustStep_ends b b' t h
      · rcases Option.or_eq_some_iff.mp h with h | ⟨_, h⟩
        · exact flushStep_ends b b' t h
        · exact emptyStep_ends b b' t h

/-- The bound of `settle` covers the work left. -/
theorem workLeft_le_settleBound (b : Bridge) : b.workLeft ≤ b.settleBound := by
  have hops : ∀ l : List CacheOp, opsWork l ≤ 4 * l.length ∧ l.length ≤ 4 * l.length := by
    intro l
    induction l with
    | nil => simp [opsWork]
    | cons a l ih =>
      have : a.work ≤ 4 := by cases a <;> simp [CacheOp.work]
      simp only [opsWork_tail, List.length_cons]
      omega
  have hent : ∀ l : List Entry, (l.map Entry.work).sum ≤ 2 * l.length + 4 * (l.map (fun e => e.waiting.length)).sum := by
    intro l
    induction l with
    | nil => simp
    | cons e l ih =>
      have he : e.work ≤ 2 + 4 * e.waiting.length := by
        have := hops e.waiting
        unfold Entry.work
        split
        · split <;> omega
        all_goals omega
      simp only [List.map_cons, List.sum_cons, List.length_cons]
      omega
  have h1 := hent b.cache
  have h2 : b.restWork ≤ 4 := by
    unfold restWork
    split
    all_goals repeat' split
    all_goals omega
  unfold workLeft listWork settleBound
  omega

/-- With as many steps as there is work left, nothing is left; more steps change nothing. -/
theorem settleFor_ends (k : Nat) : ∀ b : Bridge, Tidy b → b.workLeft ≤ k →
    (settleFor k b).autoStep = none ∧ ∀ j, k ≤ j → settleFor j b = settleFor k b := by
  have stay : ∀ b : Bridge, b.autoStep = none → ∀ j, settleFor j b = b := by
    intro b h j
    cases j with
    | zero => rfl
    | succ j => simp [settleFor, h]
  induction k with
  | zero =>
    intro b t h
    have hn : b.autoStep = none := by
      cases ha : b.autoStep with
      | none => rfl
      | some b' => have := (autoStep_ends b b' t ha).2; omega
    exact ⟨hn, fun j _ => by rw [stay b hn j, stay b hn 0]⟩
  | succ k ih =>
    intro b t h
    cases ha : b.autoStep with
    | none => exact ⟨by rw [stay b ha]; exact ha, fun j _ => by rw [stay b ha j, stay b ha]⟩
    | some b' =>
      obtain ⟨t', hw⟩ := autoStep_ends b b' t ha
      obtain ⟨h1, h2⟩ := ih b' t' (by omega)
      refine ⟨by simpa [settleFor, ha] using h1, fun j hj => ?_⟩
      obtain ⟨i, hi⟩ : ∃ i, j = i + 1 := ⟨j - 1, by omega⟩
      subst hi
      simp only [settleFor, ha]
      exact h2 i (by omega)

end Bridge

end Sys2Proof.Machine
end

