-- ==== Sys2Proof/Laws/Steps.lean ====
section
/-! SUPPORT. What a step does, once: an event, an answer of memory, and the turn of an operation on an entry, in the terms of
Safety.lean. -/

namespace Sys2Proof.Machine

/-! ## Regions -/

/-- Two regions overlap exactly when they share a byte (R22, R126). -/
theorem Region.overlaps_meet (a b : Region) : a.overlaps b = true ↔ Meet a.base a.size b.base b.size := by
  simp only [Region.overlaps, Meet, Bool.and_eq_true, decide_eq_true_eq]
  constructor
  · intro h
    rcases Nat.le_total a.base b.base with h1 | h1
    · exact ⟨b.base, by omega, by omega, by omega, by omega⟩
    · exact ⟨a.base, by omega, by omega, by omega, by omega⟩
  · rintro ⟨x, h⟩
    omega

/-- A region is clear of the anchor, the aperture and the tables exactly when it shares no byte with them (R17, R126). -/
theorem Settings.clearOf_iff (g : Settings) (straps : Fin 16) (a n : Nat) :
    g.clearOf straps ⟨a, n⟩ = true ↔ ClearOfRegions g straps a n := by
  simp [Settings.clearOf, Settings.regions, ClearOfRegions, anchorRegion, anchorAddress, Settings.aperture,
    Settings.structureTable, Settings.moveTable, ← Bool.not_eq_true, Region.overlaps_meet]

/-! ## Events and answers -/

/-- An event that takes place leaves its effect and what the bridge then does by itself. -/
theorem State.event_settle (s : State) (f : Bridge → Option Bridge) (b : Bridge) (h : f s.chip = some b) :
    s.event (fun x => (f x).map Bridge.settle) = After s b := by
  simp [State.event, h, After]

/-- An event that cannot take place leaves the state as it is (log 7). -/
theorem State.event_none (s : State) (f : Bridge → Option Bridge) (h : f s.chip = none) : s.event f = .next s := by
  simp [State.event, h]

/-- An event leaves memory and the queue as they are. -/
theorem State.event_frame (s s' : State) (f : Bridge → Option Bridge) (h : s.event f = .next s') :
    s'.mem = s.mem ∧ s'.pending = s.pending := by
  unfold State.event at h
  split at h <;> cases h <;> simp

/-- An answer that is due leaves memory as `memAfter` says, and the effect on the bridge that received it (R178). -/
theorem State.answered_due (s : State) (id : Nat) (ok keeps : Bool) (accepts : Access → Bool)
    (f : MemRequest → List Byte → Bridge → Bridge) (q : MemRequest) (h : AnswerDue s id accepts q) :
    s.answered id ok keeps accepts (fun q d b => (f q d b).settle)
      = AfterAnswer s q ok keeps (f q (Memory.readBytes s.mem q.addr q.length) (s.chip.received id)) := by
  simp [State.answered, h.1, h.2, AfterAnswer, Bridge.received, Bridge.draw]

/-- An answer leaves the queue as it is, and memory in its canonical form. -/
theorem State.answered_frame (s s' : State) (id : Nat) (ok keeps : Bool) (accepts : Access → Bool)
    (f : MemRequest → List Byte → Bridge → Bridge) (h : s.answered id ok keeps accepts f = .next s') :
    s'.pending = s.pending ∧ (s'.mem = s.mem ∨ ∃ q ∈ s.chip.mport.outstanding, s'.mem = s.memAfter q ok keeps) := by
  unfold State.answered at h
  split at h
  · cases h
    simp
  · next q hq =>
    cases h
    exact ⟨rfl, Or.inr ⟨q, List.mem_of_find?_eq_some hq, rfl⟩⟩

/-! ## The turn of an operation -/

namespace Bridge

/-- The entry that holds an index has that index. -/
theorem entry?_index (b : Bridge) (n : Nat) (e : Entry) (h : b.entry? n = some e) : e.index = n := by
  have := List.find?_some h
  simpa using this

/-- The first waiting operation leaves its list, and the entry goes to the front of the recency list (R104, R105). -/
theorem startOp_eq (b : Bridge) (n : Nat) (e : Entry) (h : b.entry? n = some e) : b.startOp n = b.applied n e id := by
  simp [startOp, h, applied]

/-- A change of the entry whose operation is applied. -/
theorem applied_setEntry (b : Bridge) (n : Nat) (e : Entry) (f g : Entry → Entry)
    (hf : (f { e with waiting := e.waiting.tail }).index = n) :
    (b.applied n e f).setEntry n g = b.applied n e (fun x => g (f x)) := by
  have hrest : ∀ l : List Entry, (l.filter (fun x => x.index != n)).map (fun x => if x.index = n then g x else x)
      = l.filter (fun x => x.index != n) := by
    intro l
    conv => rhs; rw [← List.map_id (l.filter _)]
    apply List.map_congr_left
    intro x hx
    have := (List.mem_filter.mp hx).2
    simp at this
    simp [this]
  simp [applied, setEntry, hf, hrest]

/-- An operation whose turn it is stands in front of its entry (R105). -/
theorem frontOp_turn (b : Bridge) (n : Nat) (e : Entry) (op : CacheOp) (h : b.entry? n = some e) (hr : e.ready = true)
    (hw : e.waiting.head? = some op) : b.frontOp n op = some e := by
  simp [frontOp, h, hr, hw]

/-- An operation of a party that asked before is applied when its turn has come (R105). -/
theorem askOrApply_turn (b : Bridge) (n : Nat) (e : Entry) (op : CacheOp) (mark : Bridge → Bridge)
    (apply : Entry → Bridge → Bridge) (h : b.entry? n = some e) (hr : e.ready = true)
    (hw : e.waiting.head? = some op) :
    b.askOrApply n op true mark apply = some (apply e (b.applied n e id)) := by
  simp [askOrApply, frontOp_turn b n e op h hr hw, startOp_eq b n e h]

/-- A tap whose turn it is, and whose checks pass, has its operation's effect (R26, R27). -/
theorem tapStep_turn (b : Bridge) (n : Nat) (k : TapKind) (t : Tap) (e : Entry)
    (effect : Tap → Descriptor → Entry → Bridge → Bridge) (h : TapTurn b n k t e) :
    b.tapStep n k effect = some (effect t e.copy e (b.applied n e id)) := by
  obtain ⟨h1, h2, h3, h4, h5⟩ := h
  obtain ⟨l, hl⟩ : ∃ l, e.waiting = .tap t :: l := by
    cases hw : e.waiting with
    | nil => simp [hw] at h3
    | cons x l => exact ⟨l, by simp [hw] at h3; simp [h3]⟩
  simp [tapStep, h1, hl, h2, h4, h5, startOp_eq b n e h1]

/-- A tap whose turn it is, and whose fourth or fifth check fails, is refused by it (R31, R32). -/
theorem tapStep_gated (b : Bridge) (n : Nat) (k : TapKind) (t : Tap) (e : Entry) (r : Reason)
    (effect : Tap → Descriptor → Entry → Bridge → Bridge) (h1 : b.entry? n = some e) (h2 : e.ready = true)
    (h3 : e.waiting.head? = some (.tap t)) (h4 : e.copy.fit t = some k) (h5 : e.copy.gate n k t.initiator = some r) :
    b.tapStep n k effect = some ((b.applied n e id).refuseGated n e.copy t r) := by
  obtain ⟨l, hl⟩ : ∃ l, e.waiting = .tap t :: l := by
    cases hw : e.waiting with
    | nil => simp [hw] at h3
    | cons x l => exact ⟨l, by simp [hw] at h3; simp [h3]⟩
  simp [tapStep, h1, hl, h2, h4, h5, startOp_eq b n e h1]

/-- The command held, still waiting for its effect (R164). -/
theorem judgedCommand_holds (b : Bridge) (op : Byte) (c : CommandItem) (h : Holds b op c) :
    b.judgedCommand op = some c := by
  obtain ⟨h1, h2, h3, h4⟩ := h
  simp [judgedCommand, h1, h2, h3, h4]

/-- A command whose turn it is, on a structure whose kind is not OFF, has its own effect (R164). -/
theorem commandStep_turn (b : Bridge) (op : Byte) (n : Nat) (c : CommandItem) (e : Entry)
    (effect : CommandItem → Entry → Bridge → Bridge) (h : CommandTurn b op n c e) :
    b.commandStep op n effect = some (effect c e (b.applied n e id)) := by
  obtain ⟨h1, h2, h3, h4, h5, h6⟩ := h
  simp [commandStep, judgedCommand_holds b op c h1, h2, frontOp_turn b n e .command h3 h4 h5, h6, startOp_eq b n e h3]

/-- An engine operation whose turn it is has its effect (R105). -/
theorem engineStep_turn (b : Bridge) (n : Nat) (op : EngineOp) (e : Entry) (mark : Bridge → Bridge)
    (apply : Entry → Bridge → Bridge) (h : EngineTurn b n op e) :
    b.askOrApply n (.engine op) true mark apply = some (apply e (b.applied n e id)) :=
  askOrApply_turn b n e (.engine op) mark apply h.1 h.2.1 h.2.2

/-- The entry of the index whose operation was applied. -/
theorem applied_writeCopy (b : Bridge) (n : Nat) (e : Entry) (d : Descriptor) (h : b.entry? n = some e) :
    (b.applied n e id).writeCopy n d = b.applied n e (fun x =>
      { x with copy := d, state := if d = e.copy then e.state else .dirty }) := by
  have hi := entry?_index b n e h
  unfold writeCopy
  rw [applied_setEntry b n e id _ hi]
  unfold applied Entry.withCopy
  split
  · next hd =>
    subst hd
    simp
  · next hd => simp [hd]

/-! ## What becomes of operations and of those they serve, in the terms of Safety.lean -/

/-- A halt that is not yet one (R14). -/
theorem halt_eq (b : Bridge) (n : Nat) (d : Descriptor) (cause : Byte) :
    b.halt n d cause = if d.state = stHalted then b else
      (b.writeCopy n { d with state := stHalted, cause := cause }).notify (faultNotice n (causeReason cause) d.level false) := by
  unfold halt Descriptor.haltedBy Descriptor.isHalted Descriptor.haltValue
  by_cases h : d.state = stHalted <;> simp [h]

theorem dropOldest_eq (b : Bridge) : b.dropOldest = b.dropsFirst := by
  unfold dropOldest dropsFirst dequeueNotice
  split
  · next h => simp only [h]
  · next x rest h => simp only [h, List.tail_cons]

theorem storedFor_eq (b : Bridge) (p : Party) : b.storedFor p = b.storesFor p := by cases p <;> rfl

theorem tookFor_eq (b : Bridge) (p : Party) (item : List Byte) : b.tookFor p item = b.takesFor p item := by cases p <;> rfl

theorem itemFailed_eq (b : Bridge) (n : Nat) (d : Descriptor) (p : Party) : b.itemFailed n d p = b.failsFor n d p := by
  cases p with
  | noticeWriter => simp only [itemFailed, halt_eq, dropOldest_eq]; rfl
  | _ => simp only [itemFailed, halt_eq]; rfl

theorem fetchFailedFor_eq : fetchFailedFor = fetchFails := by
  funext n b op
  cases op with
  | engine o => cases o <;> rfl
  | noticePut => exact dropOldest_eq b
  | _ => rfl

theorem dropEntry_eq (b : Bridge) (e : Entry) : b.dropEntry e =
    e.waiting.foldl (goesOn e.index) { b with cache := b.cache.filter (fun x => x.index != e.index) } := by
  have h : orphan e.index = goesOn e.index := by
    funext b op
    cases op <;> rfl
  simp only [dropEntry, h]

end Bridge

end Sys2Proof.Machine
end

