-- ==== Sys2Proof/Laws/Cache.lean ====
section
/-! SUPPORT. What each operation of the record cache leaves of the laws of the device (R40, R41, R66, R69, R90): of the entries,
of the indices, and of what the move engine relies on. -/

namespace Sys2Proof.Machine

open Bridge

/-! ## The parts of a bridge that the laws look at -/

/-- No index is held or claimed twice, and no index of the miss list is held (R102, R106, R108). -/
structure Apart (b : Bridge) : Prop where
  nodup : (b.cache.map Entry.index ++ b.cache.filterMap Entry.claim).Nodup
  missing : ∀ p ∈ b.misses, p.1 ∉ b.cache.map Entry.index

theorem Apart.ofCacheOk {b : Bridge} (h : CacheOk b) : Apart b := ⟨h.2.1, h.2.2⟩

theorem Apart.indices {b : Bridge} (h : Apart b) : (b.cache.map Entry.index).Nodup := (List.nodup_append.mp h.nodup).1

theorem eq_of_index_nodup {l : List Entry} (hn : (l.map Entry.index).Nodup) {x y : Entry} (hx : x ∈ l) (hy : y ∈ l)
    (h : x.index = y.index) : x = y := by
  induction l with
  | nil => cases hx
  | cons a l ih =>
    simp only [List.map_cons, List.nodup_cons, List.mem_map, not_exists, not_and] at hn
    rcases List.mem_cons.mp hx with h1 | h1 <;> rcases List.mem_cons.mp hy with h2 | h2
    · rw [h1, h2]
    · subst h1; exact absurd h.symm (hn.1 y h2)
    · subst h2; exact absurd h (hn.1 x h1)
    · exact ih hn.2 h1 h2

theorem Apart.eq {b : Bridge} (h : Apart b) {x y : Entry} (hx : x ∈ b.cache) (hy : y ∈ b.cache) (hi : x.index = y.index) :
    x = y := eq_of_index_nodup h.indices hx hy hi

/-- The entry of an index, of which there is one. -/
theorem Apart.entry? {b : Bridge} (h : Apart b) {e : Entry} (he : e ∈ b.cache) : b.entry? e.index = some e := by
  cases hf : b.entry? e.index with
  | none => exact absurd (List.find?_eq_none.mp hf e he) (by simp)
  | some x =>
    obtain ⟨hm, hi⟩ := entry?_mem b _ x hf
    rw [h.eq hm he hi]

/-- Every entry obeys its law. -/
def Entries (b : Bridge) : Prop := ∀ e ∈ b.cache, EntryLaw e

/-- The operations of a run stand where the engine acts. -/
def Bridge.WaitsAt (b : Bridge) (t : Option Nat) : Prop :=
  (∀ p ∈ b.misses, p.2.ofRun = true → t = some p.1) ∧ ∀ e ∈ b.cache, 0 < e.runs → t = some e.index

/-- The part of the engine's law that does not look at the operations in the cache. -/
structure StepLaw (b : Bridge) : Prop where
  idle : b.engine.state = .idle ∨ b.engine.state = .paused → b.engine.step = .none
  rest : b.control.state = .run ∨ b.control.state = .quiet
    ∨ (b.control.state = .stopping ∧ b.control.stopStage = .finishing) ∨ b.engine.step = .none
  source : b.engine.step = .pinDestination ∨ b.engine.step.inItem = true → ∀ n, b.moveCopy.srcStruct = some n → b.Pinned n
  destination : b.engine.step.inItem = true → ∀ n, b.moveCopy.dstStruct = some n → b.Pinned n
  notNotices : b.engine.step = .pinSource ∨ b.engine.step = .pinDestination ∨ b.engine.step.inItem = true →
    b.moveCopy.dstStruct ≠ some 1
  spans : (b.engine.step = .spanRead → b.moveCopy.srcStruct = none)
    ∧ (b.engine.step = .spanWrite ∨ b.engine.disposal = some .write → b.moveCopy.dstStruct = none)
  fresh : b.engine.step = .readDescriptor ∨ b.engine.step = .pinSource ∨ b.engine.step = .pinDestination →
    b.engine.disposal = none
  reserved : b.engine.disposal = some .reserved →
    (b.engine.step = .take ∨ b.engine.step = .spanRead ∨ b.engine.step = .put)
      ∧ ∀ n, b.moveCopy.dstStruct = some n → ∃ e ∈ b.cache, e.index = n ∧ e.pin = true ∧ e.reservation = true

theorem EngineLaw.stepLaw {b : Bridge} (h : EngineLaw b) : StepLaw b :=
  ⟨h.idle, h.rest, h.source, h.destination, h.notNotices, h.spans, h.fresh, h.reserved⟩

theorem StepLaw.engineLaw {b : Bridge} (h : StepLaw b) (one : b.runs ≤ (if b.engine.asked then 1 else 0))
    (waits : b.WaitsAt b.target) (access : ∀ e ∈ b.cache, ∀ w, e.busy = some w → w.ofRun = true →
      (w.work.takes = true ∧ b.engine.step = .take) ∨ (w.work.puts = true ∧ b.engine.step = .put)) : EngineLaw b :=
  ⟨one, waits, access, h.idle, h.rest, h.source, h.destination, h.notNotices, h.spans, h.fresh, h.reserved⟩

/-! ## Sums and counts -/

theorem sum_map_le {α : Type} (l : List α) (f g : α → Nat) (h : ∀ x ∈ l, f x ≤ g x) : (l.map f).sum ≤ (l.map g).sum := by
  induction l with
  | nil => exact Nat.le_refl _
  | cons a l ih =>
    have h1 := h a List.mem_cons_self
    have h2 := ih (fun x hx => h x (List.mem_cons_of_mem _ hx))
    simp only [List.map_cons, List.sum_cons]
    omega

theorem sum_eq_zero {l : List Nat} (h : l.sum = 0) : ∀ x ∈ l, x = 0 := by
  induction l with
  | nil => intro x hx; cases hx
  | cons a l ih =>
    simp only [List.sum_cons] at h
    intro x hx
    rcases List.mem_cons.mp hx with h1 | h1
    · omega
    · exact ih (by omega) x h1

theorem runs_eq_zero {b : Bridge} : b.runs = 0 ↔ (∀ p ∈ b.misses, p.2.ofRun = false) ∧ ∀ e ∈ b.cache, e.runs = 0 := by
  constructor
  · intro h
    have h1 : b.misses.countP (fun p => p.2.ofRun) = 0 := by simp only [Bridge.runs] at h; omega
    have h2 : (b.cache.map Entry.runs).sum = 0 := by simp only [Bridge.runs] at h; omega
    refine ⟨?_, fun e he => sum_eq_zero h2 _ (List.mem_map_of_mem he)⟩
    intro p hp
    simpa using List.countP_eq_zero.mp h1 p hp
  · intro ⟨h1, h2⟩
    have h3 : b.misses.countP (fun p => p.2.ofRun) = 0 := List.countP_eq_zero.mpr (by intro p hp; simp [h1 p hp])
    have h4 : (b.cache.map Entry.runs).sum ≤ (b.cache.map (fun _ => 0)).sum :=
      sum_map_le _ _ _ (fun e he => Nat.le_of_eq (h2 e he))
    have h5 : ∀ l : List Entry, (l.map (fun _ => 0)).sum = 0 := by
      intro l
      induction l with
      | nil => rfl
      | cons a l ih => simpa using ih
    have := h5 b.cache
    simp only [Bridge.runs]
    omega

theorem waitsAt_of_zero {b : Bridge} (h : b.runs = 0) (t : Option Nat) : b.WaitsAt t := by
  obtain ⟨h1, h2⟩ := runs_eq_zero.mp h
  refine ⟨?_, ?_⟩
  · intro p hp hr
    rw [h1 p hp] at hr
    cases hr
  · intro e he hr
    rw [h2 e he] at hr
    omega

/-- No access of a run is in progress when none of its operations stands in the cache. -/
theorem no_access {b : Bridge} (h : b.runs = 0) : ∀ e ∈ b.cache, ∀ w, e.busy = some w → w.ofRun = false := by
  intro e he w hb
  have := (runs_eq_zero.mp h).2 e he
  simp only [Entry.runs, hb, Option.any_some] at this
  cases hw : w.ofRun with
  | false => rfl
  | true => simp [hw] at this

theorem EngineLaw.runs_of_target {b : Bridge} (h : EngineLaw b) (ht : b.target = none) : b.runs = 0 := by
  rw [runs_eq_zero]
  refine ⟨fun p hp => ?_, fun e he => ?_⟩
  · cases hr : p.2.ofRun with
    | false => rfl
    | true => have := h.waits.1 p hp hr; rw [ht] at this; cases this
  · rcases Nat.eq_zero_or_pos e.runs with h0 | h0
    · exact h0
    · have := h.waits.2 e he h0; rw [ht] at this; cases this

theorem EngineLaw.runs_of_asked {b : Bridge} (h : EngineLaw b) (ht : b.engine.asked = false) : b.runs = 0 := by
  have := h.one
  simp [ht] at this
  exact this

/-- With no operation of the run in the cache, the engine's law is the part about its step. -/
theorem StepLaw.ofRest {b : Bridge} (h : StepLaw b) (hr : b.runs = 0) : EngineLaw b :=
  h.engineLaw (by omega) (waitsAt_of_zero hr _) (fun e he w hb hw => by
    rw [no_access hr e he w hb] at hw; cases hw)

/-! ## What an operation on the cache keeps -/

/-- What an operation on the cache leaves of what the engine relies on, when it adds at most `k` operations of the run, on
structure `n`. -/
structure KeptBy (k n : Nat) (b b' : Bridge) : Prop where
  engine : b'.engine = b.engine
  state : b'.control.state = b.control.state
  stage : b'.control.stopStage = b.control.stopStage
  runs : b'.runs ≤ b.runs + k
  waits : ∀ t, b.WaitsAt t → (0 < k → t = some n) → b'.WaitsAt t
  pins : ∀ e ∈ b.cache, e.pin = true → ∃ e' ∈ b'.cache, e'.index = e.index ∧ e'.pin = true
    ∧ (e.reservation = true → e'.reservation = true)
  access : ∀ e' ∈ b'.cache, ∀ w, e'.busy = some w → w.ofRun = true →
    ∃ e ∈ b.cache, ∃ v, e.busy = some v ∧ v.ofRun = true ∧ v.work.takes = w.work.takes ∧ v.work.puts = w.work.puts

/-- A step of the cache: the entries stay apart and lawful, and the engine is served. -/
structure Goes (k n : Nat) (b b' : Bridge) : Prop extends KeptBy k n b b' where
  apart : Apart b'
  entries : Entries b'

theorem KeptBy.trans {k j n : Nat} {a b c : Bridge} (h : KeptBy k n a b) (g : KeptBy j n b c) : KeptBy (k + j) n a c where
  engine := g.engine.trans h.engine
  state := g.state.trans h.state
  stage := g.stage.trans h.stage
  runs := by have := h.runs; have := g.runs; omega
  waits := fun t ht hk => g.waits t (h.waits t ht (fun x => hk (by omega))) (fun x => hk (by omega))
  pins := fun e he hp => by
    obtain ⟨x, hx, h1, h2, h3⟩ := h.pins e he hp
    obtain ⟨y, hy, g1, g2, g3⟩ := g.pins x hx h2
    exact ⟨y, hy, g1.trans h1, g2, fun r => g3 (h3 r)⟩
  access := fun e he w hb hw => by
    obtain ⟨x, hx, v, h1, h2, h3, h4⟩ := g.access e he w hb hw
    obtain ⟨y, hy, u, g1, g2, g3, g4⟩ := h.access x hx v h1 h2
    exact ⟨y, hy, u, g1, g2, g3.trans h3, g4.trans h4⟩

theorem Goes.trans {k j n : Nat} {a b c : Bridge} (h : Goes k n a b) (g : Goes j n b c) : Goes (k + j) n a c :=
  ⟨h.toKeptBy.trans g.toKeptBy, g.apart, g.entries⟩

theorem Goes.at {n m : Nat} {a b : Bridge} (h : Goes 0 n a b) : Goes 0 m a b :=
  ⟨⟨h.engine, h.state, h.stage, h.runs, fun t ht _ => h.waits t ht (fun y => by omega), h.pins, h.access⟩, h.apart, h.entries⟩

theorem moveCopy_congr {b b' : Bridge} (h : b'.engine = b.engine) : b'.moveCopy = b.moveCopy := by
  simp [moveCopy, h]

theorem target_congr {b b' : Bridge} (h : b'.engine = b.engine) : b'.target = b.target := by
  simp [target, moveCopy, h]

/-- What serves the engine keeps the law of its step. -/
theorem KeptBy.stepLaw {k n : Nat} {b b' : Bridge} (g : KeptBy k n b b') (h : StepLaw b) : StepLaw b' := by
  have hm := moveCopy_congr g.engine
  have pinned : ∀ n, b.Pinned n → b'.Pinned n := by
    rintro n ⟨e, he, hi, hp⟩
    obtain ⟨x, hx, h1, h2, _⟩ := g.pins e he hp
    exact ⟨x, hx, h1.trans hi, h2⟩
  refine ⟨?_, ?_, ?_, ?_, ?_, ?_, ?_, ?_⟩
  · rw [g.engine]; exact h.idle
  · rw [g.engine, g.state, g.stage]; exact h.rest
  · rw [g.engine, hm]; exact fun hs n hn => pinned n (h.source hs n hn)
  · rw [g.engine, hm]; exact fun hs n hn => pinned n (h.destination hs n hn)
  · rw [g.engine, hm]; exact h.notNotices
  · rw [g.engine, hm]; exact h.spans
  · rw [g.engine]; exact h.fresh
  · rw [g.engine, hm]
    intro hd
    obtain ⟨h1, h2⟩ := h.reserved hd
    refine ⟨h1, fun n hn => ?_⟩
    obtain ⟨e, he, hi, hp, hr⟩ := h2 n hn
    obtain ⟨x, hx, g1, g2, g3⟩ := g.pins e he hp
    exact ⟨x, hx, g1.trans hi, g2, g3 hr⟩

/-- What serves the engine, and hands it nothing, keeps its law. -/
theorem KeptBy.engineLaw {n : Nat} {b b' : Bridge} (g : KeptBy 0 n b b') (h : EngineLaw b) : EngineLaw b' := by
  have hw := h.waits
  refine (g.stepLaw (EngineLaw.stepLaw h)).engineLaw ?_ ?_ ?_
  · rw [g.engine]; exact Nat.le_trans g.runs h.one
  · rw [target_congr g.engine]; exact g.waits _ hw (fun x => absurd x (by omega))
  · intro e he w hb hr
    obtain ⟨x, hx, v, h1, h2, h3, h4⟩ := g.access e he w hb hr
    rw [g.engine, ← h3, ← h4]
    exact h.access x hx v h1 h2

/-- The cache and the engine are in order. -/
structure Sound (b : Bridge) : Prop where
  apart : Apart b
  entries : Entries b
  engine : EngineLaw b

theorem Sound.structuresOk {b : Bridge} (h : Sound b) : StructuresOk b := ⟨h.entries, h.engine⟩

theorem Sound.of {b : Bridge} (h : CacheOk b) (g : StructuresOk b) : Sound b := ⟨Apart.ofCacheOk h, g.entries, g.engine⟩

theorem Goes.sound {n : Nat} {b b' : Bridge} (g : Goes 0 n b b') (h : Sound b) : Sound b' :=
  ⟨g.apart, g.entries, g.toKeptBy.engineLaw h.engine⟩

/-! ## Changes beside the cache and the engine -/

/-- Of what the laws look at, nothing changes. -/
structure Same (b b' : Bridge) : Prop where
  cache : b'.cache = b.cache
  misses : b'.misses = b.misses
  engine : b'.engine = b.engine
  state : b'.control.state = b.control.state
  stage : b'.control.stopStage = b.control.stopStage

theorem Same.refl (b : Bridge) : Same b b := ⟨rfl, rfl, rfl, rfl, rfl⟩

theorem Same.trans {a b c : Bridge} (h : Same a b) (g : Same b c) : Same a c :=
  ⟨g.cache.trans h.cache, g.misses.trans h.misses, g.engine.trans h.engine, g.state.trans h.state, g.stage.trans h.stage⟩

/-- The entries change their order at most. -/
theorem perm_goes {b b' : Bridge} (n : Nat) (hc : b'.cache.Perm b.cache) (hm : b'.misses = b.misses)
    (h1 : b'.engine = b.engine) (h2 : b'.control.state = b.control.state) (h3 : b'.control.stopStage = b.control.stopStage)
    (ha : Apart b) (he : Entries b) : Goes 0 n b b' where
  engine := h1
  state := h2
  stage := h3
  runs := by
    simp only [Bridge.runs, hm]
    have := (hc.map Entry.runs).sum_nat
    omega
  waits := fun t ht _ => ⟨by rw [hm]; exact ht.1, fun e he => ht.2 e (hc.mem_iff.mp he)⟩
  pins := fun e he hp => ⟨e, hc.mem_iff.mpr he, rfl, hp, id⟩
  access := fun e he w hb hw => ⟨e, hc.mem_iff.mp he, w, hb, hw, rfl, rfl⟩
  apart := ⟨((hc.map Entry.index).append (hc.filterMap Entry.claim)).nodup_iff.mpr ha.nodup, by
    rw [hm]
    intro p hp hx
    exact ha.missing p hp ((hc.map Entry.index).mem_iff.mp hx)⟩
  entries := fun e hm => he e (hc.mem_iff.mp hm)

theorem Same.goes {b b' : Bridge} (h : Same b b') (ha : Apart b) (he : Entries b) (n : Nat) : Goes 0 n b b' :=
  perm_goes n (List.Perm.of_eq h.cache) h.misses h.engine h.state h.stage ha he

theorem Same.sound {b b' : Bridge} (g : Same b b') (h : Sound b) : Sound b' :=
  (g.goes h.apart h.entries 0).sound h

theorem Goes.refl {b : Bridge} (ha : Apart b) (he : Entries b) (n : Nat) : Goes 0 n b b := (Same.refl b).goes ha he n

/-! ## Changes of entries -/

/-- An entry that an operation changes keeps what the engine relies on. -/
structure Retains (e e' : Entry) : Prop where
  index : e'.index = e.index
  claim : e'.claim = none ∨ e'.claim = e.claim
  runs : e'.runs ≤ e.runs
  pin : e.pin = true → e'.pin = true ∧ (e.reservation = true → e'.reservation = true)
  busy : ∀ w, e'.busy = some w → w.ofRun = true →
    ∃ v, e.busy = some v ∧ v.ofRun = true ∧ v.work.takes = w.work.takes ∧ v.work.puts = w.work.puts

/-- An entry that an operation changes keeps what the laws and the engine rely on. -/
structure Keeps (e e' : Entry) : Prop extends Retains e e' where
  law : EntryLaw e'

theorem Retains.refl (e : Entry) : Retains e e :=
  ⟨rfl, Or.inr rfl, Nat.le_refl _, fun hp => ⟨hp, id⟩, fun w hb hw => ⟨w, hb, hw, rfl, rfl⟩⟩

theorem Keeps.refl {e : Entry} (h : EntryLaw e) : Keeps e e := ⟨Retains.refl e, h⟩

theorem claims_sublist (f : Entry → Entry) (l : List Entry) (h : ∀ e ∈ l, (f e).claim = none ∨ (f e).claim = e.claim) :
    ((l.map f).filterMap Entry.claim).Sublist (l.filterMap Entry.claim) := by
  induction l with
  | nil => exact List.Sublist.refl _
  | cons a l ih =>
    have ih := ih (fun e he => h e (List.mem_cons_of_mem _ he))
    simp only [List.map_cons, List.filterMap_cons]
    rcases h a List.mem_cons_self with h1 | h1
    · rw [h1]
      cases a.claim with
      | none => exact ih
      | some _ => exact ih.cons _
    · rw [h1]
      cases a.claim with
      | none => exact ih
      | some _ => exact ih.cons_cons _

theorem indices_map (f : Entry → Entry) (l : List Entry) (h : ∀ e ∈ l, (f e).index = e.index) :
    (l.map f).map Entry.index = l.map Entry.index := by
  rw [List.map_map]
  exact List.map_congr_left h

/-- Every entry is changed, in what the engine does not rely on. -/
theorem map_kept {b b' : Bridge} (f : Entry → Entry) (n : Nat) (hc : b'.cache = b.cache.map f) (hm : b'.misses = b.misses)
    (h1 : b'.engine = b.engine) (h2 : b'.control.state = b.control.state) (h3 : b'.control.stopStage = b.control.stopStage)
    (ha : Apart b) (h : ∀ e ∈ b.cache, Retains e (f e)) : KeptBy 0 n b b' ∧ Apart b' := by
  have hi := indices_map f b.cache (fun e he => (h e he).index)
  refine ⟨⟨h1, h2, h3, ?_, ?_, ?_, ?_⟩, ⟨?_, ?_⟩⟩
  · have := sum_map_le b.cache (fun e => (f e).runs) Entry.runs (fun e he => (h e he).runs)
    have h4 : (b'.cache.map Entry.runs) = b.cache.map (fun e => (f e).runs) := by rw [hc, List.map_map]; rfl
    simp only [Bridge.runs, hm, h4]
    omega
  · intro t ht _
    refine ⟨by rw [hm]; exact ht.1, fun e he hr => ?_⟩
    rw [hc] at he
    obtain ⟨x, hx, rfl⟩ := List.mem_map.mp he
    have := (h x hx).runs
    rw [(h x hx).index]
    exact ht.2 x hx (by omega)
  · intro e he hp
    exact ⟨f e, by rw [hc]; exact List.mem_map_of_mem he, (h e he).index, ((h e he).pin hp).1, ((h e he).pin hp).2⟩
  · intro e he w hb hw
    rw [hc] at he
    obtain ⟨x, hx, rfl⟩ := List.mem_map.mp he
    obtain ⟨v, hv⟩ := (h x hx).busy w hb hw
    exact ⟨x, hx, v, hv⟩
  · rw [hc, hi]
    exact List.Nodup.sublist ((List.Sublist.refl _).append (claims_sublist f b.cache (fun e he => (h e he).claim))) ha.nodup
  · rw [hc, hi, hm]
    exact ha.missing

/-- Every entry is changed. -/
theorem map_goes {b b' : Bridge} (f : Entry → Entry) (n : Nat) (hc : b'.cache = b.cache.map f) (hm : b'.misses = b.misses)
    (h1 : b'.engine = b.engine) (h2 : b'.control.state = b.control.state) (h3 : b'.control.stopStage = b.control.stopStage)
    (ha : Apart b) (h : ∀ e ∈ b.cache, Keeps e (f e)) : Goes 0 n b b' := by
  obtain ⟨g1, g2⟩ := map_kept f n hc hm h1 h2 h3 ha (fun e he => (h e he).toRetains)
  refine ⟨g1, g2, fun e he => ?_⟩
  rw [hc] at he
  obtain ⟨x, hx, rfl⟩ := List.mem_map.mp he
  exact (h x hx).law

/-- One entry is changed. -/
theorem setEntry_goes {b : Bridge} (f : Entry → Entry) (i n : Nat) (ha : Apart b) (he : Entries b)
    (h : ∀ e ∈ b.cache, e.index = i → Keeps e (f e)) : Goes 0 n b (b.setEntry i f) := by
  refine map_goes (fun e => if e.index = i then f e else e) n rfl rfl rfl rfl rfl ha ?_
  intro e hm
  split
  · next hi => exact h e hm hi
  · exact Keeps.refl (he e hm)

/-- The law of an entry looks at its index, state, working copy, pin, reservation and access only. -/
theorem EntryLaw.congr {e e' : Entry} (h : EntryLaw e) (h1 : e'.index = e.index) (h2 : e'.state = e.state)
    (h3 : e'.copy = e.copy) (h4 : e'.pin = e.pin) (h5 : e'.reservation = e.reservation) (h6 : e'.busy = e.busy) :
    EntryLaw e' := by
  have hc : e'.claim = e.claim := by simp [Entry.claim, h2]
  exact ⟨by rw [h2, h4, h5, h6]; exact h.fetching, by rw [hc, h4]; exact h.claimed, by rw [h1, h2, h3, h5]; exact h.copy,
    by rw [h3, h5, h6]; exact h.access, by rw [h3, h4]; exact h.pinned, by rw [h1, h3, h5]; exact h.reserved⟩

/-- An entry that changes in its lists and marks only, and waits for no more operations of the run. -/
theorem Keeps.lists {e e' : Entry} (h : EntryLaw e) (h1 : e'.index = e.index) (h2 : e'.state = e.state)
    (h3 : e'.copy = e.copy) (h4 : e'.pin = e.pin) (h5 : e'.reservation = e.reservation) (h6 : e'.busy = e.busy)
    (h7 : e'.waiting.countP CacheOp.ofRun ≤ e.waiting.countP CacheOp.ofRun) : Keeps e e' where
  index := h1
  claim := Or.inr (by simp [Entry.claim, h2])
  law := h.congr h1 h2 h3 h4 h5 h6
  runs := by simp only [Entry.runs, h6]; omega
  pin := fun hp => ⟨h4.trans hp, fun hr => h5.trans hr⟩
  busy := fun w hb hw => ⟨w, by rw [← h6]; exact hb, hw, rfl, rfl⟩

/-- An entry that holds a working copy changes its state, its copy, its lists or its access, and keeps its pin and
reservation. -/
theorem Keeps.copied {e e' : Entry} (h : EntryLaw e) (h1 : e'.index = e.index)
    (hs' : e'.state.isFetching = false) (h2 : e'.claim = none ∨ e'.claim = e.claim) (h4 : e'.pin = e.pin)
    (h5 : e'.reservation = e.reservation)
    (copy : e'.copy.descriptorHalt = false → CopyLaw e.index e'.copy e.reservation)
    (access : ∀ w, e'.busy = some w → AccessLaw e'.copy e.reservation w)
    (pinned : e.pin = true → e'.copy.kind ≠ kindOff ∧ e'.copy.kind ≠ kindTally)
    (reserved : e.reservation = true → e'.copy.descriptorHalt = false)
    (runs : e'.runs ≤ e.runs)
    (busy : ∀ w, e'.busy = some w → w.ofRun = true →
      ∃ v, e.busy = some v ∧ v.ofRun = true ∧ v.work.takes = w.work.takes ∧ v.work.puts = w.work.puts) : Keeps e e' where
  index := h1
  claim := h2
  law := by
    refine ⟨by rw [hs']; exact (fun x => nomatch x), ?_, by rw [h1, h5]; exact fun _ => copy, by rw [h5]; exact access,
      by rw [h4]; exact pinned, by rw [h1, h5]; exact fun hr => ⟨(h.reserved hr).1, reserved hr⟩⟩
    intro hc
    rw [h4]
    rcases h2 with h2 | h2
    · rw [h2] at hc; cases hc
    · exact h.claimed (by rw [← h2]; exact hc)
  runs := runs
  pin := fun hp => ⟨h4.trans hp, fun hr => h5.trans hr⟩
  busy := busy

/-- An entry that holds a working copy goes to another state of holding one. -/
theorem Keeps.restate {e e' : Entry} (h : EntryLaw e) (h1 : e'.index = e.index) (hs : e.state.isFetching = false)
    (hs' : e'.state.isFetching = false) (h2 : e'.claim = none ∨ e'.claim = e.claim) (h3 : e'.copy = e.copy)
    (h4 : e'.pin = e.pin) (h5 : e'.reservation = e.reservation) (h6 : e'.busy = e.busy)
    (h7 : e'.waiting.countP CacheOp.ofRun ≤ e.waiting.countP CacheOp.ofRun) : Keeps e e' :=
  Keeps.copied h h1 hs' h2 h4 h5 (by rw [h3]; exact h.copy hs) (by rw [h3, h6]; exact h.access)
    (by rw [h3]; exact h.pinned) (by rw [h3]; exact fun hr => (h.reserved hr).2)
    (by simp only [Entry.runs, h6]; omega) (fun w hb hw => ⟨w, by rw [← h6]; exact hb, hw, rfl, rfl⟩)

theorem ready_state {e : Entry} (h : e.ready = true) :
    (e.state = .clean ∨ e.state = .dirty) ∧ e.busy = none ∧ e.state.isFetching = false ∧ e.claim = none := by
  simp only [Entry.ready, Bool.and_eq_true, Bool.or_eq_true, beq_iff_eq, Option.isNone_iff_eq_none] at h
  refine ⟨h.1, h.2, ?_, ?_⟩
  · rcases h.1 with x | x <;> simp [x, EntryState.isFetching]
  · rcases h.1 with x | x <;> simp [x, Entry.claim]

/-! ## Operations that join and leave waiting lists -/

theorem countP_append_one {op : CacheOp} (l : List CacheOp) :
    (l ++ [op]).countP CacheOp.ofRun = l.countP CacheOp.ofRun + (if op.ofRun then 1 else 0) := by
  simp [List.countP_append, List.countP_cons]

theorem countP_tail_le (l : List CacheOp) : l.tail.countP CacheOp.ofRun ≤ l.countP CacheOp.ofRun :=
  (List.tail_sublist l).countP_le

/-- An operation is handed to the cache. -/
theorem enqueue_goes {b : Bridge} (n : Nat) (op : CacheOp) (ha : Apart b) (he : Entries b) :
    Goes (if op.ofRun then 1 else 0) n b (b.enqueue n op) := by
  cases hx : b.entry? n with
  | some x =>
    obtain ⟨hm, hi⟩ := entry?_mem b n x hx
    have hq : b.enqueue n op = b.setEntry n (fun e => { e with waiting := e.waiting ++ [op] }) := by simp [enqueue, hx]
    rw [hq]
    have law : ∀ e ∈ b.cache, EntryLaw (if e.index = n then { e with waiting := e.waiting ++ [op] } else e) := by
      intro e hm
      split
      · exact (he e hm).congr rfl rfl rfl rfl rfl rfl
      · exact he e hm
    have idx : ∀ e ∈ b.cache, (if e.index = n then { e with waiting := e.waiting ++ [op] } else e).index = e.index := by
      intro e _
      split <;> rfl
    have clm : ∀ e ∈ b.cache, (if e.index = n then { e with waiting := e.waiting ++ [op] } else e).claim = none ∨
        (if e.index = n then { e with waiting := e.waiting ++ [op] } else e).claim = e.claim := by
      intro e _
      split <;> exact Or.inr rfl
    have rns : ∀ e : Entry, ({ e with waiting := e.waiting ++ [op] } : Entry).runs
        = e.runs + (if op.ofRun then 1 else 0) := by
      intro e
      simp only [Entry.runs, countP_append_one]
      omega
    refine ⟨⟨rfl, rfl, rfl, ?_, ?_, ?_, ?_⟩, ⟨?_, ?_⟩, ?_⟩
    · have := sum_update b.cache Entry.index (fun e => { e with waiting := e.waiting ++ [op] }) Entry.runs x ha.indices hm
      simp only [hi] at this
      have h5 := rns x
      simp only [hi] at h5
      simp only [Bridge.runs, setEntry]
      omega
    · intro t ht hk
      refine ⟨ht.1, fun e hme hr => ?_⟩
      obtain ⟨y, hy, rfl⟩ := List.mem_map.mp hme
      rw [idx y hy]
      split at hr
      · next hyn =>
        rw [rns] at hr
        by_cases ho : op.ofRun = true
        · rw [hyn]; exact hk (by simp [ho])
        · simp only [ho] at hr
          exact ht.2 y hy (by simpa using hr)
      · exact ht.2 y hy hr
    · intro e hme hp
      refine ⟨if e.index = n then { e with waiting := e.waiting ++ [op] } else e,
        List.mem_map.mpr ⟨e, hme, rfl⟩, idx e hme, ?_, ?_⟩
      · split <;> exact hp
      · intro hr; split <;> exact hr
    · intro e hme w hb hw
      obtain ⟨y, hy, rfl⟩ := List.mem_map.mp hme
      refine ⟨y, hy, w, ?_, hw, rfl, rfl⟩
      split at hb <;> exact hb
    · simp only [setEntry]
      rw [indices_map _ _ idx]
      exact List.Nodup.sublist ((List.Sublist.refl _).append (claims_sublist _ b.cache clm)) ha.nodup
    · simp only [setEntry]
      rw [indices_map _ _ idx]
      exact ha.missing
    · intro e hme
      obtain ⟨y, hy, rfl⟩ := List.mem_map.mp hme
      exact law y hy
  | none =>
    have hq : b.enqueue n op = { b with misses := b.misses ++ [(n, op)] } := by simp [enqueue, hx]
    rw [hq]
    have hn : n ∉ b.cache.map Entry.index := by
      intro h
      obtain ⟨e, hm, hi⟩ := List.mem_map.mp h
      exact absurd (List.find?_eq_none.mp hx e hm) (by simp [hi])
    refine ⟨⟨rfl, rfl, rfl, ?_, ?_, fun e hm hp => ⟨e, hm, rfl, hp, id⟩, fun e hm w hb hw => ⟨e, hm, w, hb, hw, rfl, rfl⟩⟩,
      ⟨ha.nodup, ?_⟩, he⟩
    · simp only [Bridge.runs, List.countP_append, List.countP_cons, List.countP_nil]
      omega
    · intro t ht hk
      refine ⟨fun p hp hr => ?_, ht.2⟩
      rcases List.mem_append.mp hp with h | h
      · exact ht.1 p h hr
      · rw [List.mem_singleton.mp h] at hr ⊢
        exact hk (by simp [hr])
    · intro p hp
      rcases List.mem_append.mp hp with h | h
      · exact ha.missing p h
      · rw [List.mem_singleton.mp h]; exact hn

/-- An operation of no run is handed to the cache. -/
theorem enqueue_goes' {b : Bridge} (n m : Nat) (op : CacheOp) (ho : op.ofRun = false) (ha : Apart b) (he : Entries b) :
    Goes 0 m b (b.enqueue n op) := by
  have := enqueue_goes n op ha he
  simp only [ho] at this
  exact Goes.at this

end Sys2Proof.Machine
end

