-- ==== Sys2Proof/Laws/Turns.lean ====
section
/-! SUPPORT. What the bridge does by itself within a step (R105 to R124, `settle`) keeps the laws of the device. -/

namespace Sys2Proof.Machine

open Bridge

/-! ## Operations beside the cache -/

@[simp] theorem Bridge.activity_stage (b : Bridge) : b.activity.control.stopStage = b.control.stopStage := by
  unfold activity
  split <;> rfl

@[simp] theorem Bridge.cancelEmptying_stage (b : Bridge) : b.cancelEmptying.control.stopStage = b.control.stopStage := by
  unfold cancelEmptying
  split <;> rfl

@[simp] theorem Bridge.dropNotice_stage (b : Bridge) (k : NoticeKind) :
    (b.dropNotice k).control.stopStage = b.control.stopStage := by
  unfold dropNotice
  split <;> simp

@[simp] theorem Bridge.notify_stage (b : Bridge) (x : Notice) : (b.notify x).control.stopStage = b.control.stopStage := by
  unfold notify
  split <;> simp

@[simp] theorem Bridge.recordRefusal_stage (b : Bridge) (t : Tap) (r : Reason) :
    (b.recordRefusal t r).control.stopStage = b.control.stopStage := by
  unfold recordRefusal
  split
  · rfl
  · dsimp only
    split <;> simp

@[simp] theorem Bridge.refuseTap_stage (b : Bridge) (t : Tap) (r : Reason) :
    (b.refuseTap t r).control.stopStage = b.control.stopStage := by
  simp [refuseTap]

@[simp] theorem Bridge.report_stage (b : Bridge) (n : Nat) (d d' : Descriptor) (i : Option Initiator) (m : Option Nat) :
    (b.report n d d' i m).control.stopStage = b.control.stopStage := by
  have h : ∀ (b : Bridge) x y, (b.judgeLines n d' x y).control.stopStage = b.control.stopStage := fun _ _ _ => rfl
  unfold report
  dsimp only
  repeat' split
  all_goals simp [h]

@[simp] theorem Bridge.commandEnd_stage (b : Bridge) : b.commandEnd.control.stopStage = b.control.stopStage := by
  simp [commandEnd]

@[simp] theorem Bridge.commandDone_stage (b : Bridge) : b.commandDone.control.stopStage = b.control.stopStage := by
  unfold commandDone
  split
  · split <;> simp
  · rfl

@[simp] theorem Bridge.commandRefused_stage (b : Bridge) (r : Reason) :
    (b.commandRefused r).control.stopStage = b.control.stopStage := by
  unfold commandRefused
  split <;> simp

theorem mirror_same (b : Bridge) : Same b b.mirror := by constructor <;> simp
theorem issue_same (b : Bridge) (a : Access) (w : Bool) (addr : Nat) (data : List Byte) (k : Nat) :
    Same b (b.issue a w addr data k) := ⟨rfl, rfl, rfl, rfl, rfl⟩
theorem startTimer_same (b : Bridge) : Same b b.startTimer := ⟨rfl, rfl, rfl, rfl, rfl⟩
theorem activity_same (b : Bridge) : Same b b.activity := by constructor <;> simp
theorem cancelEmptying_same (b : Bridge) : Same b b.cancelEmptying := by constructor <;> simp
theorem wakeCommand_same (b : Bridge) : Same b b.wakeCommand := by constructor <;> simp
theorem dropNotice_same (b : Bridge) (k : NoticeKind) : Same b (b.dropNotice k) := by constructor <;> simp
theorem notify_same (b : Bridge) (x : Notice) : Same b (b.notify x) := by constructor <;> simp
theorem answer_same (b : Bridge) (id : Nat) (ok : Bool) (data : List Byte) : Same b (b.answer id ok data) :=
  ⟨rfl, rfl, rfl, rfl, rfl⟩
theorem setPhase_same (b : Bridge) (id : Nat) (p : RequestPhase) : Same b (b.setPhase id p) := ⟨rfl, rfl, rfl, rfl, rfl⟩
theorem refuseTap_same (b : Bridge) (t : Tap) (r : Reason) : Same b (b.refuseTap t r) := by constructor <;> simp
theorem post_same (b : Bridge) (m : Nat) (o : ChainOrigin) : Same b (b.post m o) := by constructor <;> simp
theorem report_same (b : Bridge) (n : Nat) (d d' : Descriptor) (i : Option Initiator) (m : Option Nat) :
    Same b (b.report n d d' i m) := by constructor <;> simp
theorem commandDone_same (b : Bridge) : Same b b.commandDone := by constructor <;> simp
theorem commandRefused_same (b : Bridge) (r : Reason) : Same b (b.commandRefused r) := by constructor <;> simp
theorem judgeLines_same (b : Bridge) (n : Nat) (d : Descriptor) (x y : Bool) : Same b (b.judgeLines n d x y) :=
  ⟨rfl, rfl, rfl, rfl, rfl⟩
theorem takeYieldsNothing_same (b : Bridge) (x : Bool) : Same b (b.takeYieldsNothing x) := ⟨rfl, rfl, rfl, rfl, rfl⟩

theorem dropOldest_same (b : Bridge) : Same b b.dropOldest := by
  unfold dropOldest
  split
  · exact ⟨rfl, rfl, rfl, rfl, rfl⟩
  · exact Same.trans (b := b.dequeueNotice) ⟨rfl, rfl, rfl, rfl, rfl⟩ (dropNotice_same _ _)

theorem forward_same (b : Bridge) (id : Nat) : Same b (b.forward id) := by
  unfold forward
  split <;> exact ⟨rfl, rfl, rfl, rfl, rfl⟩

theorem passOn_same (b : Bridge) (r : InFlight) : Same b (b.passOn r) := by
  unfold passOn
  split
  · exact setPhase_same _ _ _
  · split
    · exact setPhase_same _ _ _
    · exact forward_same _ _

/-! ## TABLE requests (R116 to R120) -/

/-- The entries change in their lists only, and wait for no more operations of a run. -/
structure Grows (b b' : Bridge) : Prop where
  cache : ∃ f : Entry → Entry, b'.cache = b.cache.map f ∧ ∀ e, (f e).index = e.index ∧ (f e).state = e.state
    ∧ (f e).copy = e.copy ∧ (f e).pin = e.pin ∧ (f e).reservation = e.reservation ∧ (f e).busy = e.busy
    ∧ (f e).waiting.countP CacheOp.ofRun ≤ e.waiting.countP CacheOp.ofRun
  misses : b'.misses = b.misses
  engine : b'.engine = b.engine
  state : b'.control.state = b.control.state
  stage : b'.control.stopStage = b.control.stopStage

theorem Same.grows {b b' : Bridge} (h : Same b b') : Grows b b' :=
  ⟨⟨id, by simpa using h.cache, fun _ => ⟨rfl, rfl, rfl, rfl, rfl, rfl, Nat.le_refl _⟩⟩, h.misses, h.engine, h.state, h.stage⟩

theorem Grows.refl (b : Bridge) : Grows b b := (Same.refl b).grows

theorem Grows.trans {a b c : Bridge} (h : Grows a b) (g : Grows b c) : Grows a c := by
  obtain ⟨f1, e1, k1⟩ := h.cache
  obtain ⟨f2, e2, k2⟩ := g.cache
  refine ⟨⟨fun e => f2 (f1 e), by rw [e2, e1, List.map_map]; rfl, fun e => ?_⟩, g.misses.trans h.misses,
    g.engine.trans h.engine, g.state.trans h.state, g.stage.trans h.stage⟩
  obtain ⟨a1, a2, a3, a4, a5, a6, a7⟩ := k1 e
  obtain ⟨b1, b2, b3, b4, b5, b6, b7⟩ := k2 (f1 e)
  exact ⟨b1.trans a1, b2.trans a2, b3.trans a3, b4.trans a4, b5.trans a5, b6.trans a6, Nat.le_trans b7 a7⟩

theorem Grows.goes {b b' : Bridge} (h : Grows b b') (ha : Apart b) (he : Entries b) (n : Nat) : Goes 0 n b b' := by
  obtain ⟨f, hc, hf⟩ := h.cache
  refine map_goes f n hc h.misses h.engine h.state h.stage ha (fun e hm => ?_)
  obtain ⟨h1, h2, h3, h4, h5, h6, h7⟩ := hf e
  exact Keeps.lists (he e hm) h1 h2 h3 h4 h5 h6 h7

theorem Grows.claims {b b' : Bridge} (h : Grows b b') : b'.cache.filterMap Entry.claim = b.cache.filterMap Entry.claim := by
  obtain ⟨f, hc, hf⟩ := h.cache
  rw [hc, List.filterMap_map]
  exact congrArg (fun g => List.filterMap g b.cache) (funext fun e => by simp [Entry.claim, (hf e).2.1])

theorem Grows.indices {b b' : Bridge} (h : Grows b b') : b'.cache.map Entry.index = b.cache.map Entry.index := by
  obtain ⟨f, hc, hf⟩ := h.cache
  rw [hc]
  exact indices_map f b.cache (fun e _ => (hf e).1)

/-- One entry changes in its lists. -/
theorem setEntry_grows (b : Bridge) (n : Nat) (f : Entry → Entry)
    (hf : ∀ e, (f e).index = e.index ∧ (f e).state = e.state ∧ (f e).copy = e.copy ∧ (f e).pin = e.pin
      ∧ (f e).reservation = e.reservation ∧ (f e).busy = e.busy
      ∧ (f e).waiting.countP CacheOp.ofRun ≤ e.waiting.countP CacheOp.ofRun) : Grows b (b.setEntry n f) := by
  refine ⟨⟨fun e => if e.index = n then f e else e, rfl, fun e => ?_⟩, rfl, rfl, rfl, rfl⟩
  dsimp only
  split
  · exact hf e
  · exact ⟨rfl, rfl, rfl, rfl, rfl, rfl, Nat.le_refl _⟩

theorem enqueue_grows (b : Bridge) (n : Nat) (op : CacheOp) (e : Entry) (h : b.entry? n = some e) (ho : op.ofRun = false) :
    Grows b (b.enqueue n op) := by
  simp only [enqueue, h]
  exact setEntry_grows b n _ (fun e => ⟨rfl, rfl, rfl, rfl, rfl, rfl, by simp [ho]⟩)

theorem snoopRead_grows (r : InFlight) (todo : List Nat) : ∀ b : Bridge, Grows b (b.snoopRead r todo) := by
  induction todo with
  | nil => exact fun b => (passOn_same b r).grows
  | cons n rest ih =>
    intro b
    unfold snoopRead
    split
    · exact ih b
    · next e he =>
      split
      · exact ih b
      · exact (enqueue_grows b n _ e he rfl).trans (setPhase_same _ _ _).grows

theorem holdRequest_grows (b : Bridge) (n : Nat) (r : InFlight) : Grows b (b.holdRequest n r) :=
  (setEntry_grows b n (fun e => { e with held := e.held ++ [r.id] })
    (fun _ => ⟨rfl, rfl, rfl, rfl, rfl, rfl, Nat.le_refl _⟩)).trans (setPhase_same _ _ _).grows

theorem snoopWrite_grows (b : Bridge) (r : InFlight) (todo : List Nat) : Grows b (b.snoopWrite r todo) := by
  unfold snoopWrite
  split
  · exact holdRequest_grows b _ r
  · split
    · exact (passOn_same b r).grows
    · next n rest hd =>
      obtain ⟨e, he⟩ : ∃ e, b.entry? n = some e := by
        have := List.head?_dropWhile_not (fun n => (b.entry? n).isNone) todo
        rw [hd] at this
        exact Option.isSome_iff_exists.mp (by simpa using this)
      exact (enqueue_grows b n _ e he rfl).trans (setPhase_same _ _ _).grows

theorem snoop_grows (b : Bridge) (r : InFlight) (todo : List Nat) : Grows b (b.snoop r todo) := by
  unfold snoop
  split
  · exact snoopWrite_grows b r todo
  · exact snoopRead_grows r todo b

theorem beginSnoop_grows (b : Bridge) (r : InFlight) : Grows b (b.beginSnoop r) := by
  unfold beginSnoop
  dsimp only
  split
  · exact (setPhase_same _ _ _).grows
  · exact snoop_grows b r _

theorem allow_grows (b : Bridge) (n id : Nat) : Grows b (b.allow n id) := by
  unfold allow
  split
  · split
    · split
      · exact snoop_grows _ _ _
      · exact Grows.refl b
    all_goals exact Grows.refl b
  · exact Grows.refl b

theorem hold_grows (b : Bridge) (n id : Nat) : Grows b (b.hold n id) := by
  unfold hold
  split
  · exact holdRequest_grows b n _
  · exact setEntry_grows b n _ (fun _ => ⟨rfl, rfl, rfl, rfl, rfl, rfl, Nat.le_refl _⟩)

theorem foldl_grows {α : Type} (f : Bridge → α → Bridge) (l : List α) (h : ∀ b, ∀ x ∈ l, Grows b (f b x)) :
    ∀ b : Bridge, Grows b (l.foldl f b) := by
  induction l with
  | nil => exact Grows.refl
  | cons a l ih =>
    intro b
    exact (h b a List.mem_cons_self).trans (ih (fun b x hx => h b x (List.mem_cons_of_mem _ hx)) (f b a))

theorem freeMoveWaiters_grows (b : Bridge) : Grows b b.freeMoveWaiters := by
  refine foldl_grows _ _ (fun b r _ => ?_) b
  split
  · exact snoop_grows _ _ _
  all_goals exact Grows.refl b

theorem freeMirrorWaiters_grows (b : Bridge) : Grows b b.freeMirrorWaiters := by
  refine foldl_grows _ _ (fun b r _ => ?_) b
  split
  · split
    · exact (passOn_same b r).grows
    · exact (forward_same b _).grows
  · exact Grows.refl b

/-! ## Entries that leave the cache, and entries that are taken -/

theorem filter_index {l : List Entry} {n : Nat} : n ∉ (l.filter (fun x => x.index != n)).map Entry.index := by
  simp

/-- The operations of an entry that left the cache go on. -/
theorem orphans_goes (n : Nat) (ops : List CacheOp) : ∀ b : Bridge, Apart b → Entries b → n ∉ b.cache.map Entry.index →
    Goes (ops.countP CacheOp.ofRun) n b (ops.foldl (orphan n) b)
      ∧ (ops.foldl (orphan n) b).cache.map Entry.index = b.cache.map Entry.index
      ∧ (ops.foldl (orphan n) b).cache.filterMap Entry.claim = b.cache.filterMap Entry.claim := by
  induction ops with
  | nil => exact fun b ha he _ => ⟨Goes.refl ha he n, rfl, rfl⟩
  | cons op ops ih =>
    intro b ha he hn
    have grows : Grows b (orphan n b op) → op.ofRun = false →
        Goes (if op.ofRun then 1 else 0) n b (orphan n b op)
          ∧ (orphan n b op).cache.map Entry.index = b.cache.map Entry.index
          ∧ (orphan n b op).cache.filterMap Entry.claim = b.cache.filterMap Entry.claim := by
      intro g ho
      rw [ho]
      exact ⟨g.goes ha he n, g.indices, g.claims⟩
    have miss : Goes (if op.ofRun then 1 else 0) n b { b with misses := b.misses ++ [(n, op)] } := by
      have hx : b.entry? n = none := by
        cases hf : b.entry? n with
        | none => rfl
        | some e =>
          obtain ⟨hm, hi⟩ := entry?_mem b n e hf
          exact absurd (hi ▸ List.mem_map_of_mem hm) hn
      have := enqueue_goes n op ha he
      simpa only [enqueue, hx] using this
    have one : Goes (if op.ofRun then 1 else 0) n b (orphan n b op)
        ∧ (orphan n b op).cache.map Entry.index = b.cache.map Entry.index
        ∧ (orphan n b op).cache.filterMap Entry.claim = b.cache.filterMap Entry.claim := by
      cases op with
      | tableRead id => exact grows (allow_grows b n id) rfl
      | tableWrite id => exact grows (allow_grows b n id) rfl
      | release => exact grows (commandDone_same b).grows rfl
      | tap x => exact ⟨miss, rfl, rfl⟩
      | engine x => exact ⟨miss, rfl, rfl⟩
      | commandTake => exact ⟨miss, rfl, rfl⟩
      | command => exact ⟨miss, rfl, rfl⟩
      | noticePut => exact ⟨miss, rfl, rfl⟩
    obtain ⟨h1, h2, h3⟩ := one
    obtain ⟨k1, k2, k3⟩ := ih (orphan n b op) h1.apart h1.entries (by rw [h2]; exact hn)
    refine ⟨?_, k2.trans h2, k3.trans h3⟩
    have := h1.trans k1
    rw [Nat.add_comm] at this
    simpa [List.countP_cons] using this

/-- An unpinned entry leaves the cache. -/
theorem remove_goes {b : Bridge} {e : Entry} (m : Nat) (ha : Apart b) (he : Entries b) (h : e ∈ b.cache)
    (hp : e.pin = false) :
    let b' : Bridge := { b with cache := b.cache.filter (fun x => x.index != e.index) }
    Goes 0 m b b' ∧ b'.runs + e.runs ≤ b.runs := by
  have hsub : (b.cache.filter (fun x => x.index != e.index)).Sublist b.cache := List.filter_sublist
  have hr := sum_filter_le b.cache (fun x => x.index != e.index) Entry.runs e h (by simp)
  refine ⟨⟨⟨rfl, rfl, rfl, ?_, ?_, ?_, ?_⟩, ⟨?_, ?_⟩, ?_⟩, ?_⟩
  · simp only [Bridge.runs]; omega
  · exact fun t ht _ => ⟨ht.1, fun x hx => ht.2 x (hsub.subset hx)⟩
  · intro x hx hxp
    refine ⟨x, List.mem_filter.mpr ⟨hx, ?_⟩, rfl, hxp, id⟩
    simp only [bne_iff_ne, ne_eq]
    intro hi
    rw [ha.eq hx h hi, hp] at hxp
    cases hxp
  · exact fun x hx w hb hw => ⟨x, hsub.subset hx, w, hb, hw, rfl, rfl⟩
  · exact List.Nodup.sublist ((hsub.map _).append (hsub.filterMap _)) ha.nodup
  · exact fun p hp hc => ha.missing p hp ((hsub.map Entry.index).subset hc)
  · exact fun x hx => he x (hsub.subset hx)
  · simp only [Bridge.runs]; omega

/-- An unpinned entry is dropped. -/
theorem dropEntry_goes {b : Bridge} {e : Entry} (m : Nat) (ha : Apart b) (he : Entries b) (h : e ∈ b.cache)
    (hp : e.pin = false) :
    Goes 0 m b (b.dropEntry e)
      ∧ (b.dropEntry e).cache.map Entry.index = (b.cache.filter (fun x => x.index != e.index)).map Entry.index
      ∧ (b.dropEntry e).cache.filterMap Entry.claim
        = (b.cache.filter (fun x => x.index != e.index)).filterMap Entry.claim := by
  obtain ⟨h1, h2⟩ := remove_goes e.index ha he h hp
  obtain ⟨k1, k2⟩ := orphans_goes e.index e.waiting _ h1.apart h1.entries filter_index
  refine ⟨⟨⟨?_, ?_, ?_, ?_, ?_, ?_, ?_⟩, k1.apart, k1.entries⟩, k2⟩
  · exact k1.engine
  · exact k1.state
  · exact k1.stage
  · have h3 := k1.runs
    have h4 : e.waiting.countP CacheOp.ofRun ≤ e.runs := Nat.le_add_right _ _
    simp only [dropEntry]
    omega
  · intro t ht _
    refine k1.waits t (h1.waits t ht (fun x => absurd x (by omega))) (fun hk => ?_)
    exact ht.2 e h (by simp only [Entry.runs]; omega)
  · exact (h1.trans k1).pins
  · exact (h1.trans k1).access

theorem countP_split (l : List (Nat × CacheOp)) (n : Nat) :
    ((l.filter (fun p => p.1 == n)).map (·.2)).countP CacheOp.ofRun
      + (l.filter (fun p => p.1 != n)).countP (fun p => p.2.ofRun) = l.countP (fun p => p.2.ofRun) := by
  induction l with
  | nil => rfl
  | cons a l ih =>
    by_cases h : a.1 = n
    · rw [List.filter_cons_of_pos (by simp [h]), List.filter_cons_of_neg (by simp [h])]
      simp only [List.map_cons, List.countP_cons]
      omega
    · rw [List.filter_cons_of_neg (by simp [h]), List.filter_cons_of_pos (by simp [h])]
      simp only [List.countP_cons]
      omega

/-- An index that is neither held nor claimed takes an entry. -/
theorem allocate_goes {b : Bridge} {n : Nat} (m : Nat) (ha : Apart b) (he : Entries b)
    (hn : n ∉ b.cache.map Entry.index) (hc : n ∉ b.cache.filterMap Entry.claim) : Goes 0 m b (b.allocate n) := by
  have runs : ∀ x ∈ (b.allocate n).cache, x ∈ b.cache ∨ (x.index = n ∧ x.busy = none ∧ EntryLaw x
      ∧ x.waiting = (b.misses.filter (fun p => p.1 == n)).map (·.2)) := by
    intro x hx
    rcases List.mem_cons.mp hx with h | h
    · right
      subst h
      refine ⟨rfl, rfl, ⟨fun _ => ⟨rfl, rfl, rfl⟩, (fun h => nomatch h), (fun h => nomatch h), ?_, ?_, ?_⟩, rfl⟩
      · exact fun w h => nomatch h
      · exact fun h => nomatch h
      · exact fun h => nomatch h
    · exact Or.inl h
  refine ⟨⟨rfl, rfl, rfl, ?_, ?_, ?_, ?_⟩, ⟨?_, ?_⟩, ?_⟩
  · have := countP_split b.misses n
    simp only [List.countP_map] at this
    simp only [Bridge.runs, allocate, List.map_cons, List.sum_cons, Entry.runs]
    simp
    omega
  · intro t ht _
    refine ⟨fun p hp => ht.1 p (List.mem_filter.mp hp).1, fun x hx hr => ?_⟩
    rcases runs x hx with h | ⟨h1, h2, _, h3⟩
    · exact ht.2 x h hr
    · simp only [Entry.runs, h2, h3, Option.any_none, Bool.false_eq_true, if_false, Nat.add_zero] at hr
      obtain ⟨op, ho, hor⟩ := List.countP_pos_iff.mp hr
      obtain ⟨p, hp, rfl⟩ := List.mem_map.mp ho
      obtain ⟨hp1, hp2⟩ := List.mem_filter.mp hp
      rw [h1, ← eq_of_beq hp2]
      exact ht.1 p hp1 hor
  · exact fun e hm hp => ⟨e, List.mem_cons_of_mem _ hm, rfl, hp, id⟩
  · intro x hx w hb hw
    rcases runs x hx with h | ⟨_, h2, _, _⟩
    · exact ⟨x, h, w, hb, hw, rfl, rfl⟩
    · rw [h2] at hb; cases hb
  · have hcl : (b.allocate n).cache.filterMap Entry.claim = b.cache.filterMap Entry.claim :=
      List.filterMap_cons_none rfl
    rw [hcl]
    simp only [allocate, List.map_cons, List.cons_append, List.nodup_cons, List.mem_append]
    exact ⟨fun h => h.elim hn hc, ha.nodup⟩
  · intro p hp hx
    simp only [allocate, List.mem_filter, bne_iff_ne, ne_eq] at hp
    rcases List.mem_cons.mp hx with h | h
    · exact hp.2 h
    · exact ha.missing p hp.1 h
  · intro x hx
    rcases runs x hx with h | ⟨_, _, h3, _⟩
    · exact he x h
    · exact h3

/-- A write-back is started, for no claimed index. -/
theorem startWriteBack_goes {b : Bridge} {e : Entry} {r : WriteBackFor} (m : Nat) (ha : Apart b) (he : Entries b)
    (h : e ∈ b.cache) (hs : e.state.isFetching = false) (hr : ∀ n, r ≠ .claim n) : Goes 0 m b (b.startWriteBack e r) := by
  have g := setEntry_goes (b := b) (fun x => { x with state := .writing r }) e.index m ha he (fun x hx hi => by
    rw [ha.eq hx h hi]
    refine Keeps.restate (he e h) rfl hs rfl (Or.inl ?_) rfl rfl rfl rfl (Nat.le_refl _)
    cases r with
    | claim n => exact absurd rfl (hr n)
    | must => rfl
    | tableRead => rfl
    | other => rfl)
  exact g.trans ((issue_same _ _ _ _ _ _).goes g.apart g.entries m)

theorem filterMap_update (l : List Entry) (e : Entry) (n : Nat) (hn : (l.map Entry.index).Nodup) (he : e ∈ l) (hc : e.claim = none) :
    ((l.map (fun x => if x.index = e.index then { x with state := .writing (.claim n) } else x)).filterMap Entry.claim).Perm
      (n :: l.filterMap Entry.claim) := by
  induction l with
  | nil => cases he
  | cons a l ih =>
    simp only [List.map_cons, List.nodup_cons, List.mem_map, not_exists, not_and] at hn
    simp only [List.map_cons, List.filterMap_cons]
    by_cases ha : a.index = e.index
    · have hea : e = a := by
        rcases List.mem_cons.mp he with h | h
        · exact h
        · exact absurd ha.symm (hn.1 e h)
      have hl : l.map (fun x => if x.index = e.index then { x with state := .writing (.claim n) } else x) = l := by
        apply map_update_absent l Entry.index (fun x => { x with state := .writing (.claim n) }) e.index
        intro x hx hxe
        exact hn.1 x hx (hxe.trans ha.symm)
      subst hea
      rw [hl, hc]
      simp [Entry.claim]
    · have hel : e ∈ l := by
        rcases List.mem_cons.mp he with h | h
        · subst h; exact absurd rfl ha
        · exact h
      have := ih hn.2 hel
      rw [if_neg ha]
      cases a.claim with
      | none => exact this
      | some c => exact (this.cons c).trans (List.Perm.swap n c _)

/-- An idle entry is claimed for an index that is neither held nor claimed, and written back (R108). -/
theorem claim_goes {b : Bridge} {e : Entry} {n : Nat} (m : Nat) (ha : Apart b) (he : Entries b) (h : e ∈ b.cache)
    (hi : e.idle = true) (hn : n ∉ b.cache.map Entry.index) (hc : n ∉ b.cache.filterMap Entry.claim) :
    Goes 0 m b (b.startWriteBack e (.claim n)) := by
  simp only [Entry.idle, Bool.and_eq_true, Bool.not_eq_true'] at hi
  obtain ⟨⟨hr, hp⟩, _⟩ := hi
  obtain ⟨_, hb, hs, hcl⟩ := ready_state hr
  have law : EntryLaw { e with state := .writing (.claim n) } := by
    have := he e h
    exact ⟨(fun x => nomatch x), fun _ => hp, fun _ => this.copy hs, this.access, this.pinned, this.reserved⟩
  have idx : ∀ x : Entry, (if x.index = e.index then { x with state := .writing (.claim n) } else x).index = x.index := by
    intro x
    split <;> rfl
  have rns : ∀ x : Entry, (if x.index = e.index then { x with state := .writing (.claim n) } else x).runs = x.runs := by
    intro x
    split <;> rfl
  refine ⟨⟨rfl, rfl, rfl, ?_, ?_, ?_, ?_⟩, ⟨?_, ?_⟩, ?_⟩
  · have := sum_map_le b.cache (fun x => (if x.index = e.index then { x with state := .writing (.claim n) } else x).runs)
      Entry.runs (fun x _ => Nat.le_of_eq (rns x))
    simp only [Bridge.runs, startWriteBack, issue, setEntry, List.map_map]
    exact Nat.add_le_add_left this _
  · intro t ht _
    refine ⟨ht.1, fun x hx hx0 => ?_⟩
    obtain ⟨y, hy, rfl⟩ := List.mem_map.mp hx
    rw [idx y]
    rw [rns y] at hx0
    exact ht.2 y hy hx0
  · intro x hx hxp
    refine ⟨if x.index = e.index then { x with state := .writing (.claim n) } else x, List.mem_map.mpr ⟨x, hx, rfl⟩, idx x,
      ?_, ?_⟩
    · split <;> exact hxp
    · intro hxr; split <;> exact hxr
  · intro x hx w hw1 hw2
    obtain ⟨y, hy, rfl⟩ := List.mem_map.mp hx
    refine ⟨y, hy, w, ?_, hw2, rfl, rfl⟩
    split at hw1 <;> exact hw1
  · have h1 := filterMap_update b.cache e n ha.indices h hcl
    simp only [startWriteBack, issue, setEntry]
    rw [indices_map _ _ (fun x _ => idx x)]
    refine ((List.Perm.refl _).append h1).nodup_iff.mpr ?_
    refine (List.perm_middle).nodup_iff.mpr ?_
    simp only [List.nodup_cons, List.mem_append]
    exact ⟨fun x => x.elim hn hc, ha.nodup⟩
  · simp only [startWriteBack, issue, setEntry]
    rw [indices_map _ _ (fun x _ => idx x)]
    exact ha.missing
  · intro x hx
    obtain ⟨y, hy, rfl⟩ := List.mem_map.mp hx
    split
    · next hye => rw [ha.eq hy h hye]; exact law
    · exact he y hy

/-! ## The turn of an operation -/

theorem startOp_perm {b : Bridge} {n : Nat} {e : Entry} (ha : Apart b) (h : b.entry? n = some e) :
    (b.startOp n).cache.Perm (b.setEntry n (fun x => { x with waiting := x.waiting.tail })).cache := by
  obtain ⟨hm, hi⟩ := entry?_mem b n e h
  have aux : ∀ l : List Entry, (l.map Entry.index).Nodup → e ∈ l →
      ({ e with waiting := e.waiting.tail } :: l.filter (fun x => x.index != n)).Perm
        (l.map (fun x => if x.index = n then { x with waiting := x.waiting.tail } else x)) := by
    intro l
    induction l with
    | nil => intro _ hx; cases hx
    | cons a l ih =>
      intro hn hx
      simp only [List.map_cons, List.nodup_cons, List.mem_map, not_exists, not_and] at hn
      by_cases hai : a.index = n
      · have hea : e = a := by
          rcases List.mem_cons.mp hx with h1 | h1
          · exact h1
          · exact absurd (hi.trans hai.symm) (hn.1 e h1)
        subst hea
        have hl : ∀ x ∈ l, x.index ≠ n := fun x hx hxn => hn.1 x hx (hxn.trans hai.symm)
        rw [List.filter_cons_of_neg (by simp [hai]), List.map_cons, if_pos hai,
          map_update_absent l Entry.index (fun x => { x with waiting := x.waiting.tail }) n hl,
          List.filter_eq_self.mpr (fun x hx => by simpa using hl x hx)]
      · have hel : e ∈ l := by
          rcases List.mem_cons.mp hx with h1 | h1
          · subst h1; exact absurd hi hai
          · exact h1
        rw [List.filter_cons_of_pos (by simp [hai]), List.map_cons, if_neg hai]
        exact (List.Perm.swap a _ _).trans ((ih hn.2 hel).cons a)
  simp only [startOp, h]
  exact aux b.cache ha.indices hm

/-- The first operation of an entry's waiting list is applied. -/
theorem startOp_goes {b : Bridge} (n m : Nat) (ha : Apart b) (he : Entries b) : Goes 0 m b (b.startOp n) := by
  cases hf : b.entry? n with
  | none =>
    have : b.startOp n = b := by simp [startOp, hf]
    rw [this]
    exact Goes.refl ha he m
  | some e =>
    have g := (setEntry_grows b n (fun x => { x with waiting := x.waiting.tail })
      (fun _ => ⟨rfl, rfl, rfl, rfl, rfl, rfl, countP_tail_le _⟩)).goes ha he m
    have hq : b.startOp n = { b with cache := { e with waiting := e.waiting.tail } :: b.cache.filter (fun x => x.index != n) } := by
      simp [startOp, hf]
    refine g.trans (perm_goes m (startOp_perm ha hf) ?_ ?_ ?_ ?_ g.apart g.entries)
    all_goals rw [hq]; rfl

/-! ## What the bridge does by itself -/

theorem frontTurn_goes {b b' : Bridge} {e : Entry} (ha : Apart b) (he : Entries b) (h : e ∈ b.cache)
    (hs : b.frontTurn e = some b') : Goes 0 0 b b' := by
  have pop (f : Entry → Entry) (hf : ∀ x, f x = { x with waiting := x.waiting.tail }
      ∨ f x = { x with waiting := x.waiting.tail, heldRelease := true }) : Grows b (b.setEntry e.index f) :=
    setEntry_grows b e.index f (fun x => by
      rcases hf x with hx | hx <;> rw [hx] <;> exact ⟨rfl, rfl, rfl, rfl, rfl, rfl, countP_tail_le _⟩)
  have back (r : WriteBackFor) (hr : e.ready = true) (hn : ∀ n, r ≠ .claim n) : Goes 0 0 b (b.startWriteBack e r) :=
    startWriteBack_goes 0 ha he h (ready_state hr).2.2.1 hn
  have other : ∀ n, WriteBackFor.other ≠ .claim n := fun _ x => nomatch x
  unfold frontTurn at hs
  split at hs
  · next hr =>
    split at hs
    · cases hs; exact back _ hr other
    · split at hs
      · split at hs
        · cases hs
          have g := startOp_goes e.index 0 ha he
          exact g.trans ((refuseTap_same _ _ _).goes g.apart g.entries 0)
        · cases hs
      · split at hs
        · cases hs
          exact ((pop (fun x => { x with waiting := x.waiting.tail }) (fun _ => Or.inl rfl)).trans
            (allow_grows (b.popFront e.index) _ _)).goes ha he 0
        · cases hs; exact back _ hr (fun _ x => nomatch x)
      · split at hs
        · cases hs
          exact ((pop (fun x => { x with waiting := x.waiting.tail }) (fun _ => Or.inl rfl)).trans
            (hold_grows (b.popFront e.index) _ _)).goes ha he 0
        · next hp =>
          split at hs
          · cases hs
            refine (dropEntry_goes 0 ha he h ?_).1
            unfold holdPlace at hp
            split at hp
            · cases hp
            · next x => simpa using x
          · cases hs; exact back _ hr other
      · split at hs
        · cases hs
          exact (pop (fun x => { x with waiting := x.waiting.tail, heldRelease := true })
            (fun _ => Or.inr rfl)).goes ha he 0
        · next hp =>
          split at hs
          · cases hs
            exact (dropEntry_goes 0 ha he h (by simpa using hp)).1
          · cases hs; exact back _ hr other
      all_goals first | cases hs | skip
      · split at hs
        · cases hs; exact back _ hr other
        · cases hs
  · split at hs
    · next hf =>
      cases hs
      have g := setEntry_goes (b := b) (fun x => { x with state := .fetching true }) e.index 0 ha he (fun x hx hi => by
        rw [ha.eq hx h hi]
        have law := he e h
        have hff : e.state.isFetching = true := by simp [hf.1, EntryState.isFetching]
        obtain ⟨h1, h2, h3⟩ := law.fetching hff
        refine ⟨⟨rfl, Or.inl rfl, Nat.le_refl _, fun hp => ⟨hp, id⟩, fun w hb hw => ⟨w, hb, hw, rfl, rfl⟩⟩,
          ⟨fun _ => ⟨h1, h2, h3⟩, (fun x => nomatch x), (fun x => nomatch x), ?_, ?_, ?_⟩⟩
        · exact law.access
        · exact law.pinned
        · exact law.reserved)
      exact g.trans ((issue_same _ _ _ _ _ _).goes g.apart g.entries 0)
    · cases hs

theorem holdWrite_goes {b b' : Bridge} {e : Entry} (ha : Apart b) (he : Entries b) (hs : b.holdWrite e = some b') :
    Goes 0 0 b b' := by
  unfold holdWrite at hs
  split at hs
  · next id _ =>
    split at hs
    · cases hs
      refine Grows.goes (Grows.trans ?_ (hold_grows _ e.index id)) ha he 0
      exact setEntry_grows b e.index (fun x => { x with waiting := x.waiting.erase (.tableWrite id) })
        (fun x => ⟨rfl, rfl, rfl, rfl, rfl, rfl, (List.erase_sublist).countP_le⟩)
    · cases hs
  · cases hs

theorem turns_goes {b b' : Bridge} (ha : Apart b) (he : Entries b) (l : List Entry) (hl : ∀ e ∈ l, e ∈ b.cache)
    (hs : b.turns l = some b') : Goes 0 0 b b' := by
  induction l with
  | nil => cases hs
  | cons e l ih =>
    unfold turns at hs
    split at hs
    · next x hx =>
      cases hs
      rcases Option.or_eq_some_iff.mp hx with h | h
      · exact frontTurn_goes ha he (hl e List.mem_cons_self) h
      · exact holdWrite_goes ha he h.2
    · exact ih (fun x hx => hl x (List.mem_cons_of_mem _ hx)) hs

theorem serveMiss_goes {b b' : Bridge} (ha : Apart b) (he : Entries b) (hs : b.serveMiss = some b') : Goes 0 0 b b' := by
  unfold serveMiss at hs
  split at hs
  · cases hs
  · next n op hf =>
    have hn : n ∉ b.cache.map Entry.index := ha.missing (n, op) (List.mem_of_find?_eq_some hf)
    have hc : n ∉ b.cache.filterMap Entry.claim := by
      intro h
      have h1 := List.find?_some hf
      obtain ⟨e, hm, hcl⟩ := List.mem_filterMap.mp h
      have h2 : b.claimed n = true := by
        refine List.any_eq_true.mpr ⟨e, hm, ?_⟩
        unfold Entry.claim at hcl
        split at hcl
        · next k hk => cases hcl; simp [hk]
        · cases hcl
      simp [h2] at h1
    split at hs
    · cases hs
      exact allocate_goes 0 ha he hn hc
    · split at hs
      · next e hl =>
        cases hs
        have hmem : e ∈ b.cache := by simpa using List.mem_of_find?_eq_some hl
        have hp := List.find?_some hl
        simp only [Entry.idle, Bool.and_eq_true, Bool.not_eq_true'] at hp
        obtain ⟨g, _⟩ := remove_goes 0 ha he hmem hp.1.1.2
        have hsub : (b.cache.filter (fun x => x.index != e.index)).Sublist b.cache := List.filter_sublist
        exact g.trans (allocate_goes 0 g.apart g.entries (fun h => hn ((hsub.map _).subset h))
          (fun h => hc ((hsub.filterMap _).subset h)))
      · split at hs
        · next e hl =>
          cases hs
          have hmem : e ∈ b.cache := by simpa using List.mem_of_find?_eq_some hl
          have hp := List.find?_some hl
          simp only [Bool.and_eq_true] at hp
          exact claim_goes 0 ha he hmem hp.1 hn hc
        · cases hs

theorem mustStep_goes {b b' : Bridge} (ha : Apart b) (he : Entries b) (hs : b.mustStep = some b') : Goes 0 0 b b' := by
  unfold mustStep at hs
  split at hs
  · cases hs
  · split at hs
    · split at hs
      · cases hs
        exact Same.goes (by exact ⟨rfl, rfl, rfl, rfl, rfl⟩) ha he 0
      · split at hs
        · split at hs
          · next e hf =>
            cases hs
            have hmem : e ∈ b.cache := by simpa using List.mem_of_find?_eq_some hf
            have hp := List.find?_some hf
            simp only [Bool.and_eq_true, beq_iff_eq] at hp
            exact startWriteBack_goes 0 ha he hmem (by simp [hp.2, EntryState.isFetching]) (fun _ x => nomatch x)
          · cases hs
        · cases hs
    · split at hs
      · cases hs
        exact Same.goes (by exact ⟨rfl, rfl, rfl, rfl, rfl⟩) ha he 0
      · cases hs

theorem flushStep_goes {b b' : Bridge} (ha : Apart b) (he : Entries b) (hs : b.flushStep = some b') : Goes 0 0 b b' := by
  unfold flushStep at hs
  split at hs
  · split at hs
    · cases hs
      exact (commandDone_same b).goes ha he 0
    · cases hs
  · cases hs

/-- Every entry is freed, with no pin set or no move loaded. -/
theorem freed_sound {b b' : Bridge} (h : Sound b) (hc : b'.cache = []) (hm : b'.misses = []) (he : b'.engine = b.engine)
    (hu : (∀ e ∈ b.cache, e.pin = false) ∨ b.engine.step = .none)
    (rest : b'.control.state = .run ∨ b'.control.state = .quiet
      ∨ (b'.control.state = .stopping ∧ b'.control.stopStage = .finishing) ∨ b'.engine.step = .none) : Sound b' := by
  have hm' := moveCopy_congr he
  have unpinned (n : Nat) : (∃ e ∈ b.cache, e.index = n ∧ e.pin = true) → b.engine.step = .none := by
    rintro ⟨e, hx, _, hp⟩
    rcases hu with h | h
    · rw [h e hx] at hp; cases hp
    · exact h
  have ent : Entries b' := by
    intro e hx
    rw [hc] at hx
    cases hx
  refine ⟨⟨by rw [hc]; exact List.nodup_nil, by rw [hm]; exact (fun p hp => nomatch hp)⟩, ent,
    StepLaw.ofRest ⟨by rw [he]; exact h.engine.idle, rest, ?_, ?_, by rw [he, hm']; exact h.engine.notNotices,
      by rw [he, hm']; exact h.engine.spans, by rw [he]; exact h.engine.fresh, ?_⟩ (by simp [Bridge.runs, hc, hm])⟩
  · rw [he, hm']
    intro hs n hn
    rw [unpinned n (h.engine.source hs n hn)] at hs
    rcases hs with x | x <;> cases x
  · rw [he, hm']
    intro hs n hn
    rw [unpinned n (h.engine.destination hs n hn)] at hs
    cases hs
  · rw [he, hm']
    intro hd
    obtain ⟨h1, h2⟩ := h.engine.reserved hd
    refine ⟨h1, fun n hn => ?_⟩
    obtain ⟨e, hx, hi, hp, _⟩ := h2 n hn
    rw [unpinned n ⟨e, hx, hi, hp⟩] at h1
    rcases h1 with x | x | x <;> cases x

theorem enterPass_fields (b : Bridge) : b.enterPass.cache = [] ∧ b.enterPass.misses = [] ∧ b.enterPass.engine = b.engine
    ∧ b.enterPass.control.state = .pass := by
  simp [enterPass]

/-- Out of RUN, QUIET and step 2 of STOPPING no move is loaded, and the bridge can return to PASS. -/
theorem enterPass_sound {b : Bridge} (h : Sound b) (hs : b.engine.step = .none) : Sound b.enterPass := by
  obtain ⟨h1, h2, h3, h4⟩ := enterPass_fields b
  exact freed_sound h h1 h2 h3 (Or.inr hs) (Or.inr (Or.inr (Or.inr (by rw [h3]; exact hs))))

theorem emptyStep_sound {b b' : Bridge} (h : Sound b) (hs : b.emptyStep = some b') : Sound b' := by
  have settled : b.cacheSettled = true → ∀ e ∈ b.cache, e.pin = false := by
    intro hc e he
    simp only [cacheSettled, Bool.and_eq_true, List.all_eq_true, Bool.not_eq_true'] at hc
    exact (hc.2 e he).2
  have rest := h.engine.rest
  unfold emptyStep at hs
  split at hs
  · next hc =>
    cases hs
    exact freed_sound h (by simp) (by simp) (by simp) (Or.inl (settled hc.2.2)) (Or.inr (Or.inl (by simp)))
  · split at hs
    · next hc =>
      cases hs
      refine enterPass_sound h ?_
      simpa [hc.1, hc.2.1] using rest
    · split at hs
      · next hc =>
        cases hs
        have h' : Sound { b with control := { b.control with clearedPending := 0 } } :=
          Same.sound (by exact ⟨rfl, rfl, rfl, rfl, rfl⟩) h
        refine enterPass_sound h' ?_
        simpa [hc.1, hc.2.1] using rest
      · split at hs
        · next hc =>
          cases hs
          refine enterPass_sound h ?_
          simpa [hc.1] using rest
        · cases hs

theorem autoStep_sound {b b' : Bridge} (h : Sound b) (hs : b.autoStep = some b') : Sound b' := by
  unfold autoStep at hs
  rcases Option.or_eq_some_iff.mp hs with g | ⟨_, g⟩
  · exact (turns_goes h.apart h.entries _ (fun e he => by simpa using he) g).sound h
  · rcases Option.or_eq_some_iff.mp g with g | ⟨_, g⟩
    · exact (serveMiss_goes h.apart h.entries g).sound h
    · rcases Option.or_eq_some_iff.mp g with g | ⟨_, g⟩
      · exact (mustStep_goes h.apart h.entries g).sound h
      · rcases Option.or_eq_some_iff.mp g with g | ⟨_, g⟩
        · exact (flushStep_goes h.apart h.entries g).sound h
        · exact emptyStep_sound h g

/-- What the bridge does by itself keeps the laws of the device. -/
theorem settle_sound {b : Bridge} (h : Sound b) : Sound b.settle := by
  have aux : ∀ k : Nat, ∀ b : Bridge, Sound b → Sound (settleFor k b) := by
    intro k
    induction k with
    | zero => exact fun b h => h
    | succ k ih =>
      intro b h
      unfold settleFor
      split
      · next b' hb => exact ih b' (autoStep_sound h hb)
      · exact h
  exact aux _ b h

end Sys2Proof.Machine
end

