-- ==== Sys2Proof/Laws/Copies.lean ====
section
/-! SUPPORT. Each change of a working copy keeps the law of its kind (R40, R41, R66, R69, R90). -/

namespace Sys2Proof.Machine

open Bridge

/-! ## Fields -/

/-- A 16-bit field holds a number that fits. -/
theorem toNat_half {x : Half} {c : Nat} (h : x = BitVec.ofNat 16 c) (hc : c < 65536) : x.toNat = c := by
  rw [h]
  exact Nat.mod_eq_of_lt hc

theorem Descriptor.cap_lt (d : Descriptor) : d.cap < 65536 := d.capacity.isLt

theorem Descriptor.valueWord_setValue (d : Descriptor) (v : Int) : (d.setValue v).valueWord = BitVec.ofInt 32 v := by
  apply BitVec.eq_of_toNat_eq
  have h := (BitVec.ofInt 32 v).isLt
  have h1 : ((BitVec.ofInt 32 v).extractLsb' 0 16).toNat < 2 ^ 16 := BitVec.isLt _
  simp only [setValue, valueWord, BitVec.toNat_append]
  rw [← Nat.shiftLeft_add_eq_or_of_lt h1, Nat.shiftLeft_eq]
  simp only [BitVec.extractLsb'_toNat, Nat.shiftRight_eq_div_pow]
  omega

/-- The value that is written to a tally is the value it then has, if it is inside its bounds. -/
theorem Descriptor.value_setValue (d : Descriptor) (v : Int) (h1 : d.lower ≤ v) (h2 : v ≤ d.upper) :
    (d.setValue v).value = v := by
  have h3 : -(2 ^ 31) ≤ d.lower := BitVec.le_toInt d.w40
  have h4 : d.upper < 2 ^ 31 := BitVec.toInt_lt
  unfold value
  rw [valueWord_setValue]
  exact BitVec.toInt_ofInt_eq_self (by decide) (by omega) (by omega)

theorem kinds_apart : kindRing ≠ kindStack ∧ kindRing ≠ kindTally ∧ kindStack ≠ kindTally ∧ kindOff ≠ kindRing
    ∧ kindOff ≠ kindStack ∧ kindOff ≠ kindTally := by decide

/-! ## Changes that leave the law's fields -/

/-- The law of a working copy looks at its kind, its own fields and its fault cause only. -/
theorem CopyLaw.congr {n : Nat} {d d' : Descriptor} {r : Bool} (h : CopyLaw n d r) (h1 : d'.kind = d.kind)
    (h2 : d'.capacity = d.capacity) (h3 : d'.w32 = d.w32) (h4 : d'.w34 = d.w34) (h5 : d'.w36 = d.w36) (h6 : d'.b38 = d.b38)
    (h7 : d'.w40 = d.w40) (h8 : d'.w44 = d.w44)
    (h9 : d'.kind = kindStack → d'.b38 = 1 →
      d'.cause = causeOverflow ∨ d'.cause = causeReserve ∨ d'.cause = causeMemory ∨ d'.cause = causeDescriptor) :
    CopyLaw n d' r := by
  refine ⟨by rw [h1]; exact h.legal, by rw [h1]; exact h.ends, ?_, ?_, ?_⟩
  · simp only [Descriptor.head, Descriptor.count, Descriptor.cap, h1, h2, h3, h4]
    exact h.ring
  · intro hk
    obtain ⟨a1, a2, a3, a4, _⟩ := h.stack (h1 ▸ hk)
    refine ⟨?_, ?_, ?_, ?_, h9 hk⟩
    · simpa only [Descriptor.frame, Descriptor.depth, h3, h4] using a1
    · simpa only [Descriptor.cap, Descriptor.depth, h2, h3] using a2
    · simpa only [Descriptor.cap, Descriptor.limit, h2, h5] using a3
    · simpa only [Descriptor.depth, Descriptor.limit, h3, h5, h6] using a4
  · simp only [Descriptor.lower, Descriptor.upper, Descriptor.value, Descriptor.valueWord, h1, h3, h4, h7, h8]
    exact h.tally

/-- A change of a working copy that keeps the law of its kind. -/
structure CopyStep (n : Nat) (d d' : Descriptor) (r : Bool) : Prop where
  law : d'.descriptorHalt = false → CopyLaw n d' r
  kind : d'.kind = d.kind
  halt : r = true → d'.descriptorHalt = false

/-- A change of the flags, the counts for the host, and of the state by a command, outside a structure HALTED with cause
DESCRIPTOR. -/
theorem CopyStep.flags {n : Nat} {d d' : Descriptor} {r : Bool} (h : d.descriptorHalt = false → CopyLaw n d r)
    (hr : r = true → d.descriptorHalt = false) (h0 : d'.state = d.state)
    (hc : d'.cause = d.cause) (h1 : d'.kind = d.kind)
    (h2 : d'.capacity = d.capacity) (h3 : d'.w32 = d.w32) (h4 : d'.w34 = d.w34) (h5 : d'.w36 = d.w36) (h6 : d'.b38 = d.b38)
    (h7 : d'.w40 = d.w40) (h8 : d'.w44 = d.w44) : CopyStep n d d' r := by
  have hd : d'.descriptorHalt = d.descriptorHalt := by simp [Descriptor.descriptorHalt, h0, hc]
  refine ⟨fun x => ?_, h1, by rw [hd]; exact hr⟩
  have law := h (hd ▸ x)
  refine law.congr h1 h2 h3 h4 h5 h6 h7 h8 (fun hk hb => ?_)
  rw [hc]
  exact (law.stack (h1 ▸ hk)).2.2.2.2 (h6 ▸ hb)

theorem notDescriptor_of_cause {d : Descriptor} (h : d.cause ≠ causeDescriptor) : d.descriptorHalt = false := by
  simp [Descriptor.descriptorHalt, h]

theorem notDescriptor_of_state {d : Descriptor} (h : d.state ≠ stHalted) : d.descriptorHalt = false := by
  simp [Descriptor.descriptorHalt, h]

theorem isHalted_false {d : Descriptor} (h : ¬ d.isHalted = true) : d.state ≠ stHalted := by
  simpa [Descriptor.isHalted] using h

/-- A halting cause other than DESCRIPTOR arises (R14, R15). -/
theorem CopyStep.halted {n : Nat} {d : Descriptor} {r : Bool} (c : Byte) (hc : c = causeReserve ∨ c = causeMemory)
    (h : d.state ≠ stHalted) (law : d.descriptorHalt = false → CopyLaw n d r) : CopyStep n d (d.haltedBy c) r := by
  have hq : d.haltedBy c = { d with state := stHalted, cause := c } := by
    simp [Descriptor.haltedBy, Descriptor.isHalted, h]
  have hn : c ≠ causeDescriptor := by rcases hc with x | x <;> rw [x] <;> decide
  rw [hq]
  refine ⟨fun _ => ?_, rfl, fun _ => notDescriptor_of_cause hn⟩
  exact (law (notDescriptor_of_state h)).congr rfl rfl rfl rfl rfl rfl rfl rfl (fun _ _ => by
    rcases hc with x | x
    · exact Or.inr (Or.inl x)
    · exact Or.inr (Or.inr (Or.inl x)))

/-! ## Rings (R43, R44, R49) -/

theorem CopyLaw.ofRing {n : Nat} {d : Descriptor} {r : Bool} (hk : d.kind = kindRing) (h1 : d.head < d.cap)
    (h2 : d.count + (if r then 1 else 0) ≤ d.cap) : CopyLaw n d r :=
  ⟨by rw [hk]; decide, fun _ => hk, fun _ => ⟨h1, h2⟩, fun x => absurd (hk.symm.trans x) kinds_apart.1,
    fun x => absurd (hk.symm.trans x) kinds_apart.2.1⟩

/-- An item was stored in a ring (R43). -/
theorem CopyLaw.ringStored {n : Nat} {d : Descriptor} {r r' : Bool} (h : CopyLaw n d r) (hk : d.kind = kindRing)
    (hc : d.count + 1 + (if r' then 1 else 0) ≤ d.cap) : CopyLaw n d.ringStored r' := by
  have := d.cap_lt
  have hcnt : d.ringStored.count = d.count + 1 := toNat_half rfl (by omega)
  exact CopyLaw.ofRing hk (h.ring hk).1 (by rw [hcnt]; exact hc)

/-- An item left a ring (R44). -/
theorem CopyLaw.ringTaken {n : Nat} {d : Descriptor} {r : Bool} (h : CopyLaw n d r) (hk : d.kind = kindRing) :
    CopyLaw n d.ringTaken r := by
  obtain ⟨h1, h2⟩ := h.ring hk
  have hl := d.cap_lt
  have hm : (d.head + 1) % d.cap < d.cap := Nat.mod_lt _ (by omega)
  have hh : d.ringTaken.head = (d.head + 1) % d.cap := toNat_half rfl (by omega)
  have hc : d.ringTaken.count = d.count - 1 := toNat_half rfl (by omega)
  refine CopyLaw.ofRing hk ?_ ?_
  · rw [hh]; exact hm
  · rw [hc]
    have : d.ringTaken.cap = d.cap := rfl
    omega

/-! ## Stacks (R70 to R77, R79, R85) -/

theorem CopyLaw.ofStack {n : Nat} {d : Descriptor} {r : Bool} (hk : d.kind = kindStack) (hn : ¬ n ≤ 1)
    (h : d.frame ≤ d.depth ∧ d.depth ≤ d.cap ∧ d.limit + 5 ≤ d.cap ∧ (d.b38 ≠ 1 → d.depth ≤ d.limit)
      ∧ (d.b38 = 1 →
        d.cause = causeOverflow ∨ d.cause = causeReserve ∨ d.cause = causeMemory ∨ d.cause = causeDescriptor)) :
    CopyLaw n d r :=
  ⟨by rw [hk]; decide, fun x => absurd x hn, fun x => absurd (x.symm.trans hk) kinds_apart.1, fun _ => h,
    fun x => absurd (hk.symm.trans x) kinds_apart.2.2.1⟩

theorem CopyLaw.stackIndex {n : Nat} {d : Descriptor} {r : Bool} (h : CopyLaw n d r) (hk : d.kind = kindStack) : ¬ n ≤ 1 :=
  fun hn => absurd ((h.ends hn).symm.trans hk) kinds_apart.1

/-- A plain push (R72). -/
theorem CopyLaw.stackPushed {n : Nat} {d : Descriptor} {r : Bool} (h : CopyLaw n d r) (hk : d.kind = kindStack)
    (h1 : d.depth < d.cap) (h2 : d.b38 ≠ 1 → d.depth < d.limit) : CopyLaw n d.stackPushed r := by
  obtain ⟨a1, a2, a3, a4, a5⟩ := h.stack hk
  have hl := d.cap_lt
  have hd : d.stackPushed.depth = d.depth + 1 := toNat_half rfl (by omega)
  refine CopyLaw.ofStack hk (h.stackIndex hk) ⟨?_, ?_, a3, ?_, a5⟩
  · rw [hd]; exact Nat.le_succ_of_le a1
  · rw [hd]; exact h1
  · rw [hd]; exact h2

/-- A plain MARK (R76). -/
theorem CopyLaw.stackMarked {n : Nat} {d : Descriptor} {r : Bool} (h : CopyLaw n d r) (hk : d.kind = kindStack)
    (h1 : d.depth < d.cap) (h2 : d.b38 ≠ 1 → d.depth < d.limit) : CopyLaw n d.stackMarked r := by
  obtain ⟨_, _, a3, _, a5⟩ := h.stack hk
  have hl := d.cap_lt
  have hd : d.stackMarked.depth = d.depth + 1 := toNat_half rfl (by omega)
  have hf : d.stackMarked.frame = d.depth + 1 := toNat_half rfl (by omega)
  refine CopyLaw.ofStack hk (h.stackIndex hk) ⟨?_, ?_, a3, ?_, a5⟩
  · exact Nat.le_of_eq (hf.trans hd.symm)
  · rw [hd]; exact h1
  · rw [hd]; exact h2

/-- A POP (R73). -/
theorem CopyLaw.stackPopped {n : Nat} {d : Descriptor} {r : Bool} (h : CopyLaw n d r) (hk : d.kind = kindStack)
    (h1 : d.frame < d.depth) : CopyLaw n d.stackPopped r := by
  obtain ⟨_, a2, a3, a4, a5⟩ := h.stack hk
  have hl := d.cap_lt
  have hd : d.stackPopped.depth = d.depth - 1 := toNat_half rfl (by omega)
  refine CopyLaw.ofStack hk (h.stackIndex hk) ⟨?_, ?_, a3, ?_, a5⟩
  · have : d.stackPopped.frame = d.frame := rfl
    omega
  · have : d.stackPopped.cap = d.cap := rfl
    omega
  · intro hb
    have : d.stackPopped.limit = d.limit := rfl
    have := a4 hb
    omega

/-- An overflow push (R70). -/
theorem CopyLaw.overflowed {n : Nat} {d : Descriptor} {r : Bool} (h : CopyLaw n d r) (hk : d.kind = kindStack)
    (h1 : d.depth + 5 ≤ d.cap) : CopyLaw n d.overflowed r := by
  have hl := d.cap_lt
  obtain ⟨f1, f2, f3, f4, f5⟩ : d.overflowed.kind = d.kind ∧ d.overflowed.capacity = d.capacity
      ∧ d.overflowed.w36 = d.w36 ∧ d.overflowed.b38 = 1 ∧ d.overflowed.cause = causeOverflow := by
    simp [Descriptor.overflowed, Descriptor.setGuard, Descriptor.setFrame, Descriptor.setDepth]
  have hd : d.overflowed.depth = d.depth + 5 := toNat_half (x := d.overflowed.w32) (by rfl) (by omega)
  have hf : d.overflowed.frame = d.depth + 2 := toNat_half (x := d.overflowed.w34) (by rfl) (by omega)
  have hc : d.overflowed.cap = d.cap := congrArg BitVec.toNat f2
  have hm : d.overflowed.limit = d.limit := congrArg BitVec.toNat f3
  refine CopyLaw.ofStack (f1.trans hk) (h.stackIndex hk) ⟨?_, ?_, ?_, fun hb => absurd f4 hb, fun _ => Or.inl f5⟩
  · omega
  · omega
  · rw [hc, hm]
    exact (h.stack hk).2.2.1

/-- An UNWIND to a saved frame (R77). -/
theorem CopyLaw.unwound {n : Nat} {d : Descriptor} {r : Bool} (h : CopyLaw n d r) (hk : d.kind = kindStack) (saved : Nat)
    (h1 : saved ≤ d.frame - 1) : CopyLaw n (d.unwound saved) r := by
  obtain ⟨a1, a2, a3, a4, a5⟩ := h.stack hk
  have hl := d.cap_lt
  have hd : (d.unwound saved).depth = d.frame - 1 := toNat_half rfl (by omega)
  have hf : (d.unwound saved).frame = saved := toNat_half rfl (by omega)
  refine CopyLaw.ofStack hk (h.stackIndex hk) ⟨?_, ?_, a3, ?_, a5⟩
  · omega
  · have : (d.unwound saved).cap = d.cap := rfl
    omega
  · intro hb
    have : (d.unwound saved).limit = d.limit := rfl
    have := a4 hb
    omega

theorem guardOpen_iff {d : Descriptor} (hk : d.kind = kindStack) : d.guardOpen = true ↔ d.b38 = 1 := by
  simp [Descriptor.guardOpen, Descriptor.isStack, hk]

/-- An underflow (R79). -/
theorem CopyLaw.underflowed {n : Nat} {d : Descriptor} {r : Bool} (h : CopyLaw n d r) : CopyLaw n d.underflowed r := by
  unfold Descriptor.underflowed
  split
  · exact h
  · next hg =>
    refine h.congr rfl rfl rfl rfl rfl rfl rfl rfl (fun hk hb => absurd ((guardOpen_iff hk).mpr hb) hg)

/-! ## Tallies (R91 to R95) -/

theorem CopyLaw.ofTally {n : Nat} {d : Descriptor} {r : Bool} (hk : d.kind = kindTally) (hn : ¬ n ≤ 1)
    (h1 : d.lower ≤ d.value) (h2 : d.value ≤ d.upper) : CopyLaw n d r :=
  ⟨by rw [hk]; decide, fun x => absurd x hn, fun x => absurd (x.symm.trans hk) kinds_apart.2.1,
    fun x => absurd (x.symm.trans hk) kinds_apart.2.2.1, fun _ => ⟨h1, h2⟩⟩

theorem CopyLaw.tallyIndex {n : Nat} {d : Descriptor} {r : Bool} (h : CopyLaw n d r) (hk : d.kind = kindTally) : ¬ n ≤ 1 :=
  fun hn => absurd ((h.ends hn).symm.trans hk) kinds_apart.2.1

/-- A tally takes a value inside its bounds. -/
theorem CopyLaw.withValue {n : Nat} {d : Descriptor} {r : Bool} (h : CopyLaw n d r) (hk : d.kind = kindTally) (v : Int)
    (h1 : d.lower ≤ v) (h2 : v ≤ d.upper) : CopyLaw n (d.withValue v) r := by
  have hv : (d.withValue v).value = v := d.value_setValue v h1 h2
  exact CopyLaw.ofTally hk (h.tallyIndex hk) (by rw [hv]; exact h1) (by rw [hv]; exact h2)

/-- A tally takes a raw result (R91, R92). -/
theorem CopyLaw.advanced {n : Nat} {d : Descriptor} {r : Bool} (h : CopyLaw n d r) (hk : d.kind = kindTally) (raw : Int) :
    CopyLaw n (d.advanced raw) r := by
  obtain ⟨h1, h2⟩ := h.tally hk
  unfold Descriptor.advanced
  split
  · refine h.withValue hk _ ?_ ?_ <;> (unfold Descriptor.clamped; repeat' split) <;> omega
  · have hp : 0 < d.span := by unfold Descriptor.span; omega
    have m1 := Int.emod_nonneg (raw - d.lower) (by omega : d.span ≠ 0)
    have m2 := Int.emod_lt_of_pos (raw - d.lower) hp
    have hw : CopyLaw n (d.withValue (d.wrapped raw)) r := by
      refine h.withValue hk _ ?_ ?_
      · unfold Descriptor.wrapped; omega
      · unfold Descriptor.wrapped
        unfold Descriptor.span at m2 ⊢
        omega
    exact hw.congr rfl rfl rfl rfl rfl rfl rfl rfl (fun x _ => absurd (hk.symm.trans x) kinds_apart.2.2.1.symm)

/-! ## Commands (R13, R16, R58, R85, R86, R100) -/

theorem isRing_iff {d : Descriptor} : d.isRing = true ↔ d.kind = kindRing := by simp [Descriptor.isRing]
theorem isStack_iff {d : Descriptor} : d.isStack = true ↔ d.kind = kindStack := by simp [Descriptor.isStack]
theorem isTally_iff {d : Descriptor} : d.isTally = true ↔ d.kind = kindTally := by simp [Descriptor.isTally]
theorem isOff_iff {d : Descriptor} : d.isOff = true ↔ d.kind = kindOff := by simp [Descriptor.isOff]

/-- A legal kind that is none of three is the fourth. -/
theorem kind_cases {d : Descriptor} (h : d.kind.toNat ≤ 3) :
    d.kind = kindOff ∨ d.kind = kindRing ∨ d.kind = kindStack ∨ d.kind = kindTally := by
  have h0 : d.kind.toNat = 0 ∨ d.kind.toNat = 1 ∨ d.kind.toNat = 2 ∨ d.kind.toNat = 3 := by omega
  rcases h0 with x | x | x | x
  · exact Or.inl (BitVec.eq_of_toNat_eq x)
  · exact Or.inr (Or.inl (BitVec.eq_of_toNat_eq x))
  · exact Or.inr (Or.inr (Or.inl (BitVec.eq_of_toNat_eq x)))
  · exact Or.inr (Or.inr (Or.inr (BitVec.eq_of_toNat_eq x)))

/-- ABORT (R58, R86, R100). -/
theorem CopyLaw.aborted {n : Nat} {d : Descriptor} {r : Bool} (h : CopyLaw n d r) (ho : d.kind ≠ kindOff) :
    CopyLaw n d.aborted r ∧ d.aborted.kind = d.kind := by
  have hl := d.cap_lt
  rcases kind_cases h.legal with hk | hk | hk | hk
  · exact absurd hk ho
  · obtain ⟨h1, h2⟩ := h.ring hk
    have hq : d.aborted = { (((d.setHead ((d.head + d.count) % d.cap)).setCount 0).setOverrun false) with
        flushed := BitVec.ofNat 16 d.count } := if_pos (isRing_iff.mpr hk)
    have hm : (d.head + d.count) % d.cap < d.cap := Nat.mod_lt _ (by omega)
    have hh : d.aborted.head = (d.head + d.count) % d.cap := by
      rw [hq]; exact toNat_half rfl (by omega)
    have hc : d.aborted.count = 0 := by rw [hq]; exact toNat_half rfl (by omega)
    have hcap : d.aborted.cap = d.cap := by rw [hq]; rfl
    have hkk : d.aborted.kind = d.kind := by rw [hq]; rfl
    refine ⟨CopyLaw.ofRing (hkk.trans hk) (by omega) ?_, hkk⟩
    rw [hc, hcap]
    split <;> omega
  · have hq : d.aborted = { ((d.setDepth 0).setFrame 0).setGuard false with
        flushed := BitVec.ofNat 16 d.depth
        cause := if d.cause = causeOverflow ∨ d.cause = causeUnderflow then causeNone else d.cause } := by
      unfold Descriptor.aborted
      rw [if_neg (by rw [isRing_iff, hk]; decide), if_pos (isStack_iff.mpr hk)]
    have hd : d.aborted.depth = 0 := by rw [hq]; rfl
    have hf : d.aborted.frame = 0 := by rw [hq]; rfl
    have hb : d.aborted.b38 = 0 := by rw [hq]; rfl
    have hkk : d.aborted.kind = d.kind := by rw [hq]; rfl
    obtain ⟨_, _, a3, _, _⟩ := h.stack hk
    have hcap : d.aborted.cap = d.cap := by rw [hq]; rfl
    have hlim : d.aborted.limit = d.limit := by rw [hq]; rfl
    refine ⟨CopyLaw.ofStack (hkk.trans hk) (h.stackIndex hk) ⟨by omega, by omega, by omega, fun _ => by omega, ?_⟩, hkk⟩
    rw [hb]
    exact fun x => absurd x (by decide)
  · have hq : d.aborted = { (d.withValue d.lower).setWraps 0 with flushed := 0 } := by
      unfold Descriptor.aborted
      rw [if_neg (by rw [isRing_iff, hk]; decide), if_neg (by rw [isStack_iff, hk]; decide)]
    rw [hq]
    obtain ⟨h1, h2⟩ := h.tally hk
    exact ⟨(h.withValue hk d.lower (Int.le_refl _) (by omega)).congr rfl rfl rfl rfl rfl rfl rfl rfl
      (fun x _ => absurd (hk.symm.trans x) kinds_apart.2.2.1.symm), rfl⟩

theorem aborted_state (d : Descriptor) : d.aborted.state = d.state := by
  unfold Descriptor.aborted
  split
  · rfl
  · split <;> rfl

theorem aborted_halt {d : Descriptor} (h : d.descriptorHalt = false) : d.aborted.descriptorHalt = false := by
  by_cases hs : d.state = stHalted
  · have hc : d.cause ≠ causeDescriptor := by
      intro x
      simp [Descriptor.descriptorHalt, hs, x] at h
    refine notDescriptor_of_cause ?_
    unfold Descriptor.aborted
    split
    · exact hc
    · split
      · dsimp only
        split
        · decide
        · exact hc
      · exact hc
  · exact notDescriptor_of_state (by rw [aborted_state]; exact hs)

/-- A descriptor that passes validation obeys the law of its kind (R17). -/
theorem CopyLaw.ofValid {n : Nat} {d : Descriptor} {g : Settings} {straps : Fin 16} (h : d.valid g straps n = true) :
    CopyLaw n d false := by
  simp only [Descriptor.valid, Bool.and_eq_true, Bool.or_eq_true] at h
  obtain ⟨hs, hk⟩ := h
  have ends : n ≤ 1 → d.kind = kindRing := by
    intro hn
    unfold Descriptor.shapeOk at hs
    split at hs
    · simp only [Bool.and_eq_true] at hs
      exact isRing_iff.mp hs.1.1
    · split at hs
      · simp only [Bool.and_eq_true] at hs
        exact isRing_iff.mp hs.1.1.1.1
      · omega
  rcases hk with hk | ⟨_, (⟨⟨hk, _⟩, hr⟩ | ⟨⟨hk, _⟩, hr⟩) | ⟨hk, hr⟩⟩
  · have hk := isOff_iff.mp hk
    refine ⟨by rw [hk]; decide, ends, fun x => ?_, fun x => ?_, fun x => ?_⟩
    · exact absurd (hk.symm.trans x) kinds_apart.2.2.2.1
    · exact absurd (hk.symm.trans x) kinds_apart.2.2.2.2.1
    · exact absurd (hk.symm.trans x) kinds_apart.2.2.2.2.2
  · simp only [Descriptor.ringOk, Bool.and_eq_true, decide_eq_true_eq] at hr
    exact CopyLaw.ofRing (isRing_iff.mp hk) hr.1.2 (by simpa using hr.2)
  · have hk := isStack_iff.mp hk
    simp only [Descriptor.stackOk, Bool.and_eq_true, Bool.or_eq_true, decide_eq_true_eq, Bool.not_eq_true', beq_iff_eq] at hr
    obtain ⟨⟨⟨⟨⟨⟨_, h1⟩, h2⟩, h3⟩, _⟩, h4⟩, h5⟩ := hr
    refine ⟨by rw [hk]; decide, ends, fun x => absurd (x.symm.trans hk) kinds_apart.1, fun _ => ⟨h2, h3, h1, ?_, ?_⟩,
      fun x => absurd (hk.symm.trans x) kinds_apart.2.2.1⟩
    · intro hb
      exact h4.resolve_left (fun x => hb ((guardOpen_iff hk).mp x))
    · intro hb
      have hg := (guardOpen_iff hk).mpr hb
      simp only [hg] at h5
      simpa [or_assoc] using h5
  · have hk := isTally_iff.mp hk
    simp only [Descriptor.tallyOk, Bool.and_eq_true, decide_eq_true_eq] at hr
    refine ⟨by rw [hk]; decide, ends, fun x => absurd (x.symm.trans hk) kinds_apart.2.1,
      fun x => absurd (x.symm.trans hk) kinds_apart.2.2.1, fun _ => ⟨hr.1.1.1, hr.1.1.2⟩⟩

/-- CLEAR_FAULT (R16). -/
theorem CopyStep.clearFault {n : Nat} {d d' : Descriptor} {r : Bool} {g : Settings} {straps : Fin 16}
    (law : d.descriptorHalt = false → CopyLaw n d r) (hr : r = true → d.descriptorHalt = false)
    (h : d.clearFault g straps n = some d') : CopyStep n d d' r := by
  have open_ (d'' : Descriptor) (hs : d''.state = stOpen) : d''.descriptorHalt = false :=
    notDescriptor_of_state (by rw [hs]; decide)
  have cleared : CopyLaw n d r → CopyLaw n d.cleared r := fun hl =>
    hl.congr rfl rfl rfl rfl rfl rfl rfl rfl (fun hk hb => by
      have hg : d.guardOpen = true := (guardOpen_iff hk).mpr hb
      exact Or.inl (by simp [Descriptor.cleared, hg]))
  unfold Descriptor.clearFault at h
  split at h
  · cases h
    exact ⟨law, rfl, hr⟩
  · split at h
    · next hc =>
      cases h
      have hn : d.descriptorHalt = false := notDescriptor_of_cause (by rw [hc]; decide)
      have hl := law hn
      refine ⟨fun _ => hl.congr rfl rfl rfl rfl rfl rfl rfl rfl (fun hk hb => ?_), rfl,
        fun _ => notDescriptor_of_cause (show causeNone ≠ causeDescriptor by decide)⟩
      have := (hl.stack hk).2.2.2.2 hb
      rw [hc] at this
      exact absurd this (by decide)
    · split at h
      · next hc =>
        split at h
        · cases h
        · next hg =>
          cases h
          have hl := law (notDescriptor_of_cause (by rw [hc]; decide))
          exact ⟨fun _ => hl.congr rfl rfl rfl rfl rfl rfl rfl rfl
              (fun hk hb => absurd ((guardOpen_iff hk).mpr hb) hg), rfl,
            fun _ => notDescriptor_of_cause (show causeNone ≠ causeDescriptor by decide)⟩
      · split at h
        · next hc =>
          cases h
          exact ⟨fun _ => cleared (law (notDescriptor_of_cause (by rw [hc]; decide))), rfl, fun _ => open_ _ rfl⟩
        · split at h
          · next hc =>
            split at h
            · cases h
            · cases h
              exact ⟨fun _ => cleared (law (notDescriptor_of_cause (by rw [hc]; decide))), rfl, fun _ => open_ _ rfl⟩
          · split at h
            · next hv =>
              cases h
              refine ⟨fun _ => ?_, rfl, fun _ => open_ _ rfl⟩
              cases r with
              | false => exact CopyLaw.ofValid hv
              | true => exact cleared (law (hr rfl))
            · cases h

/-- CLOSE_GUARD (R85). -/
theorem CopyLaw.guardClosed {n : Nat} {d : Descriptor} {r : Bool} (h : CopyLaw n d r) (hd : d.depth ≤ d.limit)
    (h1 : d.kind ≠ kindRing) (h2 : d.kind ≠ kindTally) : CopyLaw n d.guardClosed r := by
  refine ⟨h.legal, h.ends, fun x => absurd x h1, fun hk => ?_, fun x => absurd x h2⟩
  obtain ⟨a1, a2, a3, _, _⟩ := h.stack hk
  exact ⟨a1, a2, a3, fun _ => hd, fun hb => absurd hb (show (0 : Byte) ≠ 1 by decide)⟩

/-! ## Fetches (R109) -/

/-- What a fetch takes in obeys the law of its kind, or is HALTED with cause DESCRIPTOR. -/
theorem CopyLaw.fetched {n : Nat} {d : Descriptor} {g : Settings} {straps : Fin 16}
    (h : (d.fetched g straps n).descriptorHalt = false) : CopyLaw n (d.fetched g straps n) false := by
  unfold Descriptor.fetched at h ⊢
  split at h
  · next hm =>
    simp [Descriptor.alreadyMarked] at hm
    rw [hm.1] at h
    cases h
  · split at h
    · next hm hv => rw [if_neg hm, if_pos hv]; exact CopyLaw.ofValid hv
    · exact absurd h (by simp [Descriptor.marked, Descriptor.descriptorHalt])

end Sys2Proof.Machine
end

