-- ==== Sys2Proof/Laws/Works.lean ====
section
/-! SUPPORT. The operations that taps, commands, the notice writer and completion processing apply to a working copy keep the
laws of the device. -/

namespace Sys2Proof.Machine

open Bridge

/-! ## A working copy in use -/

/-- Structure `n` is held as the entry `e` was, with no access in progress, and may be changed. -/
structure Applied (b : Bridge) (n : Nat) (e : Entry) : Prop where
  copy : e.copy.descriptorHalt = false → CopyLaw n e.copy e.reservation
  pinned : e.pin = true → e.copy.kind ≠ kindOff ∧ e.copy.kind ≠ kindTally
  reserved : e.reservation = true → n ≠ 1 ∧ e.copy.descriptorHalt = false
  here : ∀ x ∈ b.cache, x.index = n → x.state.isFetching = false ∧ x.copy = e.copy ∧ x.reservation = e.reservation
    ∧ x.pin = e.pin ∧ x.busy = none

theorem Applied.same {b b' : Bridge} {n : Nat} {e : Entry} (h : Applied b n e) (g : Same b b') : Applied b' n e :=
  ⟨h.copy, h.pinned, h.reserved, by rw [g.cache]; exact h.here⟩

theorem Applied.of {b : Bridge} {n : Nat} {e : Entry} (law : EntryLaw e) (hi : e.index = n) (hs : e.state.isFetching = false)
    (here : ∀ x ∈ b.cache, x.index = n → x.state.isFetching = false ∧ x.copy = e.copy ∧ x.reservation = e.reservation
      ∧ x.pin = e.pin ∧ x.busy = none) : Applied b n e :=
  ⟨by rw [← hi]; exact law.copy hs, law.pinned, by rw [← hi]; exact law.reserved, here⟩

/-- The operation at the front of a ready entry is applied. -/
theorem startOp_applied {b : Bridge} {n : Nat} {e : Entry} (he : Entries b) (h : b.entry? n = some e)
    (hr : e.ready = true) : Applied (b.startOp n) n e := by
  obtain ⟨hm, hi⟩ := entry?_mem b n e h
  obtain ⟨_, hb, hs, _⟩ := ready_state hr
  refine Applied.of (he e hm) hi hs (fun x hx hxi => ?_)
  simp only [startOp, h, List.mem_cons, List.mem_filter, bne_iff_ne, ne_eq] at hx
  rcases hx with hx | ⟨_, hx⟩
  · subst hx
    exact ⟨hs, rfl, rfl, rfl, hb⟩
  · exact absurd hxi hx

/-- A working copy is changed (R103). -/
theorem writeCopy_goes {b : Bridge} {n : Nat} {e : Entry} {d : Descriptor} (m : Nat) (ha : Apart b) (he : Entries b)
    (h : Applied b n e) (hs : CopyStep n e.copy d e.reservation) : Goes 0 m b (b.writeCopy n d) := by
  refine setEntry_goes (fun x => x.withCopy d) n m ha he (fun x hx hi => ?_)
  obtain ⟨h1, h2, h3, h4, h5⟩ := h.here x hx hi
  unfold Entry.withCopy
  split
  · exact Keeps.refl (he x hx)
  · refine Keeps.copied (he x hx) rfl rfl (Or.inl rfl) rfl rfl ?_ ?_ ?_ ?_ (Nat.le_refl _)
      (fun w hb hw => ⟨w, hb, hw, rfl, rfl⟩)
    · rw [hi, h3]; exact hs.law
    · intro w hw
      rw [show x.busy = none from h5] at hw
      cases hw
    · intro hp
      have hk : d.kind = e.copy.kind := hs.kind
      dsimp only
      rw [hk]
      exact h.pinned (h4 ▸ hp)
    · intro hr
      exact hs.halt (h3 ▸ hr)

/-- A party other than the engine begins an item access that it found possible (R42, R68). -/
theorem beginItem_goes {b : Bridge} {n : Nat} {e : Entry} {w : ItemWork} {p : Party} {st wr : Bool} {addr : Nat}
    {data : List Byte} {k : Nat} (m : Nat) (ha : Apart b) (he : Entries b) (h : Applied b n e)
    (hp : p ≠ .engine) (hw : AccessLaw e.copy e.reservation ⟨w, p⟩) : Goes 0 m b (b.beginItem n w p st wr addr data k) := by
  have hr : Busy.ofRun ⟨w, p⟩ = false := by simp [Busy.ofRun, hp]
  have g := setEntry_goes (b := b) (fun x => { x with busy := some ⟨w, p⟩ }) n m ha he (fun x hx hi => by
    obtain ⟨h1, h2, h3, h4, h5⟩ := h.here x hx hi
    have law := he x hx
    refine Keeps.copied law rfl h1 (Or.inr rfl) rfl rfl (law.copy h1) ?_ law.pinned (fun r => (law.reserved r).2) ?_ ?_
    · intro v hv
      cases hv
      dsimp only
      rw [h2, h3]
      exact hw
    · simp only [Entry.runs, h5, hr, Option.any_some, Option.any_none]
      exact Nat.le_refl _
    · intro v hv hvr
      cases hv
      rw [hr] at hvr
      cases hvr)
  exact g.trans ((issue_same _ _ _ _ _ _).goes g.apart g.entries m)

/-- A structure is halted (R14, R15). -/
theorem halt_goes {b : Bridge} {n : Nat} {e : Entry} (c : Byte) (m : Nat) (hc : c = causeReserve ∨ c = causeMemory)
    (ha : Apart b) (he : Entries b) (h : Applied b n e) : Goes 0 m b (b.halt n e.copy c) := by
  unfold halt
  split
  · exact Goes.refl ha he m
  · next hh =>
    have g := writeCopy_goes m ha he h (CopyStep.halted c hc (isHalted_false hh) h.copy)
    exact g.trans ((notify_same _ _).goes g.apart g.entries m)

theorem Same.after {k n : Nat} {a b c : Bridge} (g : Goes k n a b) (h : Same b c) : Goes k n a c :=
  g.trans (h.goes g.apart g.entries n)

/-! ## Taps (R24 to R32) -/

/-- A tap that fits selects an operation of the structure's kind (R24). -/
theorem fit_kind {d : Descriptor} {t : Tap} {k : TapKind} (h : d.fit t = some k) :
    (d.kind = kindRing ∧ (k = .put ∨ k = .take ∨ k = .peek ∨ k = .level ∨ k = .status))
    ∨ (d.kind = kindStack ∧ (k = .push ∨ k = .pop ∨ k = .top ∨ k = .depth ∨ k = .mark ∨ k = .unwind ∨ k = .status))
    ∨ (d.kind = kindTally ∧ (k = .next ∨ k = .add ∨ k = .set ∨ k = .value ∨ k = .wraps ∨ k = .status)) := by
  have ring : ∀ w x k, ringTap w x = some k → k = .put ∨ k = .take ∨ k = .peek ∨ k = .level ∨ k = .status := by
    intro w x k h
    unfold ringTap at h
    split at h <;> first | (cases h; done) | (simp only [Option.some.injEq] at h; subst h; simp)
  have stack : ∀ w x k, stackTap w x = some k →
      k = .push ∨ k = .pop ∨ k = .top ∨ k = .depth ∨ k = .mark ∨ k = .unwind ∨ k = .status := by
    intro w x k h
    unfold stackTap at h
    split at h <;> first | (cases h; done) | (simp only [Option.some.injEq] at h; subst h; simp)
  have tally : ∀ w x k, tallyTap w x = some k →
      k = .next ∨ k = .add ∨ k = .set ∨ k = .value ∨ k = .wraps ∨ k = .status := by
    intro w x k h
    unfold tallyTap at h
    split at h <;> first | (cases h; done) | (simp only [Option.some.injEq] at h; subst h; simp)
  unfold Descriptor.fit at h
  split at h
  · next k' hk =>
    split at h
    · simp only [Option.some.injEq] at h
      subst h
      unfold selectTap at hk
      dsimp only at hk
      by_cases h1 : d.kind = kindRing
      · refine Or.inl ⟨h1, ?_⟩
        rw [if_pos h1] at hk
        split at hk
        · obtain ⟨j, hj, rfl⟩ := Option.map_eq_some_iff.mp hk
          rcases ring _ _ _ hj with x | x | x | x | x <;> subst x <;> simp [TapKind.observing]
        · exact ring _ _ _ hk
      · rw [if_neg h1] at hk
        by_cases h2 : d.kind = kindStack
        · refine Or.inr (Or.inl ⟨h2, ?_⟩)
          rw [if_pos h2] at hk
          split at hk
          · obtain ⟨j, hj, rfl⟩ := Option.map_eq_some_iff.mp hk
            rcases stack _ _ _ hj with x | x | x | x | x | x | x <;> subst x <;> simp [TapKind.observing]
          · exact stack _ _ _ hk
        · rw [if_neg h2] at hk
          by_cases h3 : d.kind = kindTally
          · refine Or.inr (Or.inr ⟨h3, ?_⟩)
            rw [if_pos h3] at hk
            split at hk
            · obtain ⟨j, hj, rfl⟩ := Option.map_eq_some_iff.mp hk
              rcases tally _ _ _ hj with x | x | x | x | x | x <;> subst x <;> simp [TapKind.observing]
            · exact tally _ _ _ hk
          · rw [if_neg h3] at hk
            split at hk <;> simp at hk
    · cases h
  · cases h

/-- A producing or consuming tap that passes its checks finds a structure that is not HALTED (R12, R32). -/
theorem gate_state {d : Descriptor} {n : Nat} {k : TapKind} {i : Initiator} (h : d.gate n k i = none)
    (hk : (k.producing || k.consuming) = true) : d.state ≠ stHalted := by
  intro hs
  unfold Descriptor.gate at h
  split at h
  · cases h
  · unfold Descriptor.stateRefusal at h
    rw [if_pos (by simp [Descriptor.isHalted, hs]), if_pos (by simp [hk])] at h
    cases h

/-- A tap is applied, when what its operation does keeps the laws. -/
theorem tapStep_goes {b b' : Bridge} {n : Nat} {k : TapKind} {effect : Tap → Descriptor → Entry → Bridge → Bridge}
    (ha : Apart b) (he : Entries b) (hs : b.tapStep n k effect = some b')
    (h : ∀ t e b, Apart b → Entries b → Applied b n e → e.copy.fit t = some k → e.copy.gate n k t.initiator = none →
      Goes 0 0 b (effect t e.copy e b)) : Goes 0 0 b b' := by
  unfold tapStep at hs
  split at hs
  · cases hs
  · next e hf =>
    split at hs
    · next t l hw =>
      split at hs
      · next hc =>
        have g := startOp_goes n 0 ha he
        have ap := startOp_applied he hf hc.1
        split at hs
        · next r hg =>
          cases hs
          unfold refuseGated
          dsimp only
          split
          · next hl =>
            refine g.trans (Same.after (writeCopy_goes 0 g.apart g.entries ap ?_) (refuseTap_same _ _ _))
            exact CopyStep.flags ap.copy (fun x => (ap.reserved x).2) rfl rfl rfl rfl rfl rfl rfl rfl rfl rfl
          · exact Same.after g (refuseTap_same _ _ _)
        · next hg =>
          cases hs
          exact g.trans (h t e _ g.apart g.entries ap hc.2 hg)
      · cases hs
    · cases hs

theorem answerEmpty_same (b : Bridge) (t : Tap) (d : Descriptor) : Same b (b.answerEmpty t d) := by
  unfold answerEmpty
  split
  · exact answer_same _ _ _ _
  · exact refuseTap_same _ _ _

theorem dropItem_goes {b : Bridge} {n : Nat} {e : Entry} {i : Option Initiator} {mv : Option Nat} (ha : Apart b) (he : Entries b)
    (ap : Applied b n e) : Goes 0 0 b (b.dropItem n e.copy i mv) := by
  have g := writeCopy_goes (d := e.copy.dropped) 0 ha he ap
    (CopyStep.flags ap.copy (fun x => (ap.reserved x).2) rfl rfl rfl rfl rfl rfl rfl rfl rfl rfl)
  unfold dropItem
  dsimp only
  split
  · exact Same.after g (notify_same _ _)
  · exact g

section Taps

variable {b : Bridge} {n : Nat} {e : Entry} {t : Tap}

theorem putEffect_goes (ha : Apart b) (he : Entries b) (ap : Applied b n e) (hf : e.copy.fit t = some .put)
    (hg : e.copy.gate n .put t.initiator = none) : Goes 0 0 b (putEffect n t e.copy e b) := by
  have hk : e.copy.kind = kindRing := by simpa using fit_kind hf
  have hd := notDescriptor_of_state (gate_state hg rfl)
  unfold putEffect
  split
  · next hfull =>
    refine beginItem_goes 0 ha he ap (fun x => nomatch x) ⟨⟨hk, hd⟩, ?_⟩
    simpa [Descriptor.full] using hfull
  · split
    · exact Same.after (dropItem_goes ha he ap) (answer_same _ _ _ _)
    · exact (refuseTap_same _ _ _).goes ha he 0

theorem takeEffect_goes (ha : Apart b) (he : Entries b) (ap : Applied b n e) (hf : e.copy.fit t = some .take)
    (hg : e.copy.gate n .take t.initiator = none) : Goes 0 0 b (headEffect .ringTake n t e.copy e b) := by
  have hk : e.copy.kind = kindRing := by simpa using fit_kind hf
  have hd := notDescriptor_of_state (gate_state hg rfl)
  unfold headEffect
  split
  · exact beginItem_goes 0 ha he ap (fun x => nomatch x) ⟨hk, hd⟩
  · exact (answerEmpty_same _ _ _).goes ha he 0

theorem peekEffect_goes (ha : Apart b) (he : Entries b) (ap : Applied b n e) :
    Goes 0 0 b (headEffect .ringPeek n t e.copy e b) := by
  unfold headEffect
  split
  · exact beginItem_goes 0 ha he ap (fun x => nomatch x) trivial
  · exact (answerEmpty_same _ _ _).goes ha he 0

/-- What a push, by a tap or by the engine, finds possible (R70 to R72). -/
theorem push_access {d : Descriptor} {r : Bool} {work : ItemWork} {saved code : Nat} {p : Party}
    (hw : work = .stackPush ∨ work = .stackMark) (hk : d.kind = kindStack) (hd : d.descriptorHalt = false)
    (law : CopyLaw n d r) (hx : ¬ d.pushExhausted = true) :
    AccessLaw d r ⟨if d.pushPlain then work else .stackOverflow (d.faultFrame saved code), p⟩ := by
  obtain ⟨_, a2, a3, a4, _⟩ := law.stack hk
  by_cases hp : d.pushPlain = true
  · rw [if_pos hp]
    have h1 : d.depth < d.cap ∧ (d.b38 ≠ 1 → d.depth < d.limit) := by
      unfold Descriptor.pushPlain at hp
      split at hp
      · next hg => exact ⟨by simpa using hp, fun hb => absurd ((guardOpen_iff hk).mp hg) hb⟩
      · have : d.depth < d.limit := by simpa using hp
        exact ⟨by omega, fun _ => this⟩
    rcases hw with x | x <;> rw [x] <;> exact ⟨⟨hk, hd⟩, h1⟩
  · rw [if_neg hp]
    refine ⟨⟨hk, hd⟩, ?_⟩
    unfold Descriptor.pushPlain at hp
    unfold Descriptor.pushExhausted at hx
    by_cases hg : d.guardOpen = true
    · simp [hg] at hp hx
      omega
    · have := a4 (fun hb => hg ((guardOpen_iff hk).mpr hb))
      omega

theorem pushTap_goes {work : ItemWork} {item : Descriptor → Tap → List Byte} {saved : Descriptor → Nat}
    (hw : work = .stackPush ∨ work = .stackMark) (ha : Apart b) (he : Entries b) (ap : Applied b n e)
    (hk : e.copy.kind = kindStack) (hs : e.copy.state ≠ stHalted) :
    Goes 0 0 b (pushTap work item saved n t e.copy e b) := by
  have hd := notDescriptor_of_state hs
  unfold pushTap
  split
  · exact Same.after (halt_goes _ 0 (Or.inl rfl) ha he ap) (refuseTap_same _ _ _)
  · next hx => exact beginItem_goes 0 ha he ap (fun x => nomatch x) (push_access hw hk hd (ap.copy hd) hx)

theorem popEffect_goes (ha : Apart b) (he : Entries b) (ap : Applied b n e) (hf : e.copy.fit t = some .pop)
    (hg : e.copy.gate n .pop t.initiator = none) : Goes 0 0 b (popEffect n t e.copy e b) := by
  have hk : e.copy.kind = kindStack := by simpa using fit_kind hf
  have hd := notDescriptor_of_state (gate_state hg rfl)
  have law := ap.copy hd
  unfold popEffect
  split
  · unfold underflow
    dsimp only
    have hc : e.copy.underflowed.descriptorHalt = false := by
      unfold Descriptor.underflowed
      split
      · exact hd
      · exact notDescriptor_of_state (gate_state hg rfl)
    have hkk : e.copy.underflowed.kind = e.copy.kind := by
      unfold Descriptor.underflowed
      split <;> rfl
    have g := writeCopy_goes 0 ha he ap (d := e.copy.underflowed) ⟨fun _ => law.underflowed, hkk, fun _ => hc⟩
    split
    · exact Same.after (Same.after g (notify_same _ _)) (answerEmpty_same _ _ _)
    · exact Same.after g (answerEmpty_same _ _ _)
  · split
    · exact (refuseTap_same _ _ _).goes ha he 0
    · next h1 h2 =>
      refine beginItem_goes 0 ha he ap (fun x => nomatch x) ⟨⟨hk, hd⟩, ?_⟩
      have := (law.stack hk).1
      omega

theorem topEffect_goes (ha : Apart b) (he : Entries b) (ap : Applied b n e) : Goes 0 0 b (topEffect n t e.copy e b) := by
  unfold topEffect
  split
  · exact (answerEmpty_same _ _ _).goes ha he 0
  · exact beginItem_goes 0 ha he ap (fun x => nomatch x) trivial

theorem unwindEffect_goes (ha : Apart b) (he : Entries b) (ap : Applied b n e) (hf : e.copy.fit t = some .unwind)
    (hg : e.copy.gate n .unwind t.initiator = none) : Goes 0 0 b (unwindEffect n t e.copy e b) := by
  have hk : e.copy.kind = kindStack := by simpa using fit_kind hf
  unfold unwindEffect
  split
  · exact (refuseTap_same _ _ _).goes ha he 0
  · exact beginItem_goes 0 ha he ap (fun x => nomatch x) ⟨hk, notDescriptor_of_state (gate_state hg rfl)⟩

theorem withValue_state (d : Descriptor) (v : Int) : (d.withValue v).state = d.state := rfl

theorem advanced_frame (d : Descriptor) (raw : Int) : (d.advanced raw).state = d.state ∧ (d.advanced raw).kind = d.kind := by
  unfold Descriptor.advanced
  split <;> exact ⟨rfl, rfl⟩

theorem advanceTally_goes {raw : Int} (ha : Apart b) (he : Entries b) (ap : Applied b n e) (hk : e.copy.kind = kindTally)
    (hs : e.copy.state ≠ stHalted) : Goes 0 0 b (b.advanceTally n e.copy raw) := by
  have hd := notDescriptor_of_state hs
  have g := writeCopy_goes 0 ha he ap (d := e.copy.advanced raw)
    ⟨fun _ => (ap.copy hd).advanced hk raw, (advanced_frame _ _).2,
      fun _ => notDescriptor_of_state (by rw [(advanced_frame _ _).1]; exact hs)⟩
  unfold advanceTally
  dsimp only
  split
  · exact Same.after g (post_same _ _ _)
  · exact g

theorem nextEffect_goes (ha : Apart b) (he : Entries b) (ap : Applied b n e) (hf : e.copy.fit t = some .next)
    (hg : e.copy.gate n .next t.initiator = none) : Goes 0 0 b (nextEffect n t e.copy e b) :=
  Same.after (advanceTally_goes ha he ap (by simpa using fit_kind hf) (gate_state hg rfl)) (answer_same _ _ _ _)

theorem addEffect_goes (ha : Apart b) (he : Entries b) (ap : Applied b n e) (hf : e.copy.fit t = some .add)
    (hg : e.copy.gate n .add t.initiator = none) : Goes 0 0 b (addEffect n t e.copy e b) :=
  Same.after (advanceTally_goes ha he ap (by simpa using fit_kind hf) (gate_state hg rfl)) (answer_same _ _ _ _)

theorem setEffect_goes (ha : Apart b) (he : Entries b) (ap : Applied b n e) (hf : e.copy.fit t = some .set)
    (hg : e.copy.gate n .set t.initiator = none) : Goes 0 0 b (setEffect n t e.copy e b) := by
  have hs := gate_state hg rfl
  have hk : e.copy.kind = kindTally := by simpa using fit_kind hf
  unfold setEffect
  split
  · next hv =>
    refine Same.after (writeCopy_goes 0 ha he ap ?_) (answer_same _ _ _ _)
    exact ⟨fun _ => (ap.copy (notDescriptor_of_state hs)).withValue hk _ hv.1 hv.2, rfl, fun _ => notDescriptor_of_state hs⟩
  · exact (refuseTap_same _ _ _).goes ha he 0

end Taps

/-! ## The record cache asked by a party that waits (R105) -/

/-- An operation of no run is asked for, or applied in its turn. -/
theorem askOrApply_goes {b b' : Bridge} {n : Nat} {op : CacheOp} {asked : Bool} {mark : Bridge → Bridge}
    {apply : Entry → Bridge → Bridge} (ho : op.ofRun = false) (hm : ∀ b, Same b (mark b)) (ha : Apart b) (he : Entries b)
    (h : ∀ e b, Apart b → Entries b → Applied b n e → Goes 0 0 b (apply e b))
    (hs : b.askOrApply n op asked mark apply = some b') : Goes 0 0 b b' := by
  unfold askOrApply at hs
  dsimp only at hs
  have g : Goes 0 0 b (if asked then b else mark (b.enqueue n op)) := by
    split
    · exact Goes.refl ha he 0
    · exact Same.after (enqueue_goes' n 0 op ho ha he) (hm _)
  generalize (if asked then b else mark (b.enqueue n op)) = b1 at hs g
  split at hs
  · next e hf =>
    cases hs
    unfold frontOp at hf
    split at hf
    · next x hx =>
      split at hf
      · next hc =>
        cases hf
        have g1 := startOp_goes n 0 g.apart g.entries
        exact (g.trans g1).trans (h _ _ g1.apart g1.entries (startOp_applied g.entries hx hc.1))
      · cases hf
    · cases hf
  · split at hs
    · cases hs
    · cases hs
      exact g

/-! ## The command unit and the notice writer -/

section Commands

variable {b : Bridge} {n : Nat} {e : Entry} {c : CommandItem}

theorem applyCommandTake_goes (ha : Apart b) (he : Entries b) (ap : Applied b 0 e) : Goes 0 0 b (applyCommandTake e b) := by
  unfold applyCommandTake
  dsimp only
  split
  · exact (takeYieldsNothing_same _ _).goes ha he 0
  · next hh =>
    split
    · exact (takeYieldsNothing_same _ _).goes ha he 0
    · have hd := notDescriptor_of_state (isHalted_false hh)
      exact beginItem_goes 0 ha he ap (fun x => nomatch x) ⟨(ap.copy hd).ends (Nat.zero_le _), hd⟩

theorem applyNotice_goes {x : Notice} (ha : Apart b) (he : Entries b) (ap : Applied b 1 e) :
    Goes 0 0 b (applyNotice x e b) := by
  unfold applyNotice
  dsimp only
  split
  · exact (dropOldest_same _).goes ha he 0
  · next hh =>
    have h1 : ¬ e.copy.isHalted = true := fun x => hh (Or.inl x)
    have hd := notDescriptor_of_state (isHalted_false h1)
    have hr : e.reservation = false := by
      cases hx : e.reservation with
      | false => rfl
      | true => exact absurd rfl (ap.reserved hx).1
    refine beginItem_goes 0 ha he ap (fun x => nomatch x) ⟨⟨(ap.copy hd).ends (Nat.le_refl _), hd⟩, ?_⟩
    rw [hr]
    simp only [not_or] at hh
    simpa using hh.2

/-- A command changes a working copy and is done. -/
theorem changeAndDone_goes {d : Descriptor} (ha : Apart b) (he : Entries b) (ap : Applied b n e)
    (hs : CopyStep n e.copy d e.reservation) : Goes 0 0 b (b.changeAndDone n d) :=
  Same.after (writeCopy_goes 0 ha he ap hs) (commandDone_same _)

theorem changeLevel_goes {d : Descriptor} {p : Party} (ha : Apart b) (he : Entries b) (ap : Applied b n e)
    (hs : CopyStep n e.copy d e.reservation) : Goes 0 0 b (b.changeLevel n e.copy d p) :=
  Same.after (writeCopy_goes 0 ha he ap hs) (report_same _ _ _ _ _ _)

theorem refused_goes {r : Reason} (ha : Apart b) (he : Entries b) : Goes 0 0 b (b.commandRefused r) :=
  (commandRefused_same _ _).goes ha he 0

theorem abortEffect_goes (ha : Apart b) (he : Entries b) (ap : Applied b n e) (ho : e.copy.isOff = false) :
    Goes 0 0 b (abortEffect n c e b) := by
  have ho' : e.copy.kind ≠ kindOff := fun x => by rw [isOff_iff.mpr x] at ho; cases ho
  unfold abortEffect
  dsimp only
  split
  · exact refused_goes ha he
  · next hd =>
    have hd : e.copy.descriptorHalt = false := by simpa using hd
    obtain ⟨l1, l2⟩ := (ap.copy hd).aborted ho'
    have st : CopyStep n e.copy e.copy.aborted e.reservation := ⟨fun _ => l1, l2, fun _ => aborted_halt hd⟩
    split
    · exact Same.after (changeLevel_goes ha he ap st) (commandDone_same _)
    · exact changeAndDone_goes ha he ap st

/-- A command writes the state of a structure that is not HALTED (R13). -/
theorem restated_step {d d' : Descriptor} {r : Bool} (h : d.descriptorHalt = false → CopyLaw n d r) (hs : d.state ≠ stHalted)
    (hs' : d'.state ≠ stHalted) (h0 : d'.cause = d.cause) (h1 : d'.kind = d.kind) (h2 : d'.capacity = d.capacity)
    (h3 : d'.w32 = d.w32) (h4 : d'.w34 = d.w34) (h5 : d'.w36 = d.w36) (h6 : d'.b38 = d.b38) (h7 : d'.w40 = d.w40)
    (h8 : d'.w44 = d.w44) : CopyStep n d d' r := by
  have law := h (notDescriptor_of_state hs)
  exact ⟨fun _ => law.congr h1 h2 h3 h4 h5 h6 h7 h8 (fun hk hb => by
    rw [h0]; exact (law.stack (h1 ▸ hk)).2.2.2.2 (h6 ▸ hb)), h1, fun _ => notDescriptor_of_state hs'⟩

theorem openEffect_goes (ha : Apart b) (he : Entries b) (ap : Applied b n e) : Goes 0 0 b (openEffect n c e b) := by
  unfold openEffect
  split
  · exact refused_goes ha he
  · next hh =>
    refine changeAndDone_goes ha he ap ?_
    have hs := isHalted_false hh
    unfold Descriptor.opened
    split
    · exact CopyStep.flags ap.copy (fun x => (ap.reserved x).2) rfl rfl rfl rfl rfl rfl rfl rfl rfl rfl
    · exact restated_step ap.copy hs (show stOpen ≠ stHalted by decide) rfl rfl rfl rfl rfl rfl rfl rfl rfl

theorem closeEffect_goes (ha : Apart b) (he : Entries b) (ap : Applied b n e) : Goes 0 0 b (closeEffect n c e b) := by
  unfold closeEffect
  split
  · exact refused_goes ha he
  · next hh =>
    refine changeAndDone_goes ha he ap ?_
    have hs := isHalted_false hh
    unfold Descriptor.closed
    split
    · refine restated_step ap.copy hs ?_ rfl rfl rfl rfl rfl rfl rfl rfl rfl
      dsimp only
      split <;> decide
    · exact CopyStep.flags ap.copy (fun x => (ap.reserved x).2) rfl rfl rfl rfl rfl rfl rfl rfl rfl rfl

theorem clearFaultEffect_goes (ha : Apart b) (he : Entries b) (ap : Applied b n e) :
    Goes 0 0 b (clearFaultEffect n c e b) := by
  unfold clearFaultEffect
  split
  · next d hd => exact changeAndDone_goes ha he ap (CopyStep.clearFault ap.copy (fun x => (ap.reserved x).2) hd)
  · exact refused_goes ha he

theorem closeGuardEffect_goes (ha : Apart b) (he : Entries b) (ap : Applied b n e) :
    Goes 0 0 b (closeGuardEffect n c e b) := by
  unfold closeGuardEffect
  dsimp only
  split
  · exact refused_goes ha he
  · next hk =>
    split
    · exact refused_goes ha he
    · next hh =>
      split
      · exact refused_goes ha he
      · next hl =>
        have hs := isHalted_false hh
        refine changeAndDone_goes ha he ap ⟨fun _ => ?_, rfl, fun _ => notDescriptor_of_state hs⟩
        exact (ap.copy (notDescriptor_of_state hs)).guardClosed (by omega) (fun x => hk (Or.inl (isRing_iff.mpr x)))
          (fun x => hk (Or.inr (isTally_iff.mpr x)))

theorem armed_step {v : Bool} (ap : Applied b n e) : CopyStep n e.copy (e.copy.setArmed v) e.reservation :=
  CopyStep.flags ap.copy (fun x => (ap.reserved x).2) rfl rfl rfl rfl rfl rfl rfl rfl rfl rfl

theorem armEffect_goes (ha : Apart b) (he : Entries b) (ap : Applied b n e) : Goes 0 0 b (armEffect n c e b) := by
  have g := writeCopy_goes 0 ha he ap (armed_step (v := true) ap)
  unfold armEffect
  dsimp only
  split
  · exact Same.after (Same.after g (post_same _ _ _)) (commandDone_same _)
  · exact Same.after g (commandDone_same _)

theorem disarmEffect_goes (ha : Apart b) (he : Entries b) (ap : Applied b n e) : Goes 0 0 b (disarmEffect n c e b) :=
  changeAndDone_goes ha he ap (armed_step ap)

theorem applyCompletion_goes {x : Completion} (ha : Apart b) (he : Entries b) (ap : Applied b x.struct e) :
    Goes 0 0 b (applyCompletion x e b) := by
  have g0 : Same b { b with trigger := { b.trigger with completion := none } } := ⟨rfl, rfl, rfl, rfl, rfl⟩
  have g := g0.goes ha he 0
  have ap' := ap.same g0
  unfold applyCompletion
  dsimp only
  split
  · exact g
  · split
    · exact g
    · split
      · have g1 := g.trans (writeCopy_goes 0 g.apart g.entries ap' (armed_step (v := false) ap'))
        split
        · exact Same.after g1 (notify_same _ _)
        · exact g1
      · split
        · exact Same.after g (post_same _ _ _)
        · exact g

/-- A command that names a structure is applied, when what it does keeps the laws. -/
theorem commandStep_goes {b' : Bridge} {op : Byte} {effect : CommandItem → Entry → Bridge → Bridge} (ha : Apart b)
    (he : Entries b) (hs : b.commandStep op n effect = some b')
    (h : ∀ c e b, Apart b → Entries b → Applied b n e → e.copy.isOff = false → Goes 0 0 b (effect c e b)) : Goes 0 0 b b' := by
  unfold commandStep at hs
  split at hs
  · split at hs
    · split at hs
      · next e hf =>
        cases hs
        unfold frontOp at hf
        split at hf
        · next x hx =>
          split at hf
          · next hc =>
            cases hf
            have g := startOp_goes n 0 ha he
            have ap := startOp_applied he hx hc.1
            split
            · exact Same.after g (commandRefused_same _ _)
            · next ho => exact g.trans (h _ _ _ g.apart g.entries ap (by simpa using ho))
          · cases hf
        · cases hf
      · cases hs
    · cases hs
  · cases hs

theorem judgeCommand_goes (ha : Apart b) (he : Entries b) : Goes 0 0 b (b.judgeCommand c) := by
  have h0 : Same b (b.holdCommand c) := by
    unfold holdCommand
    exact Same.trans (b := { b with command := { b.command with
      state := .carrying, held := some c, stage := .judged, wake := false, lastEmpty := false } }) ⟨rfl, rfl, rfl, rfl, rfl⟩
      (activity_same _)
  have g := h0.goes ha he 0
  unfold judgeCommand
  dsimp only
  split
  · exact Same.after g (commandRefused_same _ _)
  · split
    · exact g.trans (enqueue_goes' _ 0 .command rfl g.apart g.entries)
    · exact g

end Commands

end Sys2Proof.Machine
end

