-- ==== Sys2Proof/Laws/Runs.lean ====
section
/-! SUPPORT. The steps of a run of the move engine keep the laws of the device, and the engine's agreement with the record
cache. -/

namespace Sys2Proof.Machine

open Bridge

/-! ## Between two operations of a run -/

/-- The bridge is in RUN, QUIET or step 2 of STOPPING: a move can be loaded (R188, R189). -/
def Live (b : Bridge) : Prop :=
  b.control.state = .run ∨ b.control.state = .quiet ∨ (b.control.state = .stopping ∧ b.control.stopStage = .finishing)

theorem StepLaw.live {b : Bridge} (h : StepLaw b) (hs : b.engine.step ≠ .none) : Live b := by
  rcases h.rest with x | x | x | x
  · exact Or.inl x
  · exact Or.inr (Or.inl x)
  · exact Or.inr (Or.inr x)
  · exact absurd x hs

theorem StepLaw.active {b : Bridge} (h : StepLaw b) (hs : b.engine.step ≠ .none) :
    ¬ (b.engine.state = .idle ∨ b.engine.state = .paused) := fun x => hs (h.idle x)

/-- The entries are apart and lawful, and no operation of the run stands in the cache. -/
structure Spare (b : Bridge) : Prop where
  apart : Apart b
  entries : Entries b
  runs : b.runs = 0

theorem Spare.of {b b' : Bridge} (h : Spare b) (hc : b'.cache = b.cache) (hm : b'.misses = b.misses) : Spare b' :=
  ⟨⟨by rw [hc]; exact h.apart.nodup, by rw [hc, hm]; exact h.apart.missing⟩,
    by intro e he; rw [hc] at he; exact h.entries e he, by have := h.runs; simp only [Bridge.runs, hc, hm] at this ⊢; exact this⟩

theorem Spare.sound {b : Bridge} (h : Spare b) (law : StepLaw b) : Sound b := ⟨h.apart, h.entries, law.ofRest h.runs⟩

theorem Sound.spare {b : Bridge} (h : Sound b) (hr : b.runs = 0) : Spare b := ⟨h.apart, h.entries, hr⟩

theorem Sound.stepLaw {b : Bridge} (h : Sound b) : StepLaw b := EngineLaw.stepLaw h.engine

theorem Goes.spare {n : Nat} {b b' : Bridge} (g : Goes 0 n b b') (h : Spare b) : Spare b' :=
  ⟨g.apart, g.entries, by have := g.runs; have := h.runs; omega⟩

theorem pinned_of {b b' : Bridge} (hc : b'.cache = b.cache) (n : Nat) : b'.Pinned n ↔ b.Pinned n := by
  simp only [Bridge.Pinned, hc]

/-- A step of the engine that looks at no end, with no reserved item. -/
theorem StepLaw.ofBare {b : Bridge} (hl : Live b) (ha : ¬ (b.engine.state = .idle ∨ b.engine.state = .paused))
    (hs : b.engine.step = .readDescriptor ∨ b.engine.step = .store ∨ b.engine.step = .release ∨ b.engine.step = .report)
    (hf : b.engine.step = .readDescriptor → b.engine.disposal = none) (hd : b.engine.disposal ≠ some .reserved)
    (hw : b.engine.disposal = some .write → b.moveCopy.dstStruct = none) : StepLaw b := by
  refine ⟨fun x => absurd x ha, ?_, ?_, ?_, ?_, ⟨?_, ?_⟩, ?_, fun x => absurd x hd⟩
  · rcases hl with x | x | x
    · exact Or.inl x
    · exact Or.inr (Or.inl x)
    · exact Or.inr (Or.inr (Or.inl x))
  · intro h
    rcases hs with x | x | x | x <;> simp [x, EngineStep.inItem] at h
  · intro h
    rcases hs with x | x | x | x <;> simp [x, EngineStep.inItem] at h
  · intro h
    rcases hs with x | x | x | x <;> simp [x, EngineStep.inItem] at h
  · intro h
    rcases hs with x | x | x | x <;> simp [x] at h
  · intro h
    refine hw (h.resolve_left (fun y => ?_))
    rcases hs with x | x | x | x <;> simp [x] at y
  · intro h
    refine hf (h.resolve_right (fun y => ?_))
    rcases hs with x | x | x | x <;> simp [x] at y

/-- A step of the engine that looks at no end and has decided nothing. -/
theorem StepLaw.bare {b : Bridge} (hl : Live b) (ha : ¬ (b.engine.state = .idle ∨ b.engine.state = .paused))
    (hs : b.engine.step = .readDescriptor ∨ b.engine.step = .store ∨ b.engine.step = .release ∨ b.engine.step = .report)
    (hd : b.engine.disposal = none) : StepLaw b :=
  StepLaw.ofBare hl ha hs (fun _ => hd) (by rw [hd]; exact (fun x => nomatch x)) (by rw [hd]; exact (fun x => nomatch x))

/-! ## The end of a run -/

theorem CopyLaw.unreserved {n : Nat} {d : Descriptor} {r : Bool} (h : CopyLaw n d r) : CopyLaw n d false :=
  ⟨h.legal, h.ends, fun hk => ⟨(h.ring hk).1, by have := (h.ring hk).2; simp; omega⟩, h.stack, h.tally⟩

theorem EntryLaw.unreserved {e : Entry} (h : EntryLaw e) : EntryLaw { e with reservation := false } := by
  refine ⟨fun hf => ⟨(h.fetching hf).1, rfl, (h.fetching hf).2.2⟩, h.claimed,
    fun hf hd => (h.copy hf hd).unreserved, fun w hw => ?_, h.pinned, (fun x => nomatch x)⟩
  have ha := h.access w hw
  unfold AccessLaw at ha ⊢
  dsimp only at ha ⊢
  split
  · next hp =>
    rw [hp] at ha
    obtain ⟨h1, h2⟩ := ha
    refine ⟨h1, ?_⟩
    simp
    omega
  all_goals (next hp => rw [hp] at ha; exact ha)

/-- The entry of an index without its reservation. -/
def Entry.freed (t : Option Nat) (e : Entry) : Entry := if t = some e.index then { e with reservation := false } else e

theorem freed_frame (t : Option Nat) (e : Entry) : (e.freed t).index = e.index ∧ (e.freed t).claim = e.claim
    ∧ (e.freed t).runs = e.runs ∧ (e.freed t).pin = e.pin ∧ (e.freed t).busy = e.busy := by
  unfold Entry.freed
  split <;> exact ⟨rfl, rfl, rfl, rfl, rfl⟩

theorem Entries.freed {b : Bridge} (h : Entries b) (t : Option Nat) : ∀ e ∈ b.cache, EntryLaw (e.freed t) := by
  intro e he
  unfold Entry.freed
  split
  · exact (h e he).unreserved
  · exact h e he

theorem clearDestination_cache (b : Bridge) :
    b.clearDestination.cache = b.cache.map (Entry.freed b.moveCopy.dstStruct) := by
  unfold clearDestination
  split
  · next n hn =>
    rw [hn]
    simp only [clearReservation, setEntry]
    refine List.map_congr_left (fun e _ => ?_)
    unfold Entry.freed
    by_cases h : e.index = n
    · rw [if_pos h, if_pos (by rw [h])]
    · rw [if_neg h, if_neg (fun x => h (Option.some.inj x).symm)]
  · next hn =>
    rw [hn]
    conv => lhs; rw [← List.map_id b.cache]
    exact List.map_congr_left (fun e _ => by simp [Entry.freed])

@[simp] theorem clearDestination_frame (b : Bridge) : b.clearDestination.misses = b.misses
    ∧ b.clearDestination.engine = b.engine ∧ b.clearDestination.control = b.control := by
  unfold clearDestination
  split <;> simp

/-- The reservation is cleared: what it kept beyond the law is let go. -/
theorem cleared_spare {b b' : Bridge} (ha : Apart b) (hr : b.runs = 0)
    (he : ∀ e ∈ b.cache, EntryLaw (e.freed b.moveCopy.dstStruct)) (hc : b'.cache = b.clearDestination.cache)
    (hm : b'.misses = b.misses) : Spare b' ∧ ∀ n, b.Pinned n → b'.Pinned n := by
  rw [clearDestination_cache] at hc
  have hi := indices_map (Entry.freed b.moveCopy.dstStruct) b.cache (fun e _ => (freed_frame _ e).1)
  have hcl : (b.cache.map (Entry.freed b.moveCopy.dstStruct)).filterMap Entry.claim = b.cache.filterMap Entry.claim := by
    rw [List.filterMap_map]
    exact congrArg (fun g => List.filterMap g b.cache) (funext fun e => (freed_frame _ e).2.1)
  have hrn : (b.cache.map (Entry.freed b.moveCopy.dstStruct)).map Entry.runs = b.cache.map Entry.runs := by
    rw [List.map_map]
    exact List.map_congr_left (fun e _ => (freed_frame _ e).2.2.1)
  refine ⟨⟨⟨by rw [hc, hi, hcl]; exact ha.nodup, by rw [hc, hi, hm]; exact ha.missing⟩, ?_, ?_⟩, ?_⟩
  · intro e hx
    rw [hc] at hx
    obtain ⟨y, hy, rfl⟩ := List.mem_map.mp hx
    exact he y hy
  · simp only [Bridge.runs, hc, hm, hrn]
    exact hr
  · rintro n ⟨e, hx, h1, h2⟩
    refine ⟨e.freed b.moveCopy.dstStruct, by rw [hc]; exact List.mem_map_of_mem hx, ?_, ?_⟩
    · rw [(freed_frame _ e).1]; exact h1
    · rw [(freed_frame _ e).2.2.2.1]; exact h2

theorem endRun_fields (b : Bridge) (code : RunEnd) (lost : Bool) (st : Option Nat) :
    (b.endRun code lost st).cache = b.clearDestination.cache ∧ (b.endRun code lost st).misses = b.misses
      ∧ (b.endRun code lost st).control = b.control ∧ (b.endRun code lost st).engine.state = .storing
      ∧ (b.endRun code lost st).engine.step = .store ∧ (b.endRun code lost st).engine.disposal = none := by
  refine ⟨rfl, by simp, by simp, by simp, by simp, rfl⟩

/-- The end of a run, whatever decided it, with what the reservation kept let go. -/
theorem endRun_sound' {b : Bridge} {code : RunEnd} {lost : Bool} {st : Option Nat} (ha : Apart b) (hr : b.runs = 0)
    (he : ∀ e ∈ b.cache, EntryLaw (e.freed b.moveCopy.dstStruct)) (hl : Live b) : Sound (b.endRun code lost st) := by
  obtain ⟨h1, h2, h3, h4, h5, h6⟩ := endRun_fields b code lost st
  obtain ⟨sp, _⟩ := cleared_spare ha hr he h1 h2
  refine sp.sound (StepLaw.bare ?_ ?_ (Or.inr (Or.inl h5)) h6)
  · unfold Live
    rw [h3]
    exact hl
  · rw [h4]
    exact (fun x => x.elim (fun y => nomatch y) (fun y => nomatch y))

theorem endRun_sound {b : Bridge} {code : RunEnd} {lost : Bool} {st : Option Nat} (h : Spare b) (hl : Live b) :
    Sound (b.endRun code lost st) := endRun_sound' h.apart h.runs (h.entries.freed _) hl

/-! ## The start of an item -/

/-- The engine is between two items, or at the first: its ends are pinned and nothing is decided (R133, R134). -/
structure Underway (b : Bridge) : Prop where
  spare : Spare b
  live : Live b
  active : ¬ (b.engine.state = .idle ∨ b.engine.state = .paused)
  source : ∀ n, b.moveCopy.srcStruct = some n → b.Pinned n
  destination : ∀ n, b.moveCopy.dstStruct = some n → b.Pinned n
  notNotices : b.moveCopy.dstStruct ≠ some 1
  undecided : b.engine.disposal = none

/-- A step of an item is taken. -/
theorem Underway.stepLaw {b b' : Bridge} (h : Underway b) (hc : b'.cache = b.cache) (hm : b'.moveCopy = b.moveCopy)
    (hs : b'.engine.state = b.engine.state) (hct : b'.control = b.control)
    (hd : (b'.engine.disposal = none ∧ b'.engine.step = .reserve)
      ∨ (b'.engine.disposal = some .write ∧ b.moveCopy.dstStruct = none ∧ b'.engine.step = .take)) : StepLaw b' := by
  refine ⟨by rw [hs]; exact fun x => absurd x h.active, ?_, ?_, ?_, ?_, ⟨?_, ?_⟩, ?_, ?_⟩
  · rw [hct]
    rcases h.live with x | x | x
    · exact Or.inl x
    · exact Or.inr (Or.inl x)
    · exact Or.inr (Or.inr (Or.inl x))
  · rw [hm]; exact fun _ n hn => (pinned_of hc n).mpr (h.source n hn)
  · rw [hm]; exact fun _ n hn => (pinned_of hc n).mpr (h.destination n hn)
  · rw [hm]; exact fun _ => h.notNotices
  · intro x
    rcases hd with ⟨_, y⟩ | ⟨_, _, y⟩ <;> rw [y] at x <;> cases x
  · intro x
    rcases hd with ⟨y, z⟩ | ⟨_, y, _⟩
    · rw [y, z] at x
      rcases x with x | x <;> cases x
    · rw [hm]; exact y
  · intro x
    rcases hd with ⟨_, y⟩ | ⟨_, _, y⟩ <;> rw [y] at x <;> rcases x with x | x | x <;> cases x
  · intro x
    rcases hd with ⟨y, _⟩ | ⟨y, _⟩ <;> rw [y] at x <;> cases x

theorem startItem_sound {b : Bridge} (h : Underway b) : Sound b.startItem := by
  unfold startItem
  split
  · exact endRun_sound h.spare h.live
  · split
    · exact endRun_sound h.spare h.live
    · split
      · exact Spare.sound (h.spare.of rfl rfl) (h.stepLaw rfl rfl rfl rfl (Or.inl ⟨h.undecided, rfl⟩))
      · next hn => exact Spare.sound (h.spare.of rfl rfl) (h.stepLaw rfl rfl rfl rfl (Or.inr ⟨rfl, hn, rfl⟩))

theorem startRunning_sound {b : Bridge} (h : Underway b) : Sound b.startRunning := by
  unfold startRunning
  split
  · exact endRun_sound h.spare h.live
  · refine startItem_sound ⟨h.spare.of rfl rfl, h.live, ?_, h.source, h.destination, h.notNotices, h.undecided⟩
    exact (fun x => x.elim (fun y => nomatch y) (fun y => nomatch y))

/-- The law of a step that pins an end (R133). -/
theorem StepLaw.pinning {b : Bridge} (hl : Live b) (ha : ¬ (b.engine.state = .idle ∨ b.engine.state = .paused))
    (hs : b.engine.step = .pinSource ∨ b.engine.step = .pinDestination)
    (source : b.engine.step = .pinDestination → ∀ n, b.moveCopy.srcStruct = some n → b.Pinned n)
    (hn : b.moveCopy.dstStruct ≠ some 1) (hd : b.engine.disposal = none) : StepLaw b := by
  refine ⟨fun x => absurd x ha, ?_, ?_, ?_, fun _ => hn, ⟨?_, ?_⟩, fun _ => hd, by rw [hd]; exact (fun x => nomatch x)⟩
  · rcases hl with x | x | x
    · exact Or.inl x
    · exact Or.inr (Or.inl x)
    · exact Or.inr (Or.inr (Or.inl x))
  · intro h
    rcases h with h | h
    · exact source h
    · rcases hs with x | x <;> simp [x, EngineStep.inItem] at h
  · intro h
    rcases hs with x | x <;> simp [x, EngineStep.inItem] at h
  · intro h
    rcases hs with x | x <;> simp [x] at h
  · intro h
    rcases hs with x | x <;> simp [x, hd] at h

theorem startPins_sound {b : Bridge} (sp : Spare b) (hl : Live b)
    (ha : ¬ (b.engine.state = .idle ∨ b.engine.state = .paused)) (hn : b.moveCopy.dstStruct ≠ some 1)
    (hd : b.engine.disposal = none) : Sound b.startPins := by
  unfold startPins
  split
  · exact Spare.sound (sp.of rfl rfl) (StepLaw.pinning hl ha (Or.inl rfl) (fun x => nomatch x) hn hd)
  · next h1 h2 =>
    refine Spare.sound (sp.of rfl rfl) (StepLaw.pinning hl ha (Or.inr rfl) (fun _ n hx => ?_) hn hd)
    have hx : b.moveCopy.srcStruct = some n := hx
    rw [h1] at hx
    cases hx
  · next h1 h2 =>
    exact startRunning_sound ⟨sp, hl, ha, by rw [h1]; exact (fun n x => nomatch x), by rw [h2]; exact (fun n x => nomatch x),
      hn, hd⟩

theorem afterSourcePin_sound {b : Bridge} (sp : Spare b) (hl : Live b)
    (ha : ¬ (b.engine.state = .idle ∨ b.engine.state = .paused))
    (source : ∀ n, b.moveCopy.srcStruct = some n → b.Pinned n) (hn : b.moveCopy.dstStruct ≠ some 1)
    (hd : b.engine.disposal = none) : Sound b.afterSourcePin := by
  unfold afterSourcePin
  split
  · next n h1 =>
    split
    · next h2 =>
      refine startRunning_sound ⟨sp, hl, ha, source, fun m hm => ?_, hn, hd⟩
      rw [h1] at hm
      cases hm
      exact source n h2
    · exact Spare.sound (sp.of rfl rfl) (StepLaw.pinning hl ha (Or.inr rfl) (fun _ => source) hn hd)
  · next h1 => exact startRunning_sound ⟨sp, hl, ha, source, by rw [h1]; exact (fun n x => nomatch x), hn, hd⟩

/-- The engine's copy changes in what says nothing of its ends. -/
theorem setMoveCopy_structs (b : Bridge) (d : MoveDescriptor) (h1 : d.srcStruct = b.moveCopy.srcStruct)
    (h2 : d.dstStruct = b.moveCopy.dstStruct) : (b.setMoveCopy d).moveCopy.srcStruct = b.moveCopy.srcStruct
      ∧ (b.setMoveCopy d).moveCopy.dstStruct = b.moveCopy.dstStruct := by
  cases hm : b.engine.move with
  | none => simp [setMoveCopy, moveCopy, hm]
  | some m =>
    have : (b.setMoveCopy d).moveCopy = d := by simp [setMoveCopy, moveCopy, hm]
    rw [this]
    exact ⟨h1, h2⟩

theorem Underway.setMoveCopy {b : Bridge} (h : Underway b) (d : MoveDescriptor) (h1 : d.srcStruct = b.moveCopy.srcStruct)
    (h2 : d.dstStruct = b.moveCopy.dstStruct) : Underway (b.setMoveCopy d) := by
  obtain ⟨g1, g2⟩ := setMoveCopy_structs b d h1 h2
  exact ⟨h.spare.of rfl rfl, h.live, h.active, by rw [g1]; exact h.source, by rw [g2]; exact h.destination,
    by rw [g2]; exact h.notNotices, h.undecided⟩

theorem Underway.spendCount {b : Bridge} (h : Underway b) : Underway b.spendCount := h.setMoveCopy _ rfl rfl

theorem Underway.recycleSpans {b : Bridge} (h : Underway b) : Underway b.recycleSpans := by
  unfold Bridge.recycleSpans
  split
  · refine h.setMoveCopy _ ?_ ?_
    · unfold MoveDescriptor.srcStruct
      dsimp only
      split
      · rfl
      · next hs => rfl
    · unfold MoveDescriptor.dstStruct
      dsimp only
      split
      · rfl
      · next hs => rfl
  · exact h

/-- The transit item has been disposed of (R137, R138): what its reservation kept is let go, and the run goes on or ends. -/
theorem disposed_sound {b : Bridge} (ha : Apart b) (hr : b.runs = 0)
    (he : ∀ e ∈ b.cache, EntryLaw (e.freed b.moveCopy.dstStruct)) (law : StepLaw b) (hs : b.engine.step.inItem = true) :
    Sound b.disposed := by
  have hne : b.engine.step ≠ .none := by
    intro x
    rw [x] at hs
    cases hs
  have h0 : Underway (clearDestination { b with engine := { b.engine with transit := none, disposal := none } }).activity := by
    obtain ⟨sp, hp⟩ := cleared_spare (b' := (clearDestination { b with engine := { b.engine with
      transit := none, disposal := none } }).activity) ha hr he
      (by rw [(activity_frame _).2.2.1, clearDestination_cache, clearDestination_cache]; rfl) (by simp)
    have hm : (clearDestination { b with engine := { b.engine with transit := none, disposal := none } }).activity.moveCopy
        = b.moveCopy := by
      simp [moveCopy]
    refine ⟨sp, ?_, ?_, ?_, ?_, ?_, ?_⟩
    · have := law.live hne
      simpa [Live] using this
    · simpa using law.active hne
    · rw [hm]; exact fun n hn => hp n (law.source (Or.inr hs) n hn)
    · rw [hm]; exact fun n hn => hp n (law.destination hs n hn)
    · rw [hm]; exact law.notNotices (Or.inr (Or.inr hs))
    · simp
  unfold disposed
  dsimp only
  generalize (clearDestination { b with engine := { b.engine with transit := none, disposal := none } }).activity = b2 at h0
  split
  · have h3 : Underway { b2 with engine := { b2.engine with blockItems := b2.engine.blockItems + 1 } } :=
      ⟨h0.spare.of rfl rfl, h0.live, h0.active, h0.source, h0.destination, h0.notNotices, h0.undecided⟩
    split
    · exact startItem_sound h3
    · have h4 := h3.spendCount.recycleSpans
      exact endRun_sound h4.spare h4.live
  · have h3 := h0.spendCount
    split
    · exact startItem_sound h3
    · exact endRun_sound h3.spare h3.live

/-! ## The engine's operation in the cache (R105) -/

theorem markAsked_copy (b : Bridge) : b.markAsked.moveCopy = b.moveCopy ∧ b.markAsked.target = b.target := ⟨rfl, rfl⟩

theorem StepLaw.asked {b : Bridge} (h : StepLaw b) : StepLaw b.markAsked :=
  ⟨h.idle, h.rest, h.source, h.destination, h.notNotices, h.spans, h.fresh, h.reserved⟩

/-- The engine's operation is handed to the cache. -/
theorem ask_sound {b : Bridge} {n : Nat} {op : EngineOp} (sp : Spare b) (law : StepLaw b) (ht : b.target = some n) :
    Sound (b.enqueue n (.engine op)).markAsked := by
  have g := enqueue_goes n (.engine op) sp.apart sp.entries
  have hk : (if CacheOp.ofRun (.engine op) = true then 1 else 0) ≤ 1 := by split <;> omega
  refine ⟨⟨g.apart.nodup, g.apart.missing⟩, g.entries, (g.toKeptBy.stepLaw law).asked.engineLaw ?_ ?_ ?_⟩
  · have h1 := g.runs
    have h2 := sp.runs
    have h3 : (b.enqueue n (.engine op)).markAsked.runs = (b.enqueue n (.engine op)).runs := rfl
    have h4 : (b.enqueue n (.engine op)).markAsked.engine.asked = true := rfl
    rw [h3, h4, if_pos rfl]
    omega
  · have h1 : (b.enqueue n (.engine op)).markAsked.target = b.target := target_congr (b' := b.enqueue n (.engine op)) (by simp)
    rw [h1]
    exact g.waits _ (waitsAt_of_zero sp.runs _) (fun _ => ht)
  · intro e he w hb hw
    obtain ⟨x, hx, v, h1, h2, _⟩ := g.access e he w hb hw
    rw [no_access sp.runs x hx v h1] at h2
    cases h2

/-- The runs of an entry whose first operation is applied. -/
theorem startOp_runs {b : Bridge} {n : Nat} {e : Entry} {op : CacheOp} (ha : Apart b) (h : b.entry? n = some e)
    (hw : e.waiting.head? = some op) : (b.startOp n).runs + (if op.ofRun then 1 else 0) = b.runs := by
  obtain ⟨hm, hi⟩ := entry?_mem b n e h
  have hp := ((startOp_perm ha h).map Entry.runs).sum_nat
  have hq := sum_update b.cache Entry.index (fun x => { x with waiting := x.waiting.tail }) Entry.runs e ha.indices hm
  have hr : e.runs = ({ e with waiting := e.waiting.tail } : Entry).runs + (if op.ofRun then 1 else 0) := by
    cases hl : e.waiting with
    | nil => rw [hl] at hw; cases hw
    | cons a l =>
      rw [hl] at hw
      cases hw
      simp only [Entry.runs, hl, List.countP_cons, List.tail_cons]
      omega
  have hms : (b.startOp n).misses = b.misses := by simp [startOp, h]
  simp only [Bridge.runs, hms]
  simp only [setEntry] at hp
  simp only [hi] at hq hr
  omega

/-- The engine's operation leaves the waiting list. -/
theorem frontOp_spare {b : Bridge} {n : Nat} {op : EngineOp} {e : Entry} (h : Sound b)
    (ho : CacheOp.ofRun (.engine op) = true) (hf : b.frontOp n (.engine op) = some e) :
    Spare (b.startOp n) ∧ StepLaw (b.startOp n) ∧ Applied (b.startOp n) n e ∧ (b.startOp n).engine = b.engine
      ∧ e.claim = none ∧ (∃ x ∈ (b.startOp n).cache, x.index = n)
      ∧ ∀ x ∈ (b.startOp n).cache, x.index = n → x.claim = none := by
  unfold frontOp at hf
  split at hf
  · next y hy =>
    split at hf
    · next hc =>
      cases hf
      have g := startOp_goes n 0 h.apart h.entries
      have hr := startOp_runs h.apart hy hc.2
      have h1 := h.engine.one
      have h2 : b.runs ≤ 1 := by split at h1 <;> omega
      rw [if_pos ho] at hr
      have hst := (ready_state hc.1).2.2.2
      have hi := (entry?_mem b n e hy).2
      refine ⟨⟨g.apart, g.entries, by omega⟩, g.toKeptBy.stepLaw h.stepLaw, startOp_applied h.entries hy hc.1,
        g.engine, hst, ?_, ?_⟩
      · refine ⟨{ e with waiting := e.waiting.tail }, ?_, hi⟩
        simp [startOp, hy]
      · intro x hx hxi
        simp only [startOp, hy, List.mem_cons, List.mem_filter, bne_iff_ne, ne_eq] at hx
        rcases hx with hx | ⟨_, hx⟩
        · subst hx; exact hst
        · exact absurd hxi hx
    · cases hf
  · cases hf

/-- The engine's operation is asked for, or applied in its turn. -/
theorem askOrApply_sound {b b' : Bridge} {n : Nat} {op : EngineOp} {apply : Entry → Bridge → Bridge} (h : Sound b)
    (ho : CacheOp.ofRun (.engine op) = true) (ht : b.target = some n)
    (ap : ∀ e b0, Spare b0 → StepLaw b0 → Applied b0 n e → b0.engine = { b.engine with asked := true } →
      (∃ x ∈ b0.cache, x.index = n) → (∀ x ∈ b0.cache, x.index = n → x.claim = none) → Sound (apply e b0))
    (hs : b.askOrApply n (.engine op) b.engine.asked markAsked apply = some b') : Sound b' := by
  unfold askOrApply at hs
  dsimp only at hs
  have g : Sound (if b.engine.asked then b else (b.enqueue n (.engine op)).markAsked)
      ∧ (if b.engine.asked then b else (b.enqueue n (.engine op)).markAsked).engine = { b.engine with asked := true } := by
    cases ha : b.engine.asked with
    | true =>
      refine ⟨h, ?_⟩
      simp only [if_true]
      cases he : b.engine
      rw [he] at ha
      simp only at ha
      rw [ha]
    | false => exact ⟨ask_sound (h.spare (h.engine.runs_of_asked ha)) h.stepLaw ht, by simp [markAsked]⟩
  generalize (if b.engine.asked then b else (b.enqueue n (.engine op)).markAsked) = b1 at hs g
  split at hs
  · next e hf =>
    cases hs
    obtain ⟨g1, g2, g3, g4, _, g6, g7⟩ := frontOp_spare g.1 ho hf
    exact ap e _ g1 g2 g3 (g4.trans g.2) g6 g7
  · split at hs
    · cases hs
    · cases hs
      exact g.1

/-! ## Loading and pinning -/

theorem loadMove_sound {b : Bridge} (m run : Nat) (sp : Spare b) (hl : Live b) : Sound (b.loadMove m run) := by
  have f : (b.loadMove m run).cache = b.cache ∧ (b.loadMove m run).misses = b.misses
      ∧ (b.loadMove m run).control.state = b.control.state ∧ (b.loadMove m run).control.stopStage = b.control.stopStage
      ∧ (b.loadMove m run).engine.state = .loading ∧ (b.loadMove m run).engine.step = .readDescriptor
      ∧ (b.loadMove m run).engine.disposal = none := by
    simp [loadMove, Engine.unloaded]
  obtain ⟨f1, f2, f3, f4, f5, f6, f7⟩ := f
  refine (sp.of f1 f2).sound (StepLaw.bare ?_ ?_ (Or.inl f6) f7)
  · unfold Live
    rw [f3, f4]
    exact hl
  · rw [f5]
    exact (fun x => x.elim (fun y => nomatch y) (fun y => nomatch y))

theorem choose_sound {b b' : Bridge} (h : Sound b) (hs : b.choose = some b') : Sound b' := by
  unfold choose at hs
  split at hs
  · next hc =>
    have hst := h.engine.idle (Or.inl hc.2.1)
    have sp := h.spare (h.engine.runs_of_target (by simp [target, hst]))
    split at hs
    · cases hs
      exact loadMove_sound _ _ (sp.of rfl rfl) (Or.inl hc.1)
    · cases hs
  · cases hs

theorem loadOk_dst {d : MoveDescriptor} {g : Settings} {straps : Fin 16} (h : d.loadOk g straps = true) :
    d.dstStruct ≠ some 1 := by
  simp only [MoveDescriptor.loadOk, Bool.and_eq_true] at h
  have hd := h.1.1.2
  unfold endOk at hd
  unfold MoveDescriptor.dstStruct
  split
  · next ht =>
    rw [if_pos ht] at hd
    simp only [Bool.and_eq_true] at hd
    intro x
    simp only [Option.some.injEq] at x
    simp [x] at hd
  · exact (fun x => nomatch x)

theorem Grows.pinnedIff {b b' : Bridge} (h : Grows b b') (sp : Spare b) (law : StepLaw b) : Sound b' := by
  have g := h.goes sp.apart sp.entries 0
  exact (g.spare sp).sound (g.toKeptBy.stepLaw law)

theorem moveRead_sound {b : Bridge} (ok : Bool) (data : List Byte) (h : Sound b) : Sound (b.moveRead ok data) := by
  unfold moveRead
  split
  · next hs =>
    have hne : b.engine.step ≠ .none := by rw [hs]; exact (fun x => nomatch x)
    have sp := h.spare (h.engine.runs_of_target (by simp [target, hs]))
    have hl := h.stepLaw.live hne
    have ha := h.stepLaw.active hne
    have hd := h.engine.fresh (Or.inl hs)
    split
    · dsimp only
      split
      · next hok => exact startPins_sound (sp.of rfl rfl) hl ha (loadOk_dst hok) hd
      · exact endRun_sound (sp.of rfl rfl) hl
    · refine (freeMoveWaiters_grows _).pinnedIff (sp.of rfl rfl) (StepLaw.bare hl ha ?_ hd)
      exact Or.inr (Or.inr (Or.inr rfl))
  · exact h

/-- The entries of an index take a pin or a reservation. -/
theorem marked_kept {b : Bridge} {n : Nat} (f : Entry → Entry) (sp : Spare b)
    (hf : ∀ x ∈ b.cache, x.index = n → Keeps x (f x)) :
    Spare (b.setEntry n f) ∧ ∀ k, b.Pinned k → (b.setEntry n f).Pinned k := by
  have g := setEntry_goes f n 0 sp.apart sp.entries hf
  refine ⟨g.spare sp, fun k ⟨e, he, hi, hp⟩ => ?_⟩
  obtain ⟨x, hx, h1, h2, _⟩ := g.pins e he hp
  exact ⟨x, hx, h1.trans hi, h2⟩

theorem applyPin_sound {b : Bridge} {n : Nat} {e : Entry} (sp : Spare b) (law : StepLaw b) (ap : Applied b n e)
    (hin : ∃ x ∈ b.cache, x.index = n) (hcl : ∀ x ∈ b.cache, x.index = n → x.claim = none)
    (hp : b.pinTarget = some n) : Sound (applyPin n e b) := by
  have hst : b.engine.step = .pinSource ∧ b.moveCopy.srcStruct = some n
      ∨ b.engine.step = .pinDestination ∧ b.moveCopy.dstStruct = some n := by
    unfold pinTarget at hp
    split at hp <;> first | (cases hp; done) | skip
    · next x => exact Or.inl ⟨x, hp⟩
    · next x => exact Or.inr ⟨x, hp⟩
  have hne : b.engine.step ≠ .none := by rcases hst with x | x <;> rw [x.1] <;> exact (fun x => nomatch x)
  have hl := law.live hne
  have ha := law.active hne
  have hd := law.fresh (hst.elim (fun x => Or.inr (Or.inl x.1)) (fun x => Or.inr (Or.inr x.1)))
  have hn := law.notNotices (hst.elim (fun x => Or.inl x.1) (fun x => Or.inr (Or.inl x.1)))
  unfold applyPin
  split
  · next hfit =>
    obtain ⟨sp1, hpin⟩ := marked_kept (n := n) (fun x => { x with pin := true }) sp (fun x hx hi => by
      have lx := sp.entries x hx
      obtain ⟨h1, h2, _, _, h5⟩ := ap.here x hx hi
      refine ⟨⟨rfl, Or.inr rfl, Nat.le_refl _, fun _ => ⟨rfl, id⟩, fun w hb hw => ⟨w, hb, hw, rfl, rfl⟩⟩, ?_⟩
      refine ⟨fun hf => ?_, fun hc => ?_, lx.copy, lx.access, fun _ => ?_, lx.reserved⟩
      · rw [show x.state.isFetching = false from h1] at hf
        cases hf
      · have := hcl x hx hi
        have hc : x.claim.isSome = true := hc
        rw [this] at hc
        cases hc
      · dsimp only
        rw [h2]
        simp only [endFits, Bool.and_eq_true, bne_iff_ne, ne_eq] at hfit
        exact hfit.1)
    have hpn : (b.setEntry n (fun x => { x with pin := true })).Pinned n := by
      obtain ⟨x, hx, hi⟩ := hin
      exact ⟨{ x with pin := true }, List.mem_map.mpr ⟨x, hx, if_pos hi⟩, hi, rfl⟩
    dsimp only
    split
    · next hsrc =>
      have hs := hst.resolve_right (fun x => by rw [x.1] at hsrc; cases hsrc)
      refine afterSourcePin_sound (sp1.of rfl rfl) hl ha ?_ hn hd
      intro k hk
      have hk : b.moveCopy.srcStruct = some k := hk
      rw [hs.2] at hk
      cases hk
      exact hpn
    · next hsrc =>
      have hs := hst.resolve_left (fun x => hsrc x.1)
      refine startRunning_sound ⟨sp1.of rfl rfl, hl, ha, ?_, ?_, hn, hd⟩
      · intro k hk
        exact hpin k (law.source (Or.inl hs.1) k hk)
      · intro k hk
        have hk : b.moveCopy.dstStruct = some k := hk
        rw [hs.2] at hk
        cases hk
        exact hpn
  · exact endRun_sound sp hl

theorem pinTarget_target {b : Bridge} {n : Nat} (h : b.pinTarget = some n) : b.target = some n := by
  unfold pinTarget at h
  unfold target
  split at h <;> first | (cases h; done) | (next x => rw [x]; exact h)

theorem pinStep_sound {b b' : Bridge} (h : Sound b) (hs : b.pinStep = some b') : Sound b' := by
  unfold pinStep at hs
  split at hs
  · next n hn =>
    refine askOrApply_sound h rfl (pinTarget_target hn) (fun e b0 sp law ap he hin hcl => ?_) hs
    refine applyPin_sound sp law ap hin hcl ?_
    rw [← hn]
    unfold pinTarget moveCopy
    rw [he]
  · cases hs

/-! ## The reservation step (R135) -/

/-- The disposal is decided, and the take follows. -/
theorem setDisposal_sound {b : Bridge} {d : Disposal} (sp : Spare b) (law : StepLaw b) (hs : b.engine.step = .reserve)
    (hd : d = .drop ∨ (d = .reserved ∧ ∀ n, b.moveCopy.dstStruct = some n →
      ∃ e ∈ b.cache, e.index = n ∧ e.pin = true ∧ e.reservation = true)) : Sound (b.setDisposal d) := by
  have hne : b.engine.step ≠ .none := by rw [hs]; exact (fun x => nomatch x)
  have hin : b.engine.step.inItem = true := by rw [hs]; rfl
  refine Spare.sound (sp.of rfl rfl) ⟨fun x => absurd x (law.active hne), ?_, fun _ => law.source (Or.inr hin),
    fun _ => law.destination hin, fun _ => law.notNotices (Or.inr (Or.inr hin)), ⟨?_, ?_⟩, ?_, ?_⟩
  · rcases law.live hne with x | x | x
    · exact Or.inl x
    · exact Or.inr (Or.inl x)
    · exact Or.inr (Or.inr (Or.inl x))
  · exact (fun x => nomatch x)
  · intro x
    rcases x with x | x
    · cases x
    · have x : some d = some .write := x
      rcases hd with y | ⟨y, _⟩ <;> rw [y] at x <;> cases x
  · exact (fun x => x.elim (fun y => nomatch y) (fun y => y.elim (fun z => nomatch z) (fun z => nomatch z)))
  · intro x
    have x : some d = some .reserved := x
    rcases hd with y | ⟨_, y⟩
    · rw [y] at x; cases x
    · exact ⟨Or.inl rfl, y⟩

theorem CopyLaw.reserve {n : Nat} {d : Descriptor} {r : Bool} (h : CopyLaw n d r)
    (hf : d.kind = kindRing → d.full r = false) : CopyLaw n d true := by
  refine ⟨h.legal, h.ends, fun hk => ⟨(h.ring hk).1, ?_⟩, h.stack, h.tally⟩
  have := hf hk
  simp [Descriptor.full] at this
  simp
  omega

theorem reserveRoom_sound {b : Bridge} {n : Nat} {e : Entry} (sp : Spare b) (law : StepLaw b) (ap : Applied b n e)
    (hs : b.engine.step = .reserve) (hdst : b.moveCopy.dstStruct = some n) (ho : e.copy.state ≠ stHalted)
    (hf : e.copy.kind = kindRing → e.copy.full e.reservation = false) : Sound (b.reserveRoom n) := by
  have hin : b.engine.step.inItem = true := by rw [hs]; rfl
  have hn1 : n ≠ 1 := fun x => law.notNotices (Or.inr (Or.inr hin)) (by rw [hdst, x])
  have hd := notDescriptor_of_state ho
  have hk : ∀ x ∈ b.cache, x.index = n → Keeps x { x with reservation := true } := by
    intro x hx hi
    have lx := sp.entries x hx
    obtain ⟨h1, h2, h3, _, h5⟩ := ap.here x hx hi
    refine ⟨⟨rfl, Or.inr rfl, Nat.le_refl _, fun hp => ⟨hp, fun _ => rfl⟩, fun w hb hw => ⟨w, hb, hw, rfl, rfl⟩⟩, ?_⟩
    refine ⟨fun hff => ?_, lx.claimed, fun _ _ => ?_, fun w hw => ?_, lx.pinned, fun _ => ⟨by dsimp only; rw [hi]; exact hn1, ?_⟩⟩
    · rw [show x.state.isFetching = false from h1] at hff
      cases hff
    · dsimp only
      rw [hi, h2]
      exact (ap.copy hd).reserve hf
    · rw [show x.busy = none from h5] at hw
      cases hw
    · dsimp only
      rw [h2]
      exact hd
  obtain ⟨sp1, _⟩ := marked_kept (n := n) (fun x => { x with reservation := true }) sp hk
  have g := setEntry_goes (fun x => { x with reservation := true }) n 0 sp.apart sp.entries hk
  refine setDisposal_sound sp1 (g.toKeptBy.stepLaw law) hs (Or.inr ⟨rfl, fun m hm => ?_⟩)
  have hm : b.moveCopy.dstStruct = some m := hm
  rw [hdst] at hm
  cases hm
  obtain ⟨x, hx, hi, hp⟩ := law.destination hin n hdst
  exact ⟨{ x with reservation := true }, List.mem_map.mpr ⟨x, hx, if_pos hi⟩, hi, hp, rfl⟩

theorem applyReserve_sound {b : Bridge} {n : Nat} {e : Entry} (sp : Spare b) (law : StepLaw b) (ap : Applied b n e)
    (hs : b.engine.step = .reserve) (hdst : b.moveCopy.dstStruct = some n) : Sound (applyReserve n e b) := by
  have hne : b.engine.step ≠ .none := by rw [hs]; exact (fun x => nomatch x)
  have hl := law.live hne
  unfold applyReserve
  dsimp only
  split
  · exact endRun_sound sp hl
  · next ho =>
    have ho : e.copy.state ≠ stHalted := by
      intro x
      simp [x, stHalted, stOpen] at ho
    split
    · split
      · next hf => exact reserveRoom_sound sp law ap hs hdst ho (fun _ => hf)
      · split
        · exact setDisposal_sound sp law hs (Or.inl rfl)
        · exact endRun_sound sp hl
    · next hr =>
      split
      · exact endRun_sound sp hl
      · exact reserveRoom_sound sp law ap hs hdst ho (fun hk => absurd (isRing_iff.mpr hk) hr)

theorem reservationStep_sound {b b' : Bridge} (h : Sound b) (hs : b.reservationStep = some b') : Sound b' := by
  unfold reservationStep at hs
  split at hs
  · next hst =>
    split at hs
    · next n hn =>
      refine askOrApply_sound h rfl (by simp [target, hst, hn]) (fun e b0 sp law ap he _ _ => ?_) hs
      refine applyReserve_sound sp law ap (by rw [he]; exact hst) ?_
      rw [← hn]
      unfold moveCopy
      rw [he]
    · cases hs
  · cases hs

/-! ## The take (R136) -/

/-- The runs of the entries of an index after the engine's access began on it. -/
theorem beginItem_runs {b : Bridge} {n : Nat} {w : Busy} (ha : Apart b) (hr : b.runs = 0) :
    (b.setEntry n (fun x => { x with busy := some w })).runs ≤ 1 := by
  obtain ⟨h1, h2⟩ := runs_eq_zero.mp hr
  have hle : ∀ x : Entry, ({ x with busy := some w } : Entry).runs ≤ x.runs + 1 := by
    intro x
    simp only [Entry.runs]
    split <;> omega
  cases hf : b.entry? n with
  | none =>
    have : (b.setEntry n (fun x => { x with busy := some w })).cache = b.cache := by
      refine map_update_absent b.cache Entry.index _ n (fun x hx hi => ?_)
      exact absurd (List.find?_eq_none.mp hf x hx) (by simp [hi])
    simp only [Bridge.runs, this] at hr ⊢
    simp only [setEntry_fields]
    omega
  | some e =>
    obtain ⟨hm, hi⟩ := entry?_mem b n e hf
    have hq := sum_update b.cache Entry.index (fun x => { x with busy := some w }) Entry.runs e ha.indices hm
    simp only [hi] at hq
    have := hle e
    simp only [hi] at this
    simp only [Bridge.runs, setEntry] at hr ⊢
    omega

/-- The engine begins an item access that it found possible. -/
theorem beginEngine_sound {b : Bridge} {n : Nat} {e : Entry} {w : ItemWork} {st wr : Bool} {addr : Nat} {data : List Byte}
    {k : Nat} (sp : Spare b) (law : StepLaw b) (ap : Applied b n e) (ha : b.engine.asked = true) (ht : b.target = some n)
    (hw : AccessLaw e.copy e.reservation ⟨w, .engine⟩)
    (hs : (w.takes = true ∧ b.engine.step = .take) ∨ (w.puts = true ∧ b.engine.step = .put)) :
    Sound (b.beginItem n w .engine st wr addr data k) := by
  have law' : ∀ x ∈ b.cache, x.index = n → EntryLaw { x with busy := some ⟨w, .engine⟩ } := by
    intro x hx hi
    have lx := sp.entries x hx
    obtain ⟨h1, h2, h3, _, h5⟩ := ap.here x hx hi
    refine ⟨fun hf => ?_, lx.claimed, lx.copy, fun v hv => ?_, lx.pinned, lx.reserved⟩
    · rw [show x.state.isFetching = false from h1] at hf
      cases hf
    · cases hv
      dsimp only
      rw [h2, h3]
      exact hw
  have idx : ∀ x ∈ b.cache, (if x.index = n then { x with busy := some ⟨w, .engine⟩ } else x).index = x.index := by
    intro x _
    split <;> rfl
  have clm : ∀ x ∈ b.cache, (if x.index = n then { x with busy := some ⟨w, .engine⟩ } else x).claim = none
      ∨ (if x.index = n then { x with busy := some ⟨w, .engine⟩ } else x).claim = x.claim := by
    intro x _
    split <;> exact Or.inr rfl
  have pin : ∀ m, b.Pinned m → (b.beginItem n w .engine st wr addr data k).Pinned m := by
    rintro m ⟨x, hx, hi, hp⟩
    refine ⟨_, List.mem_map.mpr ⟨x, hx, rfl⟩, (idx x hx).trans hi, ?_⟩
    split <;> exact hp
  refine ⟨⟨?_, ?_⟩, ?_, ?_⟩
  · simp only [beginItem, issue, setEntry]
    rw [indices_map _ _ idx]
    exact List.Nodup.sublist ((List.Sublist.refl _).append (claims_sublist _ b.cache clm)) sp.apart.nodup
  · simp only [beginItem, issue, setEntry]
    rw [indices_map _ _ idx]
    exact sp.apart.missing
  · intro x hx
    obtain ⟨y, hy, rfl⟩ := List.mem_map.mp hx
    split
    · next hi => exact law' y hy hi
    · exact sp.entries y hy
  · have sl : StepLaw (b.beginItem n w .engine st wr addr data k) := by
      refine ⟨law.idle, law.rest, fun h m hm => pin m (law.source h m hm), fun h m hm => pin m (law.destination h m hm),
        law.notNotices, law.spans, law.fresh, fun h => ⟨(law.reserved h).1, fun m hm => ?_⟩⟩
      obtain ⟨x, hx, hi, hp, hr⟩ := (law.reserved h).2 m hm
      refine ⟨_, List.mem_map.mpr ⟨x, hx, rfl⟩, (idx x hx).trans hi, ?_, ?_⟩
      · split <;> exact hp
      · split <;> exact hr
    refine sl.engineLaw ?_ ⟨?_, ?_⟩ ?_
    · have h1 : (b.beginItem n w .engine st wr addr data k).engine.asked = true := ha
      rw [h1, if_pos rfl]
      exact beginItem_runs sp.apart sp.runs
    · intro p hp hr
      rw [(runs_eq_zero.mp sp.runs).1 p hp] at hr
      cases hr
    · intro x hx hr
      obtain ⟨y, hy, rfl⟩ := List.mem_map.mp hx
      have h1 : (b.beginItem n w .engine st wr addr data k).target = b.target := rfl
      rw [h1, ht, idx y hy]
      split at hr
      · next hi => rw [hi]
      · rw [(runs_eq_zero.mp sp.runs).2 y hy] at hr
        omega
    · intro x hx v hv hvr
      obtain ⟨y, hy, rfl⟩ := List.mem_map.mp hx
      split at hv
      · cases hv
        exact hs
      · rw [no_access sp.runs y hy v hv] at hvr
        cases hvr

/-- A pinned end that is no ring is a stack (R133). -/
theorem pinned_stack {b : Bridge} {n : Nat} {e : Entry} (ap : Applied b n e) (hp : b.Pinned n)
    (hd : e.copy.descriptorHalt = false) (hr : ¬ e.copy.isRing = true) : e.copy.kind = kindStack := by
  obtain ⟨x, hx, hi, hxp⟩ := hp
  obtain ⟨_, _, _, h4, _⟩ := ap.here x hx hi
  obtain ⟨k1, k2⟩ := ap.pinned (h4 ▸ hxp)
  rcases kind_cases (ap.copy hd).legal with hk | hk | hk | hk
  · exact absurd hk k1
  · exact absurd (isRing_iff.mpr hk) hr
  · exact hk
  · exact absurd hk k2

theorem applyTake_sound {b : Bridge} {n : Nat} {e : Entry} (sp : Spare b) (law : StepLaw b) (ap : Applied b n e)
    (ha : b.engine.asked = true) (hs : b.engine.step = .take) (hsrc : b.moveCopy.srcStruct = some n) :
    Sound (applyTake n e b) := by
  have hne : b.engine.step ≠ .none := by rw [hs]; exact (fun x => nomatch x)
  have hin : b.engine.step.inItem = true := by rw [hs]; rfl
  have hl := law.live hne
  have ht : b.target = some n := by simp [target, hs, hsrc]
  unfold applyTake
  dsimp only
  split
  · exact endRun_sound sp hl
  · next hh =>
    have hd := notDescriptor_of_state (isHalted_false hh)
    split
    · split <;> exact endRun_sound sp hl
    · next hx =>
      split
      · next hr => exact beginEngine_sound sp law ap ha ht ⟨isRing_iff.mp hr, hd⟩ (Or.inl ⟨rfl, hs⟩)
      · next hr =>
        have hk := pinned_stack ap (law.source (Or.inr hin) n hsrc) hd hr
        refine beginEngine_sound sp law ap ha ht ⟨⟨hk, hd⟩, ?_⟩ (Or.inl ⟨rfl, hs⟩)
        have := ((ap.copy hd).stack hk).1
        simp [nothingToTake, hr] at hx
        omega

theorem takeStep_sound {b b' : Bridge} (h : Sound b) (hs : b.takeStep = some b') : Sound b' := by
  unfold takeStep at hs
  split at hs
  · next hst =>
    have hne : b.engine.step ≠ .none := by rw [hst]; exact (fun x => nomatch x)
    have hin : b.engine.step.inItem = true := by rw [hst]; rfl
    split at hs
    · next n hn =>
      refine askOrApply_sound h rfl (by simp [target, hst, hn]) (fun e b0 sp law ap he _ _ => ?_) hs
      refine applyTake_sound sp law ap (by rw [he]) (by rw [he]; exact hst) ?_
      rw [← hn]
      unfold moveCopy
      rw [he]
    · next hn =>
      cases hs
      have law := h.stepLaw
      have sp := h.spare (h.engine.runs_of_target (by simp [target, hst, hn]))
      refine Spare.sound (sp.of rfl rfl) ⟨fun x => absurd x (law.active hne), ?_, fun _ => law.source (Or.inr hin),
        fun _ => law.destination hin, fun _ => law.notNotices (Or.inr (Or.inr hin)), ⟨fun _ => hn, ?_⟩, ?_, ?_⟩
      · rcases law.live hne with x | x | x
        · exact Or.inl x
        · exact Or.inr (Or.inl x)
        · exact Or.inr (Or.inr (Or.inl x))
      · intro x
        exact law.spans.2 (x.elim (fun y => nomatch y) Or.inr)
      · exact (fun x => x.elim (fun y => nomatch y) (fun y => y.elim (fun z => nomatch z) (fun z => nomatch z)))
      · intro x
        exact ⟨Or.inr (Or.inl rfl), (law.reserved x).2⟩
  · cases hs

/-- An item becomes the transit item (R136). -/
theorem gotItem_sound {b : Bridge} (item : List Byte) (sp : Spare b) (law : StepLaw b)
    (hs : b.engine.step = .take ∨ b.engine.step = .spanRead) : Sound (b.gotItem item) := by
  have hne : b.engine.step ≠ .none := by rcases hs with x | x <;> rw [x] <;> exact (fun x => nomatch x)
  have hin : b.engine.step.inItem = true := by rcases hs with x | x <;> rw [x] <;> rfl
  refine Spare.sound (sp.of rfl rfl) ⟨fun x => absurd x (law.active hne), ?_, fun _ => law.source (Or.inr hin),
    fun _ => law.destination hin, fun _ => law.notNotices (Or.inr (Or.inr hin)), ⟨(fun x => nomatch x), ?_⟩, ?_, ?_⟩
  · rcases law.live hne with x | x | x
    · exact Or.inl x
    · exact Or.inr (Or.inl x)
    · exact Or.inr (Or.inr (Or.inl x))
  · intro x
    exact law.spans.2 (x.elim (fun y => nomatch y) Or.inr)
  · exact (fun x => x.elim (fun y => nomatch y) (fun y => y.elim (fun z => nomatch z) (fun z => nomatch z)))
  · intro x
    exact ⟨Or.inr (Or.inr rfl), (law.reserved x).2⟩

/-- The engine's copy changes in what says nothing of its ends. -/
theorem StepLaw.setMoveCopy {b : Bridge} (h : StepLaw b) (d : MoveDescriptor) (h1 : d.srcStruct = b.moveCopy.srcStruct)
    (h2 : d.dstStruct = b.moveCopy.dstStruct) : StepLaw (b.setMoveCopy d) := by
  obtain ⟨g1, g2⟩ := setMoveCopy_structs b d h1 h2
  exact ⟨h.idle, h.rest, by rw [g1]; exact h.source, by rw [g2]; exact h.destination, by rw [g2]; exact h.notNotices,
    by rw [g1, g2]; exact h.spans, h.fresh, by rw [g2]; exact h.reserved⟩

theorem spanReadBack_sound {b : Bridge} (ok : Bool) (data : List Byte) (h : Sound b) : Sound (b.spanReadBack ok data) := by
  unfold spanReadBack
  split
  · next hs =>
    have hne : b.engine.step ≠ .none := by rw [hs]; exact (fun x => nomatch x)
    have sp := h.spare (h.engine.runs_of_target (by simp [target, hs]))
    split
    · refine gotItem_sound data (Spare.of sp rfl rfl) (h.stepLaw.setMoveCopy _ ?_ rfl) (Or.inr hs)
      have hn := h.engine.spans.1 hs
      unfold MoveDescriptor.srcStruct at hn ⊢
      dsimp only
      split at hn
      · cases hn
      · next hx => rw [if_neg hx, if_neg hx]
    · exact endRun_sound sp (h.stepLaw.live hne)
  · exact h

/-! ## The put (R137) -/

theorem applyPut_sound {b : Bridge} {n : Nat} {e : Entry} (sp : Spare b) (law : StepLaw b) (ap : Applied b n e)
    (ha : b.engine.asked = true) (hs : b.engine.step = .put) (hdst : b.moveCopy.dstStruct = some n)
    (hr : b.engine.disposal = some .reserved) : Sound (applyPut n e b) := by
  have hne : b.engine.step ≠ .none := by rw [hs]; exact (fun x => nomatch x)
  have hin : b.engine.step.inItem = true := by rw [hs]; rfl
  have hl := law.live hne
  have ht : b.target = some n := by simp [target, hs, hdst]
  unfold applyPut
  dsimp only
  split
  · exact endRun_sound sp hl
  · next hh =>
    have hst := isHalted_false hh
    have hd := notDescriptor_of_state hst
    split
    · next hring =>
      refine beginEngine_sound sp law ap ha ht ⟨⟨isRing_iff.mp hring, hd⟩, ?_⟩ (Or.inr ⟨rfl, hs⟩)
      obtain ⟨x, hx, hi, _, hxr⟩ := (law.reserved hr).2 n hdst
      obtain ⟨_, _, h3, _, _⟩ := ap.here x hx hi
      have h4 : e.reservation = true := h3.symm.trans hxr
      have := ((ap.copy hd).ring (isRing_iff.mp hring)).2
      rw [h4] at this
      simp at this ⊢
      omega
    · next hring =>
      have hk := pinned_stack ap (law.destination hin n hdst) hd hring
      split
      · have g := halt_goes causeReserve 0 (Or.inl rfl) sp.apart sp.entries ap
        have sl := g.toKeptBy.stepLaw law
        exact endRun_sound (g.spare sp) (sl.live (by rw [g.engine]; exact hne))
      · next hx =>
        unfold pushItem
        refine beginEngine_sound sp law ap ha ht (push_access (Or.inl rfl) hk hd (ap.copy hd) hx) (Or.inr ⟨?_, hs⟩)
        split <;> rfl

theorem applyDrop_sound {b : Bridge} {n : Nat} {e : Entry} (sp : Spare b) (law : StepLaw b) (ap : Applied b n e)
    (hs : b.engine.step = .put) : Sound (applyDrop n e b) := by
  have hne : b.engine.step ≠ .none := by rw [hs]; exact (fun x => nomatch x)
  unfold applyDrop
  split
  · exact endRun_sound sp (law.live hne)
  · have g := dropItem_goes (i := none) (mv := b.moveIndex) sp.apart sp.entries ap
    have sp' := g.spare sp
    exact disposed_sound sp'.apart sp'.runs (sp'.entries.freed _) (g.toKeptBy.stepLaw law) (by rw [g.engine, hs]; rfl)

theorem putStep_sound {b b' : Bridge} (h : Sound b) (hs : b.putStep = some b') : Sound b' := by
  unfold putStep at hs
  split at hs
  · next hst =>
    have hne : b.engine.step ≠ .none := by rw [hst]; exact (fun x => nomatch x)
    have hin : b.engine.step.inItem = true := by rw [hst]; rfl
    split at hs
    · next n hd hn =>
      refine askOrApply_sound h rfl (by simp [target, hst, hn]) (fun e b0 sp law ap he _ _ => ?_) hs
      refine applyPut_sound sp law ap (by rw [he]) (by rw [he]; exact hst) ?_ (by rw [he]; exact hd)
      rw [← hn]
      unfold moveCopy
      rw [he]
    · next n hd hn =>
      exact askOrApply_sound h rfl (by simp [target, hst, hn])
        (fun e b0 sp law ap he _ _ => applyDrop_sound sp law ap (by rw [he]; exact hst)) hs
    · next hd =>
      cases hs
      have law := h.stepLaw
      have hn := law.spans.2 (Or.inr hd)
      have sp := h.spare (h.engine.runs_of_target (by simp [target, hst, hn]))
      refine Spare.sound (sp.of rfl rfl) ⟨fun x => absurd x (law.active hne), ?_, fun _ => law.source (Or.inr hin),
        fun _ => law.destination hin, fun _ => law.notNotices (Or.inr (Or.inr hin)), ⟨(fun x => nomatch x), fun _ => hn⟩, ?_, ?_⟩
      · rcases law.live hne with x | x | x
        · exact Or.inl x
        · exact Or.inr (Or.inl x)
        · exact Or.inr (Or.inr (Or.inl x))
      · exact (fun x => x.elim (fun y => nomatch y) (fun y => y.elim (fun z => nomatch z) (fun z => nomatch z)))
      · intro x
        have x : b.engine.disposal = some .reserved := x
        rw [hd] at x
        cases x
    · cases hs
  · cases hs

theorem spanWriteBack_sound {b : Bridge} (ok : Bool) (h : Sound b) : Sound (b.spanWriteBack ok) := by
  unfold spanWriteBack
  split
  · next hs =>
    have hne : b.engine.step ≠ .none := by rw [hs]; exact (fun x => nomatch x)
    have sp := h.spare (h.engine.runs_of_target (by simp [target, hs]))
    have hn := h.engine.spans.2 (Or.inl hs)
    split
    · have hd : ({ b.moveCopy with dst := b.moveCopy.dst + b.moveCopy.stepOf b.moveCopy.dstStep } : MoveDescriptor).dstStruct
          = b.moveCopy.dstStruct := by
        unfold MoveDescriptor.dstStruct at hn ⊢
        dsimp only
        split at hn
        · cases hn
        · next hx => rw [if_neg hx, if_neg hx]
      have sl := h.stepLaw.setMoveCopy
        { b.moveCopy with dst := b.moveCopy.dst + b.moveCopy.stepOf b.moveCopy.dstStep } rfl hd
      have sp' : Spare (b.setMoveCopy { b.moveCopy with dst := b.moveCopy.dst + b.moveCopy.stepOf b.moveCopy.dstStep }) :=
        sp.of rfl rfl
      exact disposed_sound sp'.apart sp'.runs (sp'.entries.freed _) sl (by
        have : (b.setMoveCopy { b.moveCopy with dst := b.moveCopy.dst + b.moveCopy.stepOf b.moveCopy.dstStep }).engine.step
          = b.engine.step := rfl
        rw [this, hs]
        rfl)
    · exact endRun_sound sp (h.stepLaw.live hne)
  · exact h

/-! ## After the store-back (R141, R142, R156) -/

theorem Live.of {b b' : Bridge} (h : Live b) (h1 : b'.control.state = b.control.state)
    (h2 : b'.control.stopStage = b.control.stopStage) : Live b' := by
  unfold Live
  rw [h1, h2]
  exact h

/-- After the store-back the run has decided nothing but, it may be, a write. -/
structure Closing (b : Bridge) : Prop where
  spare : Spare b
  live : Live b
  active : ¬ (b.engine.state = .idle ∨ b.engine.state = .paused)
  disposal : b.engine.disposal ≠ some .reserved
  write : b.engine.disposal = some .write → b.moveCopy.dstStruct = none

theorem StepLaw.ending {b : Bridge} (h : StepLaw b) (sp : Spare b) (hs : b.engine.step = .store ∨ b.engine.step = .release) :
    Closing b := by
  have hne : b.engine.step ≠ .none := by rcases hs with x | x <;> rw [x] <;> exact (fun x => nomatch x)
  refine ⟨sp, h.live hne, h.active hne, fun x => ?_, fun x => h.spans.2 (Or.inr x)⟩
  rcases (h.reserved x).1 with y | y | y <;> rw [y] at hs <;> rcases hs with z | z <;> cases z

theorem releasePins_sound {b : Bridge} (h : Closing b) : Sound b.releasePins := by
  unfold releasePins
  split
  · next n rest hp =>
    refine ask_sound (h.spare.of rfl rfl) (StepLaw.ofBare h.live h.active (Or.inr (Or.inr (Or.inl rfl))) (fun x => nomatch x)
      h.disposal h.write) ?_
    simp only [target, setStep]
    rw [hp]
    rfl
  · exact Spare.sound (h.spare.of rfl rfl) (StepLaw.ofBare h.live h.active (Or.inr (Or.inr (Or.inr rfl))) (fun x => nomatch x)
      h.disposal h.write)

theorem stored_sound {b : Bridge} (ok : Bool) (h : Sound b) : Sound (b.stored ok) := by
  unfold stored
  split
  · next hs =>
    have en := h.stepLaw.ending (h.spare (h.engine.runs_of_target (by simp [target, hs]))) (Or.inl hs)
    have s : Sound (releasePins { b with engine := { b.engine with storeFailed := !ok } }) :=
      releasePins_sound ⟨en.spare.of rfl rfl, en.live, en.active, en.disposal, en.write⟩
    exact ((freeMoveWaiters_grows _).goes s.apart s.entries 0).sound s
  · exact h

theorem withCopy_frame (e : Entry) (d : Descriptor) : (e.withCopy d).index = e.index ∧ (e.withCopy d).copy = d
    ∧ (e.withCopy d).reservation = e.reservation ∧ (e.withCopy d).busy = e.busy
    ∧ ((e.withCopy d).state = e.state ∨ (e.withCopy d).state = .dirty) := by
  unfold Entry.withCopy
  split
  · next h => exact ⟨rfl, h.symm, rfl, rfl, Or.inl rfl⟩
  · exact ⟨rfl, rfl, rfl, rfl, Or.inr rfl⟩

/-- The working copy once its pin is released (R13): CLOSING becomes CLOSED. -/
def closedCopy (d : Descriptor) : Descriptor := if d.state = stClosing then { d with state := stClosed } else d

theorem closedCopy_halt (d : Descriptor) : (closedCopy d).descriptorHalt = d.descriptorHalt := by
  unfold closedCopy
  split
  · next h =>
    rw [notDescriptor_of_state (show stClosed ≠ stHalted by decide), notDescriptor_of_state (by rw [h]; decide)]
  · rfl

theorem closedCopy_law {n : Nat} {d : Descriptor} {r : Bool} (h : CopyLaw n d r) : CopyLaw n (closedCopy d) r := by
  unfold closedCopy
  split
  · exact h.congr rfl rfl rfl rfl rfl rfl rfl rfl (fun hk => (h.stack hk).2.2.2.2)
  · exact h

theorem closedCopy_access {d : Descriptor} {r : Bool} {w : Busy} (h : AccessLaw d r w) : AccessLaw (closedCopy d) r w := by
  have hd := closedCopy_halt d
  unfold closedCopy at hd ⊢
  split
  · next hs =>
    rw [if_pos hs] at hd
    unfold AccessLaw at h ⊢
    dsimp only at h ⊢
    rw [hd]
    exact h
  · exact h

/-- An entry whose pin is released keeps its law (R113, R13). -/
theorem unpinned_law {e e' : Entry} (h : EntryLaw e) (hs : e.state.isFetching = false) (h1 : e'.index = e.index)
    (h2 : e'.copy = closedCopy e.copy) (h3 : e'.pin = false) (h4 : e'.reservation = e.reservation) (h5 : e'.busy = e.busy)
    (h6 : e'.state.isFetching = false) : EntryLaw e' := by
  have hd := closedCopy_halt e.copy
  refine ⟨by rw [h6]; exact (fun x => nomatch x), fun _ => h3, ?_, ?_, by rw [h3]; exact (fun x => nomatch x), ?_⟩
  · rw [h1, h2, h4, hd]
    exact fun _ x => closedCopy_law (h.copy hs x)
  · rw [h2, h4, h5]
    exact fun w hw => closedCopy_access (h.access w hw)
  · rw [h1, h2, h4, hd]
    exact h.reserved

theorem released_frame (e : Entry) : e.released.index = e.index ∧ e.released.copy = closedCopy e.copy
    ∧ e.released.reservation = e.reservation ∧ e.released.busy = e.busy
    ∧ (e.released.state = e.state ∨ e.released.state = .dirty) := withCopy_frame e (closedCopy e.copy)

theorem released_law {e : Entry} (h : EntryLaw e) (hs : e.state.isFetching = false) : EntryLaw e.released := by
  obtain ⟨h1, h2, h3, h4, h5⟩ := released_frame e
  refine unpinned_law h hs h1 h2 rfl h3 h4 ?_
  rcases h5 with x | x <;> rw [x]
  · exact hs
  · rfl

theorem released_claim (e : Entry) : e.released.claim = none ∨ e.released.claim = e.claim := by
  rcases (released_frame e).2.2.2.2 with x | x
  · exact Or.inr (by simp [Entry.claim, x])
  · exact Or.inl (by simp [Entry.claim, x])

/-- The held writes that go to the front of the waiting list are no operations of a run. -/
theorem held_countP (l : List Nat) (r : Bool) (w : List CacheOp) :
    (l.map CacheOp.tableWrite ++ (if r then [CacheOp.release] else []) ++ w).countP CacheOp.ofRun = w.countP CacheOp.ofRun := by
  have hh : (l.map CacheOp.tableWrite).countP CacheOp.ofRun = 0 := by
    refine List.countP_eq_zero.mpr (fun op ho => ?_)
    obtain ⟨id, _, rfl⟩ := List.mem_map.mp ho
    simp [CacheOp.ofRun]
  have hr : (if r = true then [CacheOp.release] else []).countP CacheOp.ofRun = 0 := by
    split <;> rfl
  simp only [List.countP_append, hh, hr, Nat.zero_add]

theorem released_runs (e : Entry) : e.released.runs = e.runs := by
  have hw : e.released.waiting = e.held.map CacheOp.tableWrite ++ (if e.heldRelease then [.release] else []) ++ e.waiting := rfl
  simp only [Entry.runs, hw, held_countP, (released_frame e).2.2.2.1]

theorem releaseStep_sound {b b' : Bridge} (h : Sound b) (hs : b.releaseStep = some b') : Sound b' := by
  unfold releaseStep at hs
  split at hs
  · next hst =>
    split at hs
    · next n rest hp =>
      split at hs
      · next e hf =>
        cases hs
        obtain ⟨sp, law, ap, heng, _, _, _⟩ := frontOp_spare h rfl hf
        refine releasePins_sound ?_
        have en := law.ending sp (Or.inr (by rw [heng]; exact hst))
        have idx : ∀ x ∈ (b.startOp n).cache, (if x.index = n then x.released else x).index = x.index := by
          intro x _
          split
          · exact (released_frame x).1
          · rfl
        have clm : ∀ x ∈ (b.startOp n).cache, (if x.index = n then x.released else x).claim = none
            ∨ (if x.index = n then x.released else x).claim = x.claim := by
          intro x _
          split
          · exact released_claim x
          · exact Or.inr rfl
        have rns : ∀ x ∈ (b.startOp n).cache, (if x.index = n then x.released else x).runs = x.runs := by
          intro x _
          split
          · exact released_runs x
          · rfl
        refine ⟨⟨⟨?_, ?_⟩, ?_, ?_⟩, en.live, en.active, en.disposal, en.write⟩
        · simp only [setEntry]
          rw [indices_map _ _ idx]
          exact List.Nodup.sublist ((List.Sublist.refl _).append (claims_sublist _ _ clm)) sp.apart.nodup
        · simp only [setEntry]
          rw [indices_map _ _ idx]
          exact sp.apart.missing
        · intro x hx
          obtain ⟨y, hy, rfl⟩ := List.mem_map.mp hx
          split
          · next hi => exact released_law (sp.entries y hy) (ap.here y hy hi).1
          · exact sp.entries y hy
        · have h1 := sp.runs
          have h2 : ((b.startOp n).cache.map (fun x => if x.index = n then x.released else x)).map Entry.runs
              = (b.startOp n).cache.map Entry.runs := by
            rw [List.map_map]
            exact List.map_congr_left rns
          simp only [Bridge.runs, setEntry, h2] at h1 ⊢
          exact h1
      · cases hs
    · cases hs
  · cases hs

theorem startLink_sound {b : Bridge} (h : Sound b) (hl : Live b) : Sound b.startLink := by
  unfold startLink
  split
  · split
    · next hc =>
      have hst := h.engine.idle (Or.inl hc.1)
      exact loadMove_sound _ _ (Spare.of (h.spare (h.engine.runs_of_target (by simp [target, hst]))) rfl rfl) hl
    · exact h
  · exact h

/-- What the trigger unit makes of a reported end (R156 to R158). -/
theorem followEnd_sound {b : Bridge} {m : Nat} {stored : Option Half} {ok : Bool} {link : Option Nat} {pause : Bool}
    (plain : ∀ t : TriggerUnit, Sound { b with trigger := t }) (hl : Live b) :
    Sound (b.followEnd m stored ok link pause) := by
  unfold followEnd
  split
  · exact plain b.trigger
  · dsimp only
    split
    · exact plain _
    · split
      · split
        · split
          · unfold postLink endCleanly
            split <;> exact plain _
          · exact startLink_sound (plain _) hl
        · exact plain _
      · exact plain _

theorem Same.spare {b b' : Bridge} (g : Same b b') (h : Spare b) : Spare b' := h.of g.cache g.misses

theorem reportEnd_sound {b b' : Bridge} (h : Sound b) (hs : b.reportEnd = some b') : Sound b' := by
  unfold reportEnd at hs
  split at hs
  · next lm en hst _ _ =>
    cases hs
    have hne : b.engine.step ≠ .none := by rw [hst]; exact (fun x => nomatch x)
    have sp := h.spare (h.engine.runs_of_target (by simp [target, hst]))
    have hl := h.stepLaw.live hne
    have g1 : Same b (b.endNotices lm.index en) := by
      unfold endNotices storeFault
      split
      · split
        · exact notify_same _ _
        · split
          · exact notify_same _ _
          · exact Same.refl b
      · dsimp only
        split
        · exact (notify_same _ _).trans (notify_same _ _)
        · exact notify_same _ _
    have g2 : Same b (((b.endNotices lm.index en).activity).finishStopMove lm.index) := by
      refine (g1.trans (activity_same _)).trans ?_
      unfold finishStopMove
      split
      · split
        · exact commandDone_same _
        · exact Same.refl _
      · exact Same.refl _
    have un (b1 : Bridge) (g : Same b b1) (t : TriggerUnit) (x : EngineState) (p : Bool) (hx : x = .idle ∨ x = .paused) :
        Sound { b1 with engine := Engine.unloaded x p, trigger := t } := by
      refine Spare.sound ((g.spare sp).of rfl rfl) ⟨fun _ => rfl, Or.inr (Or.inr (Or.inr rfl)), ?_, ?_, ?_, ⟨?_, ?_⟩, ?_, ?_⟩
      · exact (fun y => y.elim (fun z => nomatch z) (fun z => nomatch z))
      · exact (fun y => nomatch y)
      · exact (fun y => y.elim (fun z => nomatch z) (fun z => z.elim (fun w => nomatch w) (fun w => nomatch w)))
      · exact (fun y => nomatch y)
      · exact (fun y => y.elim (fun z => nomatch z) (fun z => nomatch z))
      · exact (fun y => y.elim (fun z => nomatch z) (fun z => z.elim (fun w => nomatch w) (fun w => nomatch w)))
      · exact (fun y => nomatch y)
    have hi : (if b.engine.pauseRequest = true then EngineState.paused else .idle) = .idle
        ∨ (if b.engine.pauseRequest = true then EngineState.paused else .idle) = .paused := by
      split
      · exact Or.inr rfl
      · exact Or.inl rfl
    have plain : ∀ (t : TriggerUnit), Sound { (((b.endNotices lm.index en).activity).finishStopMove lm.index) with
        engine := Engine.unloaded (if b.engine.pauseRequest = true then .paused else .idle) b.engine.pauseRequest
        trigger := t } := fun t => un _ g2 t _ _ hi
    have hl' := Live.of hl g2.state g2.stage
    exact followEnd_sound plain hl'
  · cases hs

end Sys2Proof.Machine
end

