-- ==== Sys2Proof/Laws/Device.lean ====
section
/-! SUPPORT. The answers of memory, the I-port's hand-over, bridge control and the resets keep the laws of the device. -/

namespace Sys2Proof.Machine

open Bridge

/-! ## Item accesses (R42, R68) -/

/-- The access in progress on an entry is over. -/
theorem endBusy_goes {b : Bridge} (n : Nat) (ha : Apart b) (he : Entries b) : Goes 0 0 b (b.endBusy n) := by
  refine setEntry_goes (fun e => { e with busy := none }) n 0 ha he (fun x hx _ => ?_)
  have lx := he x hx
  refine ⟨⟨rfl, Or.inr rfl, ?_, fun hp => ⟨hp, id⟩, (fun w hb => nomatch hb)⟩,
    ⟨fun hf => ⟨(lx.fetching hf).1, (lx.fetching hf).2.1, rfl⟩, lx.claimed, lx.copy, (fun w hb => nomatch hb), lx.pinned,
      lx.reserved⟩⟩
  simp only [Entry.runs, Option.any_none]
  exact Nat.add_le_add_left (Nat.zero_le _) _

theorem endBusy_applied {b : Bridge} {n : Nat} {e : Entry} (ha : Apart b) (he : Entries b) (h : b.entry? n = some e)
    (hb : e.busy ≠ none) : Applied (b.endBusy n) n e := by
  obtain ⟨hm, hi⟩ := entry?_mem b n e h
  have law := he e hm
  have hs : e.state.isFetching = false := by
    cases hx : e.state.isFetching with
    | false => rfl
    | true => exact absurd (law.fetching hx).2.2 hb
  refine Applied.of law hi hs (fun x hx hxi => ?_)
  obtain ⟨y, hy, rfl⟩ := List.mem_map.mp hx
  by_cases hyi : y.index = n
  · have hye : y = e := ha.eq hy hm (hyi.trans hi.symm)
    subst hye
    rw [if_pos hyi]
    exact ⟨hs, rfl, rfl, rfl, rfl⟩
  · rw [if_neg hyi] at hxi
    exact absurd hxi hyi

/-- The engine's own access is over: none of its operations stands in the cache, and it was the take's or the put's. -/
theorem endBusy_spare {b : Bridge} {n : Nat} {e : Entry} {w : Busy} (h : Sound b) (hf : b.entry? n = some e)
    (hb : e.busy = some w) (hw : w.ofRun = true) : Spare (b.endBusy n) ∧ StepLaw (b.endBusy n) ∧ b.target = some n
      ∧ ((w.work.takes = true ∧ b.engine.step = .take) ∨ (w.work.puts = true ∧ b.engine.step = .put)) := by
  obtain ⟨hm, hi⟩ := entry?_mem b n e hf
  have g := endBusy_goes n h.apart h.entries
  have hr : 0 < e.runs := by simp only [Entry.runs, hb, Option.any_some, hw, if_true]; omega
  have ht := h.engine.waits.2 e hm hr
  rw [hi] at ht
  refine ⟨⟨g.apart, g.entries, ?_⟩, g.toKeptBy.stepLaw h.stepLaw, ht, h.engine.access e hm w hb hw⟩
  have hq := sum_update b.cache Entry.index (fun x => { x with busy := none }) Entry.runs e h.apart.indices hm
  have h1 := h.engine.one
  have h2 : b.runs ≤ 1 := by split at h1 <;> omega
  have h3 : e.runs = ({ e with busy := none } : Entry).runs + 1 := by
    simp only [Entry.runs, hb, Option.any_some, Option.any_none, hw, if_true]
    rfl
  simp only [hi] at hq h3
  simp only [Bridge.runs, endBusy, setEntry] at h2 ⊢
  omega

theorem storedFor_same (b : Bridge) {p : Party} (hp : p ≠ .engine) : Same b (b.storedFor p) := by
  cases p with
  | tap t => exact answer_same _ _ _ _
  | engine => exact absurd rfl hp
  | noticeWriter => exact ⟨rfl, rfl, rfl, rfl, rfl⟩
  | commandUnit => exact Same.refl b

theorem tookFor_goes {b : Bridge} {p : Party} (item : List Byte) (hp : p ≠ .engine) (ha : Apart b) (he : Entries b) :
    Goes 0 0 b (b.tookFor p item) := by
  cases p with
  | tap t => exact (answer_same _ _ _ _).goes ha he 0
  | engine => exact absurd rfl hp
  | noticeWriter => exact Goes.refl ha he 0
  | commandUnit => exact judgeCommand_goes ha he

theorem itemFailed_goes {b : Bridge} {n : Nat} {e : Entry} {p : Party} (hp : p ≠ .engine) (ha : Apart b) (he : Entries b)
    (ap : Applied b n e) : Goes 0 0 b (b.itemFailed n e.copy p) := by
  have g := halt_goes causeMemory 0 (Or.inr rfl) ha he ap
  cases p with
  | tap t => exact Same.after g (refuseTap_same _ _ _)
  | engine => exact absurd rfl hp
  | commandUnit => exact Same.after g (takeYieldsNothing_same _ _)
  | noticeWriter =>
    have g0 := (dropOldest_same b).goes ha he 0
    exact g0.trans (halt_goes causeMemory 0 (Or.inr rfl) g0.apart g0.entries (ap.same (dropOldest_same b)))

/-- A failed access of the engine ends its run (R139). -/
theorem itemFailed_sound {b : Bridge} {n : Nat} {e : Entry} (sp : Spare b) (law : StepLaw b) (hs : b.engine.step ≠ .none)
    (ap : Applied b n e) : Sound (b.itemFailed n e.copy .engine) := by
  have g := halt_goes causeMemory 0 (Or.inr rfl) sp.apart sp.entries ap
  exact endRun_sound (g.spare sp) ((g.toKeptBy.stepLaw law).live (by rw [g.engine]; exact hs))

/-- What every ended access rests on: a working copy in use, and what the access was found to be. -/
theorem access_of {b : Bridge} {n : Nat} {e : Entry} {w : Busy} (he : Entries b) (hf : b.entry? n = some e)
    (hb : e.busy = some w) : AccessLaw e.copy e.reservation w := he e (entry?_mem b n e hf).1 |>.access w hb

/-- A changed level of a structure is written and reported, for the engine. -/
theorem changeLevel_spare {b : Bridge} {n : Nat} {e : Entry} {d : Descriptor} {p : Party} (sp : Spare b) (law : StepLaw b)
    (ap : Applied b n e) (hs : CopyStep n e.copy d e.reservation) :
    Spare (b.changeLevel n e.copy d p) ∧ StepLaw (b.changeLevel n e.copy d p)
      ∧ (b.changeLevel n e.copy d p).engine = b.engine := by
  have g := changeLevel_goes (p := p) sp.apart sp.entries ap hs
  exact ⟨g.spare sp, g.toKeptBy.stepLaw law, g.engine⟩

/-- The engine's item was stored in a ring (R43, R56, R137): the place that its reservation kept is taken, and the
reservation goes. -/
theorem ringPutEngine_sound {b : Bridge} {n : Nat} {e : Entry} (sp : Spare b) (law : StepLaw b) (ap : Applied b n e)
    (hs : b.engine.step = .put) (hdst : b.moveCopy.dstStruct = some n) (hk : e.copy.kind = kindRing)
    (hd : e.copy.descriptorHalt = false) (hc : e.copy.count < e.copy.cap) :
    Sound ((b.changeLevel n e.copy e.copy.ringStored .engine).disposed) := by
  have ret : ∀ x ∈ b.cache, Retains x (if x.index = n then x.withCopy e.copy.ringStored else x) := by
    intro x hx
    split
    · unfold Entry.withCopy
      split
      · exact Retains.refl x
      · exact ⟨rfl, Or.inl rfl, Nat.le_refl _, fun hp => ⟨hp, id⟩, fun w hb hw => ⟨w, hb, hw, rfl, rfl⟩⟩
    · exact Retains.refl x
  have rep := report_same (b.writeCopy n e.copy.ringStored) n e.copy e.copy.ringStored (partyInitiator .engine)
    (b.partyMove .engine)
  obtain ⟨g1, g2⟩ := map_kept (b' := b.changeLevel n e.copy e.copy.ringStored .engine) _ 0 rep.cache rep.misses rep.engine
    rep.state rep.stage sp.apart ret
  have hm := moveCopy_congr g1.engine
  have g3 := g1.runs
  have g4 := sp.runs
  refine disposed_sound g2 (by omega) ?_ (g1.stepLaw law) (by rw [g1.engine, hs]; rfl)
  intro x hx
  have hx : x ∈ (b.writeCopy n e.copy.ringStored).cache := by
    rw [← rep.cache]
    exact hx
  obtain ⟨y, hy, rfl⟩ := List.mem_map.mp hx
  rw [hm, hdst]
  have ly := sp.entries y hy
  by_cases hyi : y.index = n
  · rw [if_pos hyi]
    obtain ⟨h1, h2, h3, h4, h5⟩ := ap.here y hy hyi
    obtain ⟨f1, f2, f3, f4, f5⟩ := withCopy_frame y e.copy.ringStored
    have fp : (y.withCopy e.copy.ringStored).pin = y.pin := by
      unfold Entry.withCopy
      split <;> rfl
    have fs : (y.withCopy e.copy.ringStored).state.isFetching = false := by
      rcases f5 with z | z <;> rw [z]
      · exact h1
      · rfl
    have fc : (y.withCopy e.copy.ringStored).claim = none ∨ (y.withCopy e.copy.ringStored).claim = y.claim := by
      rcases f5 with z | z
      · exact Or.inr (by simp [Entry.claim, z])
      · exact Or.inl (by simp [Entry.claim, z])
    unfold Entry.freed
    rw [if_pos (by rw [f1, hyi])]
    refine ⟨fun z => ?_, fun z => ?_, fun _ _ => ?_, fun w hw => ?_, fun z => ?_, (fun z => nomatch z)⟩
    · rw [show (y.withCopy e.copy.ringStored).state.isFetching = false from fs] at z
      cases z
    · dsimp only
      rw [fp]
      have z : (y.withCopy e.copy.ringStored).claim.isSome = true := z
      rcases fc with q | q
      · rw [q] at z; cases z
      · rw [q] at z; exact ly.claimed z
    · dsimp only
      rw [f1, f2, hyi]
      exact (ap.copy hd).ringStored hk (by simp; omega)
    · have hw : (y.withCopy e.copy.ringStored).busy = some w := hw
      rw [f4, h5] at hw
      cases hw
    · dsimp only
      rw [f2]
      have z : (y.withCopy e.copy.ringStored).pin = true := z
      rw [fp] at z
      have := ly.pinned z
      rw [h2] at this
      exact this
  · rw [if_neg hyi]
    unfold Entry.freed
    rw [if_neg (fun z => hyi (Option.some.inj z).symm)]
    exact ly

section Completions

variable {b : Bridge} {n : Nat} {e : Entry} {w : Busy}

/-- The party of an access of no run is not the engine. -/
theorem party_of (hw : w.ofRun = false) (ha : w.work ≠ .abandoned) : w.party ≠ .engine := by
  intro hp
  simp [Busy.ofRun, hp, ha] at hw

theorem ringItemDone_sound (ok : Bool) (data : List Byte) (h : Sound b) : Sound (b.ringItemDone n ok data) := by
  unfold ringItemDone
  split
  · exact h
  · next e hf =>
    split
    · exact h
    · next w hb =>
      have g := endBusy_goes n h.apart h.entries
      have s1 := g.sound h
      have ap := endBusy_applied h.apart h.entries hf (by rw [hb]; exact (fun x => nomatch x))
      have acc := access_of h.entries hf hb
      dsimp only
      cases hr : w.ofRun with
      | false =>
        split
        · next hwk =>
          have hp := party_of hr (by rw [hwk]; exact (fun x => nomatch x))
          simp only [AccessLaw, hwk] at acc
          obtain ⟨⟨hk, hd⟩, hc⟩ := acc
          split
          · have hc' : e.copy.count + 1 + (if e.reservation = true then 1 else 0) ≤ e.copy.cap := by
              simp only [ne_eq, hp, not_false_eq_true, and_true] at hc
              split at hc <;> split <;> simp_all <;> omega
            have st : CopyStep n e.copy e.copy.ringStored e.reservation :=
              ⟨fun _ => (ap.copy hd).ringStored hk hc', rfl, fun _ => hd⟩
            exact (Same.after (g.trans (changeLevel_goes g.apart g.entries ap st)) (storedFor_same _ hp)).sound h
          · exact (g.trans (itemFailed_goes hp g.apart g.entries ap)).sound h
        · next hwk =>
          have hp := party_of hr (by rw [hwk]; exact (fun x => nomatch x))
          simp only [AccessLaw, hwk] at acc
          split
          · have st : CopyStep n e.copy e.copy.ringTaken e.reservation :=
              ⟨fun _ => (ap.copy acc.2).ringTaken acc.1, rfl, fun _ => acc.2⟩
            have g1 := g.trans (changeLevel_goes (p := w.party) g.apart g.entries ap st)
            exact (g1.trans (tookFor_goes data hp g1.apart g1.entries)).sound h
          · exact (g.trans (itemFailed_goes hp g.apart g.entries ap)).sound h
        · next hwk =>
          have hp := party_of hr (by rw [hwk]; exact (fun x => nomatch x))
          split
          · exact (g.trans (tookFor_goes data hp g.apart g.entries)).sound h
          · exact (g.trans (itemFailed_goes hp g.apart g.entries ap)).sound h
        all_goals exact s1
      | true =>
        obtain ⟨sp, law, ht, hst⟩ := endBusy_spare h hf hb hr
        have hp : w.party = .engine := by
          simp only [Busy.ofRun, Bool.and_eq_true, beq_iff_eq] at hr
          exact hr.1
        have heng : (b.endBusy n).engine = b.engine := g.engine
        have hne : (b.endBusy n).engine.step ≠ .none := by
          rw [heng]
          rcases hst with x | x <;> rw [x.2] <;> exact (fun y => nomatch y)
        rw [hp]
        split
        · next hwk =>
          simp only [AccessLaw, hwk] at acc
          obtain ⟨⟨hk, hd⟩, hc⟩ := acc
          have hput : b.engine.step = .put := by
            rcases hst with x | x
            · rw [hwk] at x; cases x.1
            · exact x.2
          split
          · refine ringPutEngine_sound sp law ap (by rw [heng]; exact hput) ?_ hk hd (by simpa [hp] using hc)
            have hdst : b.moveCopy.dstStruct = some n := by simpa [target, hput] using ht
            rw [moveCopy_congr heng]
            exact hdst
          · exact itemFailed_sound sp law hne ap
        · next hwk =>
          simp only [AccessLaw, hwk] at acc
          have htk : b.engine.step = .take := by
            rcases hst with x | x
            · exact x.2
            · rw [hwk] at x; cases x.1
          split
          · obtain ⟨sp1, law1, he1⟩ := changeLevel_spare (p := .engine) sp law ap
              ⟨fun _ => (ap.copy acc.2).ringTaken acc.1, rfl, fun _ => acc.2⟩
            exact gotItem_sound data sp1 law1 (Or.inl (by rw [he1, heng]; exact htk))
          · exact itemFailed_sound sp law hne ap
        · next hwk =>
          rcases hst with x | x <;> rw [hwk] at x <;> cases x.1
        all_goals exact s1

/-- The next write of an overflow push is issued (R70). -/
theorem overflowNext_goes {l l' : List (Nat × List Byte)} {st wr : Bool} {addr : Nat} {data : List Byte} {k : Nat} (ha : Apart b)
    (he : Entries b) (hf : b.entry? n = some e) (hb : e.busy = some w) (hw : w.work = .stackOverflow l) :
    Goes 0 0 b (b.beginItem n (.stackOverflow l') w.party st wr addr data k) := by
  obtain ⟨hm, hi⟩ := entry?_mem b n e hf
  have hrun : Busy.ofRun ⟨.stackOverflow l', w.party⟩ = w.ofRun := by
    have hne : ∀ l, (ItemWork.stackOverflow l != .abandoned) = true := fun l => bne_iff_ne.mpr (fun x => nomatch x)
    simp [Busy.ofRun, hw, hne]
  have g := setEntry_goes (b := b) (fun x => { x with busy := some ⟨.stackOverflow l', w.party⟩ }) n 0 ha he (fun x hx hxi => by
    have hxe : x = e := ha.eq hx hm (hxi.trans hi.symm)
    subst hxe
    have lx := he x hx
    refine ⟨⟨rfl, Or.inr rfl, ?_, fun hp => ⟨hp, id⟩, fun v hv hvr => ?_⟩,
      ⟨fun hff => ?_, lx.claimed, lx.copy, fun v hv => ?_, lx.pinned, lx.reserved⟩⟩
    · simp only [Entry.runs, hb, Option.any_some, hrun]
      exact Nat.le_refl _
    · cases hv
      refine ⟨w, hb, by rw [← hrun]; exact hvr, ?_, ?_⟩ <;> rw [hw] <;> rfl
    · have := (lx.fetching hff).2.2
      rw [hb] at this
      cases this
    · cases hv
      have := lx.access w hb
      simp only [AccessLaw, hw] at this
      exact this)
  exact Same.after g (issue_same _ _ _ _ _ _)

theorem stackItemDone_sound (ok : Bool) (data : List Byte) (h : Sound b) : Sound (b.stackItemDone n ok data) := by
  unfold stackItemDone
  split
  · exact h
  · next e hf =>
    split
    · exact h
    · next w hb =>
      have g := endBusy_goes n h.apart h.entries
      have s1 := g.sound h
      have ap := endBusy_applied h.apart h.entries hf (by rw [hb]; exact (fun x => nomatch x))
      have acc := access_of h.entries hf hb
      dsimp only
      split
      · exact s1
      · next hab =>
        cases hr : w.ofRun with
        | false =>
          have hp := party_of hr hab
          split
          · exact (g.trans (itemFailed_goes hp g.apart g.entries ap)).sound h
          · split
            · next hwk =>
              simp only [AccessLaw, hwk] at acc
              obtain ⟨⟨hk, hd⟩, h1, h2⟩ := acc
              have st : CopyStep n e.copy e.copy.stackPushed e.reservation :=
                ⟨fun _ => (ap.copy hd).stackPushed hk h1 h2, rfl, fun _ => hd⟩
              exact (Same.after (g.trans (changeLevel_goes g.apart g.entries ap st)) (storedFor_same _ hp)).sound h
            · next hwk =>
              simp only [AccessLaw, hwk] at acc
              obtain ⟨⟨hk, hd⟩, h1, h2⟩ := acc
              have st : CopyStep n e.copy e.copy.stackMarked e.reservation :=
                ⟨fun _ => (ap.copy hd).stackMarked hk h1 h2, rfl, fun _ => hd⟩
              exact (Same.after (g.trans (changeLevel_goes g.apart g.entries ap st)) (storedFor_same _ hp)).sound h
            · next hwk =>
              simp only [AccessLaw, hwk] at acc
              obtain ⟨⟨hk, hd⟩, h1⟩ := acc
              have st : CopyStep n e.copy e.copy.stackPopped e.reservation :=
                ⟨fun _ => (ap.copy hd).stackPopped hk h1, rfl, fun _ => hd⟩
              have g1 := g.trans (changeLevel_goes (p := w.party) g.apart g.entries ap st)
              exact (g1.trans (tookFor_goes data hp g1.apart g1.entries)).sound h
            · exact (g.trans (tookFor_goes data hp g.apart g.entries)).sound h
            · next hwk =>
              simp only [AccessLaw, hwk] at acc
              obtain ⟨hk, hd⟩ := acc
              split
              · split
                · next hle =>
                  have st : CopyStep n e.copy (e.copy.unwound (natAt data 0 4)) e.reservation :=
                    ⟨fun _ => (ap.copy hd).unwound hk _ hle, rfl, fun _ => hd⟩
                  exact (Same.after (g.trans (changeLevel_goes g.apart g.entries ap st)) (answer_same _ _ _ _)).sound h
                · exact (Same.after g (refuseTap_same _ _ _)).sound h
              all_goals exact s1
            · next hwk =>
              simp only [AccessLaw, hwk] at acc
              obtain ⟨⟨hk, hd⟩, h1⟩ := acc
              have st : CopyStep n e.copy e.copy.overflowed e.reservation :=
                ⟨fun _ => (ap.copy hd).overflowed hk h1, rfl, fun _ => notDescriptor_of_cause
                  (show causeOverflow ≠ causeDescriptor by decide)⟩
              have g1 := g.trans (writeCopy_goes 0 g.apart g.entries ap st)
              refine Goes.sound (Same.after (n := 0) (Same.after g1 ?_) (storedFor_same _ hp)) h
              refine Same.trans ?_ (report_same _ _ _ _ _ _)
              split
              · exact notify_same _ _
              · exact Same.refl _
            · next hwk => exact (overflowNext_goes h.apart h.entries hf hb hwk).sound h
            all_goals exact s1
        | true =>
          obtain ⟨sp, law, ht, hst⟩ := endBusy_spare h hf hb hr
          have hp : w.party = .engine := by
            simp only [Busy.ofRun, Bool.and_eq_true, beq_iff_eq] at hr
            exact hr.1
          have heng : (b.endBusy n).engine = b.engine := g.engine
          have hne : (b.endBusy n).engine.step ≠ .none := by
            rw [heng]
            rcases hst with x | x <;> rw [x.2] <;> exact (fun y => nomatch y)
          have put (hx : w.work.takes = false) : (b.endBusy n).engine.step = .put := by
            rw [heng]
            rcases hst with x | x
            · rw [hx] at x; cases x.1
            · exact x.2
          split
          · rw [hp]; exact itemFailed_sound sp law hne ap
          · split
            · next hwk =>
              simp only [AccessLaw, hwk] at acc
              obtain ⟨⟨hk, hd⟩, h1, h2⟩ := acc
              obtain ⟨sp1, law1, he1⟩ := changeLevel_spare (p := w.party) sp law ap
                ⟨fun _ => (ap.copy hd).stackPushed hk h1 h2, rfl, fun _ => hd⟩
              rw [hp] at sp1 law1 he1 ⊢
              exact disposed_sound sp1.apart sp1.runs (sp1.entries.freed _) law1
                (by rw [he1, put (by rw [hwk]; rfl)]; rfl)
            · next hwk =>
              rcases hst with x | x <;> rw [hwk] at x <;> cases x.1
            · next hwk =>
              simp only [AccessLaw, hwk] at acc
              obtain ⟨⟨hk, hd⟩, h1⟩ := acc
              obtain ⟨sp1, law1, he1⟩ := changeLevel_spare (p := w.party) sp law ap
                ⟨fun _ => (ap.copy hd).stackPopped hk h1, rfl, fun _ => hd⟩
              rw [hp] at sp1 law1 he1 ⊢
              refine gotItem_sound data sp1 law1 (Or.inl ?_)
              rw [he1, heng]
              rcases hst with x | x
              · exact x.2
              · rw [hwk] at x; cases x.1
            · next hwk =>
              rcases hst with x | x <;> rw [hwk] at x <;> cases x.1
            · next hwk =>
              rcases hst with x | x <;> rw [hwk] at x <;> cases x.1
            · next hwk =>
              simp only [AccessLaw, hwk] at acc
              obtain ⟨⟨hk, hd⟩, h1⟩ := acc
              have st : CopyStep n e.copy e.copy.overflowed e.reservation :=
                ⟨fun _ => (ap.copy hd).overflowed hk h1, rfl, fun _ => notDescriptor_of_cause
                  (show causeOverflow ≠ causeDescriptor by decide)⟩
              have g1 := writeCopy_goes 0 g.apart g.entries ap st
              have g2 : Goes 0 0 (b.endBusy n) ((if e.copy.faultNotices then
                  ((b.endBusy n).writeCopy n e.copy.overflowed).notify (overflowNotice n e.copy.overflowed.depth
                    (partyInitiator w.party) (b.partyMove w.party)) else (b.endBusy n).writeCopy n e.copy.overflowed).report n
                  e.copy e.copy.overflowed (partyInitiator w.party) (b.partyMove w.party)) := by
                refine Same.after (Same.after g1 ?_) (report_same _ _ _ _ _ _)
                split
                · exact notify_same _ _
                · exact Same.refl _
              have sp1 := g2.spare sp
              rw [hp] at sp1 g2 ⊢
              exact disposed_sound sp1.apart sp1.runs (sp1.entries.freed _) (g2.toKeptBy.stepLaw law)
                (by rw [g2.engine, put (by rw [hwk]; rfl)]; rfl)
            · next hwk => exact (overflowNext_goes h.apart h.entries hf hb hwk).sound h
            all_goals exact s1

end Completions

end Sys2Proof.Machine
end

