-- ==== Sys2Proof/Laws/Answers.lean ====
section
/-! SUPPORT. Fetches and write-backs, the I-port's hand-over, bridge control and the resets keep the laws of the device. -/

namespace Sys2Proof.Machine

open Bridge

/-! ## Fetches (R109, R110) -/

section Fetches

variable {b : Bridge} {n : Nat} {e : Entry}

theorem fetchTaken_goes (raw : Descriptor) (ha : Apart b) (he : Entries b) (hf : b.entry? n = some e)
    (hs : e.state.isFetching = true) : Goes 0 0 b (b.fetchTaken n raw) := by
  obtain ⟨hm, hi⟩ := entry?_mem b n e hf
  obtain ⟨h1, h2, h3⟩ := (he e hm).fetching hs
  have g := setEntry_goes (b := b) (fun e => { e with
      copy := raw.fetched b.cfg b.control.straps n
      state := if raw.passes b.cfg b.control.straps n = true ∧ raw.fetched b.cfg b.control.straps n = raw then .clean
        else .dirty }) n 0 ha he (fun x hx hxi => by
    have hxe : x = e := ha.eq hx hm (hxi.trans hi.symm)
    subst hxe
    have hcl : ∀ y : Entry, y.state = .clean ∨ y.state = .dirty → y.claim = none ∧ y.state.isFetching = false := by
      intro y hy
      rcases hy with z | z <;> exact ⟨by simp [Entry.claim, z], by rw [z]; rfl⟩
    have hst : (if raw.passes b.cfg b.control.straps n = true ∧ raw.fetched b.cfg b.control.straps n = raw
        then EntryState.clean else .dirty) = .clean
      ∨ (if raw.passes b.cfg b.control.straps n = true ∧ raw.fetched b.cfg b.control.straps n = raw
        then EntryState.clean else .dirty) = .dirty := by
      split
      · exact Or.inl rfl
      · exact Or.inr rfl
    obtain ⟨k1, k2⟩ := hcl { x with
      copy := raw.fetched b.cfg b.control.straps n
      state := if raw.passes b.cfg b.control.straps n = true ∧ raw.fetched b.cfg b.control.straps n = raw then .clean
        else .dirty } hst
    refine ⟨⟨rfl, Or.inl k1, Nat.le_refl _, fun hp => ⟨hp, id⟩, fun w hb hw => ⟨w, hb, hw, rfl, rfl⟩⟩,
      ⟨fun _ => ⟨h1, h2, h3⟩, fun _ => h1, fun _ hd => ?_, fun w hw => ?_, fun hp => ?_, fun hr => ?_⟩⟩
    · dsimp only at hd ⊢
      rw [h2, hi]
      exact CopyLaw.fetched hd
    · have hw : x.busy = some w := hw
      rw [h3] at hw
      cases hw
    · have hp : x.pin = true := hp
      rw [h1] at hp
      cases hp
    · have hr : x.reservation = true := hr
      rw [h2] at hr
      cases hr)
  unfold fetchTaken
  dsimp only
  have g1 : Goes 0 0 b (if raw.passes b.cfg b.control.straps n = true then
      b.setEntry n (fun e => { e with
        copy := raw.fetched b.cfg b.control.straps n
        state := if raw.passes b.cfg b.control.straps n = true ∧ raw.fetched b.cfg b.control.straps n = raw then .clean
          else .dirty })
      else (b.setEntry n (fun e => { e with
        copy := raw.fetched b.cfg b.control.straps n
        state := if raw.passes b.cfg b.control.straps n = true ∧ raw.fetched b.cfg b.control.straps n = raw then .clean
          else .dirty })).notify (faultNotice n .descriptor 0 false)) := by
    split
    · exact g
    · exact Same.after g (notify_same _ _)
  split
  · exact Same.after (Same.after g1 (judgeLines_same _ _ _ _ _)) (wakeCommand_same _)
  · exact Same.after g1 (judgeLines_same _ _ _ _ _)

/-- What a failed fetch does to an operation of no run. -/
theorem fetchFailedFor_grows (op : CacheOp) (b : Bridge) (ho : op.ofRun = false) : Grows b (fetchFailedFor n b op) := by
  cases op with
  | tap t => exact (refuseTap_same _ _ _).grows
  | engine o =>
    cases o with
    | completion => exact Same.grows (by exact ⟨rfl, rfl, rfl, rfl, rfl⟩)
    | _ => cases ho
  | command => exact (commandRefused_same _ _).grows
  | commandTake => exact (takeYieldsNothing_same _ _).grows
  | noticePut => exact (dropOldest_same _).grows
  | tableRead id => exact allow_grows _ _ _
  | tableWrite id => exact allow_grows _ _ _
  | release => exact (commandDone_same _).grows

/-- The bridge is in order, with no operation of a run in the cache, and a move can be loaded. -/
structure Vacant (b : Bridge) : Prop where
  sound : Sound b
  runs : b.runs = 0
  live : Live b

theorem Grows.sound {b b' : Bridge} (g : Grows b b') (h : Sound b) : Sound b' := (g.goes h.apart h.entries 0).sound h

theorem Grows.vacant {b b' : Bridge} (g : Grows b b') (h : Vacant b) : Vacant b' :=
  ⟨g.sound h.sound, by have := (g.goes h.sound.apart h.sound.entries 0).runs; have := h.runs; omega,
    Live.of h.live g.state g.stage⟩

theorem endRun_vacant {code : RunEnd} {lost : Bool} {st : Option Nat} (h : Vacant b) : Vacant (b.endRun code lost st) := by
  have s := endRun_sound (code := code) (lost := lost) (st := st) (h.sound.spare h.runs) h.live
  have hc : (b.endRun code lost st).control = b.control := by simp
  exact ⟨s, s.engine.runs_of_target (by simp [target]), Live.of h.live (by rw [hc]) (by rw [hc])⟩

theorem fetchFailedFor_vacant (op : CacheOp) (h : Vacant b) : Vacant (fetchFailedFor n b op) := by
  cases ho : op.ofRun with
  | false => exact (fetchFailedFor_grows op b ho).vacant h
  | true =>
    cases op with
    | engine o =>
      cases o with
      | completion => cases ho
      | _ => exact endRun_vacant h
    | _ => cases ho

theorem foldl_fetchFailedFor {P : Bridge → Prop} (l : List CacheOp) (h : ∀ b, ∀ op ∈ l, P b → P (fetchFailedFor n b op)) :
    ∀ b, P b → P (l.foldl (fetchFailedFor n) b) := by
  induction l with
  | nil => exact fun b hb => hb
  | cons a l ih =>
    intro b hb
    exact ih (fun b op ho => h b op (List.mem_cons_of_mem _ ho)) _ (h b a List.mem_cons_self hb)

theorem fetchFailed_sound (h : Sound b) (hm : e ∈ b.cache) (hs : e.state.isFetching = true) : Sound (b.fetchFailed e) := by
  have hp := ((h.entries e hm).fetching hs).1
  obtain ⟨g, hr⟩ := remove_goes 0 h.apart h.entries hm hp
  have key (P : Bridge → Prop) (hP : ∀ b, P b → Sound b) (hn : ∀ b x, P b → P (b.notify x))
      (hop : ∀ b, ∀ op ∈ e.waiting, P b → P (fetchFailedFor e.index b op))
      (h0 : P { b with cache := b.cache.filter (fun x => x.index != e.index) }) : Sound (b.fetchFailed e) := by
    refine hP _ ?_
    unfold fetchFailed faultWith
    dsimp only
    have h1 := foldl_fetchFailedFor (P := P) (n := e.index) (e.waiting.filter (fun op => op == .noticePut))
      (fun b op ho => hop b op (List.mem_filter.mp ho).1) _ h0
    have h2 := foldl_fetchFailedFor (P := P) (n := e.index) (e.waiting.filter (fun op => op != .noticePut))
      (fun b op ho => hop b op (List.mem_filter.mp ho).1)
    split
    · exact h2 _ (hn _ _ h1)
    · exact hn _ _ (h2 _ h1)
  by_cases hx : ∃ op ∈ e.waiting, op.ofRun = true
  · have h0 : 0 < e.runs := by
      have := List.countP_pos_iff.mpr hx
      simp only [Entry.runs]
      omega
    have ht := h.engine.waits.2 e hm h0
    have hne : b.engine.step ≠ .none := by
      intro x
      simp [target, x] at ht
    have h1 := h.engine.one
    have h2 : b.runs ≤ 1 := by split at h1 <;> omega
    refine key Vacant (fun b v => v.sound) (fun b x v => (notify_same b x).grows.vacant v)
      (fun b op _ v => fetchFailedFor_vacant op v) ⟨g.sound h, by omega, h.stepLaw.live hne⟩
  · refine key Sound (fun b v => v) (fun b x v => (notify_same b x).sound v) (fun b op ho v => ?_) (g.sound h)
    refine (fetchFailedFor_grows op b ?_).sound v
    cases hop : op.ofRun with
    | false => rfl
    | true => exact absurd ⟨op, ho, hop⟩ hx

theorem fetchDone_sound (ok : Bool) (data : List Byte) (h : Sound b) : Sound (b.fetchDone n ok data) := by
  unfold fetchDone
  split
  · exact h
  · next e hf =>
    obtain ⟨hm, hi⟩ := entry?_mem b n e hf
    split
    · next hst =>
      have hs : e.state.isFetching = true := by rw [hst]; rfl
      split
      · exact (dropEntry_goes 0 h.apart h.entries hm ((h.entries e hm).fetching hs).1).1.sound h
      · split
        · exact (fetchTaken_goes _ h.apart h.entries hf hs).sound h
        · exact fetchFailed_sound h hm hs
    all_goals exact h

/-! ## Write-backs (R111, R112) -/

/-- In a list whose values under a partial function are distinct, a value has one origin. -/
theorem eq_of_filterMap_nodup {α β : Type} {f : α → Option β} {l : List α} (h : (l.filterMap f).Nodup) {x y : α} {k : β}
    (hx : x ∈ l) (hy : y ∈ l) (hfx : f x = some k) (hfy : f y = some k) : x = y := by
  induction l with
  | nil => cases hx
  | cons a l ih =>
    have tail : (l.filterMap f).Nodup := h.sublist ((List.sublist_cons_self a l).filterMap f)
    have head : f a = some k → ∀ z ∈ l, f z ≠ some k := by
      intro ha z hz hfz
      rw [List.filterMap_cons_some ha] at h
      exact (List.nodup_cons.mp h).1 (List.mem_filterMap.mpr ⟨z, hz, hfz⟩)
    rcases List.mem_cons.mp hx with h1 | h1 <;> rcases List.mem_cons.mp hy with h2 | h2
    · rw [h1, h2]
    · exact absurd hfy (head (h1 ▸ hfx) y h2)
    · exact absurd hfx (head (h2 ▸ hfy) x h1)
    · exact ih tail h1 h2

theorem reuse_goes {k : Nat} (ha : Apart b) (he : Entries b) (hm : e ∈ b.cache) (hs : e.state = .writing (.claim k)) :
    Goes 0 0 b (b.reuse e k) := by
  have hc : e.claim = some k := by simp [Entry.claim, hs]
  have hp := (he e hm).claimed (by rw [hc]; rfl)
  obtain ⟨g, g1, g2⟩ := dropEntry_goes 0 ha he hm hp
  have hsub : (b.cache.filter (fun x => x.index != e.index)).Sublist b.cache := List.filter_sublist
  have hk : k ∈ b.cache.filterMap Entry.claim := List.mem_filterMap.mpr ⟨e, hm, hc⟩
  obtain ⟨_, n2, n3⟩ := List.nodup_append.mp ha.nodup
  refine g.trans (allocate_goes 0 g.apart g.entries ?_ ?_)
  · rw [g1]
    intro hx
    exact n3 k ((hsub.map _).subset hx) k hk rfl
  · rw [g2]
    intro hx
    obtain ⟨x, hxf, hxc⟩ := List.mem_filterMap.mp hx
    obtain ⟨hxm, hxi⟩ := List.mem_filter.mp hxf
    rw [eq_of_filterMap_nodup n2 hxm hm hxc hc] at hxi
    simp at hxi

/-- A written-back entry goes to another state of holding its copy. -/
theorem restate_goes {f : Entry → Entry} (ha : Apart b) (he : Entries b) (hm : e ∈ b.cache) (hs : e.state.isFetching = false)
    (hf : ∀ x, (f x).index = x.index ∧ ((f x).state = .clean ∨ (f x).state = .dirty) ∧ (f x).copy = x.copy ∧ (f x).pin = x.pin
      ∧ (f x).reservation = x.reservation ∧ (f x).busy = x.busy ∧ (f x).waiting = x.waiting) :
    Goes 0 0 b (b.setEntry e.index f) := by
  refine setEntry_goes f e.index 0 ha he (fun x hx hi => ?_)
  obtain ⟨h1, h2, h3, h4, h5, h6, h7⟩ := hf x
  have hxe : x = e := ha.eq hx hm hi
  subst hxe
  refine Keeps.restate (he x hx) h1 hs ?_ (Or.inl ?_) h3 h4 h5 h6 (Nat.le_of_eq (by rw [h7]))
  · rcases h2 with z | z <;> rw [z] <;> rfl
  · rcases h2 with z | z <;> simp [Entry.claim, z]

theorem writtenBack_goes {written : List Byte} (ha : Apart b) (he : Entries b) (hm : e ∈ b.cache)
    (hs : e.state.isFetching = false) : Goes 0 0 b (b.setEntry e.index (fun x => { x with
      state := if x.copy.toBytes = written then .clean else .dirty, flushMark := false })) := by
  refine restate_goes (f := fun x => { x with
    state := if x.copy.toBytes = written then .clean else .dirty, flushMark := false }) ha he hm hs (fun x => ?_)
  generalize x.copy.toBytes = l
  refine ⟨rfl, ?_, rfl, rfl, rfl, rfl, rfl⟩
  dsimp only
  split
  · exact Or.inl rfl
  · exact Or.inr rfl

theorem keepPinned_goes {r : WriteBackFor} (ha : Apart b) (he : Entries b) (hm : e ∈ b.cache)
    (hs : e.state.isFetching = false) : Goes 0 0 b (b.keepPinned e r) := by
  have g := restate_goes (f := fun x => { x with state := .dirty, flushMark := false }) ha he hm hs
    (fun _ => ⟨rfl, Or.inr rfl, rfl, rfl, rfl, rfl, rfl⟩)
  unfold keepPinned
  dsimp only
  split
  · refine g.trans (Grows.goes (Grows.trans ?_ (allow_grows _ _ _)) g.apart g.entries 0)
    exact setEntry_grows _ _ _ (fun x => ⟨rfl, rfl, rfl, rfl, rfl, rfl, countP_tail_le _⟩)
  · exact g

theorem writeBackDone_sound (ok : Bool) (written : List Byte) (h : Sound b) : Sound (b.writeBackDone n ok written) := by
  unfold writeBackDone
  split
  · exact h
  · next e hf =>
    obtain ⟨hm, hi⟩ := entry?_mem b n e hf
    split
    · next reason hst =>
      have hs : e.state.isFetching = false := by rw [hst]; rfl
      split
      · unfold writeBackOk
        split
        · exact (reuse_goes h.apart h.entries hm hst).sound h
        all_goals exact (writtenBack_goes h.apart h.entries hm hs).sound h
      · have go : ∀ b' : Bridge, Sound b' → b'.cache = b.cache → Sound (if e.pin then b'.keepPinned e reason
            else match (generalizing := false) reason with
              | .claim n => b'.reuse e n
              | .must | .tableRead | .other => b'.dropEntry e) := by
          intro b' h' hc
          have hm' : e ∈ b'.cache := by rw [hc]; exact hm
          split
          · exact (keepPinned_goes h'.apart h'.entries hm' hs).sound h'
          · next hp =>
            split
            · exact (reuse_goes h'.apart h'.entries hm' hst).sound h'
            all_goals exact (dropEntry_goes 0 h'.apart h'.entries hm' (by simpa using hp)).1.sound h'
        unfold writeBackFailed faultWith
        dsimp only
        split
        · exact go b h rfl
        · split
          · exact go _ ((notify_same _ _).sound h) (by simp)
          · exact (notify_same _ _).sound (go b h rfl)
    all_goals exact h

end Fetches

/-! ## Bridge control -/

/-- The bridge state changes, to one in which what is loaded may be loaded. -/
theorem restated_sound {b b' : Bridge} (h : Sound b) (hc : b'.cache = b.cache) (hm : b'.misses = b.misses)
    (he : b'.engine = b.engine) (hl : Live b' ∨ b.engine.step = .none) : Sound b' := by
  have hm' := moveCopy_congr he
  have hr : b'.runs = b.runs := by simp [Bridge.runs, hc, hm]
  have law := h.stepLaw
  refine ⟨⟨by rw [hc]; exact h.apart.nodup, by rw [hc, hm]; exact h.apart.missing⟩,
    by intro e hx; rw [hc] at hx; exact h.entries e hx, StepLaw.engineLaw ⟨by rw [he]; exact law.idle, ?_, ?_, ?_,
      by rw [he, hm']; exact law.notNotices, by rw [he, hm']; exact law.spans, by rw [he]; exact law.fresh, ?_⟩ ?_ ?_ ?_⟩
  · rcases hl with (x | x | x) | x
    · exact Or.inl x
    · exact Or.inr (Or.inl x)
    · exact Or.inr (Or.inr (Or.inl x))
    · exact Or.inr (Or.inr (Or.inr (by rw [he]; exact x)))
  · rw [he, hm']
    exact fun x n hn => (pinned_of hc n).mpr (law.source x n hn)
  · rw [he, hm']
    exact fun x n hn => (pinned_of hc n).mpr (law.destination x n hn)
  · rw [he, hm', hc]
    exact law.reserved
  · rw [he, hr]
    exact h.engine.one
  · rw [target_congr he]
    unfold Bridge.WaitsAt
    rw [hc, hm]
    exact h.engine.waits
  · rw [he, hc]
    exact h.engine.access

/-- Out of RUN, QUIET and step 2 of STOPPING nothing is loaded. -/
theorem Sound.unloaded {b : Bridge} (h : Sound b) (hn : ¬ Live b) : b.engine.step = .none := by
  rcases h.engine.rest with x | x | x | x
  · exact absurd (Or.inl x) hn
  · exact absurd (Or.inr (Or.inl x)) hn
  · exact absurd (Or.inr (Or.inr x)) hn
  · exact x

theorem notLive_of {b : Bridge} (h : b.control.state = .pass ∨ b.control.state = .starting ∨ b.control.state = .auditing
    ∨ b.control.state = .warm) : ¬ Live b := by
  rintro (x | x | ⟨x, _⟩) <;> rw [x] at h <;> rcases h with y | y | y | y <;> cases y

section Control

variable {b : Bridge}

theorem refuseStart_sound (r : StartReason) (h : Sound b) (hs : b.engine.step = .none) : Sound (b.refuseStart r) :=
  enterPass_sound (Same.sound (b := b) (by exact ⟨rfl, rfl, rfl, rfl, rfl⟩) h) hs

theorem takeStart_sound (h : Sound b) (hs : b.engine.step = .none) : Sound b.takeStart :=
  restated_sound h (by simp [takeStart]) (by simp [takeStart]) (by simp [takeStart]) (Or.inr hs)

theorem auditRead_same (a : Audit) (p : AuditPosition) : Same b (b.auditRead a p) := by
  unfold auditRead
  split <;> exact ⟨rfl, rfl, rfl, rfl, rfl⟩

theorem enterRun_sound (a : Audit) (h : Sound b) : Sound (b.enterRun a) := by
  refine restated_sound h (by simp [enterRun]) (by simp [enterRun]) (by simp [enterRun]) (Or.inl (Or.inl ?_))
  simp [enterRun]

theorem auditNext_sound (a : Audit) (h : Sound b) : Sound (b.auditNext a) := by
  unfold auditNext
  split
  · split
    · exact (auditRead_same _ _).sound h
    · split
      · exact (auditRead_same _ _).sound h
      · exact enterRun_sound a h
  · split
    · exact (auditRead_same _ _).sound h
    · exact enterRun_sound a h

theorem auditWrite_same (a : Audit) (addr : Nat) (data : List Byte) : Same b (b.auditWrite a addr data) :=
  ⟨rfl, rfl, rfl, rfl, rfl⟩

theorem anchorRead_sound (ok : Bool) (data : List Byte) (h : Sound b) : Sound (b.anchorRead ok data) := by
  unfold anchorRead
  split
  · next hs =>
    have hn := h.unloaded (notLive_of (Or.inr (Or.inl hs)))
    split
    · dsimp only
      split
      · exact refuseStart_sound _ h hn
      · refine (auditRead_same _ _).sound (restated_sound h (by simp) (by simp) (by simp) (Or.inr hn))
    · exact refuseStart_sound _ h hn
  · exact h

theorem auditReadBack_sound (ok : Bool) (data : List Byte) (h : Sound b) : Sound (b.auditReadBack ok data) := by
  unfold auditReadBack
  split
  · next hs _ =>
    have hn := h.unloaded (notLive_of (Or.inr (Or.inr (Or.inl hs))))
    split
    · split
      · unfold auditStruct
        dsimp only
        split
        · split
          · exact auditNext_sound _ h
          · exact refuseStart_sound _ h hn
        · split
          · exact (auditWrite_same _ _ _).sound h
          · split
            · exact (auditWrite_same _ _ _).sound h
            · exact auditNext_sound _ h
      · unfold auditMove
        split
        · exact auditNext_sound _ h
        · exact (auditWrite_same _ _ _).sound h
    · exact refuseStart_sound _ h hn
  · exact h

theorem auditWriteBack_sound (ok : Bool) (h : Sound b) : Sound (b.auditWriteBack ok) := by
  unfold auditWriteBack
  split
  · next hs _ =>
    split
    · exact auditNext_sound _ h
    · exact refuseStart_sound _ h (h.unloaded (notLive_of (Or.inr (Or.inr (Or.inl hs)))))
  · exact h

theorem takeStop_sound (h : Sound b) (hs : b.takesStop = true) : Sound b.takeStop := by
  have f : b.takeStop.cache = b.cache ∧ b.takeStop.misses = b.misses ∧ b.takeStop.control.state = .stopping
      ∧ b.takeStop.control.stopStage = (if b.startingUp then .halting else .finishing)
      ∧ b.takeStop.engine = { b.engine with
        pauseRequest := false, stopRequest := none
        state := if b.engine.state = .paused then .idle else b.engine.state } := by
    simp [takeStop]
  obtain ⟨f1, f2, f3, f4, f5⟩ := f
  have h1 : Sound { b with engine := { b.engine with
      pauseRequest := false, stopRequest := none
      state := if b.engine.state = .paused then .idle else b.engine.state } } := by
    have law := h.stepLaw
    refine ⟨⟨h.apart.nodup, h.apart.missing⟩, h.entries, StepLaw.engineLaw ⟨fun x => law.idle ?_, law.rest, law.source,
      law.destination, law.notNotices, law.spans, law.fresh, law.reserved⟩ h.engine.one h.engine.waits h.engine.access⟩
    dsimp only at x
    split at x
    · next y => exact Or.inr y
    · exact x
  refine restated_sound h1 f1 f2 f5 ?_
  unfold startingUp at f4
  cases hst : b.control.state with
  | starting => exact Or.inr (h.unloaded (notLive_of (Or.inr (Or.inl hst))))
  | auditing => exact Or.inr (h.unloaded (notLive_of (Or.inr (Or.inr (Or.inl hst)))))
  | run => exact Or.inl (Or.inr (Or.inr ⟨f3, by rw [f4, hst]; rfl⟩))
  | quiet => exact Or.inl (Or.inr (Or.inr ⟨f3, by rw [f4, hst]; rfl⟩))
  | pass => simp [takesStop, hst] at hs
  | stopping => simp [takesStop, hst] at hs
  | warm => simp [takesStop, hst] at hs

theorem stopCommand_sound {b' : Bridge} (h : Sound b) (hs : b.stopCommand = some b') : Sound b' := by
  unfold stopCommand at hs
  split at hs
  · simp only [Option.some.injEq] at hs
    subst hs
    have hc := (commandDone_same b).sound h
    split
    · next ht =>
      refine takeStop_sound hc ?_
      have : b.commandDone.control.state = b.control.state := by simp
      unfold takesStop at ht ⊢
      rw [this]
      exact ht
    · exact hc
  · cases hs

theorem clearPending_sound {b' : Bridge} (h : Sound b) (hs : b.clearPending = some b') : Sound b' := by
  unfold clearPending at hs
  split at hs
  · next hc =>
    cases hs
    have hn := h.engine.idle (Or.inl hc.2.2.1)
    have g : Same b (b.setCleared b.trigger.pending.length) := by
      unfold setCleared
      split
      · exact Same.refl b
      · exact Same.trans (b := { b with control := { b.control with clearedPending := b.trigger.pending.length } })
          ⟨rfl, rfl, rfl, rfl, rfl⟩ (mirror_same _)
    have h1 := g.sound h
    exact restated_sound h1 rfl rfl rfl (Or.inr (by rw [g.engine]; exact hn))
  · cases hs

theorem beginEmptying_sound {b' : Bridge} (h : Sound b) (hs : b.beginEmptying = some b') : Sound b' := by
  unfold beginEmptying at hs
  split at hs
  · next hc =>
    cases hs
    refine restated_sound h rfl rfl rfl (Or.inr (h.unloaded ?_))
    rintro (x | x | ⟨_, x⟩)
    · rw [hc.1] at x; cases x
    · rw [hc.1] at x; cases x
    · rw [hc.2.1] at x; cases x
  · cases hs

theorem timerExpires_sound {b' : Bridge} (h : Sound b) (hs : b.timerExpires = some b') : Sound b' := by
  unfold timerExpires at hs
  split at hs
  · split at hs
    · cases hs
      exact Same.sound (by exact ⟨rfl, rfl, rfl, rfl, rfl⟩) h
    · cases hs
      exact (startTimer_same b).sound h
  · cases hs

theorem auditFault_sound {b' : Bridge} (h : Sound b) (hs : b.auditFault = some b') : Sound b' := by
  unfold auditFault at hs
  split at hs
  · split at hs
    · cases hs
      refine (notify_same _ _).sound (Same.sound (b := b) ?_ h)
      exact ⟨rfl, rfl, rfl, rfl, rfl⟩
    · cases hs
  · cases hs

theorem tick_sound (h : Sound b) : Sound b.tick := by
  unfold tick
  split
  · exact h
  · split
    · split
      · next hb => exact settle_sound (timerExpires_sound h hb)
      · exact h
    · exact Same.sound (by exact ⟨rfl, rfl, rfl, rfl, rfl⟩) h

/-! ## The I-port and the M-port -/

theorem noteAccess_sound (c : RequestClass) (h : Sound b) : Sound (b.noteAccess c) := by
  unfold noteAccess
  split
  · exact restated_sound h (by simp) (by simp) (by simp) (Or.inl (Or.inl (by simp)))
  · split
    · exact (cancelEmptying_same b).sound h
    · exact h

theorem takeRequest_sound (r : Request) (c : RequestClass) (h : Sound b) : Sound (b.takeRequest r c) :=
  noteAccess_sound c (Same.sound (b := b) (by exact ⟨rfl, rfl, rfl, rfl, rfl⟩) h)

theorem decode_sound (r : InFlight) (h : Sound b) : Sound (b.decode r) := by
  have h0 := noteAccess_sound .tap h
  have h1 : Sound (if r.request.debug then b.noteAccess .tap else (b.noteAccess .tap).activity) := by
    split
    · exact h0
    · exact (activity_same _).sound h0
  unfold decode
  dsimp only
  split
  · exact (refuseTap_same _ _ _).sound h1
  · split
    · exact (refuseTap_same _ _ _).sound h1
    · have h2 := (setPhase_same (if r.request.debug then b.noteAccess .tap else (b.noteAccess .tap).activity) r.id
        .tapped).sound h1
      exact (enqueue_goes' _ 0 _ rfl h2.apart h2.entries).sound h2

theorem forwardPlain_same (b : Bridge) (r : InFlight) : Same b (b.forwardPlain r) := by
  unfold forwardPlain
  split
  · exact setPhase_same _ _ _
  · exact forward_same _ _

theorem handOn_sound {b' : Bridge} (r : InFlight) (h : Sound b) (hs : b.handOn r = some b') : Sound b' := by
  unfold handOn at hs
  split at hs
  · cases hs; exact decode_sound r h
  · split at hs
    · cases hs
    · cases hs
      exact (beginSnoop_grows _ _).sound (noteAccess_sound _ h)
  · split at hs
    · cases hs
      exact (beginSnoop_grows _ _).sound h
    · cases hs
      exact (forwardPlain_same _ _).sound h
  · cases hs
    exact (forwardPlain_same _ _).sound h
  all_goals cases hs

theorem arrive_sound {b' : Bridge} (row : RequestClass → Bool → Bool) (src : Arrival) (h : Sound b)
    (hs : b.arrive row src = some b') : Sound b' := by
  unfold arrive at hs
  split at hs
  · next r =>
    dsimp only at hs
    split at hs
    · have h1 := takeRequest_sound r (classify b.control.state b.control.settings b.control.straps r) h
      split at hs
      · next x _ =>
        simp only [Option.some.injEq] at hs
        subst hs
        split
        · cases hx : (b.takeRequest r (classify b.control.state b.control.settings b.control.straps r)).handOn x with
          | none => exact h1
          | some b2 => exact handOn_sound x h1 hx
        · exact h1
      · cases hs
        exact h1
    · cases hs
  · split at hs
    · next x _ =>
      split at hs
      · exact handOn_sound x h hs
      · cases hs
    · cases hs

theorem forwardedDone_sound (id : Nat) (ok : Bool) (data : List Byte) (h : Sound b) : Sound (b.forwardedDone id ok data) := by
  unfold forwardedDone
  split
  · exact h
  · next r _ =>
    have h1 := (answer_same b id ok (forwardedData b.freeDraws r.request ok data)).sound h
    dsimp only
    split
    · split
      · unfold actOnStartWord
        split
        · next hc => exact takeStart_sound h1 (h1.unloaded (notLive_of (Or.inl hc.2)))
        · split
          · next hc => exact takeStop_sound h1 hc.2
          · exact h1
      · exact h1
    · exact h1

theorem mirrorDone_sound (id : Nat) (h : Sound b) : Sound (b.mirrorDone id) :=
  (freeMirrorWaiters_grows _).sound (Same.sound (b := b) (by exact ⟨rfl, rfl, rfl, rfl, rfl⟩) h)

theorem grant_sound {b' : Bridge} (h : Sound b) (hs : b.grant = some b') : Sound b' := by
  unfold grant at hs
  split at hs
  · cases hs
  · cases hs
    exact Same.sound (b := b) (by exact ⟨rfl, rfl, rfl, rfl, rfl⟩) h

/-! ## Commands that name no working copy -/

theorem nop_sound {b' : Bridge} (h : Sound b) (hs : b.nop = some b') : Sound b' := by
  obtain ⟨_, _, rfl⟩ := Option.map_eq_some_iff.mp hs
  exact (commandDone_same b).sound h

theorem flush_sound {b' : Bridge} (h : Sound b) (hs : b.flush = some b') : Sound b' := by
  obtain ⟨_, _, rfl⟩ := Option.map_eq_some_iff.mp hs
  have g : Grows b { b with cache := b.cache.map (fun e => { e with flushMark := e.flushMark || e.countsDirty }) } :=
    ⟨⟨_, rfl, fun _ => ⟨rfl, rfl, rfl, rfl, rfl, rfl, Nat.le_refl _⟩⟩, rfl, rfl, rfl, rfl⟩
  exact Same.sound (by exact ⟨rfl, rfl, rfl, rfl, rfl⟩) (g.sound h)

theorem release_sound {b' : Bridge} {n : Nat} (h : Sound b) (hs : b.release n = some b') : Sound b' := by
  unfold release at hs
  split at hs
  · split at hs
    · simp only [Option.some.injEq] at hs
      subst hs
      split
      · exact (commandDone_same b).sound h
      · exact Same.sound (by exact ⟨rfl, rfl, rfl, rfl, rfl⟩) ((enqueue_goes' n 0 .release rfl h.apart h.entries).sound h)
    · cases hs
  · cases hs

theorem postTrigger_sound {b' : Bridge} {m : Nat} (h : Sound b) (hs : b.postTrigger m = some b') : Sound b' := by
  unfold postTrigger at hs
  split at hs
  · split at hs
    · cases hs
      exact ((post_same _ _ _).trans (commandDone_same _)).sound h
    · cases hs
  · cases hs

/-- The engine's requests and its pause change nothing that the laws look at, but that an engine with nothing loaded may go
from IDLE to PAUSED and back. -/
theorem requests_sound {x : Engine} (h : Sound b) (h1 : x.step = b.engine.step) (h2 : x.move = b.engine.move)
    (h3 : x.asked = b.engine.asked) (h4 : x.pins = b.engine.pins) (h5 : x.disposal = b.engine.disposal)
    (h6 : x.state = .idle ∨ x.state = .paused → b.engine.state = .idle ∨ b.engine.state = .paused) :
    Sound { b with engine := x } := by
  have law := h.stepLaw
  have hm : ({ b with engine := x } : Bridge).moveCopy = b.moveCopy := by simp [moveCopy, h2]
  have ht : ({ b with engine := x } : Bridge).target = b.target := by
    unfold target
    rw [hm]
    simp only [h1, h4]
  refine ⟨⟨h.apart.nodup, h.apart.missing⟩, h.entries, StepLaw.engineLaw ⟨fun y => ?_, ?_, ?_, ?_, ?_, ?_, ?_, ?_⟩ ?_ ?_ ?_⟩
  · exact h1.trans (law.idle (h6 y))
  · simp only [h1]; exact law.rest
  · rw [hm]; simp only [h1]; exact law.source
  · rw [hm]; simp only [h1]; exact law.destination
  · rw [hm]; simp only [h1]; exact law.notNotices
  · rw [hm]; simp only [h1, h5]; exact law.spans
  · simp only [h1, h5]; exact law.fresh
  · rw [hm]; simp only [h1, h5]; exact law.reserved
  · simp only [h3]; exact h.engine.one
  · rw [ht]; exact h.engine.waits
  · simp only [h1]; exact h.engine.access

theorem stopMove_sound {b' : Bridge} {m : Nat} (h : Sound b) (hs : b.stopMove m = some b') : Sound b' := by
  have hw : Sound (b.withdraw m) := Same.sound (by exact ⟨rfl, rfl, rfl, rfl, rfl⟩) h
  unfold stopMove at hs
  split at hs
  · next c _ =>
    split at hs
    · simp only [Option.some.injEq] at hs
      subst hs
      split
      · refine Same.sound (b := (b.withdraw m).requestStop c.tag) (by exact ⟨rfl, rfl, rfl, rfl, rfl⟩) ?_
        unfold requestStop
        split
        · exact requests_sound hw rfl rfl rfl rfl rfl id
        · exact hw
      · split
        · exact (commandDone_same _).sound hw
        · exact (commandRefused_same _ _).sound h
    · cases hs
  · cases hs

theorem pauseMoves_sound {b' : Bridge} (h : Sound b) (hs : b.pauseMoves = some b') : Sound b' := by
  obtain ⟨_, _, rfl⟩ := Option.map_eq_some_iff.mp hs
  refine (commandDone_same _).sound ?_
  split
  · exact h
  · refine requests_sound h rfl rfl rfl rfl rfl (fun x => ?_)
    dsimp only at x
    split at x
    · next y => exact Or.inl y
    · exact x

theorem resumeMoves_sound {b' : Bridge} (h : Sound b) (hs : b.resumeMoves = some b') : Sound b' := by
  obtain ⟨_, _, rfl⟩ := Option.map_eq_some_iff.mp hs
  refine (commandDone_same _).sound ?_
  split
  · exact h
  · refine requests_sound h rfl rfl rfl rfl rfl (fun x => ?_)
    dsimp only at x
    split at x
    · next y => exact Or.inr y
    · exact x

/-! ## Resets (R189, R190) -/

theorem unloadedEngine_law {x : EngineState} {p : Bool} (he : b.engine = Engine.unloaded x p) : StepLaw b := by
  refine ⟨fun _ => by rw [he]; rfl, Or.inr (Or.inr (Or.inr (by rw [he]; rfl))), ?_, ?_, ?_, ⟨?_, ?_⟩, ?_, ?_⟩ <;>
    rw [he] <;> simp [Engine.unloaded, EngineStep.inItem]

theorem powerOnReset_sound : Sound b.powerOnReset := by
  have f : b.powerOnReset.cache = [] ∧ b.powerOnReset.misses = [] ∧ b.powerOnReset.engine = Engine.unloaded .idle false := by
    simp [powerOnReset, Bridge.powerOn]
  obtain ⟨f1, f2, f3⟩ := f
  exact Spare.sound ⟨⟨by rw [f1]; exact List.nodup_nil, by rw [f2]; exact (fun p hp => nomatch hp)⟩,
    (by intro e hx; rw [f1] at hx; cases hx), by simp [Bridge.runs, f1, f2]⟩ (unloadedEngine_law f3)

theorem endReset_sound {b' : Bridge} (straps : Fin 16) (h : Sound b) (hs : b.endReset straps = some b') : Sound b' := by
  unfold endReset at hs
  split at hs
  · cases hs
    exact Same.sound (by exact ⟨rfl, rfl, rfl, rfl, rfl⟩) h
  · cases hs

theorem unpinned_frame (e : Entry) : e.unpinned.index = e.index ∧ e.unpinned.copy = closedCopy e.copy
    ∧ e.unpinned.reservation = e.reservation ∧ e.unpinned.busy = e.busy
    ∧ (e.unpinned.state = e.state ∨ e.unpinned.state = .dirty) := by
  refine ⟨rfl, rfl, rfl, rfl, ?_⟩
  have : e.unpinned.state = (if closedCopy e.copy = e.copy then e.state else if e.state = .clean then .dirty else e.state) := rfl
  rw [this]
  split
  · exact Or.inl rfl
  · split
    · exact Or.inr rfl
    · exact Or.inl rfl

theorem atWarm_state (s : EntryState) : s.atWarm.isFetching = s.isFetching ∧ ∀ n, s.atWarm ≠ .writing (.claim n) := by
  cases s with
  | fetching x => exact ⟨rfl, fun n h => nomatch h⟩
  | clean => exact ⟨rfl, fun n h => nomatch h⟩
  | dirty => exact ⟨rfl, fun n h => nomatch h⟩
  | writing r => cases r <;> exact ⟨rfl, fun n h => nomatch h⟩

/-- An entry at warm reset obeys the law, holds no operation of a run, and is neither pinned nor claimed (R124). -/
theorem atWarm_law {e : Entry} (h : EntryLaw e) : EntryLaw e.atWarm ∧ e.atWarm.runs = 0 ∧ e.atWarm.index = e.index
    ∧ e.atWarm.claim = none ∧ e.atWarm.pin = false := by
  have hcl : e.atWarm.claim = none := by
    have := (atWarm_state (if e.pin then e.unpinned else e).state).2
    have hs : e.atWarm.state = (if e.pin then e.unpinned else e).state.atWarm := rfl
    unfold Entry.claim
    split
    · next n hn => exact absurd (hs.symm.trans hn) (this n)
    · rfl
  have hpin : e.atWarm.pin = false := by
    have : e.atWarm.pin = (if e.pin then e.unpinned else e).pin := rfl
    rw [this]
    split
    · rfl
    · next x => simpa using x
  have hidx : e.atWarm.index = e.index := by
    have : e.atWarm.index = (if e.pin then e.unpinned else e).index := rfl
    rw [this]
    split <;> rfl
  have h1 : EntryLaw (if e.pin then e.unpinned else e) := by
    split
    · next hp =>
      have hs : e.state.isFetching = false := by
        cases hx : e.state.isFetching with
        | false => rfl
        | true => rw [(h.fetching hx).1] at hp; cases hp
      obtain ⟨f1, f2, f3, f4, f5⟩ := unpinned_frame e
      refine unpinned_law h hs f1 f2 rfl f3 f4 ?_
      rcases f5 with z | z <;> rw [z]
      · exact hs
      · rfl
    · exact h
  refine ⟨?_, ?_, hidx, hcl, hpin⟩
  · have hst : e.atWarm.state.isFetching = (if e.pin then e.unpinned else e).state.isFetching :=
      (atWarm_state (if e.pin then e.unpinned else e).state).1
    have hcp : e.atWarm.copy = (if e.pin then e.unpinned else e).copy := rfl
    have hix : e.atWarm.index = (if e.pin then e.unpinned else e).index := rfl
    have hrs : e.atWarm.reservation = false := rfl
    have hbs : e.atWarm.busy = (if e.pin then e.unpinned else e).busy.map (fun w => { w with work := .abandoned }) := rfl
    refine ⟨fun hf => ⟨hpin, hrs, ?_⟩, fun _ => hpin, fun hf hd => ?_, fun w hw => ?_, by rw [hpin]; exact (fun x => nomatch x),
      by rw [hrs]; exact (fun x => nomatch x)⟩
    · rw [hbs, (h1.fetching (hst ▸ hf)).2.2]
      rfl
    · rw [hcp, hix, hrs]
      exact (h1.copy (hst ▸ hf) (hcp ▸ hd)).unreserved
    · rw [hbs] at hw
      obtain ⟨v, _, rfl⟩ := Option.map_eq_some_iff.mp hw
      trivial
  · have hw : e.atWarm.waiting = (if e.pin then e.unpinned else e).waiting.filter CacheOp.survivesWarm := rfl
    have hbs : e.atWarm.busy = (if e.pin then e.unpinned else e).busy.map (fun w => { w with work := .abandoned }) := rfl
    have hc : e.atWarm.waiting.countP CacheOp.ofRun = 0 := by
      rw [hw]
      refine List.countP_eq_zero.mpr (fun op ho => ?_)
      have := (List.mem_filter.mp ho).2
      cases op <;> simp [CacheOp.survivesWarm] at this <;> simp [CacheOp.ofRun]
    have hb : e.atWarm.busy.any Busy.ofRun = false := by
      rw [hbs]
      cases (if e.pin then e.unpinned else e).busy with
      | none => rfl
      | some w => simp [Busy.ofRun]
    simp only [Entry.runs, hc, hb]
    rfl

theorem discardNotices_same : Same b b.discardNotices := by
  have aux : ∀ (l : List Notice) (b : Bridge), Same b (l.foldl (fun b x => b.dropNotice x.kind) b) := by
    intro l
    induction l with
    | nil => exact Same.refl
    | cons x l ih => exact fun b => (dropNotice_same b x.kind).trans (ih _)
  exact Same.trans (b := { b with notices := ⟨[], false⟩ }) ⟨rfl, rfl, rfl, rfl, rfl⟩ (aux _ _)

/-- An unpinned entry of an index is freed. -/
theorem dropIndex_goes {n : Nat} (ha : Apart b) (he : Entries b) (hp : ∀ e ∈ b.cache, e.index = n → e.pin = false) :
    Goes 0 0 b (b.dropIndex n) := by
  unfold dropIndex
  split
  · next e hf =>
    obtain ⟨hm, hi⟩ := entry?_mem b n e hf
    exact (dropEntry_goes 0 ha he hm (hp e hm hi)).1
  · exact Goes.refl ha he 0

/-- No entry is pinned. -/
def Unpinned (b : Bridge) : Prop := ∀ e ∈ b.cache, e.pin = false

theorem Grows.unpinned {b b' : Bridge} (g : Grows b b') (h : Unpinned b) : Unpinned b' := by
  obtain ⟨f, hc, hf⟩ := g.cache
  intro e he
  rw [hc] at he
  obtain ⟨x, hx, rfl⟩ := List.mem_map.mp he
  exact (hf x).2.2.2.1.trans (h x hx)

theorem orphan_unpinned {n : Nat} (op : CacheOp) (h : Unpinned b) : Unpinned (orphan n b op) := by
  cases op with
  | tableRead id => exact (allow_grows b n id).unpinned h
  | tableWrite id => exact (allow_grows b n id).unpinned h
  | release => exact (commandDone_same b).grows.unpinned h
  | tap x => exact h
  | engine x => exact h
  | commandTake => exact h
  | command => exact h
  | noticePut => exact h

theorem dropEntry_unpinned (e : Entry) (h : Unpinned b) : Unpinned (b.dropEntry e) := by
  have aux : ∀ (ops : List CacheOp) (b : Bridge), Unpinned b → Unpinned (ops.foldl (orphan e.index) b) := by
    intro ops
    induction ops with
    | nil => exact fun b hb => hb
    | cons op ops ih => exact fun b hb => ih _ (orphan_unpinned op hb)
  exact aux _ _ (fun x hx => h x (List.mem_filter.mp hx).1)

/-- The entries whose fetch was not issued are freed. -/
theorem dropIndices_sound (l : List Nat) : ∀ b : Bridge, Sound b → Unpinned b → Sound (l.foldl dropIndex b) := by
  induction l with
  | nil => exact fun b h _ => h
  | cons n l ih =>
    intro b h hp
    refine ih _ ((dropIndex_goes h.apart h.entries (fun e he _ => hp e he)).sound h) ?_
    unfold dropIndex
    split
    · exact dropEntry_unpinned _ hp
    · exact hp

theorem warmCache_sound (ha : Apart b) (he : Entries b) (hu : ∃ x p, b.engine = Engine.unloaded x p) : Sound b.warmCache := by
  have hw := fun e hm => atWarm_law (he e hm)
  have h : Sound { b with cache := b.cache.map Entry.atWarm, misses := [] } := by
    obtain ⟨x, p, hx⟩ := hu
    refine Spare.sound ⟨⟨?_, fun q hq => (by cases hq)⟩, ?_, runs_eq_zero.mpr ⟨fun q hq => (by cases hq), ?_⟩⟩
      (unloadedEngine_law hx)
    · dsimp only
      rw [indices_map _ _ (fun e hm => (hw e hm).2.2.1)]
      exact List.Nodup.sublist ((List.Sublist.refl _).append
        (claims_sublist _ _ (fun e hm => Or.inl (hw e hm).2.2.2.1))) ha.nodup
    · intro e hm
      obtain ⟨y, hy, rfl⟩ := List.mem_map.mp hm
      exact (hw y hy).1
    · intro e hm
      obtain ⟨y, hy, rfl⟩ := List.mem_map.mp hm
      exact (hw y hy).2.1
  refine dropIndices_sound _ _ h (fun e hm => ?_)
  obtain ⟨y, hy, rfl⟩ := List.mem_map.mp hm
  exact (hw y hy).2.2.2.2

/-- The entries stay apart and lawful, and the engine as it was. -/
theorem Grows.rests {b b' : Bridge} (g : Grows b b') (h : Apart b ∧ Entries b) : Apart b' ∧ Entries b' :=
  ⟨(g.goes h.1 h.2 0).apart, (g.goes h.1 h.2 0).entries⟩

theorem warmReset_sound {b' : Bridge} (h : Sound b) (hs : b.warmReset = some b') : Sound b' := by
  unfold warmReset at hs
  split at hs
  · cases hs
  · cases hs
    generalize hb1 : setState { b with control := { b.control with
      idleTimer := none, audit := none, findings := [], emptying := false, stopStage := .none } } .warm = b1
    have h1 : Apart b1 ∧ Entries b1 := by
      have c1 : b1.cache = b.cache := by rw [← hb1]; simp
      have c2 : b1.misses = b.misses := by rw [← hb1]; simp
      exact ⟨⟨by rw [c1]; exact h.apart.nodup, by rw [c1, c2]; exact h.apart.missing⟩,
        by intro e hm; rw [c1] at hm; exact h.entries e hm⟩
    have h2 : Apart b1.abandonTaps ∧ Entries b1.abandonTaps := Grows.rests (Same.grows (by constructor <;> simp [abandonTaps])) h1
    have g3 : Grows { b1.abandonTaps with
        engine := Engine.unloaded .idle false
        mport := { b1.abandonTaps.mport with
          waiting := b1.abandonTaps.mport.waiting.filter (fun q => !engineAccess q.access)
          outstanding := b1.abandonTaps.mport.outstanding.map
            (fun q => { q with abandoned := q.abandoned || engineAccess q.access }) } } b1.abandonTaps.abandonMove :=
      freeMoveWaiters_grows _
    have h3 := g3.rests ⟨⟨h2.1.nodup, h2.1.missing⟩, h2.2⟩
    have g4 : Same b1.abandonTaps.abandonMove.abandonPending b1.abandonTaps.abandonMove.abandonPending.discardNotices :=
      discardNotices_same
    have h4 := g4.grows.rests ⟨⟨h3.1.nodup, h3.1.missing⟩, h3.2⟩
    refine warmCache_sound ⟨h4.1.nodup, h4.1.missing⟩ h4.2 ⟨.idle, false, ?_⟩
    exact g4.engine.trans g3.engine

end Control

end Sys2Proof.Machine
end

