-- ==== Sys2Proof/Laws/Formats.lean ====
section
/-! SUPPORT. Byte order, both ways, and the fields of a record in the terms of Safety.lean (section 10.5). -/

namespace Sys2Proof.Machine

/-! ## Byte order -/

@[simp] theorem leBytes_length (k n : Nat) : (leBytes k n).length = k := by
  induction k generalizing n with
  | zero => rfl
  | succ k ih => simp [leBytes, ih]

/-- The number that `k` bytes spell is below 256^k. -/
theorem ofLe_lt (bs : List Byte) : ofLe bs < 256 ^ bs.length := by
  induction bs with
  | nil => simp [ofLe]
  | cons b bs ih =>
    have := b.isLt
    simp only [ofLe, List.length_cons, Nat.pow_succ]
    omega

/-- The bytes of the number that bytes spell are those bytes. -/
theorem leBytes_ofLe (bs : List Byte) : leBytes bs.length (ofLe bs) = bs := by
  induction bs with
  | nil => rfl
  | cons b bs ih =>
    have hb := b.isLt
    have h1 : (b.toNat + 256 * ofLe bs) / 256 = ofLe bs := by omega
    have h2 : BitVec.ofNat 8 (b.toNat + 256 * ofLe bs) = b := by
      apply BitVec.eq_of_toNat_eq
      simp only [BitVec.toNat_ofNat]
      omega
    simp only [leBytes, ofLe, List.length_cons, h1, h2, ih]

/-- The number that the low bytes of a number spell is that number, if it fits. -/
theorem ofLe_leBytes (k n : Nat) (h : n < 256 ^ k) : ofLe (leBytes k n) = n := by
  induction k generalizing n with
  | zero =>
    simp only [Nat.pow_zero] at h
    simp only [leBytes, ofLe]
    omega
  | succ k ih =>
    rw [Nat.pow_succ] at h
    simp only [leBytes, ofLe, BitVec.toNat_ofNat, ih (n / 256) (by omega)]
    omega

/-! ## The fields of a record -/

/-- The bytes of a record from an offset on, one by one. -/
theorem natAt_succ (bs : List Byte) (i k : Nat) : natAt bs i (k + 1) = (byteIn bs i).toNat + 256 * natAt bs (i + 1) k := by
  unfold natAt byteIn
  rcases Nat.lt_or_ge i bs.length with h | h
  · simp only [List.drop_eq_getElem_cons h, List.take_succ_cons, ofLe, List.getElem?_eq_getElem h, Option.getD_some]
  · simp [List.drop_eq_nil_of_le h, List.drop_eq_nil_of_le (Nat.le_succ_of_le h), List.getElem?_eq_none h, ofLe]

@[simp] theorem natAt_zero (bs : List Byte) (i : Nat) : natAt bs i 0 = 0 := by simp [natAt, ofLe]

theorem natAt_one (bs : List Byte) (i : Nat) : natAt bs i 1 = (byteIn bs i).toNat := by simp [natAt_succ]

theorem byteAt_eq (bs : List Byte) (i : Nat) : byteAt bs i = byteIn bs i := by simp [byteAt, natAt_one]

theorem natAt_two (bs : List Byte) (i : Nat) : natAt bs i 2 = (halfIn bs i).toNat := by
  have h := (byteIn bs i).isLt
  simp only [natAt_succ, natAt_zero, halfIn, BitVec.toNat_append]
  rw [← Nat.shiftLeft_add_eq_or_of_lt h, Nat.shiftLeft_eq]
  omega

theorem halfAt_eq (bs : List Byte) (i : Nat) : halfAt bs i = halfIn bs i := by simp [halfAt, natAt_two]

theorem natAt_four (bs : List Byte) (i : Nat) : natAt bs i 4 = (wordIn bs i).toNat := by
  have h : natAt bs i 4 = natAt bs i 2 + 65536 * natAt bs (i + 2) 2 := by
    simp only [natAt_succ, natAt_zero, Nat.add_assoc, Nat.reduceAdd]
    omega
  have h2 := (halfIn bs i).isLt
  simp only [h, natAt_two, wordIn, BitVec.toNat_append]
  rw [← Nat.shiftLeft_add_eq_or_of_lt h2, Nat.shiftLeft_eq]
  omega

theorem wordAt_eq (bs : List Byte) (i : Nat) : wordAt bs i = wordIn bs i := by simp [wordAt, natAt_four]

end Sys2Proof.Machine
end

