-- ==== Sys2Proof/Laws/Memory.lean ====
section
/-! SUPPORT. Memory stays in its canonical form under every operation (log 2). -/

namespace Sys2Proof.Machine

/-- A list in form from an address on is in form from every lower one. -/
theorem Memory.wfFrom_mono (m : Memory) (a b : Nat) (h : a ≤ b) (w : Memory.wfFrom b m = true) :
    Memory.wfFrom a m = true := by
  cases m with
  | nil => rfl
  | cons c m =>
    obtain ⟨x, v⟩ := c
    simp only [Memory.wfFrom, Bool.and_eq_true, decide_eq_true_eq] at w ⊢
    exact ⟨⟨⟨by omega, w.1.1.2⟩, w.1.2⟩, w.2⟩

/-- A byte written at or above the lower end keeps the form from there on. -/
theorem Memory.write_wfFrom (m : Memory) (low a : Nat) (v : Byte) (ha : low ≤ a) (hs : a < addressSpace)
    (w : Memory.wfFrom low m = true) : Memory.wfFrom low (Memory.write m a v) = true := by
  induction m generalizing low with
  | nil =>
    by_cases h : v = 0#8
    · simp [Memory.write, h, Memory.wfFrom]
    · simp [Memory.write, h, Memory.wfFrom, ha, hs]
  | cons c m ih =>
    obtain ⟨x, u⟩ := c
    simp only [Memory.wfFrom, Bool.and_eq_true, decide_eq_true_eq, bne_iff_ne, ne_eq] at w
    obtain ⟨⟨⟨h1, h2⟩, h3⟩, h4⟩ := w
    unfold Memory.write
    by_cases hax : a < x
    · by_cases hv : v = 0#8
      · rw [if_pos hax, if_pos (show v = (0 : Byte) from hv)]
        simpa [Memory.wfFrom, h1, h2, h4] using h3
      · rw [if_pos hax, if_neg (show ¬v = (0 : Byte) from hv)]
        have h3' : ¬u = 0#8 := h3
        simp [Memory.wfFrom, hv, ha, hs, h2, h3', h4]
        omega
    · by_cases hx : a = x
      · subst hx
        by_cases hv : v = 0#8
        · rw [if_neg (Nat.lt_irrefl a), if_pos rfl, if_pos (show v = (0 : Byte) from hv)]
          exact Memory.wfFrom_mono m low (a + 1) (by omega) h4
        · rw [if_neg (Nat.lt_irrefl a), if_pos rfl, if_neg (show ¬v = (0 : Byte) from hv)]
          simp [Memory.wfFrom, hv, ha, hs, h4]
      · simp only [hax, hx, if_false, Memory.wfFrom, Bool.and_eq_true, decide_eq_true_eq, bne_iff_ne, ne_eq]
        exact ⟨⟨⟨h1, h2⟩, h3⟩, ih (x + 1) (by omega) h4⟩

/-- A byte written inside the address space keeps the canonical form. -/
theorem Memory.write_wf (m : Memory) (a : Nat) (v : Byte) (hs : a < addressSpace) (w : Memory.wf m = true) :
    Memory.wf (Memory.write m a v) = true :=
  Memory.write_wfFrom m 0 a v (Nat.zero_le a) hs w

/-- Bytes written from an address upward keep the canonical form. -/
theorem Memory.writeBytes_wf (m : Memory) (a : Nat) (bs : List Byte) (w : Memory.wf m = true) :
    Memory.wf (Memory.writeBytes m a bs) = true := by
  induction bs generalizing m a with
  | nil => exact w
  | cons b bs ih =>
    exact ih _ _ (Memory.write_wf m _ b (Nat.mod_lt a (by decide)) w)

/-- What an answer leaves in memory is in canonical form. -/
theorem State.memAfter_wf (s : State) (q : MemRequest) (ok keeps : Bool) (w : Memory.wf s.mem = true) :
    Memory.wf (s.memAfter q ok keeps) = true := by
  unfold State.memAfter
  split
  · split
    · exact Memory.writeBytes_wf _ _ _ w
    · split
      · exact w
      · exact Memory.writeBytes_wf _ _ _ w
  · exact w

/-- An answer to a read leaves memory as it was. -/
theorem State.memAfter_read (s : State) (q : MemRequest) (ok keeps : Bool) (h : q.write = false) :
    s.memAfter q ok keeps = s.mem := by
  simp [State.memAfter, h]

/-- Memory after reset is in canonical form. -/
theorem Memory.reset_wf : Memory.wf State.reset.mem = true := rfl

end Sys2Proof.Machine
end

