-- ==== Sys2Proof/Laws/Rows.lean ====
section
/-! SUPPORT. Every command keeps the laws of the device: one lemma per form of row, and the rows. -/

namespace Sys2Proof.Machine

open Bridge

/-- A row that is an event. -/
theorem event_sound {s s' : State} {f : Bridge → Option Bridge} (hs : s.event f = .next s') (h : Sound s.chip)
    (hf : ∀ b', f s.chip = some b' → Sound b') : Sound s'.chip := by
  unfold State.event at hs
  split at hs
  · next b hb => cases hs; exact hf b hb
  · cases hs; exact h

/-- An event, and what the bridge does by itself then. -/
theorem event_settled {s s' : State} {f : Bridge → Option Bridge} (hs : s.event (fun b => (f b).map Bridge.settle) = .next s')
    (h : Sound s.chip) (hf : ∀ b', f s.chip = some b' → Sound b') : Sound s'.chip := by
  refine event_sound hs h (fun b' hb => ?_)
  obtain ⟨x, hx, rfl⟩ := Option.map_eq_some_iff.mp hb
  exact settle_sound (hf x hx)

/-- A row that is memory's answer. -/
theorem answered_settled {s s' : State} {id : Nat} {ok keeps : Bool} {accepts : Access → Bool}
    {f : MemRequest → List Byte → Bridge → Bridge}
    (hs : s.answered id ok keeps accepts (fun q data b => (f q data b).settle) = .next s') (h : Sound s.chip)
    (hf : ∀ q data b, Sound b → Sound (f q data b)) : Sound s'.chip := by
  unfold State.answered at hs
  split at hs
  · cases hs; exact h
  · next q _ =>
    cases hs
    have h1 : Sound (Bridge.draw { s.chip with mport := { s.chip.mport with
        outstanding := s.chip.mport.outstanding.filter (fun x => x.id != id) } }) :=
      Same.sound (by exact ⟨rfl, rfl, rfl, rfl, rfl⟩) h
    dsimp only
    split
    · exact h1
    · exact settle_sound (hf _ _ _ h1)

/-- A row that applies a TAP. -/
theorem tap_settled {s s' : State} {n : Nat} {k : TapKind} {effect : Tap → Descriptor → Entry → Bridge → Bridge}
    (hs : s.event (fun b => (b.tapStep n k effect).map Bridge.settle) = .next s') (h : Sound s.chip)
    (hf : ∀ t e b, Apart b → Entries b → Applied b n e → e.copy.fit t = some k → e.copy.gate n k t.initiator = none →
      Goes 0 0 b (effect t e.copy e b)) : Sound s'.chip :=
  event_settled hs h (fun _ hb => (tapStep_goes h.apart h.entries hb hf).sound h)

/-- A row that applies a command to a working copy. -/
theorem command_settled {s s' : State} {n : Nat} {op : Byte} {effect : CommandItem → Entry → Bridge → Bridge}
    (hs : s.event (fun b => (b.commandStep op n effect).map Bridge.settle) = .next s') (h : Sound s.chip)
    (hf : ∀ c e b, Apart b → Entries b → Applied b n e → e.copy.isOff = false → Goes 0 0 b (effect c e b)) : Sound s'.chip :=
  event_settled hs h (fun _ hb => (commandStep_goes h.apart h.entries hb hf).sound h)

theorem forwarded_settled {s s' : State} {id : Nat} {ok : Bool} (hs : forwardedAnswer id ok s = .next s') (h : Sound s.chip) :
    Sound s'.chip :=
  answered_settled (f := fun _ data b => b.forwardedDone id ok data) hs h (fun _ _ _ hb => forwardedDone_sound _ _ _ hb)

/-- Every command keeps the cache and the engine in order. -/
theorem exec_sound (c : Instr) (s s' : State) (hs : exec c s = .next s') (h : Sound s.chip) : Sound s'.chip := by
  cases c with
  | powerOnReset => exact event_sound (f := fun b => some b.powerOnReset) hs h (fun _ hb => by cases hb; exact powerOnReset_sound)
  | powerOnResetEnd straps => exact event_sound (f := fun b => b.endReset straps) hs h (fun _ hb => endReset_sound _ h hb)
  | warmReset => exact event_settled hs h (fun _ hb => warmReset_sound h hb)
  | tapRequest src => exact event_settled (f := fun b => b.arrive tapRow src) hs h (fun _ hb => arrive_sound _ _ h hb)
  | plainRequest src => exact event_settled (f := fun b => b.arrive plainRow src) hs h (fun _ hb => arrive_sound _ _ h hb)
  | tableRead src => exact event_settled (f := fun b => b.arrive tableReadRow src) hs h (fun _ hb => arrive_sound _ _ h hb)
  | tableWrite src => exact event_settled (f := fun b => b.arrive tableWriteRow src) hs h (fun _ hb => arrive_sound _ _ h hb)
  | forwardedRequestDone id ok => exact forwarded_settled hs h
  | mportGrant => exact event_sound hs h (fun _ hb => grant_sound h hb)
  | statusMirrorWriteDone id ok =>
    exact answered_settled (f := fun _ _ b => b.mirrorDone id) hs h (fun _ _ _ hb => mirrorDone_sound _ hb)
  | ringPut n => exact tap_settled hs h (fun _ _ _ ha he ap hf hg => putEffect_goes ha he ap hf hg)
  | ringTake n => exact tap_settled hs h (fun _ _ _ ha he ap hf hg => takeEffect_goes ha he ap hf hg)
  | ringPeek n => exact tap_settled hs h (fun _ _ _ ha he ap _ _ => peekEffect_goes ha he ap)
  | ringLevel n => exact tap_settled hs h (fun _ _ _ ha he _ _ _ => (answer_same _ _ _ _).goes ha he 0)
  | readStatus n => exact tap_settled hs h (fun _ _ _ ha he _ _ _ => (answer_same _ _ _ _).goes ha he 0)
  | stackPush n =>
    exact tap_settled hs h (fun _ _ _ ha he ap hf hg => pushTap_goes (Or.inl rfl) ha he ap (by simpa using fit_kind hf)
      (gate_state hg rfl))
  | stackPop n => exact tap_settled hs h (fun _ _ _ ha he ap hf hg => popEffect_goes ha he ap hf hg)
  | stackTop n => exact tap_settled hs h (fun _ _ _ ha he ap _ _ => topEffect_goes ha he ap)
  | stackDepth n => exact tap_settled hs h (fun _ _ _ ha he _ _ _ => (answer_same _ _ _ _).goes ha he 0)
  | stackMark n =>
    exact tap_settled hs h (fun _ _ _ ha he ap hf hg => pushTap_goes (Or.inr rfl) ha he ap (by simpa using fit_kind hf)
      (gate_state hg rfl))
  | stackUnwind n => exact tap_settled hs h (fun _ _ _ ha he ap hf hg => unwindEffect_goes ha he ap hf hg)
  | tallyNext n => exact tap_settled hs h (fun _ _ _ ha he ap hf hg => nextEffect_goes ha he ap hf hg)
  | tallyAdd n => exact tap_settled hs h (fun _ _ _ ha he ap hf hg => addEffect_goes ha he ap hf hg)
  | tallySet n => exact tap_settled hs h (fun _ _ _ ha he ap hf hg => setEffect_goes ha he ap hf hg)
  | tallyValue n => exact tap_settled hs h (fun _ _ _ ha he _ _ _ => (answer_same _ _ _ _).goes ha he 0)
  | tallyWraps n => exact tap_settled hs h (fun _ _ _ ha he _ _ _ => (answer_same _ _ _ _).goes ha he 0)
  | ringItemAccessDone id ok =>
    exact answered_settled (f := fun q data b => b.ringItemDone (itemStructure q.access) ok data) hs h
      (fun _ _ _ hb => ringItemDone_sound _ _ hb)
  | stackItemAccessDone id ok =>
    exact answered_settled (f := fun q data b => b.stackItemDone (itemStructure q.access) ok data) hs h
      (fun _ _ _ hb => stackItemDone_sound _ _ hb)
  | commandUnitTake =>
    refine event_settled hs h (fun _ hb => ?_)
    have hm : ∀ b, Same b (markTaking b) := fun b => ⟨rfl, rfl, rfl, rfl, rfl⟩
    have go : ∀ {asked b'}, s.chip.askOrApply 0 .commandTake asked markTaking applyCommandTake = some b' → Sound b' :=
      fun hx => (askOrApply_goes rfl hm h.apart h.entries (fun _ _ ha he ap => applyCommandTake_goes ha he ap) hx).sound h
    unfold commandTake at hb
    split at hb
    · split at hb
      · exact go hb
      · cases hb
    · exact go hb
    · cases hb
  | cmdNop => exact event_settled hs h (fun _ hb => nop_sound h hb)
  | cmdFlush => exact event_settled hs h (fun _ hb => flush_sound h hb)
  | cmdRelease n => exact event_settled (f := fun b => b.release n) hs h (fun _ hb => release_sound h hb)
  | cmdAbort n => exact command_settled hs h (fun _ _ _ ha he ap ho => abortEffect_goes ha he ap ho)
  | cmdOpen n => exact command_settled hs h (fun _ _ _ ha he ap ho => openEffect_goes ha he ap)
  | cmdClose n => exact command_settled hs h (fun _ _ _ ha he ap ho => closeEffect_goes ha he ap)
  | cmdClearFault n => exact command_settled hs h (fun _ _ _ ha he ap ho => clearFaultEffect_goes ha he ap)
  | cmdCloseGuard n => exact command_settled hs h (fun _ _ _ ha he ap ho => closeGuardEffect_goes ha he ap)
  | cmdArm n => exact command_settled hs h (fun _ _ _ ha he ap ho => armEffect_goes ha he ap)
  | cmdDisarm n => exact command_settled hs h (fun _ _ _ ha he ap ho => disarmEffect_goes ha he ap)
  | cmdTrigger m => exact event_settled (f := fun b => b.postTrigger m) hs h (fun _ hb => postTrigger_sound h hb)
  | cmdStopMove m => exact event_settled (f := fun b => b.stopMove m) hs h (fun _ hb => stopMove_sound h hb)
  | cmdPauseMoves => exact event_settled hs h (fun _ hb => pauseMoves_sound h hb)
  | cmdResumeMoves => exact event_settled hs h (fun _ hb => resumeMoves_sound h hb)
  | startBridge id =>
    have hs : execStartBridge id s = .next s' := hs
    unfold execStartBridge at hs
    split at hs
    · exact forwarded_settled hs h
    · cases hs; exact h
  | stopBridge src =>
    cases src with
    | command => exact event_settled hs h (fun _ hb => stopCommand_sound h hb)
    | startWord id =>
      have hs : execStopBridge (.startWord id) s = .next s' := hs
      unfold execStopBridge at hs
      dsimp only at hs
      split at hs
      · exact forwarded_settled hs h
      · cases hs; exact h
  | anchorReadDone id ok =>
    exact answered_settled (f := fun _ data b => b.anchorRead ok data) hs h (fun _ _ _ hb => anchorRead_sound _ _ hb)
  | auditReadDone id ok =>
    exact answered_settled (f := fun _ data b => b.auditReadBack ok data) hs h (fun _ _ _ hb => auditReadBack_sound _ _ hb)
  | auditWriteDone id ok =>
    exact answered_settled (f := fun _ _ b => b.auditWriteBack ok) hs h (fun _ _ _ hb => auditWriteBack_sound _ hb)
  | auditFaultNotice => exact event_settled hs h (fun _ hb => auditFault_sound h hb)
  | fetchComplete id ok =>
    exact answered_settled (f := fun q data b => b.fetchDone (cacheStructure q.access) ok data) hs h
      (fun _ _ _ hb => fetchDone_sound _ _ hb)
  | writeBackComplete id ok =>
    exact answered_settled (f := fun q _ b => b.writeBackDone (cacheStructure q.access) ok q.data) hs h
      (fun _ _ _ hb => writeBackDone_sound _ _ hb)
  | arbiterChoice => exact event_settled hs h (fun _ hb => choose_sound h hb)
  | moveDescriptorReadDone id ok =>
    exact answered_settled (f := fun _ data b => b.moveRead ok data) hs h (fun _ _ _ hb => moveRead_sound _ _ hb)
  | pinEnd => exact event_settled hs h (fun _ hb => pinStep_sound h hb)
  | reservationStep => exact event_settled hs h (fun _ hb => reservationStep_sound h hb)
  | moveTake => exact event_settled hs h (fun _ hb => takeStep_sound h hb)
  | spanReadDone id ok =>
    exact answered_settled (f := fun _ data b => b.spanReadBack ok data) hs h (fun _ _ _ hb => spanReadBack_sound _ _ hb)
  | movePut => exact event_settled hs h (fun _ hb => putStep_sound h hb)
  | spanWriteDone id ok =>
    exact answered_settled (f := fun _ _ b => b.spanWriteBack ok) hs h (fun _ _ _ hb => spanWriteBack_sound _ hb)
  | storeBackDone id ok =>
    exact answered_settled (f := fun _ _ b => b.stored ok) hs h (fun _ _ _ hb => stored_sound _ hb)
  | pinRelease => exact event_settled hs h (fun _ hb => releaseStep_sound h hb)
  | runEndReport => exact event_settled hs h (fun _ hb => reportEnd_sound h hb)
  | completionProcessing =>
    refine event_settled hs h (fun _ hb => ?_)
    unfold completionStep at hb
    split at hb
    · exact (askOrApply_goes (mark := markCompletion) rfl (fun b => by exact ⟨rfl, rfl, rfl, rfl, rfl⟩) h.apart h.entries
        (fun _ _ ha he ap => applyCompletion_goes ha he ap) hb).sound h
    · cases hb
  | noticePut =>
    refine event_settled hs h (fun _ hb => ?_)
    unfold noticeStep at hb
    split at hb
    · split at hb
      · exact (askOrApply_goes (mark := markNotice) rfl (fun b => by exact ⟨rfl, rfl, rfl, rfl, rfl⟩) h.apart h.entries
          (fun _ _ ha he ap => applyNotice_goes ha he ap) hb).sound h
      · cases hb
    · cases hb
  | idleTimerExpiry => exact event_settled hs h (fun _ hb => timerExpires_sound h hb)
  | stopClearPending => exact event_settled hs h (fun _ hb => clearPending_sound h hb)
  | stopEmptyCache => exact event_settled hs h (fun _ hb => beginEmptying_sound h hb)

end Sys2Proof.Machine
end

