-- ==== Sys2Proof/Tests/Slice0.lean ====
section
/-! SUPPORT. Tests: an ill-formed term for each check of WellFormed, one step of each command on a small state, and for each
statement of Obligations.lean with hypotheses a state and operands that meet them, clause by clause. -/

namespace Sys2Proof.Tests

set_option Elab.async false

open Sys2Proof Sys2Proof.Machine

/-! ## Small states -/

/-- The settings of the small states: 8 structures, 4 moves. -/
def g0 : Settings :=
  ⟨0x100000, 0x200000, 0x40002000, 8, 4, 12, 8, true, true, 500, [⟨3, true⟩, ⟨1, false⟩, ⟨9, true⟩, ⟨0, false⟩]⟩

/-- A bridge in a state, with its settings in use and nothing held. -/
def live (st : BridgeState) : Bridge :=
  { Bridge.powerOn with
    control := { Control.powerOn 2 with state := st, resetHeld := false, settings := some g0, idleTimer := some 7 }
    nextHandle := 50 }

/-- The state of a bridge, with no memory listed and no command waiting. -/
def on (b : Bridge) : State := ⟨[], b, []⟩

/-- A ring of four 4-byte items with both notice enables set. -/
def rg (head count : Half) : Descriptor :=
  { Descriptor.blank with
    kind := kindRing, itemSize := 4, capacity := 4, base := 0x1000, producers := 0xFFFF, consumers := 0xFFFF, high := 2
    condition := condHigh, triggerMove := 2, flags := 0x18, w32 := head, w34 := count }

/-- A stack of eight 4-byte items with limit 3. -/
def sk (depth frame : Half) (guard : Byte) : Descriptor :=
  { Descriptor.blank with
    kind := kindStack, itemSize := 4, capacity := 8, base := 0x2000, producers := 0xFFFF, consumers := 0xFFFF, flags := 0x10
    cause := if guard = 1 then causeOverflow else causeNone, w32 := depth, w34 := frame, w36 := 3, b38 := guard }

/-- A tally from 0 to 9 with step 3, armed on WRAP. -/
def ty (v : Half) (mode : Byte) : Descriptor :=
  { Descriptor.blank with
    kind := kindTally, producers := 0xFFFF, consumers := 0xFFFF, condition := condWrap, triggerMove := 1, flags := 0x01
    w32 := v, w36 := 3, b38 := mode, w44 := 9 }

/-- A DIRTY, unpinned entry with the operations that wait. -/
def ent (n : Nat) (d : Descriptor) (ops : List CacheOp) : Entry := ⟨n, .dirty, d, false, false, ops, [], false, none, false⟩

/-- A tap of initiator 4 on structure 3. -/
def tp (word : Nat) (write : Bool) (data : List Byte) : Tap := ⟨7, word, write, 4, data, 4, false, 3, word⟩

/-- The request of that tap. -/
def rq (addr : Word) (size : Size) (write : Bool) (data : List Byte) : Request := ⟨addr, size, write, data, 4, false⟩

/-- A bridge in RUN whose cache holds one entry, with the tap's request in flight. -/
def holding (e : Entry) : Bridge :=
  { live .run with cache := [e], iport := ⟨[⟨7, rq 0x40002060 .beat4 false [], .tap, .tapped, []⟩], []⟩ }

/-- Structure 3 with working copy `d`, and the tap's turn. -/
def tapOn (d : Descriptor) (t : Tap) : Bridge := holding (ent 3 d [.tap t])

/-- A bridge with one request outstanding at memory, handle 9. -/
def awaits (b : Bridge) (a : Access) (write : Bool) (addr : Nat) (data : List Byte) (k : Nat) : Bridge :=
  { b with mport := { b.mport with outstanding := [⟨9, a, write, addr, data, k, false⟩] } }

/-- The command unit holding a command, judged. -/
def ordered (b : Bridge) (op struct move : Byte) : Bridge :=
  { b with command := { b.command with state := .carrying, held := some ⟨op, 1, struct, move, 77⟩, stage := .judged } }

/-- Structure 3 with working copy `d`, and the turn of the command `op` that names it. -/
def orderOn (op : Byte) (d : Descriptor) : Bridge := ordered (holding (ent 3 d [.command])) op 3 0

/-- The move engine at a step of move 1, its operation asked. -/
def moving (b : Bridge) (st : EngineStep) (asked : Bool) (d : MoveDescriptor) : Bridge :=
  { b with engine := { b.engine with state := .running, move := some ⟨1, 1, some d⟩, step := st, asked := asked } }

/-- A move descriptor of 4-byte items: mode, source type and place, destination type and place, count. -/
def mv (mode sType : Byte) (src : Word) (dType : Byte) (dst : Word) (count : Half) : MoveDescriptor :=
  { MoveDescriptor.ofBytes [] with
    mode := mode, itemSize := 4, srcType := sType, srcStep := 1, src := src, dstType := dType, dstStep := 1, dst := dst
    count := count, blockLength := 2 }

/-- The bridge after a step, if there is a next state. -/
def chip? : Host.Outcome State Fault Refusal → Option Bridge
  | .next s => some s.chip
  | .fault _ => none
  | .refused _ => none

/-- The working copy of a structure after a step. -/
def copy? (o : Host.Outcome State Fault Refusal) (n : Nat) : Option Descriptor := ((chip? o).bind (·.entry? n)).map (·.copy)

/-- What the last waiting M-port request asks for after a step. -/
def asks? (o : Host.Outcome State Fault Refusal) : Option (Access × Bool × Nat × List Byte × Nat) :=
  ((chip? o).bind (·.mport.waiting.getLast?)).map (fun q => (q.access, q.write, q.addr, q.data, q.length))

/-- The responses that have left after a step: OKAY or ERROR, and the data. -/
def sent? (o : Host.Outcome State Fault Refusal) : Option (List (Bool × List Byte)) :=
  (chip? o).map (fun b => b.iport.sent.map (fun r => (r.ok, r.data)))

/-- The queued notices after a step: kind, cause and value. -/
def told? (o : Host.Outcome State Fault Refusal) : Option (List (NoticeKind × Reason × Nat)) :=
  (chip? o).map (fun b => b.notices.queue.map (fun x => (x.kind, x.cause, x.value.toNat)))

/-! ## Well-formedness: a term that each check refuses, and one it accepts -/

theorem test_wf_burst_length : (Instr.tapRequest (.offered (rq 0x40002000 (.burst 9) false []))).wf = false := by decide
theorem test_wf_burst_aligned : (Instr.plainRequest (.offered (rq 4 (.burst 2) false []))).wf = false := by decide
theorem test_wf_address_space : (Instr.tableRead (.offered (rq 0xFFFFFFFC .beat8 false []))).wf = false := by decide
theorem test_wf_write_data : (Instr.tableWrite (.offered (rq 0 .beat4 true [1, 2]))).wf = false := by decide
theorem test_wf_read_data : (Instr.tapRequest (.offered (rq 0 .beat4 false [1, 2, 3, 4]))).wf = false := by decide
theorem test_wf_structure_index : (Instr.ringPut 256).wf = false ∧ (Instr.cmdOpen 256).wf = false := by decide
theorem test_wf_move_index : (Instr.cmdTrigger 256).wf = false := by decide
theorem test_wf_accepts : (Instr.plainRequest (.offered (rq 8 (.burst 2) true (List.replicate 16 1)))).wf = true := by decide

/-- No row of the table gives bits, so no word spells a command. -/
theorem test_no_word_spells_a_command : decodeTableWord 8 5 = none ∧ State.reset.withFetchWord 8 5 = State.reset := by decide

/-! ## One step of each command -/

theorem test_power_on_reset : (chip? (exec .powerOnReset (on (live .run)))).map (·.control) = some (Control.powerOn 2) := by
  decide +kernel
theorem test_power_on_reset_end :
    (chip? (exec (.powerOnResetEnd 5) State.reset)).map (fun b => (b.control.straps, b.control.resetHeld)) = some (5, false) := by
  decide +kernel
theorem test_warm_reset : (chip? (exec .warmReset (on (holding (ent 3 (rg 0 1) []))))).map
    (fun b => (b.control.state, b.iport.sent.map (·.ok), b.cache.map (·.state)))
    = some (.warm, [false], [.writing .other]) := by
  decide +kernel
theorem test_tap_request : (chip? (exec (.tapRequest (.offered (rq 0x40002068 .beat4 false []))) (on (live .run)))).map
    (fun b => (b.cache.map (fun e => (e.index, e.state)), b.control.idleTimer)) = some ([(3, .fetching true)], some 500) := by
  decide +kernel
theorem test_plain_request : asks? (exec (.plainRequest (.offered (rq 0x5000 .beat4 true [1, 2, 3, 4]))) (on (live .run)))
    = some (.forward 50, true, 0x5000, [1, 2, 3, 4], 4) := by
  decide +kernel
theorem test_table_read_of_dirty_entry : asks? (exec (.tableRead (.offered (rq 0x1000C0 .beat8 false [])))
    (on (holding (ent 3 (rg 0 1) [])))) = some (.writeBack 3 false, true, 0x1000C0, (rg 0 1).toBytes, 64) := by
  decide +kernel
theorem test_table_write_of_pinned_entry : (chip? (exec (.tableWrite (.offered (rq 0x1000C0 .beat1 true [1])))
    (on (holding { ent 3 (rg 0 1) [] with pin := true })))).map (fun b => b.cache.map (·.held)) = some [[50]] := by
  decide +kernel
theorem test_forwarded_request_done : sent? (exec (.forwardedRequestDone 9 true) (on (awaits
    { live .run with iport := ⟨[⟨9, rq 0x5000 .beat2 false [], .plain, .forwarded, []⟩], []⟩ }
      (.forward 9) false 0x5000 [] 2))) = some [(true, [0, 0])] := by
  decide +kernel
theorem test_mport_grant : (chip? (exec .mportGrant (on { live .run with
    mport := ⟨[⟨1, .writeBack 3 false, true, 0, [], 64, false⟩, ⟨2, .forward 2, false, 0, [], 4, false⟩], [], 7⟩ }))).map
    (fun b => (b.mport.outstanding.map (·.id), b.mport.fairness)) = some ([2], 8) := by
  decide +kernel
theorem test_mirror_done : (chip? (exec (.statusMirrorWriteDone 9 true) (on (awaits { live .run with iport :=
    ⟨[⟨3, rq 0x20000020 .beat4 false [], .plain, .mirrorWait, [9]⟩], []⟩ } .mirror true 0x20000020 [] 32)))).map
    (fun b => b.mport.waiting.map (·.access)) = some [.forward 3] := by
  decide +kernel
theorem test_ring_put : asks? (exec (.ringPut 3) (on (tapOn (rg 3 2) (tp 0 true [1, 2, 3, 4]))))
    = some (.item 3 false false, true, 0x1004, [1, 2, 3, 4], 4) := by
  decide +kernel
theorem test_ring_take : asks? (exec (.ringTake 3) (on (tapOn (rg 3 2) (tp 0 false []))))
    = some (.item 3 false false, false, 0x100C, [], 4) := by
  decide +kernel
theorem test_ring_peek_empty : sent? (exec (.ringPeek 3) (on (tapOn (rg 3 0) (tp 8 false [])))) = some [(false, [0, 0, 0, 0])] := by
  decide +kernel
theorem test_ring_level : sent? (exec (.ringLevel 3) (on (tapOn (rg 3 2) (tp 16 false [])))) = some [(true, [2, 0, 0, 0])] := by
  decide +kernel
theorem test_read_status : sent? (exec (.readStatus 3) (on (tapOn (sk 5 0 1) (tp 24 false [])))) = some [(true, [0, 1, 1, 0])] := by
  decide +kernel
theorem test_stack_push : asks? (exec (.stackPush 3) (on (tapOn (sk 2 0 0) (tp 0 true [9, 0, 0, 0]))))
    = some (.item 3 true false, true, 0x2008, [9, 0, 0, 0], 4) := by
  decide +kernel
theorem test_stack_push_overflow : (chip? (exec (.stackPush 3) (on (tapOn (sk 3 1 0) (tp 0 true [9, 0, 0, 0]))))).map
    (fun b => b.cache.map (·.busy)) = some [some ⟨.stackOverflow [(0x2010, [1, 0, 0, 0]), (0x2014, [1, 0, 0, 0]),
      (0x2018, [4, 0, 0, 0]), (0x201C, [3, 0, 0, 0])], .tap (tp 0 true [9, 0, 0, 0])⟩] := by
  decide +kernel
theorem test_stack_pop_underflow : told? (exec (.stackPop 3) (on (tapOn (sk 0 0 0) (tp 0 false []))))
    = some [(.underflow, .underflow, 0), (.refusal, .empty, 0)] := by
  decide +kernel
theorem test_stack_top : asks? (exec (.stackTop 3) (on (tapOn (sk 2 2 0) (tp 8 false []))))
    = some (.item 3 true false, false, 0x2004, [], 4) := by
  decide +kernel
theorem test_stack_depth : sent? (exec (.stackDepth 3) (on (tapOn (sk 2 0 0) (tp 16 false [])))) = some [(true, [2, 0, 0, 0])] := by
  decide +kernel
theorem test_stack_mark : asks? (exec (.stackMark 3) (on (tapOn (sk 2 1 0) (tp 16 true [0, 0, 0, 0]))))
    = some (.item 3 true false, true, 0x2008, [1, 0, 0, 0], 4) := by
  decide +kernel
theorem test_stack_unwind_without_frame : told? (exec (.stackUnwind 3) (on (tapOn (sk 2 0 0) (tp 24 true [0, 0, 0, 0]))))
    = some [(.refusal, .frame, 24)] := by
  decide +kernel
theorem test_tally_next_wraps : (chip? (exec (.tallyNext 3) (on (tapOn (ty 8 0) (tp 0 false []))))).map
    (fun b => (b.cache.map (fun e => (e.copy.value, e.copy.wraps)), b.trigger.pending, b.iport.sent.map (·.data)))
    = some ([(1, 1)], [⟨1, .start (.structure 3)⟩], [[8, 0, 0, 0]]) := by
  decide +kernel
theorem test_tally_add_sticks : (copy? (exec (.tallyAdd 3) (on (tapOn (ty 8 1) (tp 0 true [0xEC, 0xFF, 0xFF, 0xFF])))) 3).map
    (fun d => (d.value, d.wraps, d.atBound)) = some (0, 0, true) := by
  decide +kernel
theorem test_tally_set_out_of_bounds : told? (exec (.tallySet 3) (on (tapOn (ty 8 0) (tp 8 true [10, 0, 0, 0]))))
    = some [(.refusal, .bounds, 8)] := by
  decide +kernel
theorem test_tally_value : sent? (exec (.tallyValue 3) (on (tapOn (ty 8 0) (tp 8 false [])))) = some [(true, [8, 0, 0, 0])] := by
  decide +kernel
theorem test_tally_wraps : sent? (exec (.tallyWraps 3) (on (tapOn (ty 8 0) (tp 16 false [])))) = some [(true, [0, 0, 0, 0])] := by
  decide +kernel

/-- Structure 3 with an operation in progress for the tap, its item access at memory. -/
def working (d : Descriptor) (w : ItemWork) (stack : Bool) (t : Tap) : Bridge :=
  awaits (holding { ent 3 d [] with busy := some ⟨w, .tap t⟩ }) (.item 3 stack false) t.write 0x1000 t.data 4

theorem test_ring_item_done : (copy? (exec (.ringItemAccessDone 9 true)
    (on (working (rg 3 1) .ringPut false (tp 0 true [1, 2, 3, 4])))) 3).map (·.count) = some 2 := by
  decide +kernel
theorem test_ring_item_error_halts : (copy? (exec (.ringItemAccessDone 9 false)
    (on (working (rg 3 1) .ringTake false (tp 0 false [])))) 3).map (fun d => (d.state, d.cause, d.count))
    = some (stHalted, causeMemory, 1) := by
  decide +kernel
/-- A TOP that fails on a stack HALTED with cause RESERVE leaves it so, is refused, and queues no FAULT notice (log 44). -/
theorem test_failed_top_of_an_exhausted_stack :
    let o := exec (.stackItemAccessDone 9 false) (on (working { sk 8 0 1 with state := stHalted, cause := causeReserve } .stackTop
      true (tp 8 false [])))
    (copy? o 3).map (fun d => (d.state, d.cause, d.depth)) = some (stHalted, causeReserve, 8)
    ∧ told? o = some [(.refusal, .memory, 8)] ∧ sent? o = some [(false, [0, 0, 0, 0])] := by
  decide +kernel
theorem test_stack_item_done : (copy? (exec (.stackItemAccessDone 9 true)
    (on (working (sk 3 1 0) (.stackOverflow []) true (tp 0 true [9, 0, 0, 0])))) 3).map
    (fun d => (d.depth, d.frame, d.guardOpen, d.cause)) = some (8, 5, true, causeOverflow) := by
  decide +kernel

/-- Structure 0, the command ring, with the operations that wait for it. -/
def ring0 (head count : Half) (ops : List CacheOp) : Entry :=
  ent 0 { rg head count with itemSize := 8, condition := condNone } ops

theorem test_command_take : asks? (exec .commandUnitTake (on { holding (ring0 1 1 [.commandTake]) with
    command := ⟨.taking, none, .judged, false, false⟩ })) = some (.item 0 false false, false, 0x1008, [], 8) := by
  decide +kernel
theorem test_cmd_nop : told? (exec .cmdNop (on (ordered (live .run) opNop 0 0))) = some [(.commandDone, .none, 0)] := by
  decide +kernel
theorem test_cmd_flush : asks? (exec .cmdFlush (on (ordered (holding (ent 3 (rg 0 1) [])) opFlush 0 0)))
    = some (.writeBack 3 false, true, 0x1000C0, (rg 0 1).toBytes, 64) := by
  decide +kernel
theorem test_cmd_release : told? (exec (.cmdRelease 5) (on (ordered (live .run) opRelease 5 0))) = some [(.commandDone, .none, 2)] := by
  decide +kernel
theorem test_cmd_abort : (copy? (exec (.cmdAbort 3) (on (orderOn opAbort (rg 3 2)))) 3).map (fun d => (d.head, d.count, d.flushed))
    = some (1, 0, 2) := by
  decide +kernel
theorem test_cmd_open : (copy? (exec (.cmdOpen 3) (on (orderOn opOpen { rg 0 0 with state := stClosed }))) 3).map (·.state)
    = some stOpen := by
  decide +kernel
theorem test_cmd_close : (copy? (exec (.cmdClose 3) (on (orderOn opClose (rg 0 0)))) 3).map (·.state) = some stClosed := by
  decide +kernel
theorem test_cmd_clear_fault : told? (exec (.cmdClearFault 3) (on (orderOn opClearFault
    { sk 8 0 1 with state := stHalted, cause := causeReserve }))) = some [(.commandRefused, .causePersists, 6)] := by
  decide +kernel
theorem test_cmd_close_guard : (copy? (exec (.cmdCloseGuard 3) (on (orderOn opCloseGuard (sk 3 0 1)))) 3).map
    (fun d => (d.guardOpen, d.cause)) = some (false, causeNone) := by
  decide +kernel
theorem test_cmd_arm : (chip? (exec (.cmdArm 3) (on (orderOn opArm (rg 0 2))))).map (·.trigger.pending)
    = some [⟨2, .start (.structure 3)⟩] := by
  decide +kernel
theorem test_cmd_disarm : (copy? (exec (.cmdDisarm 3) (on (orderOn opDisarm (ty 0 0)))) 3).map (·.armed) = some false := by
  decide +kernel
theorem test_cmd_trigger : (chip? (exec (.cmdTrigger 2) (on (ordered (live .run) opTrigger 0 2)))).map (·.trigger.pending)
    = some [⟨2, .start .software⟩] := by
  decide +kernel
theorem test_cmd_stop_move : told? (exec (.cmdStopMove 2) (on (ordered (live .run) opStopMove 0 2)))
    = some [(.commandRefused, .notActive, 11)] := by
  decide +kernel
theorem test_cmd_pause : (chip? (exec .cmdPauseMoves (on (ordered (live .run) opPauseMoves 0 0)))).map (·.engine.state)
    = some .paused := by
  decide +kernel
theorem test_cmd_resume : (chip? (exec .cmdResumeMoves (on { ordered (live .run) opResumeMoves 0 0 with
    engine := Engine.unloaded .paused true }))).map (fun b => (b.engine.state, b.engine.pauseRequest)) = some (.idle, false) := by
  decide +kernel

/-- A bridge with a start-word write of `v` at memory, handle 9. -/
def startWrite (b : Bridge) (v : Byte) : Bridge :=
  awaits { b with iport := ⟨[⟨9, rq 0x20000000 .beat4 true [v, 0, 0, 0], .anchorStart, .forwarded, []⟩], []⟩ }
    (.forward 9) true 0x20000000 [v, 0, 0, 0] 4

theorem test_start : asks? (exec (.startBridge 9) (on (startWrite (live .pass) 1)))
    = some (.anchorRead, false, 0x20000000, [], 32) := by
  decide +kernel
theorem test_stop : (chip? (exec (.stopBridge (.startWord 9)) (on (startWrite (live .run) 2)))).map
    (fun b => (b.control.state, b.control.stopStage, b.control.idleTimer)) = some (.stopping, .finishing, none) := by
  decide +kernel
theorem test_anchor_read_refused : (chip? (exec (.anchorReadDone 9 true) (on (awaits (live .starting) .anchorRead false
    0x20000000 [] 32)))).map (fun b => (b.control.state, b.control.startReason)) = some (.pass, .layout) := by
  decide +kernel

/-- A bridge in AUDITING at a position. -/
def auditing (p : AuditPosition) : Bridge :=
  { live .auditing with control := { (live .auditing).control with audit := some ⟨p, [], 0, []⟩ } }

theorem test_audit_read_refused : (chip? (exec (.auditReadDone 9 true) (on (awaits (auditing (.struct 0)) .auditRead false
    0x100000 [] 64)))).map (fun b => (b.control.state, b.control.startReason)) = some (.pass, .commandRing) := by
  decide +kernel
theorem test_audit_write : asks? (exec (.auditWriteDone 9 true) (on (awaits (auditing (.struct 2)) .auditWrite true 0x100081
    [3, 5] 2))) = some (.auditRead, false, 0x1000C0, [], 64) := by
  decide +kernel
theorem test_audit_fault_notice : told? (exec .auditFaultNotice (on { live .run with
    control := { (live .run).control with findings := [4, 6] } })) = some [(.fault, .descriptor, 0)] := by
  decide +kernel

/-- Structure 3 being fetched for the tap. -/
def fetching (ops : List CacheOp) : Bridge :=
  awaits (holding { ent 3 Descriptor.blank ops with state := .fetching true }) (.fetch 3) false 0x1000C0 [] 64

/-- Structure 3 being written back. -/
def writing (r : WriteBackFor) (pin : Bool) (ops : List CacheOp) : Bridge :=
  awaits (holding { ent 3 (rg 0 1) ops with state := .writing r, pin := pin }) (.writeBack 3 false) true 0x1000C0
    (rg 0 1).toBytes 64

theorem test_fetch_complete : (chip? (exec (.fetchComplete 9 true) (on (fetching [])))).map
    (fun b => b.cache.map (fun e => (e.state, e.copy.kind))) = some [(.clean, kindOff)] := by
  decide +kernel
theorem test_write_back_complete : (chip? (exec (.writeBackComplete 9 true) (on (writing .other false [])))).map
    (fun b => b.cache.map (·.state)) = some [.clean] := by
  decide +kernel
theorem test_arbiter : asks? (exec .arbiterChoice (on { live .run with trigger := ⟨[⟨3, .start .software⟩], none, none, none⟩ }))
    = some (.moveRead, false, 0x200060, [], 32) := by
  decide +kernel
theorem test_move_read_failed : (chip? (exec (.moveDescriptorReadDone 9 false) (on (awaits (moving (live .run) .readDescriptor
    false (mv 0 0 0 0 0 0)) .moveRead false 0x200020 [] 32)))).map (fun b => (b.engine.step, b.engine.ending.map (·.code)))
    = some (.report, some .memory) := by
  decide +kernel

/-- The engine's operation at the front of structure 3's entry, its turn come. -/
def engineOn (d : Descriptor) (op : EngineOp) (st : EngineStep) (m : MoveDescriptor) : Bridge :=
  moving (holding (ent 3 d [.engine op])) st true m

theorem test_pin : (chip? (exec .pinEnd (on (engineOn (rg 0 1) .pin .pinSource (mv 0 0 3 1 0x9000 1))))).map
    (fun b => (b.cache.map (·.pin), b.engine.step)) = some ([true], .take) := by
  decide +kernel
theorem test_reservation_step : (chip? (exec .reservationStep (on (engineOn (rg 0 4) .reserve .reserve
    (mv 0 1 0x9000 0 3 1))))).map (fun b => b.engine.ending.map (fun x => (x.code, x.struct))) = some (some (.destFull, some 3)) := by
  decide +kernel
theorem test_move_take : asks? (exec .moveTake (on (engineOn (rg 1 1) .take .take (mv 0 0 3 1 0x9000 1))))
    = some (.item 3 false true, false, 0x1004, [], 4) := by
  decide +kernel
theorem test_span_read : (chip? (exec (.spanReadDone 9 true) (on (awaits (moving (live .run) .spanRead false
    (mv 0 1 0x9000 1 0xA000 1)) .spanRead false 0x9000 [] 4)))).map (fun b => (b.engine.transit, b.engine.taken, b.moveCopy.src))
    = some (some [0, 0, 0, 0], 1, 0x9004) := by
  decide +kernel
theorem test_move_put : asks? (exec .movePut (on { moving (live .run) .put false (mv 0 1 0x9000 1 0xA000 1) with
    engine := { (moving (live .run) .put false (mv 0 1 0x9000 1 0xA000 1)).engine with
      disposal := some .write, transit := some [1, 2, 3, 4] } })) = some (.spanWrite, true, 0xA000, [1, 2, 3, 4], 4) := by
  decide +kernel
theorem test_span_write : (chip? (exec (.spanWriteDone 9 true) (on (awaits (moving (live .run) .spanWrite false
    (mv 0 1 0x9000 1 0xA000 1)) .spanWrite true 0xA000 [1, 2, 3, 4] 4)))).map
    (fun b => (b.engine.state, b.moveCopy.count, b.moveCopy.dst)) = some (.storing, 0, 0xA004) := by
  decide +kernel
theorem test_store_back : (chip? (exec (.storeBackDone 9 true) (on (awaits (moving (live .run) .store false
    (mv 0 1 0x9000 1 0xA000 0)) .storeBack true 0x200020 [] 32)))).map (·.engine.step) = some .report := by
  decide +kernel

/-- The engine's release of structure 3, its only pin. -/
def releasing (d : Descriptor) : Bridge :=
  { engineOn d .release .release (mv 0 0 3 1 0x9000 0) with
    engine := { (engineOn d .release .release (mv 0 0 3 1 0x9000 0)).engine with pins := [3] } }

theorem test_pin_release : (copy? (exec .pinRelease (on (releasing { rg 0 1 with state := stClosing }))) 3).map (·.state)
    = some stClosed := by
  decide +kernel

/-- The engine about to report the end of a run of a chain that structure 3 started. -/
def reporting (code : RunEnd) (m : MoveDescriptor) : Bridge :=
  { moving (live .run) .report false m with
    engine := { (moving (live .run) .report false m).engine with ending := some ⟨code, false, none, 0⟩ }
    trigger := ⟨[], some ⟨.structure 3, 1, none, 1⟩, none, none⟩ }

theorem test_run_end_report : (chip? (exec .runEndReport (on (reporting .ok (mv 0 1 0x9000 1 0xA000 5))))).map
    (fun b => (b.engine.state, b.trigger.completion)) = some (.idle, some ⟨3, 1, some 5, false⟩) := by
  decide +kernel

/-- Completion processing for structure 3, its turn come. -/
def completing (d : Descriptor) (k : Half) : Bridge :=
  { holding (ent 3 d [.engine .completion]) with trigger := ⟨[], none, none, some ⟨3, 1, some k, true⟩⟩ }

theorem test_completion_spent : told? (exec .completionProcessing (on (completing { rg 0 2 with flags := 0x11 } 0)))
    = some [(.triggerSpent, .none, 0)] := by
  decide +kernel

/-- A notice. -/
def note : Notice := ⟨.watermark, .none, some 3, none, none, false, false, 0, 2⟩

/-- The notice writer's put, its turn come on structure 1. -/
def noting (d : Descriptor) : Bridge := { holding (ent 1 d [.noticePut]) with notices := ⟨[note], true⟩ }

theorem test_notice_put : asks? (exec .noticePut (on (noting { rg 0 1 with itemSize := 16 })))
    = some (.item 1 false false, true, 0x1010, note.toBytes, 16) := by
  decide +kernel
theorem test_idle_expiry : (chip? (exec .idleTimerExpiry (on { live .run with
    command := { CommandUnit.nothing with lastEmpty := true } }))).map (·.control.state) = some .quiet := by
  decide +kernel
theorem test_stop_clear_pending : (chip? (exec .stopClearPending (on { live .stopping with
    control := { (live .stopping).control with stopStage := .finishing }
    trigger := ⟨[⟨1, .start .software⟩, ⟨2, .start .software⟩], none, none, none⟩ }))).map
    (fun b => (b.control.clearedPending, b.control.stopStage)) = some (2, .draining) := by
  decide +kernel
theorem test_stop_empty_cache : (chip? (exec .stopEmptyCache (on { live .stopping with
    control := { (live .stopping).control with stopStage := .draining } }))).map (·.control.state) = some .pass := by
  decide +kernel

/-! ## The hypotheses of the statements can be met, clause by clause -/

/-- An outcome with a next state. -/
theorem next_of_chip? {o : Host.Outcome State Fault Refusal} (h : (chip? o).isSome = true) : ∃ s', o = .next s' := by
  cases o with
  | next s => exact ⟨s, rfl⟩
  | fault f => cases h
  | refused r => cases h

/-- The settings of the small states are in order. -/
theorem settings_ok {b : Bridge} (h : b.control.settings = some g0) : SettingsOk b := by
  intro g hg
  have : g0 = g := Option.some.inj (h.symm.trans hg)
  subst this
  decide

/-- A bridge in RUN with the idle timer as given. -/
def timed (k : Option Nat) : Bridge := { live .run with control := { (live .run).control with idleTimer := k } }

theorem witness_EmptyQueueStepIsOneMicrosecond :
    (on (timed none)).pending = [] ∧ (timed none).control.idleTimer = none
    ∧ (on (timed (some 2))).pending = [] ∧ (timed (some 2)).control.idleTimer = some (0 + 2)
    ∧ (on (timed (some 1))).pending = [] ∧ (timed (some 1)).control.idleTimer = some 1
    ∧ (timed (some 1)).control.state = .run := by
  decide +kernel

/-- A forwarded write of a 0 over the one listed byte is answered; a full cache, I-port, queue and fairness count. -/
def crowded : State :=
  { mem := [(0x5000, 7)]
    chip := { awaits (live .run) (.forward 9) true 0x5000 [0, 0, 0, 0] 4 with
      iport := ⟨⟨9, rq 0x5000 .beat4 true [0, 0, 0, 0], .plain, .forwarded, []⟩
        :: (List.range 31).map (fun i => ⟨10 + i, rq 0x5000 .beat4 false [], .plain, .forwarded, []⟩), []⟩
      mport := ⟨[], [⟨9, .forward 9, true, 0x5000, [0, 0, 0, 0], 4, false⟩], 8⟩
      cache := { ent 0 (rg 0 1) [] with state := .writing (.claim 17) } :: (List.range 15).map (fun i => ent (1 + i) (rg 0 1) [])
      misses := [(17, .release)]
      notices := ⟨List.replicate 8 ⟨.watermark, .none, some 3, none, none, false, false, 0, 2⟩, false⟩
      control := { (live .run).control with dropped := 65535 }
      trigger := ⟨[⟨1, .start .software⟩, ⟨2, .start (.structure 3)⟩], none, none, none⟩ }
    pending := [.forwardedRequestDone 9 true] }

theorem witness_invariants_met_by_a_step :
    (MemoryOk crowded ∧ CacheOk crowded.chip ∧ InFlightOk crowded.chip ∧ FairnessOk crowded.chip ∧ NoticesOk crowded.chip
      ∧ HandlesOk crowded.chip ∧ SettingsOk crowded.chip ∧ PendingOk crowded.chip)
    ∧ ∃ s', step crowded = .next s' :=
  ⟨⟨by decide +kernel, by decide +kernel, by decide +kernel, by decide +kernel, by decide +kernel, by decide +kernel,
    settings_ok (by decide +kernel), by decide +kernel⟩, next_of_chip? (by decide +kernel)⟩

/-- Move 1 puts an item from ring 3 into ring 5, the put at memory in the place reserved for it, while a tap pushes on stack 6. -/
def lawful : Bridge :=
  { awaits (moving (live .run) .put true (mv 0 0 3 0 5 1)) (.item 5 false true) true 0x1004 [1, 2, 3, 4] 4 with
    engine := { (moving (live .run) .put true (mv 0 0 3 0 5 1)).engine with
      disposal := some .reserved, pins := [3, 5], transit := some [1, 2, 3, 4] }
    iport := ⟨[⟨7, rq 0x400020C0 .beat4 true [9, 0, 0, 0], .tap, .tapped, []⟩], []⟩
    cache := [{ ent 5 (rg 0 1) [] with pin := true, reservation := true, busy := some ⟨.ringPut, .engine⟩ },
      { ent 3 (rg 0 1) [] with pin := true },
      { ent 6 (sk 2 1 0) [] with busy := some ⟨.stackPush, .tap (tp 0 true [9, 0, 0, 0])⟩ },
      ent 4 (sk 4 1 1) [], ent 7 (ty 3 0) [.tap (tp 0 false [])],
      { ent 2 Descriptor.blank [.command] with state := .fetching true }] }

theorem lawful_structures : StructuresOk lawful := by
  have hsrc : lawful.moveCopy.srcStruct = some 3 := by decide
  have hdst : lawful.moveCopy.dstStruct = some 5 := by decide
  have e5 : lawful.Pinned 5 := ⟨_, List.mem_cons_self, by decide, by decide⟩
  have e3 : lawful.Pinned 3 := ⟨_, List.mem_cons_of_mem _ List.mem_cons_self, by decide, by decide⟩
  refine ⟨fun e he => ?_, by decide, ⟨by decide, by decide⟩, fun e he w hb hw => ?_, by decide, Or.inl (by decide),
    fun _ n hn => ?_, fun _ n hn => ?_, by decide, by decide, by decide, fun _ => ⟨by decide, fun n hn => ?_⟩⟩
  · rcases he with _ | ⟨_, _ | ⟨_, _ | ⟨_, _ | ⟨_, _ | ⟨_, _ | ⟨_, he⟩⟩⟩⟩⟩⟩
    case tail.tail.tail.tail.tail.tail => cases he
    all_goals
      refine ⟨by decide, by decide, fun _ _ => ⟨by decide, by decide, by decide, by decide, by decide⟩, fun w hw => ?_,
        by decide, by decide⟩
      cases hw
      try decide
  · rcases he with _ | ⟨_, _ | ⟨_, _ | ⟨_, _ | ⟨_, _ | ⟨_, _ | ⟨_, he⟩⟩⟩⟩⟩⟩
    case tail.tail.tail.tail.tail.tail => cases he
    all_goals cases hb
    · exact Or.inr ⟨by decide, by decide⟩
    · cases hw
  · rw [hsrc] at hn; cases hn; exact e3
  · rw [hdst] at hn; cases hn; exact e5
  · rw [hdst] at hn
    cases hn
    exact ⟨_, List.mem_cons_self, by decide, by decide, by decide⟩

theorem witness_EveryStepKeepsCountsInBounds_structures :
    (CacheOk lawful ∧ StructuresOk lawful) ∧ (∃ s', step { on lawful with pending := [.ringItemAccessDone 9 true] } = .next s')
    ∧ (chip? (step { on lawful with pending := [.ringItemAccessDone 9 true] })).map
      (fun b => b.cache.map (fun e => (e.index, e.copy.kind, e.copy.count, e.reservation)))
        = some [(5, kindRing, 2, false), (3, kindRing, 1, false), (6, kindStack, 1, false), (4, kindStack, 1, false),
          (7, kindTally, 0, false), (2, kindOff, 0, false)] :=
  ⟨⟨by decide +kernel, lawful_structures⟩, next_of_chip? (by decide +kernel), by decide +kernel⟩

theorem witness_MemoryReadsWhatWasWritten :
    Memory.wf [(5, 1)] = true ∧ 4294967294 + [1, 2].length ≤ addressSpace
    ∧ (∀ i, i < 2 → 1 ≠ (4294967295 + i) % addressSpace) := by
  refine ⟨by decide, by decide, fun i h => ?_⟩
  have : i = 0 ∨ i = 1 := by omega
  rcases this with h | h <;> subst h <;> decide

theorem witness_OnlyAnsweredWritesChangeMemory :
    (∃ s', exec (.forwardedRequestDone 9 true) crowded = .next s')
    ∧ ∀ x ∈ [0x4FFF, 0x5004], ∀ q ∈ crowded.chip.mport.outstanding,
      answeredHandle (.forwardedRequestDone 9 true) = some q.id → q.write = true →
        ∀ i, i < max q.data.length q.length → x ≠ (q.addr + i) % addressSpace :=
  ⟨next_of_chip? (by decide +kernel), by decide +kernel⟩

theorem witness_SettlingKeepsCopiesAndEngine :
    (CacheOk crowded.chip ∧ HandlesOk crowded.chip ∧ SettingsOk crowded.chip) ∧ (∃ b', crowded.chip.autoStep = some b')
    ∧ (CacheOk (live .run) ∧ HandlesOk (live .run) ∧ SettingsOk (live .run)) ∧ (live .run).autoStep = none :=
  ⟨⟨by decide +kernel, by decide +kernel, settings_ok (by decide +kernel)⟩, Option.isSome_iff_exists.mp (by decide +kernel),
    ⟨by decide +kernel, by decide +kernel, settings_ok (by decide +kernel)⟩, by decide +kernel⟩

/-- Two requests of one initiator, the second answered first. -/
def outOfTurn : Bridge :=
  { live .run with iport := ⟨[⟨1, rq 0 .beat4 true [1, 2, 3, 4], .plain, .forwarded, []⟩,
      ⟨2, rq 0 .beat4 true [1, 2, 3, 4], .plain, .answered true [], []⟩], []⟩ }

/-- Both answered: both leave, in the order they were taken. -/
def inTurn : Bridge := outOfTurn.setPhase 1 (.answered false [])

theorem test_responses_leave_in_order : outOfTurn.drain = outOfTurn ∧ inTurn.drain.iport.inflight = []
    ∧ inTurn.drain.iport.sent.map (fun r => (r.id, r.ok)) = [(1, false), (2, true)] := by
  decide +kernel

theorem witness_ResponsesLeaveInInitiatorOrder :
    inTurn.iport.inflight[0]? = some ⟨1, rq 0 .beat4 true [1, 2, 3, 4], .plain, .answered false [], []⟩
    ∧ outOfTurn.iport.inflight[0]? = some ⟨1, rq 0 .beat4 true [1, 2, 3, 4], .plain, .forwarded, []⟩
    ∧ outOfTurn.iport.inflight[1]? = some ⟨2, rq 0 .beat4 true [1, 2, 3, 4], .plain, .answered true [], []⟩
    ∧
    outOfTurn.drain.iport.inflight = [⟨1, rq 0 .beat4 true [1, 2, 3, 4], .plain, .forwarded, []⟩]
      ++ ⟨2, rq 0 .beat4 true [1, 2, 3, 4], .plain, .answered true [], []⟩ :: [] := by
  decide +kernel

/-- A bridge whose queue holds `k` notices, `n` dropped before. -/
def full (k n : Nat) : Bridge :=
  { live .run with notices := ⟨List.replicate k ⟨.watermark, .none, some 3, none, none, false, false, 0, 2⟩, false⟩
                   control := { (live .run).control with dropped := n } }

theorem witness_RefusalIsAnsweredErrorAndRecorded :
    { tp 8 false [] with debug := true }.debug = true ∧ (tp 8 false []).write = false ∧ (tp 8 false []).debug = false
    ∧ (State.reset.chip).cfg.refusalNotices = false ∧ (full 7 0).cfg.refusalNotices = true
    ∧ (full 7 0).notices.queue.length < 8 := by
  decide +kernel

/-- A bridge in RUN whose cache empties itself, with what waits as given. -/
def emptying (b : Bridge) : Bridge := { b with control := { b.control with emptying := true, idleTimer := none } }

theorem test_notice_stops_the_emptying :
    ((emptying (full 7 0)).notify note).control = { (full 7 0).control with idleTimer := some 500 }
    ∧ ((full 7 0).notify note).control = (full 7 0).control := by
  decide +kernel

theorem witness_NoticeJoinsQueueOrIsCounted :
    (full 7 0).notices.queue.length < 8 ∧ (emptying (full 7 0)).notices.queue.length < 8
    ∧ (emptying (full 7 0)).control.emptying = true ∧ 8 ≤ (full 8 0).notices.queue.length ∧ (full 8 0).control.dropped = 0
    ∧ (full 8 65534).control.dropped < 65535 ∧ (full 8 65535).control.dropped = 65535 ∧ 0 < (full 8 1).control.dropped := by
  decide +kernel

theorem witness_CrossingPostsAndNotifies :
    ((rg 0 1).holds = false ∧ (rg 0 2).holds = true ∧ { rg 0 2 with flags := 0x19 }.armed = true
      ∧ (live .run).control.state = .run ∧ (live .quiet).control.state = .quiet)
    ∧ (rg 0 2).armed = false ∧ ((live .stopping).control.state ≠ .run ∧ (live .stopping).control.state ≠ .quiet)
    ∧ ¬ ((rg 0 2).holds = false ∧ (rg 0 3).holds = true)
    ∧ (rg 0 2).watermarkNotices = true ∧ (full 7 0).notices.queue.length < 8
    ∧ { rg 0 2 with flags := 0x10 }.watermarkNotices = false
    ∧ (∃ q ∈ [(⟨2, .start .software⟩ : PendingMove)], q.move = 2)
    ∧ (∀ q ∈ [(⟨2, .start .software⟩ : PendingMove)], q.move ≠ 1)
    ∧ List.Pairwise (fun x y => x.move < y.move) [(⟨1, .start .software⟩ : PendingMove), ⟨2, .start .software⟩] := by
  decide +kernel

theorem witness_LinesFollowTheirShadows :
    (g0.bindings[2]? = some ⟨9, true⟩ ∧ g0.bindings[3]? = some ⟨0, false⟩)
    ∧ ((rg 0 2).holds = true ∧ (rg 0 2).high.toNat ≤ (rg 0 2).count ∧ (rg 0 1).holds = false)
    ∧ (live .run).cfg.bindings[0]? = some ⟨3, true⟩ ∧ (live .run).control.demandShadows[0]? = some false
    ∧ (live .run).cfg.bindings[1]? = some ⟨1, false⟩ ∧ (live .run).control.demandShadows[1]? = some false := by
  decide +kernel

/-- A waiting tap's read, a forwarded write given to memory, one not given to it, and an engine access given to memory. -/
def resetting : Bridge :=
  { live .run with
    iport := ⟨[⟨7, rq 0x40002060 .beat4 false [], .tap, .tapped, []⟩, ⟨8, rq 0x5000 .beat1 true [1], .plain, .forwarded, []⟩,
      ⟨9, rq 0x5000 .beat1 true [1], .plain, .forwarded, []⟩], []⟩
    mport := ⟨[⟨8, .forward 8, true, 0x5000, [1], 1, false⟩],
      [⟨9, .forward 9, true, 0x5000, [1], 1, false⟩, ⟨10, .spanRead, false, 0x9000, [], 4, false⟩], 3⟩ }

theorem test_power_on_reset_answers_what_memory_was_not_given :
    sent? (exec .powerOnReset (on resetting)) = some [(false, [0, 0, 0, 0]), (false, [])]
    ∧ (chip? (exec .powerOnReset (on resetting))).map (fun b => (b.iport.inflight.map (·.id),
        b.mport.outstanding.map (fun q => (q.id, q.abandoned)), b.mport.waiting))
      = some ([9], [(9, false), (10, true)], []) := by
  decide +kernel

/-- A tap's answer behind a request given to memory, and another's: the tap's becomes ERROR, the other stays (R174). -/
def answeredBehind (c : RequestClass) : Bridge :=
  { resetting with iport := ⟨[⟨9, rq 0x5000 .beat1 true [1], .plain, .forwarded, []⟩,
      ⟨12, rq 0x40002060 .beat4 false [], c, .answered true [1, 2, 3, 4], []⟩], []⟩ }

theorem test_power_on_reset_answers_a_tap_that_has_not_left :
    (chip? (exec .powerOnReset (on (answeredBehind .tap)))).map (fun b => b.iport.inflight.map (·.phase))
      = some [.forwarded, .answered false [0, 0, 0, 0]]
    ∧ (chip? (exec .powerOnReset (on (answeredBehind .plain)))).map (fun b => b.iport.inflight.map (·.phase))
      = some [.forwarded, .answered true [1, 2, 3, 4]] := by
  decide +kernel

theorem witness_PowerOnResetEmptiesEveryBlock :
    State.reset.chip.control.resetHeld = true ∧ (live .run).control.resetHeld = false := by
  decide

/-- An entry in each state, one pinned and CLOSING with a held write, a tap not answered, and accesses of the engine. -/
def warming : Bridge :=
  { live .run with
    iport := ⟨[⟨7, rq 0x40002060 .beat4 false [], .tap, .tapped, []⟩, ⟨8, rq 0x5000 .beat1 true [1], .plain, .forwarded, []⟩,
      ⟨11, rq 0x1001C0 .beat1 true [1], .table, .snooping [7], []⟩], []⟩
    mport := ⟨[⟨12, .storeBack, true, 0x200020, [], 32, false⟩],
      [⟨8, .forward 8, true, 0x5000, [1], 1, false⟩, ⟨10, .spanRead, false, 0x9000, [], 4, false⟩], 3⟩
    cache := [{ ent 2 (rg 0 1) [] with state := .clean }, ent 3 (rg 0 1) [.tap (tp 0 false [])],
      { ent 4 (rg 0 1) [] with state := .writing (.claim 9) }, { ent 5 Descriptor.blank [] with state := .fetching true },
      { ent 6 Descriptor.blank [.release] with state := .fetching false },
      { ent 7 { rg 0 1 with state := stClosing } [] with state := .clean, pin := true, held := [11] }] }

theorem test_warm_reset_keeps_dirty_entries :
    (chip? (exec .warmReset (on warming))).map (fun b => (b.cache.map (fun e => (e.index, e.state)),
      b.mport.waiting.map (·.access))) = some ([(2, .clean), (3, .writing .other), (4, .writing .other), (5, .fetching true),
        (7, .writing .other)], [.mirror, .writeBack 7 false, .writeBack 3 false])
    ∧ sent? (exec .warmReset (on warming)) = some [(false, [0, 0, 0, 0])] := by
  decide +kernel

theorem witness_WarmResetAbandonsWork_entries :
    warming.control.state = .run ∧ CacheOk warming ∧ (warming.iport.inflight.map InFlight.id).Nodup
    ∧ warming.iport.inflight.map (fun r => (r.cls, r.phase))
      = [(.tap, .tapped), (.plain, .forwarded), (.table, .snooping [7])]
    ∧ warming.mport.outstanding.map MemRequest.access = [.forward 8, .spanRead]
    ∧ warming.cache.map (fun e => (e.state, e.pin)) = [(.clean, false), (.dirty, false), (.writing (.claim 9), false),
      (.fetching true, false), (.fetching false, false), (.clean, true)] := by
  decide +kernel

theorem witness_WarmResetAbandonsWork :
    ((live .pass).control.state = .pass ∧ (live .warm).control.state = .warm)
    ∧ (full 8 65527).control.state ≠ .pass ∧ (full 8 65527).control.state ≠ .warm
    ∧ (full 8 65527).control.dropped + (full 8 65527).notices.queue.length ≤ 65535
    ∧ (outOfTurn.iport.inflight.map InFlight.id).Nodup := by
  decide +kernel

/-- A request can be taken and handed on at once: there is room and its turn has come, and no mirror write holds it. -/
def handedOn (b : Bridge) (r : Request) : Bool :=
  r.wf && decide (b.iport.inflight.length < 32) && b.iport.inflight.all (fun x => decide (x.id < b.nextHandle))
    && b.iport.inflight.all (fun x => decide (x.request.initiator = r.initiator → Bridge.holdsBack x.phase = false))
    && (r.write || !r.touchesStatus b.control.straps || b.mirrorHandles.isEmpty)

/-- 31 requests of initiator 4 in flight, the last of them answered, and one entry held. -/
def busyPort (st : BridgeState) : Bridge :=
  { live st with
    iport := ⟨(List.range 31).map (fun i => ⟨19 + i, rq 0x5000 .beat4 false [], .plain, .forwarded, []⟩), []⟩
    cache := [ent 3 (rg 0 1) []] }

/-- A request of class `c` that waits, its turn come behind one that is forwarded. -/
def queued (r : Request) (c : RequestClass) : InFlight := ⟨12, r, c, .waiting, []⟩

/-- The bridge it waits at. -/
def waitingPort (r : Request) (c : RequestClass) : Bridge :=
  { live .run with iport := ⟨[⟨11, rq 0x5000 .beat4 false [], .plain, .forwarded, []⟩, queued r c], []⟩ }

theorem handedOn_iff (b : Bridge) (r : Request) : handedOn b r = true ↔
    r.wf = true ∧ b.iport.inflight.length < 32 ∧ (∀ x ∈ b.iport.inflight, x.id < b.nextHandle)
    ∧ (∀ x ∈ b.iport.inflight, x.request.initiator = r.initiator → Bridge.holdsBack x.phase = false)
    ∧ (r.write = true ∨ r.touchesStatus b.control.straps = false ∨ b.mirrorHandles = []) := by
  simp only [handedOn, Bool.and_eq_true, Bool.or_eq_true, decide_eq_true_eq, List.all_eq_true, Bool.not_eq_true',
    List.isEmpty_iff, and_assoc, or_assoc]

theorem witness_PlainRequestIsForwarded :
    (classify .run (live .run).control.settings 2 (rq 0x5000 .beat4 false []) = .plain
      ∧ handedOn (busyPort .run) (rq 0x5000 .beat4 false []) = true)
    ∧ (classify .run (live .run).control.settings 2 (rq 0x20000020 .beat4 false []) = .plain
      ∧ handedOn (busyPort .run) (rq 0x20000020 .beat4 false []) = true)
    ∧ (classify .pass none 2 (rq 0x20000000 .beat4 true [1, 0, 0, 0]) = .anchorStart
      ∧ handedOn { State.reset.chip with control := Control.powerOn 2 } (rq 0x20000000 .beat4 true [1, 0, 0, 0]) = true)
    ∧ (classify .run (live .run).control.settings 2 (rq 0x20000000 .beat8 true [2, 0, 0, 0, 0, 0, 0, 0]) = .anchorStart
      ∧ (live .run).cfg.touchesTables (rq 0x20000000 .beat8 true [2, 0, 0, 0, 0, 0, 0, 0]) = false
      ∧ handedOn (busyPort .run) (rq 0x20000000 .beat8 true [2, 0, 0, 0, 0, 0, 0, 0]) = true)
    ∧ ItsTurn (waitingPort (rq 0x5000 .beat4 false []) .plain) 12 (queued (rq 0x5000 .beat4 false []) .plain) := by
  decide +kernel

/-- What a request touches, for the classes of R175. -/
theorem meets (r : Request) (a n : Nat) (h : r.region.overlaps ⟨a, n⟩ = true) : Meet r.addr.toNat r.size.bytes a n :=
  (Region.overlaps_meet r.region ⟨a, n⟩).mp h

theorem meets_not (r : Request) (a n : Nat) (h : r.region.overlaps ⟨a, n⟩ = false) :
    ¬ Meet r.addr.toNat r.size.bytes a n := by
  intro hm
  exact absurd ((Region.overlaps_meet r.region ⟨a, n⟩).mpr hm) (by simp [h])

theorem witness_PlainRequestIsForwarded_classes :
    let last := rq 0x40003FFC .beat4 false []
    let past := rq 0x40004000 .beat4 false []
    let start := rq 0x20000000 .beat8 true [1, 0, 0, 0, 0, 0, 0, 0]
    let entry := rq 0x1001FC .beat4 false []
    Meet last.addr.toNat last.size.bytes 0x40002000 8192
    ∧ (¬ Meet past.addr.toNat past.size.bytes 0x40002000 8192 ∧ ¬ Meet past.addr.toNat past.size.bytes 0x100000 (8 * 64)
      ∧ ¬ Meet past.addr.toNat past.size.bytes 0x200000 (4 * 32))
    ∧ (start.write = true ∧ start.addr.toNat ≤ 2 * 2 ^ 28 ∧ 2 * 2 ^ 28 + 4 ≤ start.addr.toNat + start.size.bytes
      ∧ ¬ Meet start.addr.toNat start.size.bytes 0x40002000 8192)
    ∧ (entry.write = false ∧ Meet entry.addr.toNat entry.size.bytes 0x100000 (8 * 64)
      ∧ ¬ Meet entry.addr.toNat entry.size.bytes 0x40002000 8192) :=
  ⟨meets _ _ _ (by decide), ⟨meets_not _ _ _ (by decide), meets_not _ _ _ (by decide), meets_not _ _ _ (by decide)⟩,
    ⟨by decide, by decide, by decide, meets_not _ _ _ (by decide)⟩, by decide, meets _ _ _ (by decide),
    meets_not _ _ _ (by decide)⟩

/-- A TABLE request that waits in a state of START. -/
def startingPort (st : BridgeState) : Bridge :=
  { waitingPort (rq 0x100100 .beat4 false []) .table with control := (live st).control }

theorem test_table_request_waits_while_starting :
    ∀ st ∈ [BridgeState.starting, .auditing],
      chip? (exec (.tableRead (.waiting 12)) (on (startingPort st))) = some (startingPort st) := by
  decide +kernel

theorem witness_TableRequestOfUnheldDescriptorIsForwarded_starting :
    ∀ st ∈ [BridgeState.starting, .auditing], (startingPort st).control.state = st
      ∧ ItsTurn (startingPort st) 12 (queued (rq 0x100100 .beat4 false []) .table) := by
  decide +kernel

theorem witness_TableRequestOfUnheldDescriptorIsForwarded :
    (∀ r ∈ [rq 0x100100 .beat4 false [], rq 0x1000BC .beat4 true [1, 2, 3, 4], rq 0x200000 .beat1 true [1]],
      classify .run (live .run).control.settings 2 r = .table ∧ handedOn (busyPort .run) r = true
      ∧ (∀ n ∈ (busyPort .run).cfg.touchedStructures r, ∀ e ∈ (busyPort .run).cache, e.index ≠ n)
      ∧ (busyPort .run).touchesLoaded r = false
      ∧ ItsTurn (waitingPort r .table) 12 (queued r .table))
    ∧ (busyPort .run).control.state ≠ .quiet := by
  decide +kernel

theorem witness_TableRequestWaitsForHeldDescriptor :
    let x (write : Bool) := queued (rq 0x1000FF .beat1 write (if write then [1] else [])) .table
    let b (st : EntryState) (pin : Bool) (write : Bool) : Bridge :=
      { waitingPort (x write).request .table with cache := [{ ent 3 (rg 0 1) [] with state := st, pin := pin }] }
    (∀ write, (b .clean false write).cfg.touchedStructures (x write).request = [3]
      ∧ (b .clean false write).touchesLoaded (x write).request = false ∧ (x write).mirrors = [])
    ∧ (b .dirty true true).entry? 3 = some { ent 3 (rg 0 1) [] with pin := true }
    ∧ (x true).request.write = true ∧ (∀ y ∈ (b .dirty false true).cache, y.index = 3 → y.pin = false)
    ∧ (x false).request.write = false ∧ (b .dirty false false).entry? 3 = some (ent 3 (rg 0 1) [])
    ∧ (b .clean false false).entry? 3 = some { ent 3 (rg 0 1) [] with state := .clean } := by
  decide +kernel

/-- A TABLE request that touches structures 3 and 4, held as given, in a phase. -/
def touching (write : Bool) (e3 e4 : List Entry) (p : RequestPhase) : InFlight × Bridge :=
  let x : InFlight :=
    { queued (rq 0x1000FC .beat8 write (if write then List.replicate 8 1 else [])) .table with phase := p }
  (x, { live .run with cache := e3 ++ e4, iport := ⟨[x], []⟩ })

/-- Structure `n` CLEAN, pinned or not. -/
def cleanEnt (n : Nat) (pin : Bool) : Entry := { ent n (rg 0 1) [] with state := .clean, pin := pin }

theorem witness_TableRequestWaitsForHeldDescriptor_several :
    let reads := touching false [cleanEnt 3 false] [ent 4 (rg 0 1) []] (.snooping [3, 4])
    let clean := touching false [cleanEnt 3 false] [cleanEnt 4 true] (.snooping [3, 4])
    let pins := touching true [cleanEnt 3 false] [cleanEnt 4 true] (.snooping [3, 4])
    let holds := touching true [] [cleanEnt 4 false] (.snooping [3, 4])
    let none' := touching true [] [] (.snooping [3, 4])
    (∀ t ∈ [reads, clean, pins, holds, none'], t.2.cfg.touchedStructures t.1.request = [3] ++ 4 :: []
      ∧ t.2.touchesLoaded t.1.request = false ∧ t.2.inflight? t.1.id = some t.1)
    ∧ (reads.2.entry? 3 = some (cleanEnt 3 false) ∧ reads.2.entry? 4 = some (ent 4 (rg 0 1) []))
    ∧ (clean.2.entry? 3 = some (cleanEnt 3 false) ∧ clean.2.entry? 4 = some (cleanEnt 4 true))
    ∧ (pins.2.entry? 3 = some (cleanEnt 3 false) ∧ pins.2.entry? 4 = some (cleanEnt 4 true))
    ∧ (holds.2.entry? 3 = none ∧ holds.2.entry? 4 = some (cleanEnt 4 false))
    ∧ (none'.2.entry? 3 = none ∧ none'.2.entry? 4 = none)
    ∧ ({ live .run with engine := { (live .run).engine with move := some ⟨1, 1, none⟩, step := .readDescriptor } }).touchesLoaded
      (rq 0x20003C .beat4 true [1, 2, 3, 4]) = true := by
  decide +kernel

/-- A bridge whose structure table ends where its anchor begins. -/
def anchored (b : Bridge) : Bridge :=
  { b with control := { b.control with settings := some { g0 with tableBase := 0x1FFFFE00 } } }

/-- A start-word write that touches the last structure descriptor of that table. -/
def startBurst : Request := rq 0x1FFFFFF8 (.burst 2) true (List.replicate 16 1)

theorem witness_TableRequestWaitsForHeldDescriptor_offered :
    let burst := rq 0x1000C0 (.burst 2) true (List.replicate 16 1)
    let atAnchor : Bridge := anchored (busyPort .run)
    let waits (st : BridgeState) (r : Request) (c : RequestClass) : Bridge :=
      { waitingPort r c with control := { atAnchor.control with state := st } }
    let start := startBurst
    (∀ st ∈ [BridgeState.run, .quiet, .stopping, .warm], classify st (live st).control.settings 2 burst = .table
      ∧ handedOn (busyPort st) burst = true
      ∧ ItsTurn (waits st burst .table) 12 (queued burst .table) ∧ (waits st burst .table).control.state = st)
    ∧ (classify .run atAnchor.control.settings 2 start = .anchorStart ∧ handedOn atAnchor start = true
      ∧ atAnchor.cfg.touchesTables start = true ∧ atAnchor.control.state ≠ .pass)
    ∧ (∀ st ∈ [BridgeState.pass, .starting, .run], ItsTurn (waits st start .anchorStart) 12 (queued start .anchorStart)
      ∧ (waits st start .anchorStart).cfg.touchesTables start = true ∧ (queued start .anchorStart).mirrors = []) := by
  decide +kernel

/-- An ANCHOR-START write that touches a held descriptor waits for it. -/
theorem test_anchor_start_write_of_a_held_descriptor_waits :
    (chip? (exec (.plainRequest (.offered startBurst)) (on { anchored (live .run) with
      cache := [{ ent 7 (rg 0 1) [] with pin := true }] }))).map (fun b => (b.cache.map (·.held), b.iport.inflight.map (·.phase)))
      = some ([[50]], [.snooping [7]]) := by
  decide +kernel

/-- A write to structures 3 and 4 is held as a whole by the pinned 4 when its turn at 3 comes, which stays held, and when 3 lets
it go; it blocks no fetch of 3 then, and is judged for 4 and then for 3 afterwards. -/
theorem test_table_write_waits_as_a_whole :
    (let t := touching true [{ cleanEnt 3 false with waiting := [.tableWrite 12] }] [cleanEnt 4 true] (.snooping [3, 4])
     ∀ b ∈ [t.2.settle, (touching true [cleanEnt 3 false] [cleanEnt 4 true] (.snooping [3, 4])).2.allow 3 12],
       b.cache.map (fun e => (e.index, e.waiting, e.held)) = [(3, [], []), (4, [], [12])]
         ∧ b.iport.inflight.map (·.phase) = [.snooping [4, 3]] ∧ b.writeOutstanding 3 = false) := by
  decide +kernel

/-- A write to structures 3 and 4 that 3 has let go waits for 4: the operation behind it at 3 is a miss, whose fetch is not
issued before the write has completed. -/
theorem test_fetch_waits_for_a_write_let_go :
    (let t := touching true [{ cleanEnt 3 false with waiting := [.tableWrite 12, .command] }]
       [{ cleanEnt 4 false with waiting := [.command] }] (.snooping [3, 4])
     (t.2.settle.cache.map (fun e => (e.index, e.state, e.waiting))
         = [(3, .fetching false, [.command]), (4, .clean, [.command, .tableWrite 12])]
       ∧ t.2.settle.iport.inflight.map (·.phase) = [.snooping [4]] ∧ t.2.settle.mport.waiting = []
       ∧ t.2.settle.writeOutstanding 3 = true)) := by
  decide +kernel

theorem witness_TapRequestIsDecoded :
    (∀ r ∈ [rq 0x400020E0 .beat4 false [], rq 0x40002100 .beat4 false [], rq 0x400020E4 .beat4 false [],
        { rq 0x400020E0 .beat4 false [] with debug := true }],
      classify .run (live .run).control.settings 2 r = .tap ∧ handedOn (busyPort .run) r = true
      ∧ ItsTurn (waitingPort r .tap) 12 (queued r .tap))
    ∧ (busyPort .run).control.state = .run ∧ (busyPort .run).control.emptying = false
    ∧ (handedOn (emptying (busyPort .run)) (rq 0x400020E0 .beat4 false []) = true
      ∧ (emptying (busyPort .run)).control.state = .run ∧ (emptying (busyPort .run)).control.emptying = true)
    ∧ (live .run).cfg.shapeOk (rq 0x400020E4 .beat4 false []) = false
    ∧ (live .run).cfg.shapeOk (rq 0x40002100 .beat4 false []) = true
    ∧ 8 ≤ (live .run).cfg.apertureOffset (rq 0x40002100 .beat4 false []) / 32
    ∧ (live .run).cfg.shapeOk (rq 0x400020E0 .beat4 false []) = true
    ∧ (live .run).cfg.apertureOffset (rq 0x400020E0 .beat4 false []) / 32 < 8
    ∧ (live .run).control.idleTimer.isSome = true ∧ (live .run).cfg.idleTime ≠ 0 := by
  decide +kernel

/-- The same requests offered in QUIET, and handed on in QUIET and, taken before STOP, in STOPPING. -/
theorem witness_TapRequestIsDecoded_states :
    ∀ r ∈ [rq 0x400020E0 .beat4 false [], rq 0x40002100 .beat4 false [], rq 0x400020E4 .beat4 false []],
      (classify .quiet (live .quiet).control.settings 2 r = .tap ∧ handedOn (busyPort .quiet) r = true
        ∧ (busyPort .quiet).control.state = .quiet)
      ∧ ∀ st ∈ [BridgeState.quiet, .stopping],
        ItsTurn { waitingPort r .tap with control := (live st).control } 12 (queued r .tap) := by
  decide +kernel

/-- A tap taken before STOP goes to the record cache in STOPPING; one in QUIET brings the bridge back to RUN. -/
theorem test_tap_is_decoded_in_stopping_and_quiet :
    ∀ q ∈ [(BridgeState.stopping, BridgeState.stopping), (.quiet, .run)],
      (chip? (exec (.tapRequest (.waiting 12)) (on { waitingPort (rq 0x400020E0 .beat4 false []) .tap with
        control := (live q.1).control }))).map (fun b => (b.control.state, b.cache.map (fun e => (e.index, e.waiting.length))))
        = some (q.2, [(7, 1)]) := by
  decide +kernel

/-- A tap stops a cache that empties itself and restarts the timer, a debug-tagged one too. -/
theorem test_tap_stops_the_emptying :
    ∀ debug ∈ [true, false], (chip? (exec (.tapRequest (.offered { rq 0x400020E0 .beat4 false [] with debug := debug }))
      (on (emptying (busyPort .run))))).map (fun b => (b.control.emptying, b.control.idleTimer)) = some (false, some 500) := by
  decide +kernel

theorem witness_AccessInQuietReturnsToRun :
    (busyPort .quiet).control.state = .quiet ∧ (busyPort .quiet).iport.inflight.length < 32
    ∧ (∀ r ∈ [rq 0x40002000 .beat4 false [], rq 0x100000 .beat4 false [], rq 0x1001FF .beat1 true [1]], r.wf = true)
    ∧ classify .quiet (live .quiet).control.settings 2 (rq 0x40002000 .beat4 false []) = .tap
    ∧ classify .quiet (live .quiet).control.settings 2 (rq 0x100000 .beat4 false []) = .table
    ∧ classify .quiet (live .quiet).control.settings 2 (rq 0x1001FF .beat1 true [1]) = .table
    ∧ (live .quiet).cfg.idleTime ≠ 0 ∧ Settings.idleTime { g0 with idleTime := 0 } = 0
    ∧ (live .quiet).command.state = .idle := by
  decide +kernel

theorem witness_FirstCheckAcceptsExactlyTapWords :
    ((rq 0x40003FF8 .beat4 false []).region.overlaps g0.aperture = true ∧ g0.shapeOk (rq 0x40003FF8 .beat4 false []) = true)
    ∧ ((rq 0x40002008 (.burst 2) false []).region.overlaps g0.aperture = true
      ∧ g0.shapeOk (rq 0x40002008 (.burst 2) false []) = true)
    ∧ ((rq 0x40001FF8 (.burst 2) false []).region.overlaps g0.aperture = true
      ∧ g0.shapeOk (rq 0x40001FF8 (.burst 2) false []) = false)
    ∧ ((rq 0x40002010 .beat8 false []).region.overlaps g0.aperture = true
      ∧ g0.shapeOk (rq 0x40002010 .beat8 false []) = false) := by
  decide +kernel

/-- A forwarded request in flight and at memory. -/
def forwardedOne (r : Request) (c : RequestClass) : Bridge :=
  awaits { live .run with iport := ⟨[⟨9, r, c, .forwarded, []⟩], []⟩ } (.forward 9) r.write r.addr.toNat r.data r.size.bytes

theorem witness_ForwardedAnswerIsReturned :
    (AnswerDue (on (forwardedOne (rq 0x5000 .beat4 false []) .plain)) 9 isForward
        ⟨9, .forward 9, false, 0x5000, [], 4, false⟩
      ∧ (forwardedOne (rq 0x5000 .beat4 false []) .plain).inflight? 9
        = some ⟨9, rq 0x5000 .beat4 false [], .plain, .forwarded, []⟩
      ∧ RequestClass.plain ≠ .anchorStart)
    ∧ AnswerDue (on (forwardedOne (rq 0x20000000 .beat4 true [2, 0, 0, 0]) .anchorStart)) 9 isForward
        ⟨9, .forward 9, true, 0x20000000, [2, 0, 0, 0], 4, false⟩
    ∧ (forwardedOne (rq 0x20000000 .beat4 true [2, 0, 0, 0]) .anchorStart).inflight? 9
        = some ⟨9, rq 0x20000000 .beat4 true [2, 0, 0, 0], .anchorStart, .forwarded, []⟩ := by
  decide +kernel

theorem witness_ForwardedAnswerIsReturned_start_words :
    (∀ v ∈ [(1 : Byte), 0, 3], (rq 0x20000000 .beat4 true [v, 0, 0, 0]).startWord 2 = v.toNat)
    ∧ (rq 0x20000000 .beat4 true [1, 1, 0, 0]).startWord 2 = 257
    ∧ (∀ st ∈ [BridgeState.pass, .stopping, .warm], (live st).control.state = st)
    ∧ (rq 0x1FFFFFF8 (.burst 2) true (List.replicate 16 1)).coversStartWord 2 = true
    ∧ (rq 0x20000000 .beat2 true [1, 0]).coversStartWord 2 = false := by
  decide +kernel

/-- Requests waiting at the M-port: one of each bridge class and forwarded traffic. -/
def wf0 : MemRequest := ⟨1, .forward 1, false, 0, [], 4, false⟩
def wItem : MemRequest := ⟨2, .item 3 false false, false, 0, [], 4, false⟩
def wSpan : MemRequest := ⟨3, .spanRead, false, 0, [], 4, false⟩
def wMust : MemRequest := ⟨4, .writeBack 3 true, true, 0, [], 64, false⟩
def wMirror : MemRequest := ⟨5, .mirror, true, 0, [], 32, false⟩

/-- They wait, the fairness count as given, the dirty count at a must level of 1 or not. -/
def arbiter (w : List MemRequest) (f : Nat) (must : Bool) : Bridge :=
  { live .run with
    mport := ⟨w, [], f⟩
    cache := [{ ent 3 (rg 0 1) [] with state := if must then .writing .must else .clean }]
    control := { (live .run).control with settings := some { g0 with mustLevel := 1, releaseLevel := 0 } } }

theorem witness_ArbiterGrantsInItsOrder :
    ((arbiter [wf0, wMust] 8 true).atMustLevel = true ∧ [wf0, wMust].find? MemRequest.must = some wMust)
    ∧ ((arbiter [wf0, wSpan, wItem] 8 false).atMustLevel = false
      ∧ (arbiter [wf0, wSpan, wItem] 8 false).mport.fairness = 8
      ∧ ∃ k, 1 ≤ k ∧ k ≤ 4 ∧ [wf0, wSpan, wItem].find? (fun x => x.access.bridgeClass == k) = some wItem
        ∧ ∀ j, 1 ≤ j → j < k → [wf0, wSpan, wItem].find? (fun x => x.access.bridgeClass == j) = none)
    ∧ ((arbiter [wSpan, wf0] 7 false).mport.fairness ≠ 8 ∧ [wSpan, wf0].find? MemRequest.forwarded = some wf0)
    ∧ ((∀ x ∈ [wf0], x.forwarded = true) ∧ [wf0].find? MemRequest.forwarded = some wf0)
    ∧ ([wMirror, wMust].find? MemRequest.forwarded = none ∧ (arbiter [wMirror, wMust] 0 false).atMustLevel = false
      ∧ ∃ k, 1 ≤ k ∧ k ≤ 4 ∧ [wMirror, wMust].find? (fun x => x.access.bridgeClass == k) = some wMust
        ∧ ∀ j, 1 ≤ j → j < k → [wMirror, wMust].find? (fun x => x.access.bridgeClass == j) = none)
    ∧ (arbiter [] 0 false).mport.waiting = [] := by
  refine ⟨by decide +kernel, ⟨by decide +kernel, by decide +kernel, 1, by decide, by decide, by decide, fun j h1 h2 => by omega⟩,
    by decide +kernel, by decide +kernel, ⟨by decide +kernel, by decide +kernel, 3, by decide, by decide, by decide, fun j h1 h2 => ?_⟩,
    by decide +kernel⟩
  have : j = 1 ∨ j = 2 := by omega
  rcases this with h | h <;> subst h <;> decide

/-- Anchor bytes 32 to 63, byte by byte. -/
theorem test_mirror_bytes :
    ({ (live .quiet).control with
        startReason := .memory, dropped := 0x1234, firstDropped := some .fault, clearedPending := 64
        lastRefusal := ⟨9, .bounds, 200, 24⟩ }).mirrorBytes
      = [4, 5, 0x34, 0x12, 5, 64, 9, 17, 200, 24] ++ List.replicate 22 0
    ∧ (Control.powerOn 2).mirrorBytes.take 6 = [0, 0, 0, 0, 0xFF, 0] := by
  decide +kernel

/-- A mirror write is at memory while a status read waits for it. -/
def mirrorWaits (p : RequestPhase) : Bridge :=
  awaits { live .run with iport := ⟨[⟨3, rq 0x20000020 .beat4 false [], .plain, p, [9]⟩], []⟩ } .mirror true 0x20000020 [] 32

theorem witness_MirrorAnswerReleasesStatusReads :
    AnswerDue (on (mirrorWaits .mirrorWait)) 9 isMirror ⟨9, .mirror, true, 0x20000020, [], 32, false⟩
    ∧ (mirrorWaits .mirrorWait).iport.inflight = [⟨3, rq 0x20000020 .beat4 false [], .plain, .mirrorWait, [9]⟩]
    ∧ AnswerDue (on (mirrorWaits .forwarded)) 9 isMirror ⟨9, .mirror, true, 0x20000020, [], 32, false⟩
    ∧ (∀ x ∈ (mirrorWaits .forwarded).iport.inflight, x.phase ≠ .mirrorWait)
    ∧ HandlesOk (mirrorWaits .mirrorWait) := by
  decide +kernel

/-- Three status reads of three initiators wait: a TABLE read that also touches the loaded move 1, in a move table next to the
anchor, and a PLAIN one wait for the mirror write 9 alone, and another for a later one too. -/
def mirrorWaitsThree : Bridge :=
  awaits { moving (live .run) .take false (mv 0 0 3 1 0x9000 1) with
    control := { (live .run).control with settings := some { g0 with moveBase := 0x20000040 } }
    iport := ⟨[⟨3, rq 0x20000038 (.burst 8) false [], .table, .mirrorWait, [9]⟩,
      ⟨4, { rq 0x20000020 .beat4 false [] with initiator := 5 }, .plain, .mirrorWait, [9]⟩,
      ⟨5, { rq 0x20000020 .beat4 false [] with initiator := 6 }, .plain, .mirrorWait, [9, 10]⟩], []⟩ } .mirror true 0x20000020 [] 32

theorem witness_MirrorAnswerReleasesStatusReads_several :
    AnswerDue (on mirrorWaitsThree) 9 isMirror ⟨9, .mirror, true, 0x20000020, [], 32, false⟩ ∧ HandlesOk mirrorWaitsThree
    ∧ mirrorWaitsThree.touchesLoaded (rq 0x20000038 (.burst 8) false []) = true
    ∧ (chip? (exec (.statusMirrorWriteDone 9 true) (on mirrorWaitsThree))).map
      (fun b => (b.iport.inflight.map (fun r => (r.phase, r.mirrors)), b.mport.waiting.map (·.access)))
      = some ([(.moveWait [], []), (.forwarded, []), (.mirrorWait, [10])], [.forward 4]) := by
  decide +kernel

/-- The turn of tap `t` for operation `k` on a structure 3 whose working copy is `d`. -/
def turnOf (d : Descriptor) (k : TapKind) (t : Tap) : Bool := decide (TapTurn (tapOn d t) 3 k t (ent 3 d [.tap t]))

/-- The taps of initiator 4, by word. -/
def rd (word : Nat) : Tap := tp word false []
def wr (word : Nat) : Tap := tp word true [1, 0, 0, 0]

theorem witness_PutWritesItemAtTail :
    (turnOf (rg 3 3) .put (wr 0) = true ∧ (rg 3 3).count + 0 < (rg 3 3).cap)
    ∧ (TapTurn (holding { ent 3 (rg 3 2) [.tap (wr 0)] with reservation := true }) 3 .put (wr 0)
        { ent 3 (rg 3 2) [.tap (wr 0)] with reservation := true }
      ∧ (rg 3 2).count + 1 < (rg 3 2).cap) := by
  decide +kernel

theorem witness_PutWithoutRoomFollowsFullPolicy :
    (turnOf (rg 3 4) .put (wr 0) = true ∧ (rg 3 4).cap ≤ (rg 3 4).count + 0 ∧ (rg 3 4).fullPolicy ≠ 1)
    ∧ (TapTurn (holding { ent 3 (rg 3 3) [.tap (wr 0)] with reservation := true }) 3 .put (wr 0)
        { ent 3 (rg 3 3) [.tap (wr 0)] with reservation := true }
      ∧ (rg 3 3).cap ≤ (rg 3 3).count + 1)
    ∧ turnOf { rg 3 4 with fullPolicy := 1, discard := 65535 } .put (wr 0) = true := by
  decide +kernel

theorem witness_EmptyPolicyAnswersOrRefuses :
    turnOf (rg 3 0) .take (rd 0) = true ∧ turnOf (rg 3 0) .peek (rd 8) = true ∧ (rg 3 0).count = 0
    ∧ turnOf { rg 3 0 with emptyPolicy := 1 } .take (rd 0) = true
    ∧ turnOf (sk 0 0 0) .top (rd 8) = true ∧ (sk 0 0 0).depth = 0 := by
  decide +kernel

theorem witness_FieldReadsAreAnsweredAtOnce :
    turnOf (rg 3 4) .level (rd 16) = true ∧ turnOf (sk 8 0 1) .depth (rd 16) = true ∧ turnOf (ty 9 0) .value (rd 8) = true
    ∧ turnOf (ty 9 0) .wraps (rd 16) = true ∧ turnOf (rg 3 4) .status (rd 24) = true
    ∧ turnOf (sk 8 0 1) .status (rd 24) = true ∧ turnOf (ty 9 1) .status (rd 24) = true := by
  decide +kernel

theorem witness_PushWritesAtDepthOrHalts :
    (turnOf (sk 2 0 0) .push (wr 0) = true ∧ (sk 2 0 0).guardOpen = false ∧ (sk 2 0 0).depth < (sk 2 0 0).limit)
    ∧ turnOf (sk 2 0 0) .mark (wr 16) = true
    ∧ (turnOf (sk 7 0 1) .push (wr 0) = true ∧ (sk 7 0 1).guardOpen = true ∧ (sk 7 0 1).depth < (sk 7 0 1).cap)
    ∧ turnOf (sk 7 0 1) .mark (wr 16) = true
    ∧ (turnOf (sk 8 0 1) .push (wr 0) = true ∧ (sk 8 0 1).guardOpen = true ∧ (sk 8 0 1).cap ≤ (sk 8 0 1).depth)
    ∧ turnOf (sk 8 0 1) .mark (wr 16) = true := by
  decide +kernel

theorem witness_OverflowPushBeginsFaultFrame :
    turnOf (sk 3 1 0) .push (wr 0) = true ∧ turnOf (sk 3 1 0) .mark (wr 16) = true ∧ (sk 3 1 0).guardOpen = false
    ∧ (sk 3 1 0).limit ≤ (sk 3 1 0).depth := by
  decide +kernel

theorem witness_TakingOperationsReadTheirItem :
    (turnOf (rg 3 1) .take (rd 0) = true ∧ turnOf (rg 3 1) .peek (rd 8) = true ∧ 0 < (rg 3 1).count)
    ∧ (turnOf (sk 1 0 0) .pop (rd 0) = true ∧ turnOf (sk 1 0 0) .top (rd 8) = true ∧ 0 < (sk 1 0 0).depth
      ∧ (sk 1 0 0).depth ≠ (sk 1 0 0).frame)
    ∧ (turnOf (sk 1 1 0) .top (rd 8) = true ∧ turnOf (sk 1 1 0) .unwind (wr 24) = true ∧ 0 < (sk 1 1 0).frame) := by
  decide +kernel

theorem witness_UnderflowAndFrameBreachesAreRefused :
    (turnOf (sk 0 0 0) .pop (rd 0) = true ∧ (sk 0 0 0).depth = 0)
    ∧ turnOf (sk 0 0 1) .pop (rd 0) = true ∧ turnOf { sk 0 0 0 with emptyPolicy := 1 } .pop (rd 0) = true
    ∧ (turnOf (sk 1 1 0) .pop (rd 0) = true ∧ 0 < (sk 1 1 0).depth ∧ (sk 1 1 0).depth = (sk 1 1 0).frame)
    ∧ (turnOf (sk 1 0 0) .unwind (wr 24) = true ∧ (sk 1 0 0).frame = 0) := by
  decide +kernel

theorem witness_TallyOperationsCompleteAtOnce :
    turnOf (ty 9 0) .next (rd 0) = true ∧ turnOf (ty 9 0) .add (wr 0) = true
    ∧ (turnOf (ty 9 0) .set (tp 8 true [9, 0, 0, 0]) = true ∧ (ty 9 0).lower ≤ 9 ∧ 9 ≤ (ty 9 0).upper
      ∧ (wordAt [9, 0, 0, 0] 0).toInt = 9)
    ∧ (turnOf (ty 9 0) .set (tp 8 true [10, 0, 0, 0]) = true ∧ (ty 9 0).upper < (wordAt [10, 0, 0, 0] 0).toInt)
    ∧ (turnOf (ty 9 0) .set (tp 8 true [0xFF, 0xFF, 0xFF, 0xFF]) = true
      ∧ (wordAt [0xFF, 0xFF, 0xFF, 0xFF] 0).toInt < (ty 9 0).lower) := by
  decide +kernel

theorem witness_TallyModesWrapOrStick :
    (ty 9 0).lower ≤ (ty 9 0).upper ∧ (ty 9 0).stick = false ∧ (0 : Int) ≤ 9 ∧ 9 < (ty 9 0).upper - (ty 9 0).lower + 1
    ∧ (-1 : Int) - (ty 9 0).lower = (-1) * ((ty 9 0).upper - (ty 9 0).lower + 1) + 9
    ∧ (ty 9 1).lower ≤ (ty 9 1).upper ∧ (ty 9 1).stick = true := by
  decide +kernel

/-- A value given to a tally, at the ends of its range and between. -/
theorem test_tally_with_value :
    (∀ v ∈ [(0 : Int), 9], (((ty 5 1).withValue v).value, ((ty 5 1).withValue v).atBound) = (v, true))
    ∧ (((ty 9 1).withValue 5).value, ((ty 9 1).withValue 5).atBound) = (5, false)
    ∧ ((ty 5 0).withValue 9).atBound = false ∧ ((ty 5 0).withValue (-2147483648)).value = -2147483648 := by
  decide +kernel

theorem witness_GateRefusesEveryTapOperation :
    (∀ d ∈ [rg 3 4, { rg 3 4 with state := stHalted, cause := causeMemory }, { rg 3 4 with state := stClosing }],
      (tapOn d (wr 0)).entry? 3 = some (ent 3 d [.tap (wr 0)]) ∧ (ent 3 d [.tap (wr 0)]).ready = true
      ∧ d.fit (wr 0) = some .put)
    ∧ ({ rg 3 4 with producers := 0xFFEF }).fit (wr 0) = some .put
    ∧ ({ rg 3 4 with producers := 0xFFEF }).gate 3 .put 4 = some .denied
    ∧ ({ rg 3 4 with state := stHalted, cause := causeMemory }).gate 3 .put 4 = some .halted
    ∧ ({ rg 3 4 with state := stClosing }).gate 3 .put 4 = some .closed := by
  decide +kernel

theorem witness_TapClassesDecideMasksAndStates :
    selectTap kindRing 0 false true = some .peek ∧ selectTap kindStack 0 false true = some .top
    ∧ selectTap kindTally 0 false true = some .value ∧ selectTap kindTally 24 false true = some .status := by
  decide

/-- The size fits the working copy: the item size, but 4 bytes for a tally, and at the words of a field. -/
theorem test_fit :
    ({ rg 0 1 with itemSize := 16 }).fit (rd 0) = none
    ∧ ({ rg 0 1 with itemSize := 16 }).fit { rd 0 with length := 16 } = some .take
    ∧ ({ rg 0 1 with itemSize := 16 }).fit (rd 16) = some .level ∧ (ty 5 0).fit (rd 8) = some .value
    ∧ (rg 0 1).fit (wr 8) = none ∧ (sk 1 1 0).fit { rd 0 with debug := true } = some .top
    ∧ Descriptor.blank.fit (rd 0) = none := by
  decide +kernel

theorem witness_RingItemAccessCompletes :
    ∀ w ∈ [ItemWork.ringPut, .ringTake, .ringPeek, .abandoned],
      AnswerDue (on (working (rg 3 1) w false (wr 0))) 9 isRingItem
        ⟨9, .item 3 false false, true, 0x1000, [1, 0, 0, 0], 4, false⟩
      ∧ (working (rg 3 1) w false (wr 0)).entry? 3 = some { ent 3 (rg 3 1) [] with busy := some ⟨w, .tap (wr 0)⟩ } := by
  decide +kernel

theorem witness_StackItemAccessCompletes :
    ∀ w ∈ [ItemWork.stackPush, .stackMark, .stackPop, .stackTop, .stackUnwind, .stackOverflow [],
        .stackOverflow [(0x201C, [3, 0, 0, 0])], .abandoned],
      AnswerDue (on (working (sk 3 1 0) w true (wr 0))) 9 isStackItem
        ⟨9, .item 3 true false, true, 0x1000, [1, 0, 0, 0], 4, false⟩
      ∧ (working (sk 3 1 0) w true (wr 0)).entry? 3 = some { ent 3 (sk 3 1 0) [] with busy := some ⟨w, .tap (wr 0)⟩ } := by
  decide +kernel

/-- An access that a warm reset abandoned leaves the working copy as it was. -/
theorem test_abandoned_item_access :
    ∀ ok ∈ [true, false],
      copy? (exec (.ringItemAccessDone 9 ok) (on (working (rg 3 1) .abandoned false (wr 0)))) 3 = some (rg 3 1)
      ∧ copy? (exec (.stackItemAccessDone 9 ok) (on (working (sk 3 1 0) .abandoned true (wr 0)))) 3 = some (sk 3 1 0) := by
  decide +kernel

/-! ### The command unit and the notice writer -/

/-- The command unit taking, structure 0 as given. -/
def commandTaking (d : Descriptor) : Bridge :=
  { holding (ent 0 d [.commandTake]) with command := ⟨.taking, none, .judged, false, false⟩ }

/-- The command unit IDLE and woken. -/
def woken : Bridge := { live .run with command := { CommandUnit.nothing with wake := true } }

theorem witness_CommandUnitTakesTheHeadItem :
    (woken.command.state = .idle ∧ woken.control.state = .run ∧ woken.command.wake = true ∧ ∀ e ∈ woken.cache, e.index ≠ 0)
    ∧ (∀ d ∈ [rg 3 1, rg 3 0, { rg 3 1 with state := stHalted, cause := causeMemory }],
      (commandTaking d).command.state = .taking ∧ (commandTaking d).entry? 0 = some (ent 0 d [.commandTake])
      ∧ (ent 0 d [.commandTake]).ready = true)
    ∧ (rg 3 0).state ≠ stHalted ∧ (rg 3 0).count = 0 ∧ 0 < (rg 3 1).count := by
  decide +kernel

/-- Structure 0 held in a state, with what waits, and the command unit woken. -/
def asking0 (st : EntryState) (ops : List CacheOp) : Bridge :=
  { woken with cache := [{ ring0 1 1 ops with state := st }] }

theorem witness_CommandUnitTakesTheHeadItem_held :
    (∀ st ∈ [EntryState.clean, .dirty, .fetching true], ∀ ops ∈ [[], [CacheOp.release]],
      (asking0 st ops).command.state = .idle ∧ (asking0 st ops).control.state = .run ∧ (asking0 st ops).command.wake = true
      ∧ (asking0 st ops).entry? 0 = some { ring0 1 1 ops with state := st })
    ∧ ({ ring0 1 1 [] with state := .fetching true }).ready = false ∧ (ring0 1 1 []).ready = true
    ∧ CacheOp.release ≠ .commandTake := by
  decide +kernel

/-- A command with operation, structure and move. -/
def ordering (op struct move : Byte) : CommandItem := ⟨op, 1, struct, move, 77⟩

theorem witness_CommandUnitTakesTheHeadItem_judged :
    (live .run).cfg.structureCount = 8 ∧ (live .run).cfg.moveCount = 4
    ∧ 14 < (ordering 15 0 0).op.toNat
    ∧ (∀ op ∈ [(2 : Byte), 9], 2 ≤ op.toNat ∧ op.toNat ≤ 9 ∧ 8 ≤ (ordering op 8 0).struct.toNat
      ∧ ¬ 8 ≤ (ordering op 7 0).struct.toNat)
    ∧ (∀ op ∈ [opTrigger, opStopMove], 4 ≤ (ordering op 0 4).move.toNat ∧ ¬ 4 ≤ (ordering op 0 3).move.toNat
      ∧ ¬ 14 < op.toNat ∧ 9 < op.toNat)
    ∧ ((ordering opAbort 0 0).struct = 0 ∧ (ordering opClose 1 0).struct = 1)
    ∧ (∀ op ∈ [opAbort, opDisarm], 3 ≤ op.toNat ∧ op.toNat ≤ 9 ∧ (ordering op 7 0).struct.toNat = 7)
    ∧ ((holding (ent 7 (rg 0 1) [])).entry? 7).isSome = true ∧ (live .run).entry? 7 = none
    ∧ (opRelease.toNat < 3 ∧ ¬ (2 ≤ opNop.toNat ∧ opNop.toNat ≤ 9))
    ∧ (ordered (live .run) opNop 0 0).command.held = some (ordering opNop 0 0)
    ∧ (ordering opNop 0 0).flags.getLsbD 0 = true ∧ ({ ordering opNop 0 0 with flags := 0 }).flags.getLsbD 0 = false := by
  decide +kernel

/-- A command is judged in the order of R164. -/
theorem test_judge_command :
    (let r (op struct move : Byte) := ((live .run).judgeCommand (ordering op struct move)).notices.queue.map (fun x =>
       (x.kind, x.cause))
     r 15 0 0 = [(.commandRefused, .unknown)] ∧ r opAbort 8 0 = [(.commandRefused, .range)]
       ∧ r opTrigger 0 4 = [(.commandRefused, .invalidMove)] ∧ r opStopMove 0 4 = [(.commandRefused, .range)]
       ∧ r opClose 0 0 = [(.commandRefused, .protectedRing)] ∧ r opAbort 1 0 = [])
    ∧ ((live .run).judgeCommand (ordering opAbort 1 0)).misses = [(1, .command)] := by
  decide +kernel

/-- A command item and a notice record, byte by byte. -/
theorem test_command_item_and_notice_bytes :
    CommandItem.ofBytes [11, 1, 3, 2, 0x34, 0x12, 7, 7] = ⟨opStopMove, 1, 3, 2, 0x1234⟩
    ∧ (⟨.moveFault, .chainLimit, none, some 2, some 4, true, false, 0x1234, 0x89ABCDEF⟩ : Notice).toBytes
      = [7, 45, 0xFF, 2, 4, 1, 0x34, 0x12, 0xEF, 0xCD, 0xAB, 0x89, 0, 0, 0, 0]
    ∧ (⟨.started, .none, some 9, none, none, false, true, 0, 1⟩ : Notice).toBytes
      = [12, 0, 9, 0xFF, 0xFF, 2, 0, 0, 1, 0, 0, 0, 0, 0, 0, 0] := by
  decide +kernel

theorem witness_NoticeWriterPutsTheOldestNotice :
    (∀ d ∈ [rg 0 3, rg 0 4, { rg 0 3 with state := stHalted, cause := causeMemory }],
      (noting d).notices = ⟨[note], true⟩ ∧ (noting d).control.state = .run
      ∧ (noting d).entry? 1 = some (ent 1 d [.noticePut]) ∧ (ent 1 d [.noticePut]).ready = true)
    ∧ (rg 0 3).state ≠ stHalted ∧ (rg 0 3).count < (rg 0 3).cap ∧ (rg 0 4).cap ≤ (rg 0 4).count
    ∧ (live .stopping).control.state = .stopping := by
  decide +kernel

/-- The turn of the command `op` on a structure 3 whose working copy is `d`. -/
def orderTurn (op : Byte) (d : Descriptor) : Bool :=
  decide (CommandTurn (orderOn op d) op 3 ⟨op, 1, 3, 0, 77⟩ (ent 3 d [.command]))

theorem witness_StateCommandsChangeTheWorkingCopy :
    (∀ op ∈ [opOpen, opClose], ∀ d ∈ [rg 0 0, { rg 0 0 with state := stHalted }, { rg 0 0 with state := stClosing },
        { rg 0 0 with state := stClosed }], orderTurn op d = true)
    ∧ (∀ d ∈ [rg 0 0, ty 0 0, { sk 0 0 0 with state := stHalted }, sk 4 0 1, sk 3 0 1], orderTurn opCloseGuard d = true)
    ∧ (sk 4 0 1).limit < (sk 4 0 1).depth ∧ (sk 3 0 1).depth ≤ (sk 3 0 1).limit
    ∧ (∀ d ∈ [rg 0 0, { rg 0 0 with cause := causeUnderflow }, { sk 3 0 0 with cause := causeOverflow }, sk 3 0 1,
        { rg 0 0 with state := stHalted, cause := causeMemory }, { sk 7 0 1 with state := stHalted, cause := causeReserve },
        { sk 8 0 1 with state := stHalted, cause := causeReserve },
        { rg 0 0 with state := stHalted, cause := causeDescriptor },
        { rg 4 0 with state := stHalted, cause := causeDescriptor }], orderTurn opClearFault d = true)
    ∧ (sk 7 0 1).depth < (sk 7 0 1).cap ∧ (sk 8 0 1).cap ≤ (sk 8 0 1).depth
    ∧ (rg 0 0).valid g0 2 3 = true ∧ (rg 4 0).valid g0 2 3 = false := by
  decide +kernel

/-- A command on a working copy of kind OFF is refused OFF. -/
theorem witness_commands_on_a_copy_of_kind_off :
    let off : Descriptor := { rg 0 0 with kind := kindOff }
    ∀ op ∈ [opOpen, opClose, opCloseGuard, opClearFault, opAbort, opArm, opDisarm],
      Holds (orderOn op off) op ⟨op, 1, 3, 0, 77⟩ ∧ (ordering op 3 0).struct.toNat = 3
      ∧ (orderOn op off).entry? 3 = some (ent 3 off [.command]) ∧ (ent 3 off [.command]).ready = true
      ∧ off.kind = kindOff := by
  decide +kernel

theorem test_command_on_a_copy_of_kind_off :
    told? (exec (.cmdArm 3) (on (orderOn opArm { rg 0 0 with kind := kindOff }))) = some [(.commandRefused, .off, 8)] := by
  decide +kernel

theorem witness_AbortAndArmingChangeTheWorkingCopy :
    (∀ op ∈ [opAbort, opArm, opDisarm], ∀ d ∈ [rg 3 4, rg 3 0, sk 8 0 1, ty 9 0,
        { rg 0 0 with state := stHalted, cause := causeDescriptor }], orderTurn op d = true)
    ∧ ¬ ((rg 3 4).state = stHalted ∧ (rg 3 4).cause = causeDescriptor)
    ∧ (rg 3 4).holds = true ∧ (rg 3 4).descriptorHalt = false ∧ (rg 3 0).holds = false := by
  decide +kernel

/-- The engine in a state, move 1 loaded. -/
def loadedIn (st : EngineState) (b : Bridge) : Bridge :=
  { b with engine := { b.engine with state := st, move := some ⟨1, 1, some (mv 0 0 3 1 0x9000 1)⟩ } }

/-- FLUSH under way, the one entry marked or not. -/
def flushing (mark : Bool) : Bridge :=
  let b := ordered (holding { ent 3 (rg 0 1) [] with flushMark := mark }) opFlush 0 0
  { b with command := { b.command with stage := .started } }

theorem witness_OtherCommandsAreCarriedOut :
    (∀ op ∈ [opNop, opFlush, opRelease, opTrigger, opStopMove, opPauseMoves, opResumeMoves],
      Holds (ordered (live .run) op 3 1) op ⟨op, 1, 3, 1, 77⟩ ∧ (ordered (live .run) op 3 1).control.state ≠ .stopping)
    ∧ (∀ op ∈ [opPauseMoves, opResumeMoves],
      Holds (ordered (live .stopping) op 3 1) op ⟨op, 1, 3, 1, 77⟩ ∧ (live .stopping).control.state = .stopping)
    ∧ (ordered (live .run) opRelease 3 1).entry? 3 = none
    ∧ (Holds (ordered (holding (ent 3 (rg 0 1) [])) opRelease 3 1) opRelease ⟨opRelease, 1, 3, 1, 77⟩
      ∧ (ordered (holding (ent 3 (rg 0 1) [])) opRelease 3 1).entry? 3 = some (ent 3 (rg 0 1) []))
    ∧ (∀ st ∈ [EngineState.loading, .running, .storing],
      Holds (loadedIn st (ordered (live .run) opStopMove 3 1)) opStopMove ⟨opStopMove, 1, 3, 1, 77⟩
      ∧ (loadedIn st (ordered (live .run) opStopMove 3 1)).engine.move.map LoadedMove.index = some 1
      ∧ (loadedIn st (ordered (live .run) opStopMove 3 1)).engine.state = st)
    ∧ (ordered (live .run) opStopMove 3 1).engine.move.map LoadedMove.index ≠ some 1
    ∧ (∃ p ∈ [(⟨1, .start .software⟩ : PendingMove)], p.move = 1)
    ∧ (∀ p ∈ (ordered (live .run) opStopMove 3 1).trigger.pending, p.move ≠ 1)
    ∧ (∀ mark ∈ [true, false], let b := flushing mark
      b.command.held = some ⟨opFlush, 1, 0, 0, 77⟩ ∧ b.command.stage = .started ∧ b.cache.map Entry.flushMark = [mark]) := by
  decide +kernel

/-! ### Starting and stopping -/

/-- What a start-word write of `v` is, answered in a state. -/
def startDue (st : BridgeState) (v : Byte) : Bool :=
  let b := startWrite { live st with control := { Control.powerOn 2 with state := st, resetHeld := false } } v
  decide (AnswerDue (on b) 9 isForward ⟨9, .forward 9, true, 0x20000000, [v, 0, 0, 0], 4, false⟩)
    && decide (b.inflight? 9 = some ⟨9, rq 0x20000000 .beat4 true [v, 0, 0, 0], .anchorStart, .forwarded, []⟩)
    && decide (b.control.state = st)

theorem witness_StartBeginsWithTheAnchorRead :
    startDue .pass 1 = true ∧ (rq 0x20000000 .beat4 true [1, 0, 0, 0]).coversStartWord 2 = true
    ∧ (rq 0x20000000 .beat4 true [1, 0, 0, 0]).startWord 2 = 1 := by
  decide +kernel

theorem witness_StopBeginsTheStopSequence :
    (∀ st ∈ [BridgeState.starting, .auditing, .run, .quiet], startDue st 2 = true
      ∧ Holds (ordered (live st) opStop 0 0) opStop ⟨opStop, 1, 0, 0, 77⟩ ∧ (ordered (live st) opStop 0 0).control.state = st)
    ∧ (rq 0x20000000 .beat4 true [2, 0, 0, 0]).coversStartWord 2 = true
    ∧ (rq 0x20000000 .beat4 true [2, 0, 0, 0]).startWord 2 = 2 := by
  decide +kernel

/-- The 32 bytes of an anchor, table base 0x100000, whose checks all pass. -/
def anchorBytes (count must : Byte) : List Byte :=
  [1, 0, 0, 0, 0, 0, 16, 0, 0, 0, 32, 0, 0, 32, 0, 64, count, 0, 4, must, 8, 3, 244, 1, 3, 1, 1, 0, 9, 1, 0, 0]

/-- The machine in STARTING with its anchor read at memory. -/
def anchorWait (bytes : List Byte) : State :=
  { on (awaits { live .starting with control := { (live .starting).control with settings := none } } .anchorRead false
      0x20000000 [] 32) with mem := Memory.writeBytes [] 0x20000000 bytes }

theorem witness_AnchorReadLeadsToPassOrAuditing :
    (∀ bytes ∈ [anchorBytes 8 12, anchorBytes 1 12, anchorBytes 8 8],
      AnswerDue (anchorWait bytes) 9 isAnchorRead ⟨9, .anchorRead, false, 0x20000000, [], 32, false⟩
      ∧ (anchorWait bytes).chip.control.state = .starting)
    ∧ (Settings.ofBytes (Memory.readBytes (anchorWait (anchorBytes 8 12)).mem 0x20000000 32)).startRefusal 2 = none
    ∧ (Settings.ofBytes (Memory.readBytes (anchorWait (anchorBytes 1 12)).mem 0x20000000 32)).startRefusal 2 = some .layout
    ∧ (Settings.ofBytes (Memory.readBytes (anchorWait (anchorBytes 8 8)).mem 0x20000000 32)).startRefusal 2 = some .levels := by
  decide +kernel

/-- Requests that waited in STARTING with no regions known: of the aperture, of a table, of neither. -/
def unclassified (b : Bridge) (c : RequestClass) : Bridge :=
  { b with iport := ⟨[⟨3, rq 0x40002000 .beat4 false [], c, .waiting, []⟩, ⟨4, rq 0x100000 .beat4 false [], c, .waiting, []⟩,
    ⟨5, rq 0x5000 .beat4 false [], c, .waiting, []⟩], []⟩ }

/-- They are classified when the regions become known, when the start is refused, and when the bridge reaches RUN. -/
theorem test_waiting_requests_are_classified :
    (∀ q ∈ [(anchorBytes 8 12, [RequestClass.apertureWait, .tableWait, .plain]), (anchorBytes 1 12, [.plain, .plain, .plain])],
      (chip? (exec (.anchorReadDone 9 true) { anchorWait q.1 with chip := unclassified (anchorWait q.1).chip .unknown })).map
        (fun b => b.iport.inflight.map (·.cls)) = some q.2)
    ∧ ((unclassified (auditing (.move 3)) .unknown).auditNext ⟨.move 3, [], 0, []⟩).iport.inflight.map (·.cls)
        = [.tap, .table, .plain]
    ∧ ((auditing (.move 3)).auditNext ⟨.move 3, [], 0, []⟩).command.wake = true := by
  decide +kernel

/-- The machine in AUDITING with a read or a write of `p` at memory, the descriptor's bytes there. -/
def auditWait (p : AuditPosition) (access : Access) (write : Bool) (addr : Nat) (bytes : List Byte) (k : Nat) : State :=
  { on (awaits (auditing p) access write addr [] k) with mem := Memory.writeBytes [] addr bytes }

/-- A command ring. -/
def ring8 : Descriptor := { rg 0 0 with itemSize := 8, condition := condNone }

theorem witness_AuditJudgesEachDescriptor :
    (∀ q ∈ [(AuditPosition.struct 0, ring8.toBytes), (.struct 0, []), (.struct 1, []), (.struct 2, (rg 0 0).toBytes),
        (.struct 2, (rg 4 0).toBytes), (.struct 2, ({ rg 0 0 with state := stClosing }).toBytes)],
      AnswerDue (auditWait q.1 .auditRead false 0x100000 q.2 64) 9 isAuditRead ⟨9, .auditRead, false, 0x100000, [], 64, false⟩
      ∧ (auditWait q.1 .auditRead false 0x100000 q.2 64).chip.control.audit = some ⟨q.1, [], 0, []⟩
      ∧ (auditWait q.1 .auditRead false 0x100000 q.2 64).chip.control.state = .auditing)
    ∧ (ring8.valid g0 2 0 = true ∧ ring8.state = stOpen) ∧ (Descriptor.ofBytes (List.replicate 64 0)).valid g0 2 0 = false
    ∧ (Descriptor.ofBytes (List.replicate 64 0)).valid g0 2 1 = false
    ∧ (Descriptor.ofBytes (rg 0 0).toBytes = rg 0 0 ∧ (rg 0 0).passes g0 2 2 = true ∧ (rg 0 0).closingAsClosed = rg 0 0)
    ∧ (rg 4 0).passes g0 2 2 = false
    ∧ (({ rg 0 0 with state := stClosing }).passes g0 2 2 = true
      ∧ ({ rg 0 0 with state := stClosing }).closingAsClosed ≠ { rg 0 0 with state := stClosing })
    ∧ (∀ bytes ∈ [(mv 0 1 0x9000 1 0xA000 1).toBytes, (mv 3 1 0x9000 1 0xA000 1).toBytes],
      AnswerDue (auditWait (.move 3) .auditRead false 0x200060 bytes 32) 9 isAuditRead
        ⟨9, .auditRead, false, 0x200060, [], 32, false⟩)
    ∧ (MoveDescriptor.ofBytes (mv 0 1 0x9000 1 0xA000 1).toBytes).loadOk g0 2 = true
    ∧ (MoveDescriptor.ofBytes (mv 3 1 0x9000 1 0xA000 1).toBytes).loadOk g0 2 = false
    ∧ AnswerDue (auditWait (.move 3) .auditWrite true 0x200076 [] 1) 9 isAuditWrite
        ⟨9, .auditWrite, true, 0x200076, [], 1, false⟩ := by
  decide +kernel

/-- The STRUCT ends of a move against what the audit read: a fitting ring, another item size, a tally, one not read, a SPAN. -/
theorem test_audit_ends :
    let a : Audit := ⟨.move 0, [], 0, [(kindRing, 4), (kindRing, 8), (kindTally, 4)]⟩
    [some 0, some 1, some 2, some 3, none].map (Bridge.auditEndFits a 4) = [true, false, false, false, true] := by
  decide

/-- RUN with two findings left and room for one notice. -/
def found : Bridge := { full 7 0 with control := { (full 7 0).control with findings := [4, 6] } }

theorem witness_AuditEndsInRun :
    6 + 1 < (auditing (.struct 6)).cfg.structureCount
    ∧ ((auditing (.struct 7)).cfg.structureCount ≤ 7 + 1 ∧ 0 < (auditing (.struct 7)).cfg.moveCount)
    ∧ 2 + 1 < (auditing (.move 2)).cfg.moveCount ∧ (auditing (.move 3)).cfg.moveCount ≤ 3 + 1
    ∧ Settings.moveCount { g0 with moveCount := 0 } = 0
    ∧ (auditing (.move 3)).notices.queue.length < 8
    ∧ (found.control.findings = 4 :: [6] ∧ found.control.state = .run ∧ found.notices.queue.length < 8) := by
  decide +kernel

/-- A bridge that is at rest. -/
def resting : Bridge := { live .run with command := { CommandUnit.nothing with lastEmpty := true } }

/-- A bridge in STOPPING at a stage, with nothing running. -/
def stoppingAt (st : StopStage) : Bridge :=
  { live .stopping with control := { (live .stopping).control with stopStage := st } }

theorem witness_IdleExpiryAndStopStepsComplete :
    (resting.control.state = .run ∧ resting.control.idleTimer.isSome = true ∧ resting.atRest = true
      ∧ (holding (ent 3 (rg 0 1) [.tap (rd 0)])).atRest = false
      ∧ (holding (ent 3 (rg 0 1) [.tap (rd 0)])).control.idleTimer.isSome = true)
    ∧ ((stoppingAt .finishing).control.stopStage = .finishing ∧ (stoppingAt .finishing).engine.state = .idle
      ∧ (stoppingAt .finishing).engine.move = none ∧ (stoppingAt .finishing).command.state = .idle
      ∧ (stoppingAt .finishing).trigger.completion = none
      ∧ ∀ r ∈ (stoppingAt .finishing).iport.inflight, r.cls ≠ .tap)
    ∧ ((stoppingAt .draining).control.state = .stopping ∧ (stoppingAt .draining).control.stopStage = .draining
      ∧ (stoppingAt .draining).notices.queue = []) := by
  decide +kernel

/-- A cache with one CLEAN entry, empty of work, in a control state. -/
def settledIn (c : Control → Control) : Bridge := { live .run with cache := [cleanEnt 3 false], control := c (live .run).control }

theorem witness_IdleExpiryAndStopStepsComplete_emptied :
    let empties := settledIn (fun c => { c with emptying := true })
    let stops := settledIn (fun c => { c with state := .stopping, stopStage := .emptying })
    let halts := settledIn (fun c => { c with state := .stopping, stopStage := .halting })
    let resets := settledIn (fun c => { c with state := .warm })
    (∀ b ∈ [empties, stops, halts, resets, settledIn id], (b.misses = [] ∧ ∀ e ∈ b.cache, e.state = .clean ∧ e.busy = none
        ∧ e.waiting = []) ∧ b.mport.waiting ++ b.mport.outstanding = [])
    ∧ (empties.control.state = .run ∧ empties.control.emptying = true)
    ∧ (stops.control.state = .stopping ∧ stops.control.stopStage = .emptying)
    ∧ (halts.control.state = .stopping ∧ halts.control.stopStage = .halting) ∧ resets.control.state = .warm
    ∧ ((settledIn id).control.state = .run ∧ (settledIn id).control.emptying = false) := by
  decide +kernel

/-! ### The record cache -/

/-- Structure 3's descriptor being read in a state, its bytes at 0x1000C0. -/
def fetchWait (st : BridgeState) (d : Descriptor) (ops : List CacheOp) : State :=
  { on { fetching ops with control := { (fetching ops).control with state := st } } with
    mem := Memory.writeBytes [] 0x1000C0 d.toBytes }

/-- The bytes 0, 1, 2, … -/
def rising (k : Nat) : List Byte := (List.range k).map (BitVec.ofNat 8)

/-- A descriptor's bytes, each in its field, and written back as they were read. -/
theorem test_descriptor_layouts :
    (rising 64).length = 64 ∧ (Descriptor.ofBytes (rising 64)).toBytes = rising 64
    ∧ (Descriptor.ofBytes (rising 64)).base = 0x0B0A0908 ∧ (Descriptor.ofBytes (rising 64)).valueWord = 0x23222120
    ∧ (rising 32).length = 32 ∧ (MoveDescriptor.ofBytes (rising 32)).toBytes = rising 32
    ∧ (MoveDescriptor.ofBytes (rising 32)).dst = 0x0F0E0D0C := by
  decide +kernel

/-- An OFF descriptor: 0 and 1 fail (log 38); another read CLOSING is taken as CLOSED, DIRTY at a fetch, and the audit writes
CLOSED to its byte 1. -/
theorem test_off_descriptors :
    Descriptor.blank.valid g0 2 0 = false ∧ Descriptor.blank.valid g0 2 1 = false ∧ Descriptor.blank.valid g0 2 2 = true
    ∧ (chip? (exec (.fetchComplete 9 true) (fetchWait .run { Descriptor.blank with state := stClosing } []))).map
      (fun b => b.cache.map (fun e => (e.state, e.copy.state))) = some [(.dirty, stClosed)]
    ∧ (chip? (exec (.auditReadDone 9 true) (auditWait (.struct 2) .auditRead false 0x100000
        ({ Descriptor.blank with state := stClosing }).toBytes 64))).map
      (fun b => b.mport.waiting.map (fun q => (q.access, q.addr, q.data))) = some [(.auditWrite, 0x100081, [stClosed])] := by
  decide +kernel

theorem witness_FetchFillsOrFreesTheEntry :
    (∀ ops ∈ [[], [CacheOp.tap (rd 0)], [.engine .take], [.engine .completion], [.command], [.noticePut]],
      ∀ d ∈ [rg 0 1, rg 4 1], AnswerDue (fetchWait .run d ops) 9 isFetch ⟨9, .fetch 3, false, 0x1000C0, [], 64, false⟩
      ∧ (fetchWait .run d ops).chip.entry? 3 = some { ent 3 Descriptor.blank ops with state := .fetching true })
    ∧ (Descriptor.ofBytes (Memory.readBytes (fetchWait .run (rg 0 1) []).mem 0x1000C0 64)).passes g0 2 3 = true
    ∧ (Descriptor.ofBytes (Memory.readBytes (fetchWait .run (rg 4 1) []).mem 0x1000C0 64)).passes g0 2 3 = false
    ∧ (AnswerDue (fetchWait .warm (rg 0 1) []) 9 isFetch ⟨9, .fetch 3, false, 0x1000C0, [], 64, false⟩
      ∧ (fetchWait .warm (rg 0 1) []).chip.control.state = .warm) := by
  decide +kernel

/-- A descriptor read as marked before, and one read OFF. -/
def marked0 : Descriptor := { rg 0 1 with kind := 7, state := stHalted, cause := causeDescriptor }

/-- A copy whose kind is illegal fails however it was marked: DIRTY, and a FAULT notice. -/
theorem test_fetch_of_a_marked_failing_copy :
    (chip? (exec (.fetchComplete 9 true) (fetchWait .run marked0 []))).map (fun b => (b.cache.map (·.state),
      b.notices.queue.map (fun x => (x.kind, x.cause)))) = some ([.dirty], [(.fault, .descriptor)]) := by
  decide +kernel

theorem witness_FetchFillsOrFreesTheEntry_lists :
    (∀ ops ∈ [[CacheOp.tap (rd 0), .noticePut, .tableRead 7, .release], [.command, .engine .completion, .commandTake]],
      ∀ st ∈ [BridgeState.run, .warm], AnswerDue (fetchWait st (rg 0 1) ops) 9 isFetch
        ⟨9, .fetch 3, false, 0x1000C0, [], 64, false⟩
      ∧ (fetchWait st (rg 0 1) ops).chip.entry? 3 = some { ent 3 Descriptor.blank ops with state := .fetching true }
      ∧ (fetchWait st (rg 0 1) ops).chip.control.state = st)
    ∧ (Descriptor.ofBytes (Memory.readBytes (fetchWait .run marked0 []).mem 0x1000C0 64)).passes g0 2 3 = false
    ∧ (∀ d ∈ [ring8, rg 0 0], d.passes g0 2 0 = decide (d = ring8))
    ∧ Descriptor.passes Descriptor.blank g0 2 3 = true ∧ Descriptor.kind Descriptor.blank ≠ kindRing := by
  decide +kernel

theorem witness_WriteBackCleansReusesOrDrops_lists :
    ∀ r ∈ [WriteBackFor.other, .must, .tableRead, .claim 5], ∀ pin ∈ [true, false],
      ∀ ops ∈ [[CacheOp.tableRead 7], [.tableRead 7, .tap (rd 0), .release], [.tap (rd 0), .tableRead 7]],
      AnswerDue (on (writing r pin ops)) 9 isWriteBack
        ⟨9, .writeBack 3 false, true, 0x1000C0, (rg 0 1).toBytes, 64, false⟩
      ∧ (writing r pin ops).entry? 3 = some { ent 3 (rg 0 1) ops with state := .writing r, pin := pin } := by
  decide +kernel

theorem witness_WriteBackCleansReusesOrDrops :
    ∀ r ∈ [WriteBackFor.other, .must, .tableRead, .claim 5], ∀ pin ∈ [true, false],
      ∀ ops ∈ [[], [CacheOp.tap (rd 0)]],
      AnswerDue (on (writing r pin ops)) 9 isWriteBack
        ⟨9, .writeBack 3 false, true, 0x1000C0, (rg 0 1).toBytes, 64, false⟩
      ∧ (writing r pin ops).entry? 3 = some { ent 3 (rg 0 1) ops with state := .writing r, pin := pin } := by
  decide +kernel

/-- A cache of 16 entries in a state, with one miss. -/
def fullCache (st : EntryState) (pin : Bool) : Bridge :=
  { live .run with
    cache := (List.range 16).map (fun i => { ent (10 + i) (rg 0 1) [] with state := st, pin := pin })
    misses := [(3, .release)] }

/-- A must episode in progress with `k` entries dirty. -/
def dirty (k : Nat) (episode : Bool) : Bridge :=
  { live .run with cache := (List.range k).map (fun i => ent (10 + i) (rg 0 1) []), episode := episode }

theorem witness_CacheServesItsListsByItself :
    ((fullCache .clean false).misses = [] ++ (3, .release) :: [] ∧ (fullCache .clean false).claimed 3 = false
      ∧ 16 ≤ (fullCache .clean false).cache.length)
    ∧ (∃ l r, (fullCache .clean false).cache = l ++ { ent 25 (rg 0 1) [] with state := .clean } :: r
      ∧ ({ ent 25 (rg 0 1) [] with state := .clean }).idle = true ∧ r = [])
    ∧ ((fullCache .dirty false).claimed 3 = false
      ∧ (∀ x ∈ (fullCache .dirty false).cache, (x.idle && x.state == .clean) = false)
      ∧ ∃ l r, (fullCache .dirty false).cache = l ++ ent 25 (rg 0 1) [] :: r ∧ (ent 25 (rg 0 1) []).idle = true ∧ r = [])
    ∧ ((fullCache .dirty true).claimed 3 = false
      ∧ ∀ x ∈ (fullCache .dirty true).cache, (x.idle && x.state == .clean) = false ∧ (x.idle && x.state == .dirty) = false)
    ∧ ({ fullCache .clean false with cache := (fullCache .clean false).cache.tail }).cache.length < 16
    ∧ ((dirty 12 false).control.settings = some g0 ∧ (dirty 12 false).episode = false ∧ g0.mustLevel ≤ (dirty 12 false).dirtyCount)
    ∧ (dirty 11 false).dirtyCount < g0.mustLevel
    ∧ ((dirty 8 true).episode = true ∧ (dirty 8 true).dirtyCount ≤ g0.releaseLevel)
    ∧ (g0.releaseLevel + (dirty 9 true).mustInFlight < (dirty 9 true).dirtyCount
      ∧ ∃ l r, (dirty 9 true).cache = l ++ ent 18 (rg 0 1) [] :: r ∧ (ent 18 (rg 0 1) []).idle = true ∧ r = [])
    ∧ (({ ent 3 (rg 0 1) [] with flushMark := true }).ready = true)
    ∧ (∀ d ∈ [rg 0 1, Descriptor.blank], (ent 3 d [.tap (tp 0 false [])]).ready = true
      ∧ ({ tp 0 false [] with length := 8 } : Tap).length = 8 ∧ d.fit { tp 0 false [] with length := 8 } = none)
    ∧ (∀ op ∈ [CacheOp.tableRead 7, .tableWrite 7, .release], ∀ st ∈ [EntryState.clean, .dirty], ∀ pin ∈ [true, false],
      ({ ent 3 (rg 0 1) [op] with state := st, pin := pin }).ready = true
      ∧ ({ ent 3 (rg 0 1) [op] with state := st, pin := pin }).flushMark = false) := by
  refine ⟨by decide +kernel, ⟨(fullCache .clean false).cache.dropLast, [], by decide +kernel⟩,
    ⟨by decide +kernel, by decide +kernel, (fullCache .dirty false).cache.dropLast, [], by decide +kernel⟩, by decide +kernel,
    by decide +kernel, by decide +kernel, by decide +kernel, by decide +kernel,
    ⟨by decide +kernel, (dirty 9 true).cache.dropLast, [], by decide +kernel⟩, by decide +kernel, by decide +kernel,
    by decide +kernel⟩

theorem witness_CacheServesItsListsByItself_writes :
    ∀ st ∈ [EntryState.clean, .dirty], ∀ pin ∈ [true, false], ∀ other ∈ [true, false],
      let e := { ent 3 (rg 0 1) [.tableWrite 12] with state := st, pin := pin }
      let t := touching true [e] [cleanEnt 4 other] (.snooping [3, 4])
      e.ready = true ∧ t.2.inflight? 12 = some t.1 ∧ t.1.request.write = true
        ∧ t.2.cfg.touchedStructures t.1.request = [3] ++ 4 :: [] ∧ t.2.entry? 3 = some e
        ∧ t.2.entry? 4 = some (cleanEnt 4 other) ∧ (cleanEnt 4 other).pin = other := by
  decide +kernel

/-- Structure 3 to be fetched, with a TABLE write to it forwarded or not. -/
def toFetch (p : RequestPhase) : Bridge :=
  { live .run with
    cache := [{ ent 3 Descriptor.blank [] with state := .fetching false }]
    iport := ⟨[⟨12, rq 0x1000C0 .beat1 true [1], .table, p, []⟩], []⟩ }

/-- Structure 3 pinned behind an operation of the engine, a TABLE write to it in its waiting list. -/
def heldBack : Bridge :=
  { holding { ent 3 (rg 0 1) [.engine .take, .tableWrite 12] with pin := true } with
    iport := ⟨[queued (rq 0x1000C0 .beat1 true [1]) .table], []⟩ }

theorem witness_CacheServesItsListsByItself_own :
    (∀ p ∈ [RequestPhase.forwarded, .snooping [3], .snooping [4]], (toFetch p).cache = [{ ent 3 Descriptor.blank [] with state := .fetching false }]
      ∧ (toFetch p).iport.inflight = [⟨12, rq 0x1000C0 .beat1 true [1], .table, p, []⟩])
    ∧ 3 ∈ (toFetch .forwarded).cfg.touchedStructures (rq 0x1000C0 .beat1 true [1])
    ∧ (∀ e ∈ heldBack.cache, heldBack.frontTurn e = none ∧ e.pin = true
      ∧ e.waiting = [.engine .take] ++ .tableWrite 12 :: [] ∧ (heldBack.inflight? 12).any (·.request.write) = true)
    ∧ (settledIn (fun c => { c with emptying := true })).control.emptying = true
    ∧ (holding (ent 3 (rg 0 1) [.release])).turns (holding (ent 3 (rg 0 1) [.release])).cache.reverse ≠ none
    ∧ ((∀ e ∈ (fullCache .clean false).cache, (fullCache .clean false).turn e = none)
      ∧ (fullCache .clean false).serveMiss.isSome = true)
    ∧ ((∀ e ∈ (dirty 12 false).cache, (dirty 12 false).turn e = none) ∧ (dirty 12 false).serveMiss = none
      ∧ (dirty 12 false).mustStep.isSome = true)
    ∧ ((∀ e ∈ (flushing false).cache, (flushing false).turn e = none) ∧ (flushing false).serveMiss = none
      ∧ (flushing false).mustStep = none ∧ (flushing false).flushStep.isSome = true)
    ∧ ((∀ e ∈ (live .run).cache, (live .run).turn e = none) ∧ (live .run).serveMiss = none ∧ (live .run).mustStep = none
      ∧ (live .run).flushStep = none) := by
  decide +kernel

/-- The fetch waits for a forwarded TABLE write, and for none that waits for this descriptor. -/
theorem test_fetch_waits_for_a_forwarded_write :
    (toFetch .forwarded).settle.mport.waiting = [] ∧ (toFetch (.snooping [3])).settle.mport.waiting.map (·.access) = [.fetch 3]
    ∧ heldBack.settle.cache.map (fun e => (e.waiting, e.held)) = [([.engine .take], [12])] := by
  decide +kernel

/-! ### Moves -/

/-- The engine waits for the descriptor of move 1, its bytes at 0x200020. -/
def loadWait (d : MoveDescriptor) : State :=
  { on (awaits (moving (live .run) .readDescriptor false (mv 0 0 0 0 0 0)) .moveRead false 0x200020 [] 32) with
    mem := Memory.writeBytes [] 0x200020 d.toBytes }

/-- What the engine then reads. -/
def loadRead (d : MoveDescriptor) : MoveDescriptor :=
  MoveDescriptor.ofBytes (Memory.readBytes (loadWait d).mem 0x200020 32)

/-- One move pending. -/
def posted (p : PendingMove) : Bridge := { live .run with trigger := ⟨[p], none, none, none⟩ }

theorem witness_RunsLoadAndPin :
    (∀ p ∈ [(⟨3, .start .software⟩ : PendingMove), ⟨0, .link ⟨.structure 3, 2, some 5, 64⟩⟩],
      (posted p).control.state = .run ∧ (posted p).engine.state = .idle
      ∧ (posted p).trigger = ⟨p :: [], none, none, none⟩)
    ∧ (∀ d ∈ [mv 3 0 3 0 2 1, mv 0 0 7 0 2 1, mv 0 1 0x9000 0 2 1, mv 0 1 0x9000 1 0xA000 1],
      AnswerDue (loadWait d) 9 isMoveRead ⟨9, .moveRead, false, 0x200020, [], 32, false⟩
      ∧ (loadWait d).chip.engine.step = .readDescriptor ∧ (loadWait d).chip.engine.move.isSome = true)
    ∧ (loadRead (mv 3 0 3 0 2 1)).loadOk g0 2 = false
    ∧ ((loadRead (mv 0 0 7 0 2 1)).loadOk g0 2 = true ∧ (loadRead (mv 0 0 7 0 2 1)).srcStruct = some 7)
    ∧ ((loadRead (mv 0 1 0x9000 0 2 1)).loadOk g0 2 = true ∧ (loadRead (mv 0 1 0x9000 0 2 1)).srcStruct = none
      ∧ (loadRead (mv 0 1 0x9000 0 2 1)).dstStruct = some 2)
    ∧ ((loadRead (mv 0 1 0x9000 1 0xA000 1)).loadOk g0 2 = true ∧ (loadRead (mv 0 1 0x9000 1 0xA000 1)).dstStruct = none)
    ∧ (loadWait (mv 0 1 0x9000 1 0xA000 1)).chip.iport.inflight = []
    ∧ (∀ d ∈ [rg 0 1, { rg 0 1 with itemSize := 8 }, ty 0 0],
      ∀ m ∈ [mv 0 0 3 0 2 1, mv 0 0 3 0 3 1, mv 0 0 3 1 0x9000 1],
        EngineTurn (engineOn d .pin .pinSource m) 3 .pin (ent 3 d [.engine .pin])
        ∧ (engineOn d .pin .pinSource m).engine.asked = true ∧ (engineOn d .pin .pinSource m).moveCopy.srcStruct = some 3)
    ∧ ((mv 0 0 3 0 2 1).dstStruct = some 2 ∧ (mv 0 0 3 0 3 1).dstStruct = some 3 ∧ (mv 0 0 3 1 0x9000 1).dstStruct = none)
    ∧ (EngineTurn (engineOn (rg 0 1) .pin .pinDestination (mv 0 1 0x9000 0 3 1)) 3 .pin (ent 3 (rg 0 1) [.engine .pin])
      ∧ (engineOn (rg 0 1) .pin .pinDestination (mv 0 1 0x9000 0 3 1)).moveCopy.dstStruct = some 3)
    ∧ ((rg 0 1).kind ≠ kindOff ∧ (rg 0 1).kind ≠ kindTally ∧ (rg 0 1).itemSize = (mv 0 0 3 0 2 1).itemSize) := by
  decide +kernel

theorem witness_ReservationStepJudgesTheDestination :
    (∀ d ∈ [{ rg 0 1 with state := stHalted }, { rg 0 1 with state := stClosing }, { rg 0 1 with state := stClosed },
        rg 0 3, rg 0 4, { rg 0 4 with fullPolicy := 1 }, sk 3 0 0, sk 7 0 1, sk 8 0 1],
      EngineTurn (engineOn d .reserve .reserve (mv 0 1 0x9000 0 3 1)) 3 .reserve (ent 3 d [.engine .reserve])
      ∧ (engineOn d .reserve .reserve (mv 0 1 0x9000 0 3 1)).engine.asked = true
      ∧ (engineOn d .reserve .reserve (mv 0 1 0x9000 0 3 1)).moveCopy.dstStruct = some 3)
    ∧ ((rg 0 3).count + 0 < (rg 0 3).cap ∧ (rg 0 4).cap ≤ (rg 0 4).count + 0 ∧ (rg 0 4).fullPolicy = 0)
    ∧ ((sk 3 0 0).b38 = 0 ∧ (sk 7 0 1).b38 = 1 ∧ (sk 7 0 1).depth < (sk 7 0 1).cap ∧ (sk 8 0 1).depth = (sk 8 0 1).cap)
    ∧ ((live .run).engine.stopRequest = none ∧ (mv 0 1 0x9000 1 0xA000 1).dstStruct = none
      ∧ (mv 0 1 0x9000 1 0xA000 1).spansOk g0 2 = true) := by
  decide +kernel

/-- The engine about to put its transit item, disposed of as given. -/
def putting (d : Descriptor) (x : Disposal) (m : MoveDescriptor) : Bridge :=
  { engineOn d .put .put m with
    engine := { (engineOn d .put .put m).engine with disposal := some x, transit := some [1, 2, 3, 4] } }

/-- The engine's span access at memory. -/
def spanning (st : EngineStep) (a : Access) (write : Bool) : Bridge :=
  awaits (moving (live .run) st false (mv 0 1 0x9000 1 0xA000 1)) a write 0x9000 [1, 2, 3, 4] 4

theorem witness_ItemsAreTakenAndPut :
    (∀ d ∈ [{ rg 0 1 with state := stHalted }, rg 0 0, rg 3 1, sk 0 0 0, sk 1 1 0, sk 1 0 0], ∀ mode ∈ [(0 : Byte), 1],
      EngineTurn (engineOn d .take .take (mv mode 0 3 1 0x9000 1)) 3 .take (ent 3 d [.engine .take])
      ∧ (engineOn d .take .take (mv mode 0 3 1 0x9000 1)).moveCopy.srcStruct = some 3)
    ∧ ((sk 0 0 0).depth = 0 ∧ (sk 1 1 0).depth = (sk 1 1 0).frame ∧ (sk 1 0 0).depth ≠ (sk 1 0 0).frame)
    ∧ ((moving (live .run) .take false (mv 0 1 0x9000 1 0xA000 1)).engine.step = .take
      ∧ (moving (live .run) .take false (mv 0 1 0x9000 1 0xA000 1)).moveCopy.srcStruct = none)
    ∧ (∀ d ∈ [{ rg 0 1 with state := stHalted }, rg 3 3, sk 2 0 0, sk 3 0 0, sk 7 0 1, sk 8 0 1], ∀ x ∈ [Disposal.reserved, .drop],
      EngineTurn (putting d x (mv 0 1 0x9000 0 3 1)) 3 .put (ent 3 d [.engine .put])
      ∧ (putting d x (mv 0 1 0x9000 0 3 1)).engine.asked = true ∧ (putting d x (mv 0 1 0x9000 0 3 1)).engine.disposal = some x
      ∧ (putting d x (mv 0 1 0x9000 0 3 1)).moveCopy.dstStruct = some 3)
    ∧ ((sk 2 0 0).depth < (sk 2 0 0).limit ∧ (sk 3 0 0).limit ≤ (sk 3 0 0).depth ∧ (sk 7 0 1).depth < (sk 7 0 1).cap
      ∧ (sk 8 0 1).cap ≤ (sk 8 0 1).depth)
    ∧ (putting (rg 0 1) .write (mv 0 1 0x9000 1 0xA000 1)).engine.disposal = some .write
    ∧ (AnswerDue (on (spanning .spanRead .spanRead false)) 9 isSpanRead ⟨9, .spanRead, false, 0x9000, [1, 2, 3, 4], 4, false⟩
      ∧ (spanning .spanRead .spanRead false).engine.step = .spanRead)
    ∧ (AnswerDue (on (spanning .spanWrite .spanWrite true)) 9 isSpanWrite
        ⟨9, .spanWrite, true, 0x9000, [1, 2, 3, 4], 4, false⟩
      ∧ (spanning .spanWrite .spanWrite true).engine.step = .spanWrite) := by
  decide +kernel

theorem witness_OperationsWaitTheirTurn :
    (∀ st ∈ [EngineStep.pinSource, .take], (moving (live .run) st false (mv 0 0 3 1 0x9000 1)).engine.asked = false
      ∧ (moving (live .run) st false (mv 0 0 3 1 0x9000 1)).moveCopy.srcStruct = some 3)
    ∧ (∀ st ∈ [EngineStep.pinDestination, .reserve, .put],
      (moving (live .run) st false (mv 0 1 0x9000 0 3 1)).moveCopy.dstStruct = some 3)
    ∧ (moving (live .run) .take false (mv 0 0 3 1 0x9000 1)).entry? 3 = none
    ∧ (moving (holding (ent 3 (rg 0 1) [.release])) .take false (mv 0 0 3 1 0x9000 1)).entry? 3 = some (ent 3 (rg 0 1) [.release])
    ∧ (moving (holding (ent 3 (rg 0 1) [])) .take false (mv 0 0 3 1 0x9000 1)).entry? 3 = some (ent 3 (rg 0 1) [])
    ∧ ((ent 3 (rg 0 1) []).ready = true ∧ ({ ent 3 (rg 0 1) [] with state := .fetching true }).ready = false)
    ∧ ({ live .run with trigger := ⟨[], none, none, some ⟨3, 1, some 0, false⟩⟩ }).trigger.completion
        = some ⟨3, 1, some 0, false⟩
    ∧ (({ live .stopping with notices := ⟨[note], false⟩ }).notices = ⟨[note], false⟩
      ∧ ({ live .stopping with notices := ⟨[note], false⟩ }).control.state = .stopping) := by
  decide +kernel

theorem witness_RunsSpendTheirCountAndAreStored :
    (∀ m ∈ [mv 0 1 0x9000 1 0xA000 0, mv 0 1 0x9000 0 3 1, mv 1 0 3 1 0xA000 1, mv 1 0 3 1 0xA000 2, mv 2 1 0x9000 1 0xA000 1,
        mv 0 1 0x9001 1 0xA000 1],
      (moving (live .run) .put false m).engine.move = some ⟨1, 1, some m⟩)
    ∧ ((mv 0 1 0x9000 1 0xA000 0).count = 0 ∧ (mv 0 1 0x9000 1 0xA000 1).count ≠ 0)
    ∧ ((moving (live .run) .put false (mv 0 0 3 0 2 1)).engine.stopRequest = none
      ∧ ({ live .run with engine := { (live .run).engine with stopRequest := some 77 } }).engine.stopRequest.isSome = true)
    ∧ (spanOk g0 2 4 0x9000 = true ∧ spanOk g0 2 4 0x9001 = false ∧ spanOk g0 2 4 0x100000 = false)
    ∧ ((mv 1 0 3 1 0xA000 1).count = 1 ∧ (mv 1 0 3 1 0xA000 2).count ≠ 1)
    ∧ (0 + 1 < (mv 2 1 0x9000 1 0xA000 1).blockLength.toNat ∧ (mv 2 1 0x9000 1 0xA000 1).blockLength.toNat ≤ 1 + 1) := by
  decide +kernel

/-- The store-back at memory, with the pins of the run. -/
def storing (pins : List Nat) : Bridge :=
  let b := awaits (moving (holding (ent 3 (rg 0 1) [])) .store false (mv 0 0 3 1 0x9000 0)) .storeBack true 0x200020 [] 32
  { b with engine := { b.engine with pins := pins } }

/-- The engine's release of structure 3, structure 2 still pinned. -/
def releasingTwo : Bridge :=
  { releasing (rg 0 1) with
    cache := [ent 3 (rg 0 1) [.engine .release], ent 2 (rg 0 1) []]
    engine := { (releasing (rg 0 1)).engine with pins := [3, 2] } }

/-- A move of spans with the flags as given, its link to move 3. -/
def linked (flags : Byte) : MoveDescriptor := { mv 0 1 0x9000 1 0xA000 0 with flags := flags, linkIndex := 3 }

theorem witness_RunsAreReportedAndCompleted_stored :
    (∀ pins ∈ [[], [3]], AnswerDue (on (storing pins)) 9 isStoreBack ⟨9, .storeBack, true, 0x200020, [], 32, false⟩
      ∧ (storing pins).engine.step = .store ∧ (storing pins).engine.pins = pins
      ∧ (storing pins).entry? 3 = some (ent 3 (rg 0 1) [])
      ∧ (storing pins).iport.inflight.map InFlight.phase = [.tapped]) := by
  decide +kernel

/-- The engine about to report a run whose descriptor read failed. -/
def reportingUnread : Bridge :=
  let b := reporting .memory (mv 0 1 0x9000 1 0xA000 0)
  { b with engine := { b.engine with move := some ⟨1, 1, none⟩ } }

/-- A TABLE write that waits for the loaded move 1, at a step whose answer is due. -/
def moveWaits (st : EngineStep) (a : Access) (write : Bool) : Bridge :=
  { awaits (moving (live .run) st false (mv 0 1 0x9000 1 0xA000 0)) a write 0x200020 [] 32 with
    iport := ⟨[⟨12, rq 0x200020 .beat1 true [1], .table, .moveWait [], []⟩], []⟩ }

theorem test_table_write_goes_on_after_the_store_back :
    asks? (exec (.storeBackDone 9 true) (on (moveWaits .store .storeBack true))) = some (.forward 12, true, 0x200020, [1], 1) := by
  decide +kernel
theorem test_table_write_goes_on_after_a_failed_read :
    asks? (exec (.moveDescriptorReadDone 9 false) (on (moveWaits .readDescriptor .moveRead false)))
    = some (.forward 12, true, 0x200020, [1], 1) := by
  decide +kernel

theorem witness_RunsAreReportedAndCompleted_waited :
    (AnswerDue (on (moveWaits .store .storeBack true)) 9 isStoreBack ⟨9, .storeBack, true, 0x200020, [], 32, false⟩
      ∧ (moveWaits .store .storeBack true).engine.step = .store ∧ (moveWaits .store .storeBack true).engine.pins = [])
    ∧ (AnswerDue (on (moveWaits .readDescriptor .moveRead false)) 9 isMoveRead ⟨9, .moveRead, false, 0x200020, [], 32, false⟩
      ∧ (moveWaits .readDescriptor .moveRead false).engine.step = .readDescriptor)
    ∧ (let e := (reportingUnread).engine
      e.step = .report ∧ e.move = some ⟨1, 1, none⟩ ∧ e.ending = some ⟨.memory, false, none, 0⟩ ∧ e.storeFailed = false
      ∧ (reportingUnread).trigger.chain = some ⟨.structure 3, 1, none, 1⟩) := by
  decide +kernel

theorem witness_RunsAreReportedAndCompleted_released :
    (∀ d ∈ [rg 0 1, { rg 0 1 with state := stClosing }],
      EngineTurn (releasing d) 3 .release (ent 3 d [.engine .release]) ∧ (releasing d).engine.step = .release
      ∧ (releasing d).engine.pins = [3])
    ∧ (releasingTwo.engine.pins = [3, 2] ∧ EngineTurn releasingTwo 3 .release (ent 3 (rg 0 1) [.engine .release])
      ∧ releasingTwo.engine.step = .release ∧ releasingTwo.entry? 2 = some (ent 2 (rg 0 1) []) ∧ (2 : Nat) ≠ 3) := by
  decide +kernel

theorem witness_RunsAreReportedAndCompleted_reported :
    (∀ code ∈ [RunEnd.ok, .destFull, .stopped], ∀ flags ∈ [(0 : Byte), 2, 6],
      (reporting code (linked flags)).engine.step = .report
      ∧ (reporting code (linked flags)).engine.move = some ⟨1, 1, some (linked flags)⟩
      ∧ (reporting code (linked flags)).engine.ending = some ⟨code, false, none, 0⟩
      ∧ (reporting code (linked flags)).trigger = ⟨[], some ⟨.structure 3, 1, none, 1⟩, none, none⟩
      ∧ (linked flags).linkEnable = (flags != 0))
    ∧ (∃ p ∈ [(⟨3, .start .software⟩ : PendingMove)], p.move = 3) := by
  decide +kernel

/-- A ring armed, without WATERMARK notices. -/
def armedRing (count : Half) : Descriptor := { rg 0 count with flags := 0x11 }

theorem witness_RunsAreReportedAndCompleted_completion :
    (∀ d ∈ [rg 0 2, armedRing 2, armedRing 1, ty 0 0], (completing d 0).trigger.completion = some ⟨3, 1, some 0, true⟩
      ∧ EngineTurn (completing d 0) 3 .completion (ent 3 d [.engine .completion]))
    ∧ (completing (armedRing 2) 1).trigger.completion = some ⟨3, 1, some 1, true⟩
    ∧ (rg 0 2).armed = false ∧ (armedRing 2).armed = true ∧ (armedRing 2).holds = true ∧ (armedRing 1).holds = false := by
  decide +kernel

end Sys2Proof.Tests
end

