-- ==== Sys2Proof/Proofs/TapAperture.lean ====
section
/-! The tap decoder and the first, third, fourth and fifth checks of a tap (R23 to R32, R38): one lemma for each function of the
model, and the statements about them. -/

namespace Sys2Proof.Machine

/-! ## The first check (R28) -/

/-- The sizes that some tap word takes at a byte offset (R24, R28). -/
def TapForm (size : Size) (off : Nat) : Prop :=
  (size = .beat4 ∧ (off = 0 ∨ off = 8 ∨ off = 16 ∨ off = 24)) ∨ ((size = .beat8 ∨ size = .burst 2) ∧ (off = 0 ∨ off = 8))

/-- The first address of the 32 bytes of the structure decoded for a request (R23). -/
def Settings.ownBase (g : Settings) (r : Request) : Nat := g.apertureBase + g.apertureOffset r / 32 * 32

theorem shapeOk_iff (g : Settings) (r : Request) :
    g.shapeOk r = true ↔ TapForm r.size (g.apertureOffset r % 32) ∧ ¬ (r.debug = true ∧ r.write = true)
      ∧ g.ownBase r ≤ r.addr.toNat ∧ r.addr.toNat + r.size.bytes ≤ g.ownBase r + 32 := by
  have untagged : (!(r.debug && r.write)) = true ↔ ¬ (r.debug = true ∧ r.write = true) := by
    rw [Bool.not_eq_true', ← Bool.not_eq_true, Bool.and_eq_true]
  have tap_word {off : Nat} (low : off = 0 ∨ off = 8) : off = 0 ∨ off = 8 ∨ off = 16 ∨ off = 24 := by omega
  unfold Settings.shapeOk TapForm Settings.ownBase
  cases r.size <;>
    simp only [Bool.and_eq_true, Bool.or_eq_true, beq_iff_eq, decide_eq_true_eq, untagged, or_assoc, and_assoc,
      reduceCtorEq, Size.burst.injEq, Bool.false_eq_true, true_and, false_and, and_false, or_false, false_or]
  case beat8 => exact and_iff_right_of_imp (fun h => tap_word h.1)
  case burst => exact and_iff_right_of_imp (fun h => tap_word h.2.1)

/-- The 32 bytes decoded for a request that touches the aperture lie in the aperture: all 256 indexes are decoded (R23). -/
theorem ownBase_within_aperture {g : Settings} {r : Request} (h : r.region.overlaps g.aperture = true) :
    g.apertureBase ≤ g.ownBase r ∧ g.ownBase r + 32 ≤ g.apertureBase + 8192 := by
  obtain ⟨byte, request_from, -, -, aperture_to⟩ := (Region.overlaps_meet _ _).mp h
  have begins : r.addr.toNat < g.apertureBase + 8192 := Nat.lt_of_le_of_lt request_from aperture_to
  unfold Settings.ownBase Settings.apertureOffset
  omega

/-- A request that fails the first check is refused at the decoder (R27, R28). -/
theorem Bridge.decode_of_shapeOk_false {b : Bridge} {x : InFlight} (h : b.cfg.shapeOk x.request = false) :
    b.decode x = (if x.request.debug then b.noteAccess .tap else (b.noteAccess .tap).activity).refuseTap
      (b.cfg.decodeTap x.id x.request) .shape :=
  if_pos h

/-- Settles O23. The decoded 32 bytes lie in the aperture, so that the check of R28 against the whole aperture adds nothing to
the model's check against them. -/
theorem firstCheckAcceptsExactlyTapWords : Obligations.FirstCheckAcceptsExactlyTapWords := by
  intro b x g r own off passes noted touches
  obtain ⟨from_base, to_end⟩ := ownBase_within_aperture touches
  have accepts : g.shapeOk r = true ↔ passes := by
    rw [shapeOk_iff]
    constructor
    · rintro ⟨form, tagged, above, below⟩
      exact ⟨form, tagged, Nat.le_trans from_base above, Nat.le_trans below to_end, above, below⟩
    · rintro ⟨form, tagged, -, -, above, below⟩
      exact ⟨form, tagged, above, below⟩
  refine ⟨accepts, fun fails => Bridge.decode_of_shapeOk_false ?_⟩
  exact Bool.eq_false_iff.mpr (fun ok => fails (accepts.mp ok))

/-! ## The operation a tap selects (R24, R38) -/

/-- The operations of R24: kind, tap word, direction and operation, without the combinations marked with a dash. -/
def tapTable : List (Byte × Nat × Bool × TapKind) :=
  [(1, 0, false, .take), (1, 0, true, .put), (1, 8, false, .peek), (1, 16, false, .level), (1, 24, false, .status),
   (2, 0, false, .pop), (2, 0, true, .push), (2, 8, false, .top), (2, 16, false, .depth), (2, 16, true, .mark),
   (2, 24, false, .status), (2, 24, true, .unwind),
   (3, 0, false, .next), (3, 0, true, .add), (3, 8, false, .value), (3, 8, true, .set), (3, 16, false, .wraps),
   (3, 24, false, .status)]

theorem ringTap_eq_some_iff (word : Nat) (write : Bool) (k : TapKind) :
    ringTap word write = some k ↔ (kindRing, word, write, k) ∈ tapTable := by
  unfold ringTap
  split <;> simp_all [tapTable, kindRing, eq_comm]

theorem stackTap_eq_some_iff (word : Nat) (write : Bool) (k : TapKind) :
    stackTap word write = some k ↔ (kindStack, word, write, k) ∈ tapTable := by
  unfold stackTap
  split <;> simp_all [tapTable, kindStack, eq_comm]

theorem tallyTap_eq_some_iff (word : Nat) (write : Bool) (k : TapKind) :
    tallyTap word write = some k ↔ (kindTally, word, write, k) ∈ tapTable := by
  unfold tallyTap
  split <;> simp_all [tapTable, kindTally, eq_comm]

/-- A kind that is no kind of the table, OFF among them, selects nothing (R24). -/
theorem kind_of_mem_tapTable {kind : Byte} {word : Nat} {write : Bool} {k : TapKind}
    (h : (kind, word, write, k) ∈ tapTable) : kind = kindRing ∨ kind = kindStack ∨ kind = kindTally :=
  (by decide : ∀ e ∈ tapTable, e.1 = kindRing ∨ e.1 = kindStack ∨ e.1 = kindTally) _ h

theorem selectTap_eq_some_iff (kind : Byte) (word : Nat) (write : Bool) (k : TapKind) :
    selectTap kind word write false = some k ↔ (kind, word, write, k) ∈ tapTable := by
  by_cases ring : kind = kindRing
  · subst ring
    exact ringTap_eq_some_iff word write k
  by_cases stack : kind = kindStack
  · subst stack
    exact stackTap_eq_some_iff word write k
  by_cases tally : kind = kindTally
  · subst tally
    exact tallyTap_eq_some_iff word write k
  · have none_selected : selectTap kind word write false = none := by simp [selectTap, ring, stack, tally]
    rw [none_selected]
    exact iff_of_false nofun (fun h => by rcases kind_of_mem_tapTable h with h | h | h <;> contradiction)

/-- A debug tag turns the selected operation into the one that observes (R38). -/
theorem selectTap_debug (kind : Byte) (word : Nat) (write : Bool) :
    selectTap kind word write true = (selectTap kind word write false).map TapKind.observing := rfl

theorem selectTap_debug_eq_some_iff (kind : Byte) (word : Nat) (write : Bool) (k : TapKind) :
    selectTap kind word write true = some k ↔ ∃ j, (kind, word, write, j) ∈ tapTable ∧ j.observing = k := by
  simp only [selectTap_debug, Option.map_eq_some_iff, selectTap_eq_some_iff]

/-- Only the reads of tap word 0 have a debug-tagged form of their own (R38). -/
theorem observing_of_mem_tapTable {kind : Byte} {word : Nat} {write : Bool} {k : TapKind}
    (h : (kind, word, write, k) ∈ tapTable) (other : word ≠ 0 ∨ write = true) : k.observing = k :=
  (by decide : ∀ e ∈ tapTable, e.2.1 ≠ 0 ∨ e.2.2.1 = true → e.2.2.2.observing = e.2.2.2) _ h other

theorem selectTap_debug_of_not_word_zero_read {kind : Byte} {word : Nat} {write : Bool}
    (other : word ≠ 0 ∨ write = true) : selectTap kind word write true = selectTap kind word write false := by
  cases selected : selectTap kind word write false with
  | none => rw [selectTap_debug, selected, Option.map_none]
  | some k =>
    have listed := (selectTap_eq_some_iff kind word write k).mp selected
    rw [selectTap_debug, selected, Option.map_some, observing_of_mem_tapTable listed other]

theorem selectTap_debug_word_zero_read_iff (kind : Byte) (k : TapKind) :
    selectTap kind 0 false true = some k ↔ (kind, k) = (1, .peek) ∨ (kind, k) = (2, .top) ∨ (kind, k) = (3, .value) := by
  have listed (j : TapKind) : (kind, 0, false, j) ∈ tapTable
      ↔ (kind = 1 ∧ j = .take) ∨ (kind = 2 ∧ j = .pop) ∨ (kind = 3 ∧ j = .next) := by
    simp [tapTable]
  simp only [selectTap_debug_eq_some_iff, listed, Prod.mk.injEq]
  constructor
  · rintro ⟨j, ⟨kind_eq, rfl⟩ | ⟨kind_eq, rfl⟩ | ⟨kind_eq, rfl⟩, rfl⟩ <;> simp [kind_eq, TapKind.observing]
  · rintro (⟨kind_eq, rfl⟩ | ⟨kind_eq, rfl⟩ | ⟨kind_eq, rfl⟩)
    · exact ⟨.take, by simp [kind_eq], rfl⟩
    · exact ⟨.pop, by simp [kind_eq], rfl⟩
    · exact ⟨.next, by simp [kind_eq], rfl⟩

/-- The exact size that R24 requires at a tap word. -/
theorem requiredSize_eq (d : Descriptor) (word : Nat) :
    d.requiredSize word = if (word = 0 ∨ word = 8) ∧ d.kind ≠ 3 then d.itemSize.toNat else 4 := by
  unfold Descriptor.requiredSize
  by_cases item : word = 0 ∨ word = 8 <;> by_cases tally : d.kind = 3 <;>
    simp [item, tally, Descriptor.isTally, kindTally, Descriptor.size]

/-- The third check passes exactly what selects an operation and has its size (R30). -/
theorem fit_eq_some_iff (d : Descriptor) (t : Tap) (k : TapKind) :
    d.fit t = some k ↔ selectTap d.kind t.word t.write t.debug = some k ∧ t.length = d.requiredSize t.word := by
  unfold Descriptor.fit
  cases selectTap d.kind t.word t.write t.debug with
  | none => simp
  | some j => by_cases size : t.length = d.requiredSize t.word <;> simp [size]

/-! ## The classes (R25) -/

theorem producing_iff (k : TapKind) :
    k.producing = true ↔ k = .put ∨ k = .push ∨ k = .mark ∨ k = .add ∨ k = .set ∨ k = .next := by
  cases k <;> decide

theorem consuming_iff (k : TapKind) : k.consuming = true ↔ k = .take ∨ k = .pop ∨ k = .unwind := by
  cases k <;> decide

theorem readsItem_iff (k : TapKind) : k.readsItem = true ↔ k = .peek ∨ k = .top := by
  cases k <;> decide

/-- The debug-tagged form of a read that R24 lists is a non-consuming read (R25). -/
theorem observing_read_unclassed {kind : Byte} {word : Nat} {k : TapKind} (h : (kind, word, false, k) ∈ tapTable) :
    k.observing.producing = false ∧ k.observing.consuming = false :=
  (by decide : ∀ e ∈ tapTable, e.2.2.1 = false →
    e.2.2.2.observing.producing = false ∧ e.2.2.2.observing.consuming = false) _ h rfl

theorem selectTap_debug_read_unclassed {kind : Byte} {word : Nat} {k : TapKind}
    (h : selectTap kind word false true = some k) : k.producing = false ∧ k.consuming = false := by
  obtain ⟨j, listed, rfl⟩ := (selectTap_debug_eq_some_iff kind word false k).mp h
  exact observing_read_unclassed listed

/-! ## The fourth and fifth checks (R31, R32) -/

theorem denied_iff (d : Descriptor) (n : Nat) (k : TapKind) (i : Initiator) :
    d.denied n k i = true ↔ (k.producing = true ∧ (d.producers.getLsbD i.val = false ∨ n = 1))
      ∨ (k.consuming = true ∧ (d.consumers.getLsbD i.val = false ∨ n = 0)) := by
  simp [Descriptor.denied]

/-- The state table of R12 on a HALTED structure. -/
theorem stateRefusal_of_halted {d : Descriptor} (h : d.state = stHalted) (k : TapKind) :
    d.stateRefusal k = if k.producing = true ∨ k.consuming = true ∨ ((k = .peek ∨ k = .top) ∧ d.cause = causeDescriptor)
      then some .halted else none := by
  simp [Descriptor.stateRefusal, Descriptor.isHalted, Descriptor.descriptorHalt, h, readsItem_iff, or_assoc]

/-- The state table of R12 on a structure that is not HALTED. -/
theorem stateRefusal_of_not_halted {d : Descriptor} (h : d.state ≠ stHalted) (k : TapKind) :
    d.stateRefusal k = if (d.state = stClosing ∨ d.state = stClosed) ∧ k.producing = true then some .closed else none := by
  simp [Descriptor.stateRefusal, Descriptor.isHalted, h]

theorem not_halted_of_closing_or_closed {d : Descriptor} (h : d.state = stClosing ∨ d.state = stClosed) :
    d.state ≠ stHalted := by
  rcases h with h | h <;> rw [h] <;> decide

/-- The fifth check refuses HALTED, refuses CLOSED or passes, each exactly as R12 and R32 say. -/
theorem stateRefusal_iff (d : Descriptor) (k : TapKind) :
    let halted := d.state = stHalted ∧ (k.producing = true ∨ k.consuming = true
      ∨ ((k = .peek ∨ k = .top) ∧ d.cause = causeDescriptor))
    let closed := (d.state = stClosing ∨ d.state = stClosed) ∧ k.producing = true
    (d.stateRefusal k = some .halted ↔ halted) ∧ (d.stateRefusal k = some .closed ↔ closed)
      ∧ (d.stateRefusal k = none ↔ ¬ halted ∧ ¬ closed) ∧ d.stateRefusal k ≠ some .denied := by
  intro halted closed
  by_cases h : d.state = stHalted
  · have not_closed : ¬ closed := fun c => not_halted_of_closing_or_closed c.1 h
    rw [stateRefusal_of_halted h]
    split <;> simp_all [halted]
  · have not_halted : ¬ halted := fun c => h c.1
    rw [stateRefusal_of_not_halted h]
    split <;> simp_all [closed]

theorem gate_of_denied {d : Descriptor} {n : Nat} {k : TapKind} {i : Initiator} (h : d.denied n k i = true) :
    d.gate n k i = some .denied :=
  if_pos h

theorem gate_of_not_denied {d : Descriptor} {n : Nat} {k : TapKind} {i : Initiator} (h : ¬ d.denied n k i = true) :
    d.gate n k i = d.stateRefusal k :=
  if_neg h

/-- Settles O38: the selection by the table of R24, whose finitely many rows decide what a debug tag does; the gate by whether
the fourth check denies, and otherwise by the state table of R12. -/
theorem tapClassesDecideMasksAndStates : Obligations.TapClassesDecideMasksAndStates := by
  refine ⟨producing_iff, consuming_iff, fun kind word k h => selectTap_debug_read_unclassed h, ?gate, ?selection, ?fit⟩
  case gate =>
    intro d n k i denied halted closed
    have denied_eq : d.denied n k i = true ↔ denied := denied_iff d n k i
    obtain ⟨halted_eq, closed_eq, passes_eq, never_denied⟩ := stateRefusal_iff d k
    by_cases h : denied
    · rw [gate_of_denied (denied_eq.mpr h)]
      simp [h]
    · rw [gate_of_not_denied (mt denied_eq.mp h)]
      exact ⟨iff_of_false never_denied h, halted_eq.trans (and_iff_right h).symm, closed_eq.trans (and_iff_right h).symm,
        passes_eq.trans (and_iff_right h).symm⟩
  case selection =>
    exact fun kind word write k => ⟨selectTap_eq_some_iff kind word write k, selectTap_debug_of_not_word_zero_read,
      selectTap_debug_word_zero_read_iff kind k⟩
  case fit =>
    intro d t k
    rw [fit_eq_some_iff, requiredSize_eq]

end Sys2Proof.Machine
end

