-- ==== Sys2Proof/Proofs/TallyArithmetic.lean ====
section
/-! The arithmetic of a tally (R91, R92): what each of its functions gives and leaves, in WRAP and in STICK mode, and the
statement about it. -/

namespace Sys2Proof.Machine

/-! ## One bit of a byte -/

theorem getLsbD_withBit (b : Byte) {i : Nat} (hi : i < 8) (j : Nat) (v : Bool) :
    (withBit b i v).getLsbD j = if j = i then v else b.getLsbD j := by
  have mask : (1#8 <<< i).getLsbD j = decide (j = i) := by
    rw [← BitVec.twoPow_eq, BitVec.getLsbD_twoPow, decide_eq_true hi, Bool.true_and, decide_eq_decide]
    exact eq_comm
  by_cases same : j = i
  case pos =>
    subst same
    cases v <;> simp [withBit, hi]
  case neg =>
    cases v with
    | true => simp [withBit, mask, same]
    | false => simpa [withBit, mask, same] using BitVec.lt_of_getLsbD

namespace Descriptor

/-! ## The fields that a tally operation writes -/

theorem value_setValue_of_fits (d : Descriptor) {v : Int} (low : -2147483648 ≤ v) (high : v ≤ 2147483647) :
    (d.setValue v).value = v := by
  unfold value
  rw [valueWord_setValue]
  exact BitVec.toInt_ofInt_eq_self (by decide) (by omega) (by omega)

theorem wraps_setWraps (d : Descriptor) {n : Nat} (h : n ≤ 65535) : (d.setWraps n).wraps = n :=
  toNat_half rfl (Nat.lt_succ_of_le h)

theorem atBound_setAtBound (d : Descriptor) (v : Bool) : (d.setAtBound v).atBound = v :=
  (getLsbD_withBit d.flags (by decide) 5 v).trans (if_pos rfl)

/-- `d'` differs from `d` in no field but the value, the wrap count and the at-bound flag (R11). -/
def SameButTally (d d' : Descriptor) : Prop :=
  d' = { d with w32 := d'.w32, w34 := d'.w34, w48 := d'.w48, flags := d'.flags }
    ∧ ∀ i, i ≠ 5 → d'.flags.getLsbD i = d.flags.getLsbD i

theorem SameButTally.setWraps {d d' : Descriptor} (h : d.SameButTally d') (n : Nat) : d.SameButTally (d'.setWraps n) :=
  ⟨congrArg (fun x => x.setWraps n) h.1, h.2⟩

/-! ## A value taken as it is (R92, R95, R100) -/

theorem value_withValue (d : Descriptor) {v : Int} (low : -2147483648 ≤ v) (high : v ≤ 2147483647) :
    (d.withValue v).value = v :=
  d.value_setValue_of_fits low high

theorem value_withValue_of_bounds (d : Descriptor) {v : Int} (low : d.lower ≤ v) (high : v ≤ d.upper) :
    (d.withValue v).value = v :=
  d.value_setValue v low high

theorem wraps_withValue (d : Descriptor) (v : Int) : (d.withValue v).wraps = d.wraps := rfl

theorem atBound_withValue (d : Descriptor) (v : Int) :
    (d.withValue v).atBound = (d.stick && (decide (v = d.lower) || decide (v = d.upper))) :=
  atBound_setAtBound _ _

theorem atBound_withValue_iff (d : Descriptor) (v : Int) :
    (d.withValue v).atBound = true ↔ d.stick = true ∧ (v = d.lower ∨ v = d.upper) := by
  rw [atBound_withValue, Bool.and_eq_true, Bool.or_eq_true, decide_eq_true_eq, decide_eq_true_eq]

theorem withValue_sameButTally (d : Descriptor) (v : Int) : d.SameButTally (d.withValue v) :=
  ⟨rfl, fun i other => (getLsbD_withBit d.flags (by decide) i _).trans (if_neg other)⟩

/-! ## The mode decides what a raw result does (R91, R92) -/

theorem advanced_of_stick {d : Descriptor} (h : d.stick = true) (raw : Int) :
    d.advanced raw = d.withValue (d.clamped raw) :=
  if_pos h

theorem advanced_of_wrap {d : Descriptor} (h : d.stick = false) (raw : Int) :
    d.advanced raw =
      (d.withValue (d.wrapped raw)).setWraps (min 65535 (d.wraps + (d.wrapQuotient raw).natAbs)) :=
  if_neg (Bool.eq_false_iff.mp h)

theorem advanced_sameButTally (d : Descriptor) (raw : Int) : d.SameButTally (d.advanced raw) := by
  cases mode : d.stick with
  | true =>
    rw [advanced_of_stick mode]
    exact d.withValue_sameButTally _
  | false =>
    rw [advanced_of_wrap mode]
    exact (d.withValue_sameButTally _).setWraps _

theorem wrapsOn_of_stick {d : Descriptor} (h : d.stick = true) (raw : Int) : d.wrapsOn raw = false := by
  rw [wrapsOn, h, Bool.not_true, Bool.false_and]

theorem wrapsOn_iff_of_wrap {d : Descriptor} (h : d.stick = false) (raw : Int) :
    d.wrapsOn raw = true ↔ d.wrapQuotient raw ≠ 0 := by
  rw [wrapsOn, h, Bool.not_false, Bool.true_and, decide_eq_true_eq]

/-! ## WRAP: the division by the span (R91) -/

/-- A quotient and a rest below the span that make up the raw result less lower are those the tally takes (R91). -/
theorem wrap_division {d : Descriptor} {raw q m : Int} (nonneg : 0 ≤ m) (below : m < d.span)
    (division : raw - d.lower = q * d.span + m) : d.wrapQuotient raw = q ∧ d.wrapped raw = d.lower + m := by
  have makes_up : m + d.span * q = raw - d.lower := by rw [division, Int.mul_comm, Int.add_comm]
  obtain ⟨quotient, rest⟩ :=
    (Int.ediv_emod_unique (Int.lt_of_le_of_lt nonneg below)).mpr ⟨makes_up, nonneg, below⟩
  exact ⟨quotient, congrArg (d.lower + ·) rest⟩

/-- The tally after a raw result in WRAP mode, given the division (R91). -/
theorem advanced_wrap {d : Descriptor} (mode : d.stick = false) {raw q m : Int} (nonneg : 0 ≤ m) (below : m < d.span)
    (division : raw - d.lower = q * d.span + m) :
    (d.advanced raw).value = d.lower + m ∧ (d.advanced raw).wraps = min 65535 (d.wraps + q.natAbs)
      ∧ (d.advanced raw).atBound = false ∧ (d.wrapsOn raw = true ↔ q ≠ 0) := by
  obtain ⟨quotient, wrapped⟩ := wrap_division nonneg below division
  have in_bounds : d.lower + m ≤ d.upper := by
    unfold span at below
    omega
  have flag : (d.withValue (d.lower + m)).atBound = false := by rw [atBound_withValue, mode, Bool.false_and]
  rw [wrapsOn_iff_of_wrap mode, advanced_of_wrap mode, quotient, wrapped]
  exact ⟨d.value_withValue_of_bounds (Int.le_add_of_nonneg_right nonneg) in_bounds, wraps_setWraps _ (Nat.min_le_left _ _),
    flag, Iff.rfl⟩

/-! ## STICK: the clamp (R92) -/

theorem clamped_eq {d : Descriptor} (bounds : d.lower ≤ d.upper) (raw : Int) :
    d.clamped raw = max d.lower (min raw d.upper) := by
  unfold clamped
  split
  case isTrue above => omega
  case isFalse => split <;> omega

/-- The tally after a raw result in STICK mode (R92). -/
theorem advanced_stick {d : Descriptor} (bounds : d.lower ≤ d.upper) (mode : d.stick = true) (raw : Int) :
    (d.advanced raw).value = max d.lower (min raw d.upper) ∧ (d.advanced raw).wraps = d.wraps
      ∧ d.wrapsOn raw = false
      ∧ ((d.advanced raw).atBound = true ↔ (d.advanced raw).value = d.lower ∨ (d.advanced raw).value = d.upper) := by
  have value : (d.withValue (d.clamped raw)).value = d.clamped raw := by
    apply value_withValue_of_bounds <;> rw [clamped_eq bounds] <;> omega
  rw [wrapsOn_of_stick mode, advanced_of_stick mode, value, atBound_withValue_iff, wraps_withValue]
  exact ⟨clamped_eq bounds raw, rfl, rfl, and_iff_right mode⟩

end Descriptor

/-- Settles O36: by the mode, WRAP through the division of R91 and STICK through the clamp of R92; a given value and the frame
hold in both. -/
theorem tallyModesWrapOrStick : Obligations.TallyModesWrapOrStick := by
  intro d raw bounds span
  refine ⟨?wrap, ?stick, ?given, ?frame⟩
  case wrap => exact fun q m mode nonneg below division => Descriptor.advanced_wrap mode nonneg below division
  case stick => exact fun mode => Descriptor.advanced_stick bounds mode raw
  case given =>
    exact fun v low high => ⟨d.value_withValue low high, d.wraps_withValue v, d.atBound_withValue_iff v⟩
  case frame => exact ⟨d.advanced_sameButTally raw, d.withValue_sameButTally⟩

end Sys2Proof.Machine
end

