-- ==== Sys2Proof/Proofs/ReservationStep.lean ====
section
/-! The reservation step (R135): how it judges the destination's working copy, that it is applied in the engine's turn, and the
statement about it. -/

namespace Sys2Proof.Machine

/-! ## The judgement of the destination (R135) -/

/-- A push meets reserve exhaustion when the guard byte opens the guard and nothing is left below the capacity (R71). -/
theorem Descriptor.pushExhausted_iff {d : Descriptor} (stack : d.kind = kindStack) :
    d.pushExhausted = true ↔ d.b38 = 1 ∧ d.cap ≤ d.depth := by
  rw [pushExhausted, Bool.and_eq_true, guardOpen_iff stack, decide_eq_true_eq]

namespace Bridge

theorem applyReserve_of_not_open {n : Nat} {e : Entry} (b : Bridge) (shut : e.copy.state ≠ stOpen) :
    applyReserve n e b = b.endRun .refused false (some n) :=
  if_pos shut

/-- An OPEN ring decides by its room, and when full by its policy (R135, R49). -/
theorem applyReserve_of_ring {n : Nat} {e : Entry} (b : Bridge) (is_open : e.copy.state = stOpen)
    (ring : e.copy.kind = kindRing) :
    applyReserve n e b = if e.copy.count + (if e.reservation then 1 else 0) < e.copy.cap then b.reserveRoom n
      else if e.copy.fullPolicy = 1 then b.setDisposal .drop else b.endRun .destFull false (some n) := by
  simp only [applyReserve, is_open, isRing_iff.mpr ring, ne_eq, not_true_eq_false, if_false, if_true, Descriptor.full,
    decide_eq_false_iff_not, Nat.not_le]

/-- An OPEN stack decides by reserve exhaustion alone (R135, R71). -/
theorem applyReserve_of_stack {n : Nat} {e : Entry} (b : Bridge) (is_open : e.copy.state = stOpen)
    (stack : e.copy.kind = kindStack) :
    applyReserve n e b = if e.copy.b38 = 1 ∧ e.copy.cap ≤ e.copy.depth then b.endRun .destFull false (some n)
      else b.reserveRoom n := by
  have not_ring : ¬ e.copy.isRing = true := by rw [isRing_iff, stack]; decide
  simp only [applyReserve, is_open, ne_eq, not_true_eq_false, if_false, not_ring, Bool.false_eq_true,
    Descriptor.pushExhausted_iff stack]

/-- The reservation is set on the entry whose operation is applied (R114). -/
theorem applied_reserveRoom {b : Bridge} {n : Nat} {e : Entry} (held : b.entry? n = some e) :
    (b.applied n e id).reserveRoom n
      = (b.applied n e (fun x => { x with reservation := true })).setDisposal .reserved := by
  rw [reserveRoom, applied_setEntry b n e id _ (b.entry?_index n e held)]
  rfl

/-! ## The turn of the step (R105) -/

theorem reservationStep_turn {b : Bridge} {n : Nat} {e : Entry} (turn : EngineTurn b n .reserve e)
    (asked : b.engine.asked = true) (step : b.engine.step = .reserve) (destination : b.moveCopy.dstStruct = some n) :
    b.reservationStep = some (applyReserve n e (b.applied n e id)) := by
  simp only [reservationStep, step, destination, asked, if_true]
  exact engineStep_turn b n .reserve e markAsked (applyReserve n) turn

/-- An item with a SPAN destination takes no reservation step (R134). -/
theorem startItem_of_span_destination {b : Bridge} (no_stop : b.engine.stopRequest = none)
    (spans : b.moveCopy.spansOk b.cfg b.control.straps = true) (span : b.moveCopy.dstStruct = none) :
    b.startItem = setStep { b with engine := { b.engine with disposal := some .write } } .take := by
  simp [startItem, no_stop, spans, span]

end Bridge

theorem exec_reservationStep (s : State) :
    exec .reservationStep s = s.event (fun b => b.reservationStep.map Bridge.settle) := by
  rfl

theorem exec_reservationStep_turn {s : State} {n : Nat} {e : Entry} (turn : EngineTurn s.chip n .reserve e)
    (asked : s.chip.engine.asked = true) (step : s.chip.engine.step = .reserve)
    (destination : s.chip.moveCopy.dstStruct = some n) :
    exec .reservationStep s = After s (Bridge.applyReserve n e (s.chip.applied n e id)) :=
  (exec_reservationStep s).trans
    (s.event_settle Bridge.reservationStep _ (Bridge.reservationStep_turn turn asked step destination))

/-- Settles O56: in its turn the step is the judgement of the destination's working copy, which is refused out of OPEN, decided
by the room of a ring and by reserve exhaustion on a stack. -/
theorem reservationStepJudgesTheDestination : Obligations.ReservationStepJudgesTheDestination := by
  refine ⟨?step, fun b no_stop spans span => Bridge.startItem_of_span_destination no_stop spans span⟩
  intro s n e turn asked step destination d a ends decides reserves held
  have effect {b : Bridge} (judged : Bridge.applyReserve n e a = b) : exec .reservationStep s = After s b :=
    (exec_reservationStep_turn turn asked step destination).trans (congrArg (After s) judged)
  have room (judged : Bridge.applyReserve n e a = a.reserveRoom n) : reserves :=
    effect (judged.trans (Bridge.applied_reserveRoom turn.1))
  refine ⟨?shut, ?ringRoom, ?ringDiscard, ?ringRefuse, ?guardClosed, ?guardOpen, ?exhausted⟩
  case shut =>
    intro state
    have shut : d.state ≠ stOpen := by rcases state with h | h | h <;> rw [h] <;> decide
    exact effect (Bridge.applyReserve_of_not_open a shut)
  case ringRoom =>
    intro is_open ring below
    exact room (by rw [Bridge.applyReserve_of_ring a is_open ring, if_pos below])
  case ringDiscard =>
    intro is_open ring above discard
    have full : ¬ held < d.cap := Nat.not_lt.mpr above
    exact effect (b := a.setDisposal .drop)
      (by rw [Bridge.applyReserve_of_ring a is_open ring, if_neg full, if_pos discard])
  case ringRefuse =>
    intro is_open ring above refuse
    have full : ¬ held < d.cap := Nat.not_lt.mpr above
    have not_discard : d.fullPolicy ≠ 1 := by rw [refuse]; decide
    exact effect (by rw [Bridge.applyReserve_of_ring a is_open ring, if_neg full, if_neg not_discard])
  case guardClosed =>
    intro is_open stack guard
    have not_exhausted : ¬ (d.b38 = 1 ∧ d.cap ≤ d.depth) := fun h => absurd (guard.symm.trans h.1) (by decide)
    exact room (by rw [Bridge.applyReserve_of_stack a is_open stack, if_neg not_exhausted])
  case guardOpen =>
    intro is_open stack guard below
    have not_exhausted : ¬ (d.b38 = 1 ∧ d.cap ≤ d.depth) := fun h => Nat.not_le.mpr below h.2
    exact room (by rw [Bridge.applyReserve_of_stack a is_open stack, if_neg not_exhausted])
  case exhausted =>
    intro is_open stack guard at_capacity
    have exhausted : d.b38 = 1 ∧ d.cap ≤ d.depth := ⟨guard, Nat.le_of_eq at_capacity.symm⟩
    exact effect (by rw [Bridge.applyReserve_of_stack a is_open stack, if_pos exhausted])

end Sys2Proof.Machine
end

