-- ==== Sys2Proof/Proofs/Basics.lean ====
section
/-! Facts of lists and of choices that core Lean, against which the model's files are built, does not state. -/

namespace Sys2Proof.Machine

/-- Equivalent conditions choose alike. -/
theorem ite_of_iff {α : Sort _} {p q : Prop} [Decidable p] [Decidable q] {x y : α} (same : p ↔ q) :
    (if p then x else y) = if q then x else y :=
  ite_congr (propext same) (fun _ => rfl) (fun _ => rfl)

theorem ite_either {α : Sort _} {p q : Prop} [Decidable p] [Decidable q] (x y : α) :
    (if p then x else if q then x else y) = if p ∨ q then x else y := by
  by_cases first : p
  · rw [if_pos first, if_pos (Or.inl first)]
  · rw [if_neg first]
    exact ite_of_iff (or_iff_right first).symm

theorem sublist_of_eq {α : Type _} {l l' : List α} (same : l = l') : l.Sublist l' := same ▸ List.Sublist.refl l

/-- Where the values under a map are distinct, a value has one origin. -/
theorem eq_of_map_nodup {α β : Type} {f : α → β} {l : List α} (distinct : (l.map f).Nodup) {x y : α} (x_in : x ∈ l) (y_in : y ∈ l)
    (same : f x = f y) : x = y := by
  rw [← List.filterMap_eq_map] at distinct
  exact eq_of_filterMap_nodup distinct x_in y_in (congrArg some same) rfl

end Sys2Proof.Machine
end

