-- ==== Sys2Proof/Proofs/CommandForms.lean ====
section
/-! Memory and the form of a step: what a byte reads after a write, that every command is an event or an answer of memory, and
what each of the two leaves of memory and of the queue. -/

namespace Sys2Proof.Machine

/-! ## Bytes read after a write (log 2) -/

/-- A list in form from an address on lists nothing below it. -/
theorem Memory.read_of_lt (m : Memory) {low x : Nat} (below : x < low) (w : Memory.wfFrom low m = true) :
    Memory.read m x = 0 := by
  induction m generalizing low with
  | nil => rfl
  | cons c m ih =>
    obtain ⟨y, u⟩ := c
    simp only [Memory.wfFrom, Bool.and_eq_true, decide_eq_true_eq] at w
    obtain ⟨⟨⟨from_low, -⟩, -⟩, rest⟩ := w
    rw [Memory.read, if_neg (by omega)]
    exact ih (by omega) rest

/-- A byte that is not the one written reads as before, in canonical form or not. -/
theorem Memory.read_write_of_ne (m : Memory) {a x : Nat} (v : Byte) (other : x ≠ a) :
    Memory.read (Memory.write m a v) x = Memory.read m x := by
  induction m with
  | nil =>
    unfold Memory.write
    split <;> simp [Memory.read, other]
  | cons c m ih =>
    obtain ⟨y, u⟩ := c
    unfold Memory.write
    split
    case isTrue => split <;> simp [Memory.read, other]
    case isFalse =>
      split
      case isTrue same =>
        have not_listed : x ≠ y := same ▸ other
        split <;> simp [Memory.read, other, not_listed]
      case isFalse => simp [Memory.read, ih]

/-- The byte written reads as it was written; writing 0x00 needs the form, in which no other entry has the address. -/
theorem Memory.read_write_same (m : Memory) (low a : Nat) (v : Byte) (w : Memory.wfFrom low m = true) :
    Memory.read (Memory.write m a v) a = v := by
  induction m generalizing low with
  | nil =>
    unfold Memory.write
    split
    case isTrue zero => exact zero.symm
    case isFalse => simp [Memory.read]
  | cons c m ih =>
    obtain ⟨y, u⟩ := c
    have whole := w
    simp only [Memory.wfFrom, Bool.and_eq_true, decide_eq_true_eq] at w
    obtain ⟨⟨⟨-, in_space⟩, nonzero⟩, rest⟩ := w
    unfold Memory.write
    split
    case isTrue below =>
      split
      case isTrue zero =>
        have from_y : Memory.wfFrom y ((y, u) :: m) = true := by
          rw [Memory.wfFrom, nonzero, rest, decide_eq_true in_space, decide_eq_true (Nat.le_refl y)]
          rfl
        rw [zero, Memory.read_of_lt _ below from_y]
      case isFalse => simp [Memory.read]
    case isFalse =>
      split
      case isTrue same =>
        split
        case isTrue zero => rw [zero, Memory.read_of_lt m (by omega) rest]
        case isFalse => simp [Memory.read]
      case isFalse other => simp [Memory.read, other, ih _ rest]

theorem Memory.read_write (m : Memory) (a x : Nat) (v : Byte) (w : Memory.wf m = true) :
    Memory.read (Memory.write m a v) x = if x = a then v else Memory.read m x := by
  split
  case isTrue same => rw [same, Memory.read_write_same m 0 a v w]
  case isFalse other => exact Memory.read_write_of_ne m v other

/-- Bytes written from an address upward leave every byte outside them. -/
theorem Memory.read_writeBytes_of_outside (m : Memory) (a x : Nat) (bs : List Byte)
    (outside : ∀ i, i < bs.length → x ≠ (a + i) % addressSpace) :
    Memory.read (Memory.writeBytes m a bs) x = Memory.read m x := by
  induction bs generalizing m a with
  | nil => rfl
  | cons b bs ih =>
    have not_first : x ≠ a % addressSpace := outside 0 (Nat.succ_pos _)
    have outside_rest : ∀ i, i < bs.length → x ≠ (a + 1 + i) % addressSpace := fun i below => by
      rw [Nat.add_assoc, Nat.add_comm 1 i]
      exact outside (i + 1) (Nat.succ_lt_succ below)
    exact (ih _ _ outside_rest).trans (Memory.read_write_of_ne m b not_first)

/-- Bytes written below the top of memory read back as they were written. -/
theorem Memory.readBytes_writeBytes (m : Memory) (a : Nat) (bs : List Byte) (w : Memory.wf m = true)
    (fits : a + bs.length ≤ addressSpace) : Memory.readBytes (Memory.writeBytes m a bs) a bs.length = bs := by
  induction bs generalizing m a with
  | nil => rfl
  | cons b bs ih =>
    rw [List.length_cons] at fits
    have in_space : a % addressSpace = a := Nat.mod_eq_of_lt (by omega)
    have first : Memory.read (Memory.writeBytes m a (b :: bs)) (a % addressSpace) = b := by
      have behind : ∀ i, i < bs.length → a % addressSpace ≠ (a + 1 + i) % addressSpace := fun i below => by
        rw [in_space, Nat.mod_eq_of_lt (by omega)]
        omega
      exact (Memory.read_writeBytes_of_outside _ _ _ _ behind).trans (Memory.read_write_same m 0 _ b w)
    have rest := ih (Memory.write m (a % addressSpace) b) (a + 1)
      (Memory.write_wf m _ b (Nat.mod_lt a (by decide)) w) (by omega)
    exact congr (congrArg List.cons first) rest

/-- Settles O8, by induction on the list of cells and on the bytes. -/
theorem memoryReadsWhatWasWritten : Obligations.MemoryReadsWhatWasWritten :=
  ⟨Memory.read_write, fun m a bs w fits => Memory.readBytes_writeBytes m a bs w fits, Memory.read_writeBytes_of_outside⟩

/-! ## The forms of a command -/

/-- The effect of a command that is an event of the bridge, before what the bridge then does by itself: none for memory's
answers, for the grant and for power-on reset, which `exec_forms` treats apart. -/
def effectOf (c : Instr) (b : Bridge) : Option Bridge :=
  match c with
  | .tapRequest src => b.arrive tapRow src
  | .plainRequest src => b.arrive plainRow src
  | .tableRead src => b.arrive tableReadRow src
  | .tableWrite src => b.arrive tableWriteRow src
  | .ringPut n => b.tapStep n .put (Bridge.putEffect n)
  | .ringTake n => b.tapStep n .take (Bridge.headEffect .ringTake n)
  | .ringPeek n => b.tapStep n .peek (Bridge.headEffect .ringPeek n)
  | .ringLevel n => b.tapStep n .level Bridge.levelEffect
  | .readStatus n => b.tapStep n .status Bridge.statusEffect
  | .stackPush n => b.tapStep n .push (Bridge.pushEffect n)
  | .stackPop n => b.tapStep n .pop (Bridge.popEffect n)
  | .stackTop n => b.tapStep n .top (Bridge.topEffect n)
  | .stackDepth n => b.tapStep n .depth Bridge.depthEffect
  | .stackMark n => b.tapStep n .mark (Bridge.markEffect n)
  | .stackUnwind n => b.tapStep n .unwind (Bridge.unwindEffect n)
  | .tallyNext n => b.tapStep n .next (Bridge.nextEffect n)
  | .tallyAdd n => b.tapStep n .add (Bridge.addEffect n)
  | .tallySet n => b.tapStep n .set (Bridge.setEffect n)
  | .tallyValue n => b.tapStep n .value Bridge.valueEffect
  | .tallyWraps n => b.tapStep n .wraps Bridge.wrapsEffect
  | .commandUnitTake => b.commandTake
  | .noticePut => b.noticeStep
  | .cmdNop => b.nop
  | .cmdFlush => b.flush
  | .cmdRelease n => b.release n
  | .cmdAbort n => b.commandStep opAbort n (Bridge.abortEffect n)
  | .cmdOpen n => b.commandStep opOpen n (Bridge.openEffect n)
  | .cmdClose n => b.commandStep opClose n (Bridge.closeEffect n)
  | .cmdClearFault n => b.commandStep opClearFault n (Bridge.clearFaultEffect n)
  | .cmdCloseGuard n => b.commandStep opCloseGuard n (Bridge.closeGuardEffect n)
  | .cmdArm n => b.commandStep opArm n (Bridge.armEffect n)
  | .cmdDisarm n => b.commandStep opDisarm n (Bridge.disarmEffect n)
  | .cmdTrigger m => b.postTrigger m
  | .cmdStopMove m => b.stopMove m
  | .cmdPauseMoves => b.pauseMoves
  | .cmdResumeMoves => b.resumeMoves
  | .stopBridge .command => b.stopCommand
  | .auditFaultNotice => b.auditFault
  | .arbiterChoice => b.choose
  | .pinEnd => b.pinStep
  | .reservationStep => b.reservationStep
  | .moveTake => b.takeStep
  | .movePut => b.putStep
  | .pinRelease => b.releaseStep
  | .runEndReport => b.reportEnd
  | .completionProcessing => b.completionStep
  | .idleTimerExpiry => b.timerExpires
  | .stopClearPending => b.clearPending
  | .stopEmptyCache => b.beginEmptying
  | .warmReset => b.warmReset
  | _ => none

/-- Memory's answer as a command gives it: to which request, OKAY or not, whether an ERROR keeps the target, which accesses it
answers, and what the requester makes of it. -/
structure Answer where
  id : Nat
  ok : Bool
  keeps : Bool
  accepts : Access → Bool
  effect : MemRequest → List Byte → Bridge → Bridge

/-- The answer that a command is; START and STOP by the start word are the answer of the forwarded write (log 23). -/
def answerOf (c : Instr) : Option Answer :=
  match c with
  | .forwardedRequestDone id ok => some ⟨id, ok, false, isForward, fun _ data b => b.forwardedDone id ok data⟩
  | .statusMirrorWriteDone id ok => some ⟨id, ok, true, isMirror, fun _ _ b => b.mirrorDone id⟩
  | .ringItemAccessDone id ok => some ⟨id, ok, false, isRingItem, fun q data b => b.ringItemDone (itemStructure q.access) ok data⟩
  | .stackItemAccessDone id ok => some ⟨id, ok, false, isStackItem, fun q data b => b.stackItemDone (itemStructure q.access) ok data⟩
  | .anchorReadDone id ok => some ⟨id, ok, false, isAnchorRead, fun _ data b => b.anchorRead ok data⟩
  | .auditReadDone id ok => some ⟨id, ok, false, isAuditRead, fun _ data b => b.auditReadBack ok data⟩
  | .auditWriteDone id ok => some ⟨id, ok, false, isAuditWrite, fun _ _ b => b.auditWriteBack ok⟩
  | .fetchComplete id ok => some ⟨id, ok, false, isFetch, fun q data b => b.fetchDone (cacheStructure q.access) ok data⟩
  | .writeBackComplete id ok => some ⟨id, ok, true, isWriteBack, fun q _ b => b.writeBackDone (cacheStructure q.access) ok q.data⟩
  | .moveDescriptorReadDone id ok => some ⟨id, ok, false, isMoveRead, fun _ data b => b.moveRead ok data⟩
  | .spanReadDone id ok => some ⟨id, ok, false, isSpanRead, fun _ data b => b.spanReadBack ok data⟩
  | .spanWriteDone id ok => some ⟨id, ok, false, isSpanWrite, fun _ _ b => b.spanWriteBack ok⟩
  | .storeBackDone id ok => some ⟨id, ok, false, isStoreBack, fun _ _ b => b.stored ok⟩
  | .startBridge id | .stopBridge (.startWord id) =>
    some ⟨id, true, false, isForward, fun _ data b => b.forwardedDone id true data⟩
  | _ => none

/-- What a state with an answer outstanding becomes. -/
def Answer.run (a : Answer) (s : State) : Host.Outcome State Fault Refusal :=
  s.answered a.id a.ok a.keeps a.accepts (fun q data b => (a.effect q data b).settle)

/-- The commands that are events of the bridge without anything that follows by itself. -/
def bareEffectOf (c : Instr) (b : Bridge) : Option Bridge :=
  match c with
  | .powerOnReset => some b.powerOnReset
  | .powerOnResetEnd straps => b.endReset straps
  | .mportGrant => b.grant
  | _ => none

/-- A command is an event that the bridge settles, one that it does not settle, or memory's answer; START and STOP by the start
word may be nothing. -/
theorem exec_forms (c : Instr) (s : State) :
    exec c s = s.event (fun b => (effectOf c b).map Bridge.settle) ∨ exec c s = s.event (bareEffectOf c)
      ∨ ∃ a, answerOf c = some a ∧ exec c s = a.run s := by
  cases c with
  | powerOnReset | powerOnResetEnd | mportGrant => exact Or.inr (Or.inl rfl)
  | forwardedRequestDone | statusMirrorWriteDone | ringItemAccessDone | stackItemAccessDone | anchorReadDone | auditReadDone
  | auditWriteDone | fetchComplete | writeBackComplete | moveDescriptorReadDone | spanReadDone | spanWriteDone | storeBackDone =>
    exact Or.inr (Or.inr ⟨_, rfl, rfl⟩)
  | startBridge id =>
    by_cases starts : s.chip.startWordOf id = some 1 ∧ s.chip.control.state = .pass
    · exact Or.inr (Or.inr ⟨_, rfl, if_pos starts⟩)
    · exact Or.inl (if_neg starts)
  | stopBridge src =>
    cases src with
    | command => exact Or.inl rfl
    | startWord id =>
      by_cases stops : s.chip.startWordOf id = some 2 ∧ s.chip.takesStop = true
      · exact Or.inr (Or.inr ⟨_, rfl, if_pos stops⟩)
      · exact Or.inl (if_neg stops)
  | _ => exact Or.inl rfl

theorem answeredHandle_of_answerOf {c : Instr} {a : Answer} (h : answerOf c = some a) : answeredHandle c = some a.id := by
  unfold answerOf at h
  split at h <;> cases h <;> rfl

/-- What memory's answer leaves: nothing changes when no such request is outstanding; otherwise the requester goes on without
the request, unless a reset let go of it. -/
theorem Answer.run_cases {a : Answer} {s s' : State} (h : a.run s = .next s') :
    s' = s ∨ ∃ q ∈ s.chip.mport.outstanding, q.id = a.id ∧ s'.pending = s.pending ∧ s'.mem = s.memAfter q a.ok a.keeps
      ∧ (s'.chip = s.chip.received a.id
        ∨ s'.chip = (a.effect q (Memory.readBytes s.mem q.addr q.length) (s.chip.received a.id)).settle) := by
  unfold Answer.run State.answered at h
  split at h
  case h_1 =>
    cases h
    exact Or.inl rfl
  case h_2 q found =>
    cases h
    have accepted := List.find?_some found
    rw [Bool.and_eq_true, beq_iff_eq] at accepted
    refine Or.inr ⟨q, List.mem_of_find?_eq_some found, accepted.1, rfl, rfl, ?_⟩
    cases q.abandoned with
    | true => exact Or.inl rfl
    | false => exact Or.inr rfl

/-- What a command leaves of memory and of the queue: memory is as before, or as the request whose answer the command is leaves
it. -/
theorem exec_memory {c : Instr} {s s' : State} (h : exec c s = .next s') :
    s'.pending = s.pending ∧ (s'.mem = s.mem ∨ ∃ q ∈ s.chip.mport.outstanding, answeredHandle c = some q.id
      ∧ ∃ ok keeps, s'.mem = s.memAfter q ok keeps) := by
  have of_event {f : Bridge → Option Bridge} (event : exec c s = s.event f) : s'.pending = s.pending ∧ s'.mem = s.mem :=
    (State.event_frame s s' f (event.symm.trans h)).symm
  rcases exec_forms c s with event | event | ⟨a, answer, runs⟩
  · exact (of_event event).imp_right Or.inl
  · exact (of_event event).imp_right Or.inl
  · rcases Answer.run_cases (runs.symm.trans h) with rfl | ⟨q, outstanding, handle, queue, memory, -⟩
    · exact ⟨rfl, Or.inl rfl⟩
    · exact ⟨queue, Or.inr ⟨q, outstanding, handle ▸ answeredHandle_of_answerOf answer, a.ok, a.keeps, memory⟩⟩

theorem keptBytes_length (draw a k : Nat) : (keptBytes draw a k).length = k := by
  induction k generalizing a with
  | zero => rfl
  | succ k ih => rw [keptBytes, List.length_cons, ih]

/-- An answer leaves every byte outside the write that it answers. -/
theorem State.read_memAfter (s : State) (q : MemRequest) (ok keeps : Bool) (x : Nat)
    (outside : q.write = true → ∀ i, i < max q.data.length q.length → x ≠ (q.addr + i) % addressSpace) :
    Memory.read (s.memAfter q ok keeps) x = Memory.read s.mem x := by
  cases write : q.write with
  | false => rw [s.memAfter_read q ok keeps write]
  | true =>
    have away := outside write
    unfold State.memAfter
    rw [if_pos write]
    split
    case isTrue => exact Memory.read_writeBytes_of_outside _ _ _ _ (fun i below => away i (by omega))
    case isFalse =>
      split
      case isTrue => rfl
      case isFalse =>
        refine Memory.read_writeBytes_of_outside _ _ _ _ (fun i below => away i ?_)
        rw [keptBytes_length] at below
        omega

/-- Settles O9: an event touches no memory, and an answer acts on the bytes of the request alone. -/
theorem onlyAnsweredWritesChangeMemory : Obligations.OnlyAnsweredWritesChangeMemory := by
  intro c s s' h
  obtain ⟨queue, memory⟩ := exec_memory h
  refine ⟨queue, fun x outside => ?_⟩
  rcases memory with same | ⟨q, outstanding, handle, ok, keeps, after⟩
  · rw [same]
  · rw [after]
    exact s.read_memAfter q ok keeps x (outside q outstanding handle)

/-- Settles O5: by the form of the command, memory is as before or as an answer leaves it; a microsecond touches no memory. -/
theorem everyStepKeepsMemoryCanonical : Obligations.EveryStepKeepsMemoryCanonical := by
  intro s s' canonical h
  unfold step at h
  split at h
  case h_1 =>
    cases h
    exact canonical
  case h_2 c rest _ =>
    show Memory.wf s'.mem = true
    obtain ⟨-, same | ⟨q, -, -, ok, keeps, after⟩⟩ := exec_memory h
    · rw [same]
      exact canonical
    · rw [after]
      exact State.memAfter_wf _ q ok keeps canonical

end Sys2Proof.Machine
end

