-- ==== Sys2Proof/Proofs/Settling.lean ====
section
/-! What every operation of the bridge keeps, first of those that the bridge does by itself: the invariants about counts, handles,
settings and indices (`Orderly`), and the engine, the trigger unit, the granted requests and the working copies (`Settles`). Each
is a relation of a bridge and a later one that holds of a chain of operations when it holds of each, so every operation has one
lemma and a compound one is a chain. -/

namespace Sys2Proof.Machine

open Bridge

/-! ## The invariants kept from one bridge to a later one -/

/-- The invariants of Safety.lean but the laws of the structures last from `b` to `b'`. -/
structure Orderly (b b' : Bridge) : Prop where
  cache : CacheOk b → CacheOk b'
  inFlight : InFlightOk b → InFlightOk b'
  fairness : FairnessOk b → FairnessOk b'
  notices : NoticesOk b → NoticesOk b'
  handles : HandlesOk b → HandlesOk b'
  settings : SettingsOk b → SettingsOk b'
  pending : PendingOk b → PendingOk b'

theorem Orderly.refl (b : Bridge) : Orderly b b := ⟨id, id, id, id, id, id, id⟩

theorem Orderly.trans {a b c : Bridge} (h : Orderly a b) (g : Orderly b c) : Orderly a c :=
  ⟨g.cache ∘ h.cache, g.inFlight ∘ h.inFlight, g.fairness ∘ h.fairness, g.notices ∘ h.notices, g.handles ∘ h.handles,
    g.settings ∘ h.settings, g.pending ∘ h.pending⟩

theorem HandlesOk.of_sublist {b b' : Bridge}
    (requests : (b'.iport.inflight.map InFlight.id).Sublist (b.iport.inflight.map InFlight.id))
    (handle : b.nextHandle ≤ b'.nextHandle) (h : HandlesOk b) : HandlesOk b' := by
  obtain ⟨distinct, below⟩ := h
  refine ⟨distinct.sublist requests, fun r mem => ?_⟩
  obtain ⟨x, was, same⟩ := List.mem_map.mp (requests.subset (List.mem_map_of_mem mem))
  rw [← same]
  exact Nat.lt_of_lt_of_le (below x was) handle

/-- A count that an operation leaves as it is stays within any bound that it may exceed only where it did before. -/
@[simp] theorem unchanged_within (limit n : Nat) : n ≤ max limit n := Nat.le_max_right limit n

/-- An operation that takes no request, grants none and brings no settings: what it does to the counts. -/
structure Counts (b b' : Bridge) : Prop where
  requests : (b'.iport.inflight.map InFlight.id).Sublist (b.iport.inflight.map InFlight.id)
  handle : b.nextHandle ≤ b'.nextHandle
  fairness : b'.mport.fairness ≤ max 8 b.mport.fairness
  queue : b'.notices.queue.length ≤ max 8 b.notices.queue.length
  dropped : b'.control.dropped ≤ max 65535 b.control.dropped
  settings : b'.control.settings = b.control.settings ∨ b'.control.settings = none

/-- An operation whose effect on the cache and on the pending set is known. -/
theorem Orderly.of {b b' : Bridge} (counts : Counts b b') (cache : CacheOk b → CacheOk b')
    (pending : PendingOk b → PendingOk b') : Orderly b b' where
  cache := cache
  inFlight bounded := by
    have shorter := counts.requests.length_le
    rw [List.length_map, List.length_map] at shorter
    exact Nat.le_trans shorter bounded
  fairness := by
    have bounded := counts.fairness
    unfold FairnessOk
    omega
  notices := by
    have queue := counts.queue
    have dropped := counts.dropped
    unfold NoticesOk
    omega
  handles := HandlesOk.of_sublist counts.requests counts.handle
  settings levels g inUse := by
    rcases counts.settings with same | none_left
    · exact levels g (same ▸ inUse)
    · rw [none_left] at inUse
      cases inUse
  pending := pending

/-- The cache's invariant reads the entries and the miss list only. -/
theorem CacheOk.congr {b b' : Bridge} (cache : b'.cache = b.cache) (misses : b'.misses = b.misses) (h : CacheOk b) :
    CacheOk b' := by
  unfold CacheOk
  rw [cache, misses]
  exact h

theorem PendingOk.congr {b b' : Bridge} (same : b'.trigger.pending = b.trigger.pending) (h : PendingOk b) :
    PendingOk b' := by
  unfold PendingOk
  rw [same]
  exact h

/-! ## What the bridge does by itself leaves more -/

/-- Every working copy of `b'` stood in `b`, with its pin, its reservation and its item access. -/
def Held (b b' : Bridge) : Prop :=
  ∀ e' ∈ b'.cache, e'.state.isFetching = false → ∃ e ∈ b.cache, e.state.isFetching = false ∧ e'.index = e.index
    ∧ e'.copy = e.copy ∧ e'.pin = e.pin ∧ e'.reservation = e.reservation ∧ e'.busy = e.busy

theorem Held.refl (b : Bridge) : Held b b := fun e mem there => ⟨e, mem, there, rfl, rfl, rfl, rfl, rfl⟩

theorem Held.trans {a b c : Bridge} (h : Held a b) (g : Held b c) : Held a c := by
  intro e'' mem there
  obtain ⟨e', mem', there', index', copy', pin', reservation', busy'⟩ := g e'' mem there
  obtain ⟨e, mem, there, index, copy, pin, reservation, busy⟩ := h e' mem' there'
  exact ⟨e, mem, there, index'.trans index, copy'.trans copy, pin'.trans pin, reservation'.trans reservation,
    busy'.trans busy⟩

/-- The entries are as before, or fewer. -/
theorem Held.of_subset {b b' : Bridge} (fewer : b'.cache ⊆ b.cache) : Held b b' :=
  fun e mem there => ⟨e, fewer mem, there, rfl, rfl, rfl, rfl, rfl⟩

/-- The operation keeps the invariants, and changes neither the engine, the trigger unit, the granted requests, the fairness
count, the straps and the draws, nor any working copy. -/
structure Settles (b b' : Bridge) : Prop extends Orderly b b' where
  engine : b'.engine = b.engine
  trigger : b'.trigger = b.trigger
  outstanding : b'.mport.outstanding = b.mport.outstanding
  count : b'.mport.fairness = b.mport.fairness
  straps : b'.control.straps = b.control.straps
  draws : b'.freeDraws = b.freeDraws
  held : CacheOk b → Held b b'

theorem Settles.refl (b : Bridge) : Settles b b := ⟨Orderly.refl b, rfl, rfl, rfl, rfl, rfl, rfl, fun _ => Held.refl b⟩

theorem Settles.trans {a b c : Bridge} (h : Settles a b) (g : Settles b c) : Settles a c where
  toOrderly := h.toOrderly.trans g.toOrderly
  engine := g.engine.trans h.engine
  trigger := g.trigger.trans h.trigger
  outstanding := g.outstanding.trans h.outstanding
  count := g.count.trans h.count
  straps := g.straps.trans h.straps
  draws := g.draws.trans h.draws
  held ok := (h.held ok).trans (g.held (h.cache ok))

/-- What an operation of the settling leaves beside the entries. -/
structure Frame (b b' : Bridge) : Prop where
  requests : (b'.iport.inflight.map InFlight.id).Sublist (b.iport.inflight.map InFlight.id)
  handle : b.nextHandle ≤ b'.nextHandle
  queue : b'.notices.queue.length ≤ max 8 b.notices.queue.length
  dropped : b'.control.dropped ≤ max 65535 b.control.dropped
  settings : b'.control.settings = b.control.settings ∨ b'.control.settings = none
  engine : b'.engine = b.engine
  trigger : b'.trigger = b.trigger
  outstanding : b'.mport.outstanding = b.mport.outstanding
  count : b'.mport.fairness = b.mport.fairness
  straps : b'.control.straps = b.control.straps
  draws : b'.freeDraws = b.freeDraws

/-- An operation of the settling whose effect on the entries is known. -/
theorem Settles.of {b b' : Bridge} (frame : Frame b b') (cache : CacheOk b → CacheOk b') (held : CacheOk b → Held b b') :
    Settles b b' where
  toOrderly := Orderly.of
    ⟨frame.requests, frame.handle, Nat.le_trans (Nat.le_of_eq frame.count) (Nat.le_max_right _ _), frame.queue, frame.dropped,
      frame.settings⟩
    cache (PendingOk.congr (congrArg TriggerUnit.pending frame.trigger))
  engine := frame.engine
  trigger := frame.trigger
  outstanding := frame.outstanding
  count := frame.count
  straps := frame.straps
  draws := frame.draws
  held := held

/-- An operation of the settling beside the cache. -/
theorem Settles.beside {b b' : Bridge} (frame : Frame b b') (cache : b'.cache = b.cache) (misses : b'.misses = b.misses) :
    Settles b b' :=
  Settles.of frame (CacheOk.congr cache misses) (fun _ => Held.of_subset (cache ▸ List.Subset.refl _))

/-! ## Ports, notices and refusals -/

theorem issue_settles (b : Bridge) (a : Access) (w : Bool) (addr : Nat) (data : List Byte) (k : Nat) :
    Settles b (b.issue a w addr data k) :=
  Settles.beside (by constructor <;> simp) rfl rfl

theorem mirror_settles (b : Bridge) : Settles b b.mirror := by
  unfold mirror
  split
  · exact Settles.refl b
  · exact issue_settles ..

theorem setState_settles (b : Bridge) (t : BridgeState) : Settles b (b.setState t) := by
  have restated : Settles b { b with control := { b.control with state := t } } :=
    Settles.beside (by constructor <;> simp) rfl rfl
  exact restated.trans (mirror_settles _)

@[simp] theorem startTimer_dropped (b : Bridge) : b.startTimer.control.dropped = b.control.dropped := rfl

theorem startTimer_settles (b : Bridge) : Settles b b.startTimer := Settles.beside (by constructor <;> simp) rfl rfl

theorem activity_settles (b : Bridge) : Settles b b.activity := by
  unfold activity
  split
  · exact startTimer_settles b
  · exact Settles.refl b

theorem cancelEmptying_settles (b : Bridge) : Settles b b.cancelEmptying := by
  unfold cancelEmptying
  split
  · have stopped : Settles b { b with control := { b.control with emptying := false } } :=
      Settles.beside (by constructor <;> simp) rfl rfl
    exact stopped.trans (startTimer_settles _)
  · exact Settles.refl b

theorem wakeCommand_settles (b : Bridge) : Settles b b.wakeCommand :=
  Settles.beside (by constructor <;> simp) (by simp) (by simp)

theorem dropNotice_settles (b : Bridge) (k : NoticeKind) : Settles b (b.dropNotice k) := by
  unfold dropNotice
  split
  · exact Settles.refl b
  case isFalse counts =>
    have counted : Settles b { b with control := { b.control with
        dropped := b.control.dropped + 1
        firstDropped := if b.control.dropped = 0 then some k else b.control.firstDropped } } :=
      Settles.beside (by constructor <;> simp; omega) rfl rfl
    exact counted.trans (mirror_settles _)

theorem notify_settles (b : Bridge) (x : Notice) : Settles b (b.notify x) := by
  unfold notify
  split
  case isTrue room =>
    have joined : Settles b { b with notices := { b.notices with queue := b.notices.queue ++ [x] } } :=
      Settles.beside (by constructor <;> simp; omega) rfl rfl
    exact joined.trans (cancelEmptying_settles _)
  · exact dropNotice_settles b x.kind

theorem dequeueNotice_settles (b : Bridge) : Settles b b.dequeueNotice := by
  refine Settles.beside ?_ rfl rfl
  constructor
  case queue =>
    refine Nat.le_trans ?_ (unchanged_within 8 _)
    exact (List.tail_sublist b.notices.queue).length_le
  all_goals simp

theorem dropOldest_settles (b : Bridge) : Settles b b.dropOldest := by
  unfold dropOldest
  split
  · exact Settles.beside (by constructor <;> simp) rfl rfl
  · exact (dequeueNotice_settles b).trans (dropNotice_settles _ _)

@[simp] theorem setPhase_ids (b : Bridge) (id : Nat) (p : RequestPhase) :
    (b.setPhase id p).iport.inflight.map InFlight.id = b.iport.inflight.map InFlight.id := by
  unfold setPhase
  rw [List.map_map]
  exact List.map_congr_left (fun r _ => by dsimp only [Function.comp]; split <;> rfl)

theorem setPhase_settles (b : Bridge) (id : Nat) (p : RequestPhase) : Settles b (b.setPhase id p) :=
  Settles.beside (by constructor <;> simp) rfl rfl

theorem drainList_sublist (blocked : List Initiator) (l : List InFlight) : (drainList blocked l).1.Sublist l := by
  induction l generalizing blocked with
  | nil => exact List.Sublist.refl _
  | cons r l ih =>
    unfold drainList
    split
    · split
      · exact (ih _).cons_cons r
      · exact (ih _).cons r
    all_goals exact (ih _).cons_cons r

theorem drain_settles (b : Bridge) : Settles b b.drain := by
  refine Settles.beside ?_ rfl rfl
  constructor
  case requests => exact (drainList_sublist [] b.iport.inflight).map _
  all_goals simp

theorem answer_settles (b : Bridge) (id : Nat) (ok : Bool) (data : List Byte) : Settles b (b.answer id ok data) :=
  (setPhase_settles b id _).trans (drain_settles _)

theorem recordRefusal_settles (b : Bridge) (t : Tap) (r : Reason) : Settles b (b.recordRefusal t r) := by
  have recorded : Settles b
      (mirror { b with control := { b.control with lastRefusal := ⟨t.initiator, r, t.struct, t.offset⟩ } }) :=
    Settles.trans (b := { b with control := { b.control with lastRefusal := ⟨t.initiator, r, t.struct, t.offset⟩ } })
      (Settles.beside (by constructor <;> simp) rfl rfl) (mirror_settles _)
  unfold recordRefusal
  split
  · exact Settles.refl b
  · split
    · exact recorded.trans (notify_settles _ _)
    · exact recorded

theorem refuseTap_settles (b : Bridge) (t : Tap) (r : Reason) : Settles b (b.refuseTap t r) :=
  (answer_settles b _ _ _).trans (recordRefusal_settles _ t r)

theorem commandEnd_settles (b : Bridge) : Settles b b.commandEnd := by
  have idle : Settles b { b with command := { b.command with state := .idle, held := none, stage := .judged, wake := true } } :=
    Settles.beside (by constructor <;> simp) rfl rfl
  exact idle.trans (activity_settles _)

theorem commandDone_settles (b : Bridge) : Settles b b.commandDone := by
  unfold commandDone
  split
  · split
    · exact (notify_settles _ _).trans (commandEnd_settles _)
    · exact commandEnd_settles b
  · exact Settles.refl b

theorem commandRefused_settles (b : Bridge) (r : Reason) : Settles b (b.commandRefused r) := by
  unfold commandRefused
  split
  · exact (notify_settles _ _).trans (commandEnd_settles _)
  · exact Settles.refl b

theorem forward_settles (b : Bridge) (id : Nat) : Settles b (b.forward id) := by
  unfold forward
  split
  · exact (setPhase_settles b id .forwarded).trans (Settles.beside (by constructor <;> simp) rfl rfl)
  · exact Settles.refl b

@[simp] theorem reclassify_ids (b : Bridge) : b.reclassify.iport.inflight.map InFlight.id = b.iport.inflight.map InFlight.id := by
  unfold reclassify
  rw [List.map_map]
  exact List.map_congr_left (fun r _ => by dsimp only [Function.comp]; split <;> rfl)

theorem reclassify_settles (b : Bridge) : Settles b b.reclassify := Settles.beside (by constructor <;> simp) rfl rfl

/-! ## Entries -/

/-- An entry with another waiting list, held writes or marks: what `Settles` reads is the same. -/
def SameCopy (e e' : Entry) : Prop :=
  e'.index = e.index ∧ e'.copy = e.copy ∧ e'.pin = e.pin ∧ e'.reservation = e.reservation ∧ e'.busy = e.busy

/-- Entries are changed, each keeping its index, and giving up its claim or keeping it. -/
theorem CacheOk.of_map {b b' : Bridge} (f : Entry → Entry) (cache : b'.cache = b.cache.map f) (misses : b'.misses = b.misses)
    (index : ∀ e ∈ b.cache, (f e).index = e.index) (claim : ∀ e ∈ b.cache, (f e).claim = none ∨ (f e).claim = e.claim)
    (h : CacheOk b) : CacheOk b' := by
  obtain ⟨bounded, distinct, missing⟩ := h
  unfold CacheOk
  rw [cache, misses, List.length_map, indices_map f b.cache index]
  exact ⟨bounded, distinct.sublist ((List.Sublist.refl _).append (claims_sublist f b.cache claim)), missing⟩

theorem CacheOk.setEntry {b : Bridge} (n : Nat) (f : Entry → Entry)
    (index : ∀ e ∈ b.cache, e.index = n → (f e).index = e.index)
    (claim : ∀ e ∈ b.cache, e.index = n → (f e).claim = none ∨ (f e).claim = e.claim) (h : CacheOk b) :
    CacheOk (b.setEntry n f) := by
  refine CacheOk.of_map _ rfl rfl (fun e mem => ?_) (fun e mem => ?_) h
  · split
    case isTrue here => exact index e mem here
    case isFalse => rfl
  · split
    case isTrue here => exact claim e mem here
    case isFalse => exact Or.inr rfl

theorem claim_eq_none_of {e : Entry} (h : e.state = .clean ∨ e.state = .dirty ∨ e.state.isFetching = true) : e.claim = none := by
  unfold Entry.claim
  rcases h with same | same | fetching
  · rw [same]
  · rw [same]
  · split
    case h_1 same => rw [same] at fetching; cases fetching
    case h_2 => rfl

/-- A change of one entry that keeps its working copy, with its index and what stands on it. -/
theorem setEntry_settles {b : Bridge} (n : Nat) (f : Entry → Entry)
    (copy : ∀ e ∈ b.cache, e.index = n → SameCopy e (f e))
    (claim : ∀ e ∈ b.cache, e.index = n → (f e).claim = none ∨ (f e).claim = e.claim)
    (there : CacheOk b → ∀ e ∈ b.cache, e.index = n → (f e).state.isFetching = false → e.state.isFetching = false) :
    Settles b (b.setEntry n f) := by
  refine Settles.of (by constructor <;> simp) (CacheOk.setEntry n f (fun e mem here => (copy e mem here).1) claim) (fun ok e' mem fetched => ?_)
  obtain ⟨e, was, rfl⟩ := List.mem_map.mp mem
  refine ⟨e, was, ?_⟩
  split at fetched
  case isTrue here =>
    rw [if_pos here]
    exact ⟨there ok e was here fetched, copy e was here⟩
  case isFalse away =>
    rw [if_neg away]
    exact ⟨fetched, rfl, rfl, rfl, rfl, rfl⟩

/-- A change of the lists and marks of one entry. -/
theorem setEntry_lists_settles (b : Bridge) (n : Nat) (f : Entry → Entry) (copy : ∀ e, SameCopy e (f e))
    (state : ∀ e, (f e).state = e.state) : Settles b (b.setEntry n f) :=
  setEntry_settles n f (fun e _ _ => copy e)
    (fun e _ _ => Or.inr (by unfold Entry.claim; rw [state e]))
    (fun _ e _ _ fetched => by rwa [state e] at fetched)

theorem entry?_eq_none {b : Bridge} {n : Nat} (h : b.entry? n = none) : n ∉ b.cache.map Entry.index := by
  intro mem
  obtain ⟨e, there, index⟩ := List.mem_map.mp mem
  have absent := List.find?_eq_none.mp h e there
  simp [index] at absent

/-- An operation misses an index that no entry holds. -/
theorem miss_settles (b : Bridge) (n : Nat) (op : CacheOp) (absent : n ∉ b.cache.map Entry.index) :
    Settles b { b with misses := b.misses ++ [(n, op)] } := by
  refine Settles.of (by constructor <;> simp) (fun ⟨bounded, distinct, missing⟩ => ⟨bounded, distinct, fun p mem => ?_⟩)
    (fun _ => Held.of_subset (List.Subset.refl _))
  rcases List.mem_append.mp mem with before | new
  · exact missing p before
  · rw [List.mem_singleton.mp new]
    exact absent

theorem enqueue_settles (b : Bridge) (n : Nat) (op : CacheOp) : Settles b (b.enqueue n op) := by
  unfold enqueue
  split
  · exact setEntry_lists_settles b n _ (fun _ => ⟨rfl, rfl, rfl, rfl, rfl⟩) (fun _ => rfl)
  case h_2 absent => exact miss_settles b n op (entry?_eq_none absent)

theorem popFront_settles (b : Bridge) (n : Nat) : Settles b (b.popFront n) :=
  setEntry_lists_settles b n _ (fun _ => ⟨rfl, rfl, rfl, rfl, rfl⟩) (fun _ => rfl)

theorem CacheOk.apart {b : Bridge} (h : CacheOk b) : Apart b := Apart.ofCacheOk h

/-- The entries in another order. -/
theorem CacheOk.of_perm {b b' : Bridge} (cache : b'.cache.Perm b.cache) (misses : b'.misses = b.misses) (h : CacheOk b) :
    CacheOk b' := by
  obtain ⟨bounded, distinct, missing⟩ := h
  refine ⟨cache.length_eq ▸ bounded,
    (((cache.map Entry.index).append (cache.filterMap Entry.claim)).nodup_iff).mpr distinct, fun p mem held => ?_⟩
  exact missing p (misses ▸ mem) ((cache.map Entry.index).mem_iff.mp held)

theorem startOp_of_none {b : Bridge} {n : Nat} (h : b.entry? n = none) : b.startOp n = b := by
  unfold startOp
  rw [h]

theorem startOp_of_some {b : Bridge} {n : Nat} {e : Entry} (h : b.entry? n = some e) : b.startOp n =
    { b with cache := { e with waiting := e.waiting.tail } :: b.cache.filter (fun x => x.index != n) } := by
  unfold startOp
  rw [h]

theorem startOp_settles (b : Bridge) (n : Nat) : Settles b (b.startOp n) := by
  cases found : b.entry? n with
  | none =>
    rw [startOp_of_none found]
    exact Settles.refl b
  | some e =>
    have popped := popFront_settles b n
    rw [startOp_of_some found]
    refine Settles.of (by constructor <;> simp) (fun ok => ?_) (fun _ x mem fetched => ?_)
    · have perm := startOp_perm ok.apart found
      rw [startOp_of_some found] at perm
      exact CacheOk.of_perm (b := b.popFront n) perm rfl (popped.cache ok)
    · rcases List.mem_cons.mp mem with rfl | rest
      · exact ⟨e, (entry?_mem b n e found).1, fetched, rfl, rfl, rfl, rfl, rfl⟩
      · exact ⟨x, (List.mem_filter.mp rest).1, fetched, rfl, rfl, rfl, rfl, rfl⟩

/-! ## TABLE requests (R116 to R120) -/

theorem passOn_settles (b : Bridge) (r : InFlight) : Settles b (b.passOn r) := by
  unfold passOn
  split
  · exact setPhase_settles ..
  · split
    · exact setPhase_settles ..
    · exact forward_settles ..

theorem snoopRead_settles (b : Bridge) (r : InFlight) (todo : List Nat) : Settles b (b.snoopRead r todo) := by
  induction todo with
  | nil => exact passOn_settles b r
  | cons n rest ih =>
    unfold snoopRead
    split
    · exact ih
    · split
      · exact ih
      · exact (enqueue_settles ..).trans (setPhase_settles ..)

theorem holdRequest_settles (b : Bridge) (n : Nat) (r : InFlight) : Settles b (b.holdRequest n r) :=
  (setEntry_lists_settles b n (fun e => { e with held := e.held ++ [r.id] }) (fun _ => ⟨rfl, rfl, rfl, rfl, rfl⟩)
    (fun _ => rfl)).trans (setPhase_settles ..)

theorem snoopWrite_settles (b : Bridge) (r : InFlight) (todo : List Nat) : Settles b (b.snoopWrite r todo) := by
  unfold snoopWrite
  split
  · exact holdRequest_settles ..
  · split
    · exact passOn_settles b r
    · exact (enqueue_settles ..).trans (setPhase_settles ..)

theorem snoop_settles (b : Bridge) (r : InFlight) (todo : List Nat) : Settles b (b.snoop r todo) := by
  unfold snoop
  split
  · exact snoopWrite_settles ..
  · exact snoopRead_settles ..

theorem beginSnoop_settles (b : Bridge) (r : InFlight) : Settles b (b.beginSnoop r) := by
  unfold beginSnoop
  dsimp only
  split
  · exact setPhase_settles ..
  · exact snoop_settles ..

theorem allow_settles (b : Bridge) (n id : Nat) : Settles b (b.allow n id) := by
  unfold allow
  split
  · split
    case h_1 =>
      split
      · exact snoop_settles ..
      · exact Settles.refl b
    all_goals exact Settles.refl b
  · exact Settles.refl b

theorem hold_settles (b : Bridge) (n id : Nat) : Settles b (b.hold n id) := by
  unfold hold
  split
  · exact holdRequest_settles ..
  · exact setEntry_lists_settles b n _ (fun _ => ⟨rfl, rfl, rfl, rfl, rfl⟩) (fun _ => rfl)

/-- A fold of operations that settle. -/
theorem foldl_settles {α : Type} (f : Bridge → α → Bridge) (l : List α) (h : ∀ b x, Settles b (f b x)) (b : Bridge) :
    Settles b (l.foldl f b) := by
  induction l generalizing b with
  | nil => exact Settles.refl b
  | cons x l ih => exact (h b x).trans (ih _)

theorem freeMoveWaiters_settles (b : Bridge) : Settles b b.freeMoveWaiters :=
  foldl_settles _ _ (fun b r => by
    split
    case h_1 => exact snoop_settles ..
    all_goals exact Settles.refl b) b

theorem freeMirrorWaiters_settles (b : Bridge) : Settles b b.freeMirrorWaiters :=
  foldl_settles _ _ (fun b r => by
    split
    · split
      · exact passOn_settles ..
      · exact forward_settles ..
    · exact Settles.refl b) b

/-! ## Entries that leave the cache, and entries that are taken -/

theorem CacheOk.of_sublist {b b' : Bridge} (cache : b'.cache.Sublist b.cache) (misses : b'.misses = b.misses)
    (h : CacheOk b) : CacheOk b' := by
  obtain ⟨bounded, distinct, missing⟩ := h
  exact ⟨Nat.le_trans cache.length_le bounded,
    distinct.sublist ((cache.map Entry.index).append (cache.filterMap Entry.claim)),
    fun p mem held => missing p (misses ▸ mem) ((cache.map Entry.index).subset held)⟩

theorem remove_settles (b : Bridge) (p : Entry → Bool) : Settles b { b with cache := b.cache.filter p } :=
  Settles.of (by constructor <;> simp) (CacheOk.of_sublist List.filter_sublist rfl) (fun _ => Held.of_subset List.filter_sublist.subset)

/-- The operations of an entry that was dropped go on; no entry comes to hold an index, and none gives it up. -/
theorem orphan_settles (b : Bridge) (n : Nat) (op : CacheOp) (absent : n ∉ b.cache.map Entry.index) :
    Settles b (orphan n b op) ∧ (orphan n b op).cache.map Entry.index = b.cache.map Entry.index
      ∧ (orphan n b op).cache.filterMap Entry.claim = b.cache.filterMap Entry.claim := by
  unfold orphan
  split
  · exact ⟨allow_settles .., (allow_grows ..).indices, (allow_grows ..).claims⟩
  · exact ⟨allow_settles .., (allow_grows ..).indices, (allow_grows ..).claims⟩
  · exact ⟨commandDone_settles b, by simp, by simp⟩
  all_goals exact ⟨miss_settles b n _ absent, rfl, rfl⟩

theorem orphans_settle (b : Bridge) (n : Nat) (ops : List CacheOp) (absent : n ∉ b.cache.map Entry.index) :
    Settles b (ops.foldl (orphan n) b) ∧ (ops.foldl (orphan n) b).cache.map Entry.index = b.cache.map Entry.index
      ∧ (ops.foldl (orphan n) b).cache.filterMap Entry.claim = b.cache.filterMap Entry.claim := by
  induction ops generalizing b with
  | nil => exact ⟨Settles.refl b, rfl, rfl⟩
  | cons op ops ih =>
    obtain ⟨first, indices, claims⟩ := orphan_settles b n op absent
    obtain ⟨rest, indices', claims'⟩ := ih (orphan n b op) (indices ▸ absent)
    exact ⟨first.trans rest, indices'.trans indices, claims'.trans claims⟩

theorem dropEntry_settles (b : Bridge) (e : Entry) :
    Settles b (b.dropEntry e)
      ∧ (b.dropEntry e).cache.map Entry.index = (b.cache.filter (fun x => x.index != e.index)).map Entry.index
      ∧ (b.dropEntry e).cache.filterMap Entry.claim
        = (b.cache.filter (fun x => x.index != e.index)).filterMap Entry.claim := by
  obtain ⟨orphans, indices, claims⟩ := orphans_settle
    { b with cache := b.cache.filter (fun x => x.index != e.index) } e.index e.waiting filter_index
  exact ⟨(remove_settles b _).trans orphans, indices, claims⟩

/-- A free entry takes an index that is neither held nor claimed. -/
theorem allocate_settles {b : Bridge} {n : Nat} (room : b.cache.length < 16) (absent : n ∉ b.cache.map Entry.index)
    (unclaimed : n ∉ b.cache.filterMap Entry.claim) : Settles b (b.allocate n) := by
  refine Settles.of (by constructor <;> simp) (fun ⟨_, distinct, missing⟩ => ⟨room, ?_, fun p mem => ?_⟩) (fun _ x mem fetched => ?_)
  · exact List.nodup_cons.mpr ⟨fun mem => (List.mem_append.mp mem).elim absent unclaimed, distinct⟩
  · obtain ⟨was, other⟩ := List.mem_filter.mp mem
    exact mt List.mem_cons.mp (not_or.mpr ⟨by simpa using other, missing p was⟩)
  · rcases List.mem_cons.mp mem with rfl | rest
    · cases fetched
    · exact ⟨x, rest, fetched, rfl, rfl, rfl, rfl, rfl⟩

/-- A working copy is written back, for no claim. -/
theorem startWriteBack_settles {b : Bridge} {e : Entry} (r : WriteBackFor) (mem : e ∈ b.cache)
    (there : e.state.isFetching = false) (plain : ∀ n, r ≠ .claim n) : Settles b (b.startWriteBack e r) := by
  have unclaimed (x : Entry) : ({ x with state := .writing r } : Entry).claim = none := by
    cases r with
    | claim n => exact absurd rfl (plain n)
    | must | tableRead | other => rfl
  have writing : Settles b (b.setEntry e.index (fun x => { x with state := .writing r })) :=
    setEntry_settles e.index _ (fun _ _ _ => ⟨rfl, rfl, rfl, rfl, rfl⟩) (fun x _ _ => Or.inl (unclaimed x))
      (fun ok x was here _ => by rwa [ok.apart.eq was mem here])
  exact writing.trans (issue_settles ..)

/-- An unclaimed entry is claimed for an index that is neither held nor claimed. -/
theorem startClaim_settles {b : Bridge} {e : Entry} {n : Nat} (mem : e ∈ b.cache) (there : e.state.isFetching = false)
    (free : e.claim = none) (absent : CacheOk b → n ∉ b.cache.map Entry.index)
    (unclaimed : n ∉ b.cache.filterMap Entry.claim) : Settles b (b.startWriteBack e (.claim n)) := by
  have index : ∀ x ∈ b.cache,
      (if x.index = e.index then { x with state := .writing (.claim n) } else x).index = x.index := fun x _ => by
    split <;> rfl
  have claims : Settles b (b.setEntry e.index (fun x => { x with state := .writing (.claim n) })) := by
    refine Settles.of (by constructor <;> simp) (fun ok => ?_) (fun ok x' mem' _ => ?_)
    · have perm := filterMap_update b.cache e n ok.apart.indices mem free
      unfold CacheOk Bridge.setEntry
      dsimp only
      rw [List.length_map, indices_map _ _ index]
      refine ⟨ok.1, ((List.Perm.refl _).append perm).nodup_iff.mpr (List.perm_middle.nodup_iff.mpr ?_), ok.2.2⟩
      exact List.nodup_cons.mpr ⟨fun clash => (List.mem_append.mp clash).elim (absent ok) unclaimed, ok.2.1⟩
    · obtain ⟨x, was, rfl⟩ := List.mem_map.mp mem'
      by_cases here : x.index = e.index
      · rw [if_pos here]
        exact ⟨x, was, by rwa [ok.apart.eq was mem here], rfl, rfl, rfl, rfl, rfl⟩
      · rename_i fetched
        rw [if_neg here] at fetched ⊢
        exact ⟨x, was, fetched, rfl, rfl, rfl, rfl, rfl⟩
  exact claims.trans (issue_settles ..)

/-! ## What the bridge does by itself -/

theorem issueFetch_settles (b : Bridge) (n : Nat) : Settles b (b.issueFetch n) :=
  (setEntry_settles n (fun x => { x with state := .fetching true }) (fun _ _ _ => ⟨rfl, rfl, rfl, rfl, rfl⟩)
    (fun _ _ _ => Or.inl rfl) (fun _ _ _ _ fetched => nomatch fetched)).trans (issue_settles ..)

theorem frontTurn_settles {b b' : Bridge} {e : Entry} (mem : e ∈ b.cache) (h : b.frontTurn e = some b') : Settles b b' := by
  have writes (r : WriteBackFor) (ready : e.ready = true) (plain : ∀ n, r ≠ .claim n) : Settles b (b.startWriteBack e r) :=
    startWriteBack_settles r mem (ready_state ready).2.2.1 plain
  have other : ∀ n, WriteBackFor.other ≠ .claim n := fun _ same => nomatch same
  unfold frontTurn at h
  split at h
  case isTrue ready =>
    split at h
    · cases h; exact writes _ ready other
    · split at h
      case h_1 =>
        split at h <;> cases h
        exact (startOp_settles b _).trans (refuseTap_settles ..)
      case h_2 =>
        split at h <;> cases h
        · exact (popFront_settles b _).trans (allow_settles ..)
        · exact writes _ ready (fun _ same => nomatch same)
      case h_3 =>
        split at h
        · cases h; exact (popFront_settles b _).trans (hold_settles ..)
        · split at h <;> cases h
          · exact (dropEntry_settles b e).1
          · exact writes _ ready other
      case h_4 =>
        split at h
        · cases h; exact setEntry_lists_settles b _ _ (fun _ => ⟨rfl, rfl, rfl, rfl, rfl⟩) (fun _ => rfl)
        · split at h <;> cases h
          · exact (dropEntry_settles b e).1
          · exact writes _ ready other
      case h_9 =>
        split at h <;> cases h
        exact writes _ ready other
      all_goals cases h
  case isFalse =>
    split at h <;> cases h
    exact issueFetch_settles ..

theorem holdWrite_settles {b b' : Bridge} {e : Entry} (h : b.holdWrite e = some b') : Settles b b' := by
  unfold holdWrite at h
  split at h
  · split at h <;> cases h
    refine Settles.trans ?_ (hold_settles ..)
    exact setEntry_lists_settles b _ _ (fun _ => ⟨rfl, rfl, rfl, rfl, rfl⟩) (fun _ => rfl)
  · cases h

theorem turns_settles {b b' : Bridge} (l : List Entry) (inCache : ∀ e ∈ l, e ∈ b.cache) (h : b.turns l = some b') :
    Settles b b' := by
  induction l with
  | nil => cases h
  | cons e l ih =>
    unfold turns at h
    split at h
    case h_1 x turn =>
      cases h
      rcases Option.or_eq_some_iff.mp turn with front | ⟨-, held⟩
      · exact frontTurn_settles (inCache e List.mem_cons_self) front
      · exact holdWrite_settles held
    case h_2 => exact ih (fun x later => inCache x (List.mem_cons_of_mem _ later)) h

theorem not_claimed {b : Bridge} {n : Nat} (h : b.claimed n = false) : n ∉ b.cache.filterMap Entry.claim := by
  intro mem
  obtain ⟨e, there, claim⟩ := List.mem_filterMap.mp mem
  have none_claims := List.any_eq_false.mp h e there
  unfold Entry.claim at claim
  split at claim
  case h_1 k state => cases claim; simp [state] at none_claims
  case h_2 => cases claim

theorem leastRecent_mem {b : Bridge} {p : Entry → Bool} {e : Entry} (h : b.leastRecent p = some e) : e ∈ b.cache ∧ p e = true :=
  ⟨List.mem_reverse.mp (List.mem_of_find?_eq_some h), List.find?_some h⟩

theorem idle_ready {e : Entry} (h : e.idle = true) : e.ready = true := by
  unfold Entry.idle at h
  simp only [Bool.and_eq_true] at h
  exact h.1.1

theorem filter_length_lt {l : List Entry} {e : Entry} (mem : e ∈ l) :
    (l.filter (fun x => x.index != e.index)).length < l.length :=
  List.length_filter_lt_length_iff_exists.mpr ⟨e, mem, by simp⟩

theorem serveMiss_settles {b b' : Bridge} (h : b.serveMiss = some b') : Settles b b' := by
  unfold serveMiss at h
  split at h
  case h_1 => cases h
  case h_2 n op oldest =>
    have absent (ok : CacheOk b) : n ∉ b.cache.map Entry.index := ok.2.2 _ (List.mem_of_find?_eq_some oldest)
    have unclaimed : n ∉ b.cache.filterMap Entry.claim := not_claimed (by simpa using List.find?_some oldest)
    split at h
    case isTrue room =>
      cases h
      have taken (ok : CacheOk b) : Settles b (b.allocate n) := allocate_settles room (absent ok) unclaimed
      exact Settles.of (by constructor <;> simp) (fun ok => (taken ok).cache ok) (fun ok => (taken ok).held ok)
    case isFalse =>
      split at h
      case h_1 e victim =>
        cases h
        have mem := (leastRecent_mem victim).1
        have removed := remove_settles b (fun x => x.index != e.index)
        have taken (ok : CacheOk b) := removed.trans (allocate_settles (n := n)
          (Nat.lt_of_lt_of_le (filter_length_lt mem) ok.1)
          ((removed.cache ok).2.2 _ (List.mem_of_find?_eq_some oldest))
          (fun claim => unclaimed ((List.filter_sublist.filterMap Entry.claim).subset claim)))
        exact Settles.of (by constructor <;> simp) (fun ok => (taken ok).cache ok) (fun ok => (taken ok).held ok)
      case h_2 =>
        split at h
        case h_1 e victim =>
          cases h
          obtain ⟨mem, test⟩ := leastRecent_mem victim
          obtain ⟨-, -, there, free⟩ := ready_state (idle_ready (Bool.and_eq_true_iff.mp test).1)
          exact startClaim_settles mem there free absent unclaimed
        case h_2 => cases h

theorem mustStep_settles {b b' : Bridge} (h : b.mustStep = some b') : Settles b b' := by
  unfold mustStep at h
  split at h
  · cases h
  · split at h
    · split at h
      · cases h; exact Settles.beside (by constructor <;> simp) rfl rfl
      · split at h
        · split at h
          case h_1 e victim =>
            cases h
            obtain ⟨mem, test⟩ := leastRecent_mem victim
            obtain ⟨-, -, there, -⟩ := ready_state (idle_ready (Bool.and_eq_true_iff.mp test).1)
            exact startWriteBack_settles _ mem there (fun _ same => nomatch same)
          case h_2 => cases h
        · cases h
    · split at h <;> cases h
      exact Settles.beside (by constructor <;> simp) rfl rfl

theorem flushStep_settles {b b' : Bridge} (h : b.flushStep = some b') : Settles b b' := by
  unfold flushStep at h
  split at h
  · split at h <;> cases h
    exact commandDone_settles b
  · cases h

theorem freeAll_settles (b : Bridge) : Settles b b.freeAll :=
  Settles.of (by constructor <;> simp) (fun _ => ⟨Nat.zero_le _, List.nodup_nil, fun _ mem => nomatch mem⟩)
    (fun _ _ mem => nomatch (mem : _ ∈ ([] : List Entry)))

theorem enterPass_settles (b : Bridge) : Settles b b.enterPass := by
  have cleared : Settles b.freeAll { b.freeAll with control := { b.control with
      settings := none, stopStage := .none, emptying := false, idleTimer := none, audit := none, findings := [] } } :=
    Settles.beside (by constructor <;> simp) rfl rfl
  exact (freeAll_settles b).trans (cleared.trans ((setState_settles ..).trans (reclassify_settles _)))

theorem emptyStep_settles {b b' : Bridge} (h : b.emptyStep = some b') : Settles b b' := by
  unfold emptyStep at h
  split at h
  · cases h
    have stopped : Settles b.freeAll
        { b.freeAll with control := { b.control with emptying := false, idleTimer := none } } :=
      Settles.beside (by constructor <;> simp) rfl rfl
    exact (freeAll_settles b).trans (stopped.trans (setState_settles ..))
  · split at h
    · cases h; exact enterPass_settles b
    · split at h
      · cases h
        have counted : Settles b { b with control := { b.control with clearedPending := 0 } } :=
          Settles.beside (by constructor <;> simp) rfl rfl
        exact counted.trans (enterPass_settles _)
      · split at h <;> cases h
        exact enterPass_settles b

theorem autoStep_settles {b b' : Bridge} (h : b.autoStep = some b') : Settles b b' := by
  unfold autoStep at h
  rcases Option.or_eq_some_iff.mp h with turn | ⟨-, h⟩
  · exact turns_settles _ (fun e mem => List.mem_reverse.mp mem) turn
  rcases Option.or_eq_some_iff.mp h with miss | ⟨-, h⟩
  · exact serveMiss_settles miss
  rcases Option.or_eq_some_iff.mp h with must | ⟨-, h⟩
  · exact mustStep_settles must
  rcases Option.or_eq_some_iff.mp h with flush | ⟨-, h⟩
  · exact flushStep_settles flush
  · exact emptyStep_settles h

theorem settleFor_settles (k : Nat) (b : Bridge) : Settles b (settleFor k b) := by
  induction k generalizing b with
  | zero => exact Settles.refl b
  | succ k ih =>
    unfold settleFor
    split
    case h_1 b' next => exact (autoStep_settles next).trans (ih b')
    case h_2 => exact Settles.refl b

theorem settle_settles (b : Bridge) : Settles b b.settle := settleFor_settles _ b

/-! ## Settling ends -/

theorem Held.copiesKept {b b' : Bridge} (h : Held b b') (ok : CacheOk b) : CopiesKept b b' := by
  intro n e' found fetched
  obtain ⟨mem', index'⟩ := entry?_mem b' n e' found
  have there : e'.state.isFetching = false := by
    cases state : e'.state with
    | fetching issued => exact absurd state (fetched issued)
    | clean | dirty | writing => rfl
  obtain ⟨e, mem, -, index, kept⟩ := h e' mem' there
  refine ⟨e, ?_, kept⟩
  rw [← index', index]
  exact ok.apart.entry? mem

theorem Tidy.of_invariants {b : Bridge} (cache : CacheOk b) (handles : HandlesOk b) (levels : SettingsOk b) : Tidy b :=
  ⟨cache.apart.indices, cache.2.2, handles.1, levels⟩

/-- The bound of settling is enough: nothing is left, and a larger bound gives the same. -/
theorem settleFor_eq_settle {b : Bridge} (tidy : Tidy b) {k : Nat} (enough : b.workLeft ≤ k) : settleFor k b = b.settle := by
  have least := (settleFor_ends b.workLeft b tidy (Nat.le_refl _)).2
  rw [least k enough]
  exact (least b.settleBound (workLeft_le_settleBound b)).symm

theorem settle_of_autoStep_none {b : Bridge} (h : b.autoStep = none) : b.settle = b := by
  unfold settle
  cases b.settleBound with
  | zero => rfl
  | succ k => rw [settleFor, h]

theorem settle_of_autoStep_some {b b' : Bridge} (tidy : Tidy b) (h : b.autoStep = some b') : b.settle = b'.settle := by
  have tidy' := (autoStep_ends b b' tidy h).1
  rw [← settleFor_eq_settle tidy (show b.workLeft ≤ b.workLeft + (b'.workLeft + 1) by omega)]
  rw [← settleFor_eq_settle tidy' (show b'.workLeft ≤ b.workLeft + b'.workLeft by omega), ← Nat.add_assoc, settleFor, h]

/-- Settles O10: each thing that the bridge does by itself is a `Settles`, and the measure of Settle.lean bounds their number. -/
theorem settlingKeepsCopiesAndEngine : Obligations.SettlingKeepsCopiesAndEngine := by
  intro b
  have settles := settle_settles b
  refine ⟨settles.engine, settles.trigger, settles.outstanding, settles.count, settles.straps, settles.draws,
    fun ok => (settles.held ok).copiesKept ok, fun cache handles levels => ?_⟩
  have tidy := Tidy.of_invariants cache handles levels
  exact ⟨(settleFor_ends _ b tidy (workLeft_le_settleBound b)).1, settle_of_autoStep_none,
    fun _ next => settle_of_autoStep_some tidy next⟩

end Sys2Proof.Machine
end

