-- ==== Sys2Proof/Proofs/OperationsKeepCounts.lean ====
section
/-! The invariants about counts, handles, settings and indices last through every step (R102, R106, R108, R115, R148, R168, R170,
R174, R179): one lemma for each operation of a row, then the rows. The laws of the structures are those of Laws/Rows.lean. -/

namespace Sys2Proof.Machine

open Bridge

/-- An operation beside the cache, the pending set and the requests in flight. -/
theorem Orderly.beside {b b' : Bridge} (counts : Counts b b') (cache : b'.cache = b.cache) (misses : b'.misses = b.misses)
    (pending : b'.trigger.pending = b.trigger.pending) : Orderly b b' :=
  Orderly.of counts (CacheOk.congr cache misses) (PendingOk.congr pending)

/-- A fold of operations that keep the invariants. -/
theorem foldl_orderly {α : Type} (f : Bridge → α → Bridge) (l : List α) (h : ∀ b x, Orderly b (f b x)) (b : Bridge) :
    Orderly b (l.foldl f b) := by
  induction l generalizing b with
  | nil => exact Orderly.refl b
  | cons x l ih => exact (h b x).trans (ih _)

/-! ## Working copies -/

/-- One entry is changed and keeps its index, and its claim or none. -/
theorem setEntry_orderly (b : Bridge) (n : Nat) (f : Entry → Entry) (index : ∀ e, (f e).index = e.index)
    (claim : ∀ e, (f e).claim = none ∨ (f e).claim = e.claim) : Orderly b (b.setEntry n f) :=
  Orderly.of (by constructor <;> simp) (CacheOk.setEntry n f (fun e _ _ => index e) (fun e _ _ => claim e)) (PendingOk.congr rfl)

/-- One entry is changed beside its index and state. -/
theorem setEntry_state_orderly (b : Bridge) (n : Nat) (f : Entry → Entry) (index : ∀ e, (f e).index = e.index)
    (state : ∀ e, (f e).state = e.state) : Orderly b (b.setEntry n f) :=
  setEntry_orderly b n f index (fun e => Or.inr (by unfold Entry.claim; rw [state e]))

theorem withCopy_claim (e : Entry) (d : Descriptor) : (e.withCopy d).claim = none ∨ (e.withCopy d).claim = e.claim := by
  unfold Entry.withCopy
  split
  · exact Or.inr rfl
  · exact Or.inl rfl

theorem writeCopy_orderly (b : Bridge) (n : Nat) (d : Descriptor) : Orderly b (b.writeCopy n d) :=
  setEntry_orderly b n _ (fun e => (withCopy_frame e d).1) (fun e => withCopy_claim e d)

theorem beginItem_orderly (b : Bridge) (n : Nat) (w : ItemWork) (p : Party) (stack write : Bool) (addr : Nat)
    (data : List Byte) (k : Nat) : Orderly b (b.beginItem n w p stack write addr data k) :=
  (setEntry_state_orderly b n (fun e => { e with busy := some ⟨w, p⟩ }) (fun _ => rfl) (fun _ => rfl)).trans
    (issue_settles ..).toOrderly

theorem endBusy_orderly (b : Bridge) (n : Nat) : Orderly b (b.endBusy n) :=
  setEntry_state_orderly b n _ (fun _ => rfl) (fun _ => rfl)

theorem insertPending_mem (l : List PendingMove) (p : PendingMove) :
    ∀ x ∈ insertPending l p, x = p ∨ x ∈ l := by
  induction l with
  | nil => exact fun x mem => Or.inl (List.mem_singleton.mp mem)
  | cons q l ih =>
    intro x mem
    unfold insertPending at mem
    split at mem
    · exact List.mem_cons.mp mem
    · split at mem
      · exact Or.inr mem
      · rcases List.mem_cons.mp mem with first | later
        · exact Or.inr (List.mem_cons.mpr (Or.inl first))
        · exact (ih x later).imp_right (List.mem_cons_of_mem q)

/-- A post keeps the pending set in rising order (R150, R151). -/
theorem insertPending_pairwise (l : List PendingMove) (p : PendingMove) (rising : l.Pairwise (fun x y => x.move < y.move)) :
    (insertPending l p).Pairwise (fun x y => x.move < y.move) := by
  induction l with
  | nil => exact List.pairwise_singleton _ _
  | cons q l ih =>
    obtain ⟨least, rest⟩ := List.pairwise_cons.mp rising
    unfold insertPending
    split
    case isTrue below =>
      refine List.pairwise_cons.mpr ⟨fun x mem => ?_, rising⟩
      rcases List.mem_cons.mp mem with rfl | later
      · exact below
      · exact Nat.lt_trans below (least x later)
    case isFalse not_below =>
      split
      · exact rising
      case isFalse other =>
        refine List.pairwise_cons.mpr ⟨fun x mem => ?_, ih rest⟩
        rcases insertPending_mem l p x mem with rfl | was
        · omega
        · exact least x was

theorem post_orderly (b : Bridge) (m : Nat) (o : ChainOrigin) : Orderly b (b.post m o) := by
  unfold post
  split
  · exact Orderly.of (by constructor <;> simp) id (insertPending_pairwise _ _)
  · exact Orderly.refl b

@[simp] theorem judgeLines_dropped (b : Bridge) (n : Nat) (d : Descriptor) (x y : Bool) :
    (b.judgeLines n d x y).control.dropped = b.control.dropped := rfl

theorem judgeLines_orderly (b : Bridge) (n : Nat) (d : Descriptor) (x y : Bool) : Orderly b (b.judgeLines n d x y) :=
  Orderly.beside (by constructor <;> simp) rfl rfl rfl

/-- The command unit hears of structure 0. -/
theorem wakeFor_orderly (b : Bridge) (n : Nat) : Orderly b (if n = 0 then b.wakeCommand else b) := by
  split
  · exact (wakeCommand_settles b).toOrderly
  · exact Orderly.refl b

theorem report_orderly (b : Bridge) (n : Nat) (before after : Descriptor) (i : Option Initiator) (m : Option Nat) :
    Orderly b (b.report n before after i m) := by
  unfold report
  dsimp only
  refine Orderly.trans (Orderly.trans ?_ (judgeLines_orderly ..)) (wakeFor_orderly ..)
  have posted : Orderly b (if (!before.holds && after.holds) && after.armed then
      b.post after.triggerMove.toNat (.structure n) else b) := by
    split
    · exact post_orderly ..
    · exact Orderly.refl b
  split
  · exact posted.trans (notify_settles ..).toOrderly
  · exact posted

theorem halt_orderly (b : Bridge) (n : Nat) (d : Descriptor) (c : Byte) : Orderly b (b.halt n d c) := by
  unfold halt
  split
  · exact Orderly.refl b
  · exact (writeCopy_orderly b n _).trans (notify_settles ..).toOrderly

theorem changeLevel_orderly (b : Bridge) (n : Nat) (before after : Descriptor) (p : Party) :
    Orderly b (b.changeLevel n before after p) := (writeCopy_orderly b n after).trans (report_orderly ..)

theorem takeYieldsNothing_orderly (b : Bridge) (x : Bool) : Orderly b (b.takeYieldsNothing x) :=
  Orderly.beside (by constructor <;> simp) rfl rfl rfl

/-! ## The move engine -/

/-- The engine's own fields change. -/
theorem engine_orderly (b : Bridge) (x : Engine) : Orderly b { b with engine := x } :=
  Orderly.beside (by constructor <;> simp) rfl rfl rfl

theorem setMoveCopy_orderly (b : Bridge) (d : MoveDescriptor) : Orderly b (b.setMoveCopy d) := engine_orderly b _

theorem loadMove_orderly (b : Bridge) (m run : Nat) : Orderly b (b.loadMove m run) :=
  (engine_orderly b _).trans ((issue_settles ..).toOrderly.trans (activity_settles _).toOrderly)

theorem clearReservation_orderly (b : Bridge) (n : Nat) : Orderly b (b.clearReservation n) :=
  setEntry_state_orderly b n _ (fun _ => rfl) (fun _ => rfl)

theorem clearDestination_orderly (b : Bridge) : Orderly b b.clearDestination := by
  unfold clearDestination
  split
  · exact clearReservation_orderly ..
  · exact Orderly.refl b

theorem endRun_orderly (b : Bridge) (code : RunEnd) (lost : Bool) (st : Option Nat) : Orderly b (b.endRun code lost st) := by
  unfold endRun
  exact (clearDestination_orderly b).trans (((engine_orderly _ _).trans (engine_orderly _ _)).trans
    (issue_settles ..).toOrderly)

theorem startItem_orderly (b : Bridge) : Orderly b b.startItem := by
  unfold startItem
  split
  · exact endRun_orderly ..
  · split
    · exact endRun_orderly ..
    · split
      · exact engine_orderly ..
      · exact (engine_orderly b _).trans (engine_orderly _ _)

theorem startRunning_orderly (b : Bridge) : Orderly b b.startRunning := by
  unfold startRunning
  split
  · exact endRun_orderly ..
  · exact (engine_orderly b _).trans (startItem_orderly _)

theorem startPins_orderly (b : Bridge) : Orderly b b.startPins := by
  unfold startPins
  split
  · exact engine_orderly ..
  · exact engine_orderly ..
  · exact startRunning_orderly b

theorem afterSourcePin_orderly (b : Bridge) : Orderly b b.afterSourcePin := by
  unfold afterSourcePin
  split
  · split
    · exact startRunning_orderly b
    · exact engine_orderly ..
  · exact startRunning_orderly b

theorem gotItem_orderly (b : Bridge) (item : List Byte) : Orderly b (b.gotItem item) :=
  (engine_orderly b _).trans (engine_orderly _ _)

theorem recycleSpans_orderly (b : Bridge) : Orderly b b.recycleSpans := by
  unfold recycleSpans
  split
  · exact engine_orderly ..
  · exact Orderly.refl b

theorem disposed_orderly (b : Bridge) : Orderly b b.disposed := by
  have cleared : Orderly b (clearDestination { b with engine := { b.engine with transit := none, disposal := none } }).activity :=
    (engine_orderly b _).trans ((clearDestination_orderly _).trans (activity_settles _).toOrderly)
  unfold disposed
  dsimp only
  refine cleared.trans ?_
  split
  · split
    · exact (engine_orderly _ _).trans (startItem_orderly _)
    · exact (engine_orderly _ _).trans ((engine_orderly _ _).trans ((recycleSpans_orderly _).trans (endRun_orderly ..)))
  · split
    · exact (engine_orderly _ _).trans (startItem_orderly _)
    · exact (engine_orderly _ _).trans (endRun_orderly ..)

theorem releasePins_orderly (b : Bridge) : Orderly b b.releasePins := by
  unfold releasePins
  split
  · exact (engine_orderly b _).trans ((enqueue_settles ..).toOrderly.trans (engine_orderly _ _))
  · exact engine_orderly ..

/-- The trigger unit's own fields change, with the pending set or without. -/
theorem trigger_orderly (b : Bridge) (x : TriggerUnit) (pending : PendingOk b → x.pending.Pairwise (fun p q => p.move < q.move)) :
    Orderly b { b with trigger := x } :=
  Orderly.of (by constructor <;> simp) id pending

theorem endCleanly_orderly (b : Bridge) (c : Chain) : Orderly b (b.endCleanly c) := trigger_orderly b _ id

theorem postLink_orderly (b : Bridge) (m : Nat) (c : Chain) : Orderly b (b.postLink m c) := by
  unfold postLink
  split
  · exact endCleanly_orderly b c
  · exact trigger_orderly b _ (insertPending_pairwise _ _)

theorem startLink_orderly (b : Bridge) : Orderly b b.startLink := by
  unfold startLink
  split
  · split
    · exact (trigger_orderly b { b.trigger with link := none } id).trans (loadMove_orderly ..)
    · exact Orderly.refl b
  · exact Orderly.refl b

theorem followEnd_orderly (b : Bridge) (m : Nat) (stored : Option Half) (ok : Bool) (link : Option Nat) (pause : Bool) :
    Orderly b (b.followEnd m stored ok link pause) := by
  unfold followEnd
  split
  · exact Orderly.refl b
  · dsimp only
    split
    · exact trigger_orderly b _ id
    · split
      · split
        · split
          · exact postLink_orderly ..
          · refine Orderly.trans ?_ (startLink_orderly _)
            exact trigger_orderly b _ id
        · exact endCleanly_orderly ..
      · exact trigger_orderly b _ id

/-! ## Operations of a party on a working copy (R105) -/

theorem askOrApply_orderly {b b' : Bridge} {n : Nat} {op : CacheOp} {asked : Bool} {mark : Bridge → Bridge}
    {apply : Entry → Bridge → Bridge} (marks : ∀ b, Orderly b (mark b)) (applies : ∀ e b, Orderly b (apply e b))
    (h : b.askOrApply n op asked mark apply = some b') : Orderly b b' := by
  have handed : Orderly b (if asked then b else mark (b.enqueue n op)) := by
    split
    · exact Orderly.refl b
    · exact (enqueue_settles ..).toOrderly.trans (marks _)
  unfold askOrApply at h
  dsimp only at h
  split at h
  · cases h
    exact handed.trans ((startOp_settles _ n).toOrderly.trans (applies _ _))
  · split at h
    · cases h
    case isFalse fresh =>
      cases h
      rw [if_neg fresh] at handed
      exact handed

theorem markAsked_orderly (b : Bridge) : Orderly b b.markAsked := engine_orderly b _

theorem refuseGated_orderly (b : Bridge) (n : Nat) (d : Descriptor) (t : Tap) (r : Reason) :
    Orderly b (b.refuseGated n d t r) := by
  unfold refuseGated
  dsimp only
  split
  · exact (writeCopy_orderly b n _).trans (refuseTap_settles ..).toOrderly
  · exact (refuseTap_settles ..).toOrderly

theorem tapStep_orderly {b b' : Bridge} {n : Nat} {k : TapKind} {effect : Tap → Descriptor → Entry → Bridge → Bridge}
    (effects : ∀ t d e b, Orderly b (effect t d e b)) (h : b.tapStep n k effect = some b') : Orderly b b' := by
  have started := (startOp_settles b n).toOrderly
  unfold tapStep at h
  split at h
  · cases h
  · split at h
    · split at h
      · split at h <;> cases h
        · exact started.trans (refuseGated_orderly ..)
        · exact started.trans (effects ..)
      · cases h
    · cases h

theorem answerEmpty_orderly (b : Bridge) (t : Tap) (d : Descriptor) : Orderly b (b.answerEmpty t d) := by
  unfold answerEmpty
  split
  · exact (answer_settles ..).toOrderly
  · exact (refuseTap_settles ..).toOrderly

theorem dropItem_orderly (b : Bridge) (n : Nat) (d : Descriptor) (i : Option Initiator) (m : Option Nat) :
    Orderly b (b.dropItem n d i m) := by
  unfold dropItem
  dsimp only
  split
  · exact (writeCopy_orderly b n _).trans (notify_settles ..).toOrderly
  · exact writeCopy_orderly b n _

theorem putEffect_orderly (n : Nat) (t : Tap) (d : Descriptor) (e : Entry) (b : Bridge) : Orderly b (putEffect n t d e b) := by
  unfold putEffect
  split
  · exact beginItem_orderly ..
  · split
    · exact (dropItem_orderly ..).trans (answer_settles ..).toOrderly
    · exact (refuseTap_settles ..).toOrderly

theorem headEffect_orderly (w : ItemWork) (n : Nat) (t : Tap) (d : Descriptor) (e : Entry) (b : Bridge) :
    Orderly b (headEffect w n t d e b) := by
  unfold headEffect
  split
  · exact beginItem_orderly ..
  · exact answerEmpty_orderly ..

theorem pushTap_orderly (work : ItemWork) (item : Descriptor → Tap → List Byte) (saved : Descriptor → Nat) (n : Nat) (t : Tap)
    (d : Descriptor) (e : Entry) (b : Bridge) : Orderly b (pushTap work item saved n t d e b) := by
  unfold pushTap
  split
  · exact (halt_orderly ..).trans (refuseTap_settles ..).toOrderly
  · exact beginItem_orderly ..

theorem underflow_orderly (b : Bridge) (n : Nat) (d : Descriptor) (t : Tap) : Orderly b (b.underflow n d t) := by
  have written := writeCopy_orderly b n d.underflowed
  unfold underflow
  dsimp only
  refine Orderly.trans ?_ (answerEmpty_orderly ..)
  split
  · exact written.trans (notify_settles ..).toOrderly
  · exact written

theorem popEffect_orderly (n : Nat) (t : Tap) (d : Descriptor) (e : Entry) (b : Bridge) : Orderly b (popEffect n t d e b) := by
  unfold popEffect
  split
  · exact underflow_orderly ..
  · split
    · exact (refuseTap_settles ..).toOrderly
    · exact beginItem_orderly ..

theorem topEffect_orderly (n : Nat) (t : Tap) (d : Descriptor) (e : Entry) (b : Bridge) : Orderly b (topEffect n t d e b) := by
  unfold topEffect
  split
  · exact answerEmpty_orderly ..
  · exact beginItem_orderly ..

theorem unwindEffect_orderly (n : Nat) (t : Tap) (d : Descriptor) (e : Entry) (b : Bridge) :
    Orderly b (unwindEffect n t d e b) := by
  unfold unwindEffect
  split
  · exact (refuseTap_settles ..).toOrderly
  · exact beginItem_orderly ..

theorem advanceTally_orderly (b : Bridge) (n : Nat) (d : Descriptor) (raw : Int) : Orderly b (b.advanceTally n d raw) := by
  unfold advanceTally
  dsimp only
  split
  · exact (writeCopy_orderly b n _).trans (post_orderly ..)
  · exact writeCopy_orderly b n _

theorem setEffect_orderly (n : Nat) (t : Tap) (d : Descriptor) (e : Entry) (b : Bridge) : Orderly b (setEffect n t d e b) := by
  unfold setEffect
  split
  · exact (writeCopy_orderly b n _).trans (answer_settles ..).toOrderly
  · exact (refuseTap_settles ..).toOrderly

/-! ## Item accesses -/

theorem judgeCommand_orderly (b : Bridge) (c : CommandItem) : Orderly b (b.judgeCommand c) := by
  have held : Orderly b (b.holdCommand c) := Orderly.trans (b := { b with command := { b.command with
      state := .carrying, held := some c, stage := .judged, wake := false, lastEmpty := false } })
    (Orderly.beside (by constructor <;> simp) rfl rfl rfl)
    (activity_settles _).toOrderly
  unfold judgeCommand
  dsimp only
  refine held.trans ?_
  split
  · exact (commandRefused_settles ..).toOrderly
  · split
    · exact (enqueue_settles ..).toOrderly
    · exact Orderly.refl _

theorem storedFor_orderly (b : Bridge) (p : Party) : Orderly b (b.storedFor p) := by
  cases p with
  | tap t => exact (answer_settles ..).toOrderly
  | engine => exact disposed_orderly b
  | commandUnit => exact Orderly.refl b
  | noticeWriter => exact (dequeueNotice_settles b).toOrderly

theorem tookFor_orderly (b : Bridge) (p : Party) (item : List Byte) : Orderly b (b.tookFor p item) := by
  cases p with
  | tap t => exact (answer_settles ..).toOrderly
  | engine => exact gotItem_orderly b item
  | commandUnit => exact judgeCommand_orderly ..
  | noticeWriter => exact Orderly.refl b

theorem itemFailed_orderly (b : Bridge) (n : Nat) (d : Descriptor) (p : Party) : Orderly b (b.itemFailed n d p) := by
  cases p with
  | tap t => exact (halt_orderly ..).trans (refuseTap_settles ..).toOrderly
  | engine => exact (halt_orderly ..).trans (endRun_orderly ..)
  | commandUnit => exact (halt_orderly ..).trans (takeYieldsNothing_orderly ..)
  | noticeWriter => exact (dropOldest_settles b).toOrderly.trans (halt_orderly ..)

theorem ringItemDone_orderly (b : Bridge) (n : Nat) (ok : Bool) (data : List Byte) : Orderly b (b.ringItemDone n ok data) := by
  unfold ringItemDone
  split
  · exact Orderly.refl b
  · split
    · exact Orderly.refl b
    · dsimp only
      refine (endBusy_orderly b n).trans ?_
      split
      · split
        · exact (changeLevel_orderly ..).trans (storedFor_orderly ..)
        · exact itemFailed_orderly ..
      · split
        · exact (changeLevel_orderly ..).trans (tookFor_orderly ..)
        · exact itemFailed_orderly ..
      · split
        · exact tookFor_orderly ..
        · exact itemFailed_orderly ..
      all_goals exact Orderly.refl _

theorem stackItemDone_orderly (b : Bridge) (n : Nat) (ok : Bool) (data : List Byte) : Orderly b (b.stackItemDone n ok data) := by
  have ended := endBusy_orderly b n
  unfold stackItemDone
  split
  · exact Orderly.refl b
  · split
    · exact Orderly.refl b
    · dsimp only
      split
      · exact ended
      · split
        · exact ended.trans (itemFailed_orderly ..)
        · split
          · exact ended.trans ((changeLevel_orderly ..).trans (storedFor_orderly ..))
          · exact ended.trans ((changeLevel_orderly ..).trans (storedFor_orderly ..))
          · exact ended.trans ((changeLevel_orderly ..).trans (tookFor_orderly ..))
          · exact ended.trans (tookFor_orderly ..)
          · split
            · split
              · exact ended.trans ((changeLevel_orderly ..).trans (answer_settles ..).toOrderly)
              · exact ended.trans (refuseTap_settles ..).toOrderly
            all_goals exact ended
          · refine Orderly.trans (Orderly.trans ?_ (report_orderly ..)) (storedFor_orderly ..)
            have written (d : Descriptor) := ended.trans (writeCopy_orderly (b.endBusy n) n d)
            split
            · exact (written _).trans (notify_settles ..).toOrderly
            · exact written _
          · exact beginItem_orderly ..
          all_goals exact ended

/-! ## Fetches and write-backs -/

theorem fetchTaken_orderly (b : Bridge) (n : Nat) (raw : Descriptor) : Orderly b (b.fetchTaken n raw) := by
  have taken : Orderly b (b.setEntry n (fun e => { e with
      copy := raw.fetched b.cfg b.control.straps n
      state := if raw.passes b.cfg b.control.straps n = true ∧ raw.fetched b.cfg b.control.straps n = raw then .clean
        else .dirty })) :=
    setEntry_orderly b n _ (fun _ => rfl) (fun _ => Or.inl (claim_eq_none_of (by dsimp only; split <;> simp)))
  unfold fetchTaken
  dsimp only
  refine Orderly.trans (Orderly.trans ?_ (judgeLines_orderly ..)) (wakeFor_orderly ..)
  split
  · exact taken
  · exact taken.trans (notify_settles ..).toOrderly

theorem fetchFailedFor_orderly (n : Nat) (b : Bridge) (op : CacheOp) : Orderly b (fetchFailedFor n b op) := by
  cases op with
  | tap t => exact (refuseTap_settles ..).toOrderly
  | engine op =>
    cases op with
    | completion => exact trigger_orderly b _ id
    | pin | reserve | take | put | release => exact endRun_orderly ..
  | command => exact (commandRefused_settles ..).toOrderly
  | commandTake => exact takeYieldsNothing_orderly ..
  | noticePut => exact (dropOldest_settles b).toOrderly
  | tableRead id => exact (allow_settles ..).toOrderly
  | tableWrite id => exact (allow_settles ..).toOrderly
  | release => exact (commandDone_settles b).toOrderly

theorem faultWith_orderly (b : Bridge) (x : Notice) (rest : Bridge → Bridge) (h : ∀ b, Orderly b (rest b)) :
    Orderly b (b.faultWith x rest) := by
  unfold faultWith
  split
  · exact (notify_settles ..).toOrderly.trans (h _)
  · exact (h b).trans (notify_settles ..).toOrderly

theorem fetchFailed_orderly (b : Bridge) (e : Entry) : Orderly b (b.fetchFailed e) := by
  unfold fetchFailed
  exact (remove_settles b _).toOrderly.trans ((foldl_orderly _ _ (fetchFailedFor_orderly e.index) _).trans
    (faultWith_orderly _ _ _ (foldl_orderly _ _ (fetchFailedFor_orderly e.index))))

theorem fetchDone_orderly (b : Bridge) (n : Nat) (ok : Bool) (data : List Byte) : Orderly b (b.fetchDone n ok data) := by
  unfold fetchDone
  split
  · exact Orderly.refl b
  · split
    · split
      · exact (dropEntry_settles b _).1.toOrderly
      · split
        · exact fetchTaken_orderly ..
        · exact fetchFailed_orderly ..
    all_goals exact Orderly.refl b

/-- A claimed entry is held once, so that the index it is claimed for is free once it is dropped. -/
theorem reuse_orderly {b : Bridge} {e : Entry} {k : Nat} (mem : CacheOk b → e ∈ b.cache) (claim : e.claim = some k) :
    Orderly b (b.reuse e k) := by
  obtain ⟨dropped, indices, claims⟩ := dropEntry_settles b e
  have taken (ok : CacheOk b) : Orderly b (b.reuse e k) := by
    have here := mem ok
    have distinct := ok.2.1
    obtain ⟨-, claims_distinct, apart⟩ := List.nodup_append.mp distinct
    have claimed : k ∈ b.cache.filterMap Entry.claim := List.mem_filterMap.mpr ⟨e, here, claim⟩
    refine dropped.toOrderly.trans (allocate_settles ?_ ?_ ?_).toOrderly
    · have length := congrArg List.length indices
      rw [List.length_map, List.length_map] at length
      rw [length]
      exact Nat.lt_of_lt_of_le (filter_length_lt here) ok.1
    · rw [indices]
      intro held
      exact apart k ((List.filter_sublist.map Entry.index).subset held) k claimed rfl
    · rw [claims]
      intro again
      obtain ⟨x, mem', claim'⟩ := List.mem_filterMap.mp again
      obtain ⟨was, other⟩ := List.mem_filter.mp mem'
      have same := eq_of_filterMap_nodup claims_distinct was here claim' claim
      simp [same] at other
  have drops : Orderly b (b.dropEntry e) := dropped.toOrderly
  exact ⟨fun ok => (taken ok).cache ok, drops.inFlight, drops.fairness, drops.notices, drops.handles, drops.settings,
    drops.pending⟩

theorem keepPinned_orderly (b : Bridge) (e : Entry) (r : WriteBackFor) : Orderly b (b.keepPinned e r) := by
  have kept : Orderly b (b.setEntry e.index (fun x => { x with state := .dirty, flushMark := false })) :=
    setEntry_orderly b _ _ (fun _ => rfl) (fun _ => Or.inl rfl)
  unfold keepPinned
  dsimp only
  refine kept.trans ?_
  split
  · exact (popFront_settles ..).toOrderly.trans (allow_settles ..).toOrderly
  · exact Orderly.refl _

theorem writeBackOk_orderly {b : Bridge} {e : Entry} {r : WriteBackFor} (written : List Byte) (mem : e ∈ b.cache)
    (state : e.state = .writing r) : Orderly b (b.writeBackOk e r written) := by
  have marked : Orderly b (b.setEntry e.index (fun x => { x with
      state := if x.copy.toBytes = written then .clean else .dirty, flushMark := false })) :=
    setEntry_orderly b _ _ (fun _ => rfl) (fun _ => Or.inl (claim_eq_none_of (by dsimp only; split <;> simp)))
  cases r with
  | claim n => exact reuse_orderly (fun _ => mem) (by unfold Entry.claim; rw [state])
  | must | tableRead | other => exact marked

/-- A fault is noticed or not beside an operation that asks for the entries only. -/
theorem faulted_orderly (b : Bridge) (quiet : Prop) [Decidable quiet] (x : Notice) (go : Bridge → Bridge)
    (h : ∀ a, a.cache = b.cache → Orderly a (go a)) : Orderly b (if quiet then go b else b.faultWith x go) := by
  split
  · exact h b rfl
  · unfold faultWith
    split
    · exact (notify_settles ..).toOrderly.trans (h _ (by simp))
    · exact (h b rfl).trans (notify_settles ..).toOrderly

theorem writeBackFailed_orderly {b : Bridge} {e : Entry} {r : WriteBackFor} (mem : e ∈ b.cache)
    (state : e.state = .writing r) : Orderly b (b.writeBackFailed e r) := by
  unfold writeBackFailed
  dsimp only
  refine faulted_orderly b _ _ (fun b => _) (fun a same => ?_)
  split
  · exact keepPinned_orderly ..
  · split
    · exact reuse_orderly (fun _ => same ▸ mem) (by unfold Entry.claim; rw [state])
    all_goals exact (dropEntry_settles a e).1.toOrderly

theorem writeBackDone_orderly (b : Bridge) (n : Nat) (ok : Bool) (written : List Byte) :
    Orderly b (b.writeBackDone n ok written) := by
  unfold writeBackDone
  split
  · exact Orderly.refl b
  case h_2 e found =>
    obtain ⟨mem, index⟩ := entry?_mem b n e found
    subst index
    split
    case h_1 state =>
      split
      · exact writeBackOk_orderly written mem state
      · exact writeBackFailed_orderly mem state
    all_goals exact Orderly.refl b

/-! ## The steps of a run -/

theorem choose_orderly {b b' : Bridge} (h : b.choose = some b') : Orderly b b' := by
  unfold choose at h
  split at h
  · split at h
    case h_1 p rest pending =>
      cases h
      refine Orderly.trans ?_ (loadMove_orderly ..)
      refine trigger_orderly b _ (fun rising => ?_)
      rw [PendingOk, pending] at rising
      exact (List.pairwise_cons.mp rising).2
    case h_2 => cases h
  · cases h

theorem moveRead_orderly (b : Bridge) (ok : Bool) (data : List Byte) : Orderly b (b.moveRead ok data) := by
  unfold moveRead
  split
  · split
    · dsimp only
      refine (setMoveCopy_orderly b (MoveDescriptor.ofBytes data)).trans ?_
      split
      · exact startPins_orderly _
      · exact endRun_orderly ..
    · refine Orderly.trans ?_ (freeMoveWaiters_settles _).toOrderly
      exact (engine_orderly b _).trans (engine_orderly _ _)
  · exact Orderly.refl b

theorem applyPin_orderly (n : Nat) (e : Entry) (b : Bridge) : Orderly b (applyPin n e b) := by
  have pinned : Orderly b (b.setEntry n (fun x => { x with pin := true })) :=
    setEntry_state_orderly b n _ (fun _ => rfl) (fun _ => rfl)
  unfold applyPin
  dsimp only
  split
  · refine pinned.trans ?_
    split
    · exact (engine_orderly _ _).trans (afterSourcePin_orderly _)
    · exact (engine_orderly _ _).trans (startRunning_orderly _)
  · exact endRun_orderly ..

theorem pinStep_orderly {b b' : Bridge} (h : b.pinStep = some b') : Orderly b b' := by
  unfold pinStep at h
  split at h
  · exact askOrApply_orderly markAsked_orderly (applyPin_orderly _) h
  · cases h

theorem setDisposal_orderly (b : Bridge) (d : Disposal) : Orderly b (b.setDisposal d) :=
  (engine_orderly b _).trans (engine_orderly _ _)

theorem reserveRoom_orderly (b : Bridge) (n : Nat) : Orderly b (b.reserveRoom n) :=
  (setEntry_state_orderly b n (fun x => { x with reservation := true }) (fun _ => rfl) (fun _ => rfl)).trans
    (setDisposal_orderly ..)

theorem applyReserve_orderly (n : Nat) (e : Entry) (b : Bridge) : Orderly b (applyReserve n e b) := by
  unfold applyReserve
  dsimp only
  split
  · exact endRun_orderly ..
  · split
    · split
      · exact reserveRoom_orderly ..
      · split
        · exact setDisposal_orderly ..
        · exact endRun_orderly ..
    · split
      · exact endRun_orderly ..
      · exact reserveRoom_orderly ..

theorem reservationStep_orderly {b b' : Bridge} (h : b.reservationStep = some b') : Orderly b b' := by
  unfold Bridge.reservationStep at h
  split at h
  · split at h
    · exact askOrApply_orderly markAsked_orderly (applyReserve_orderly _) h
    · cases h
  · cases h

theorem applyTake_orderly (n : Nat) (e : Entry) (b : Bridge) : Orderly b (applyTake n e b) := by
  unfold applyTake
  dsimp only
  split
  · exact endRun_orderly ..
  · split
    · split
      · exact endRun_orderly ..
      · exact endRun_orderly ..
    · split
      · exact beginItem_orderly ..
      · exact beginItem_orderly ..

theorem takeStep_orderly {b b' : Bridge} (h : b.takeStep = some b') : Orderly b b' := by
  unfold takeStep at h
  split at h
  · split at h
    · exact askOrApply_orderly markAsked_orderly (applyTake_orderly _) h
    · cases h
      exact (engine_orderly b _).trans (issue_settles ..).toOrderly
  · cases h

theorem spanReadBack_orderly (b : Bridge) (ok : Bool) (data : List Byte) : Orderly b (b.spanReadBack ok data) := by
  unfold spanReadBack
  split
  · split
    · exact (engine_orderly b _).trans (gotItem_orderly ..)
    · exact endRun_orderly ..
  · exact Orderly.refl b

theorem applyPut_orderly (n : Nat) (e : Entry) (b : Bridge) : Orderly b (applyPut n e b) := by
  unfold applyPut
  dsimp only
  split
  · exact endRun_orderly ..
  · split
    · exact beginItem_orderly ..
    · split
      · exact (halt_orderly ..).trans (endRun_orderly ..)
      · exact beginItem_orderly ..

theorem applyDrop_orderly (n : Nat) (e : Entry) (b : Bridge) : Orderly b (applyDrop n e b) := by
  unfold applyDrop
  split
  · exact endRun_orderly ..
  · exact (dropItem_orderly ..).trans (disposed_orderly _)

theorem putStep_orderly {b b' : Bridge} (h : b.putStep = some b') : Orderly b b' := by
  unfold putStep at h
  split at h
  · split at h
    · exact askOrApply_orderly markAsked_orderly (applyPut_orderly _) h
    · exact askOrApply_orderly markAsked_orderly (applyDrop_orderly _) h
    · cases h
      exact (engine_orderly b _).trans (issue_settles ..).toOrderly
    · cases h
  · cases h

theorem spanWriteBack_orderly (b : Bridge) (ok : Bool) : Orderly b (b.spanWriteBack ok) := by
  unfold spanWriteBack
  split
  · split
    · exact (engine_orderly b _).trans (disposed_orderly _)
    · exact endRun_orderly ..
  · exact Orderly.refl b

theorem stored_orderly (b : Bridge) (ok : Bool) : Orderly b (b.stored ok) := by
  unfold stored
  split
  · exact (engine_orderly b _).trans ((releasePins_orderly _).trans (freeMoveWaiters_settles _).toOrderly)
  · exact Orderly.refl b

theorem releaseStep_orderly {b b' : Bridge} (h : b.releaseStep = some b') : Orderly b b' := by
  unfold releaseStep at h
  split at h
  · split at h
    · split at h <;> cases h
      have released (b : Bridge) (n : Nat) : Orderly b (b.setEntry n Entry.released) :=
        setEntry_orderly b n _ (fun e => (released_frame e).1) released_claim
      exact (startOp_settles b _).toOrderly.trans ((released _ _).trans ((engine_orderly _ _).trans (releasePins_orderly _)))
    · cases h
  · cases h

theorem endNotices_orderly (b : Bridge) (m : Nat) (en : Ending) : Orderly b (b.endNotices m en) := by
  have noticed (b : Bridge) (x : Notice) : Orderly b (b.notify x) := (notify_settles b x).toOrderly
  unfold endNotices
  split
  · split
    · exact noticed ..
    · split
      · exact noticed ..
      · exact Orderly.refl b
  · dsimp only
    split
    · exact (noticed ..).trans (noticed ..)
    · exact noticed ..

theorem finishStopMove_orderly (b : Bridge) (m : Nat) : Orderly b (b.finishStopMove m) := by
  unfold finishStopMove
  split
  · split
    · exact (commandDone_settles b).toOrderly
    · exact Orderly.refl b
  · exact Orderly.refl b

theorem reportEnd_orderly {b b' : Bridge} (h : b.reportEnd = some b') : Orderly b b' := by
  unfold reportEnd at h
  split at h
  · cases h
    refine Orderly.trans ?_ (followEnd_orderly ..)
    refine Orderly.trans ?_ (engine_orderly _ _)
    exact (endNotices_orderly ..).trans ((activity_settles _).toOrderly.trans (finishStopMove_orderly ..))
  · cases h

theorem applyCompletion_orderly (c : Completion) (e : Entry) (b : Bridge) : Orderly b (applyCompletion c e b) := by
  have done : Orderly b { b with trigger := { b.trigger with completion := none } } := trigger_orderly b _ id
  unfold applyCompletion
  dsimp only
  refine done.trans ?_
  split
  · exact Orderly.refl _
  · split
    · exact Orderly.refl _
    · split
      · split
        · exact (writeCopy_orderly ..).trans (notify_settles ..).toOrderly
        · exact writeCopy_orderly ..
      · split
        · exact post_orderly ..
        · exact Orderly.refl _

theorem completionStep_orderly {b b' : Bridge} (h : b.completionStep = some b') : Orderly b b' := by
  unfold completionStep at h
  split at h
  · have marks (b : Bridge) : Orderly b (markCompletion b) := trigger_orderly b _ id
    exact askOrApply_orderly marks (applyCompletion_orderly _) h
  · cases h

/-! ## The command unit and the notice writer -/

/-- The command unit's own fields change. -/
theorem command_orderly (b : Bridge) (x : CommandUnit) : Orderly b { b with command := x } :=
  Orderly.beside (by constructor <;> simp) rfl rfl rfl

theorem commandTake_orderly {b b' : Bridge} (h : b.commandTake = some b') : Orderly b b' := by
  have marks (b : Bridge) : Orderly b (markTaking b) := command_orderly b _
  have applies (e : Entry) (b : Bridge) : Orderly b (applyCommandTake e b) := by
    unfold applyCommandTake
    dsimp only
    split
    · exact takeYieldsNothing_orderly ..
    · split
      · exact takeYieldsNothing_orderly ..
      · exact beginItem_orderly ..
  unfold commandTake at h
  split at h
  · split at h
    · exact askOrApply_orderly marks applies h
    · cases h
  · exact askOrApply_orderly marks applies h
  · cases h

theorem noticeStep_orderly {b b' : Bridge} (h : b.noticeStep = some b') : Orderly b b' := by
  have marks (b : Bridge) : Orderly b (markNotice b) :=
    (show Orderly b { b with notices := { b.notices with asked := true } } from
      Orderly.beside (by constructor <;> simp) rfl rfl rfl)
  have applies (x : Notice) (e : Entry) (b : Bridge) : Orderly b (applyNotice x e b) := by
    unfold applyNotice
    dsimp only
    split
    · exact (dropOldest_settles b).toOrderly
    · exact beginItem_orderly ..
  unfold noticeStep at h
  split at h
  · split at h
    · exact askOrApply_orderly marks (applies _) h
    · cases h
  · cases h

theorem commandStep_orderly {b b' : Bridge} {op : Byte} {n : Nat} {effect : CommandItem → Entry → Bridge → Bridge}
    (effects : ∀ c e b, Orderly b (effect c e b)) (h : b.commandStep op n effect = some b') : Orderly b b' := by
  have started := (startOp_settles b n).toOrderly
  unfold commandStep at h
  split at h
  · split at h
    · split at h
      · cases h
        refine started.trans ?_
        split
        · exact (commandRefused_settles ..).toOrderly
        · exact effects ..
      · cases h
    · cases h
  · cases h

theorem changeAndDone_orderly (b : Bridge) (n : Nat) (d : Descriptor) : Orderly b (b.changeAndDone n d) :=
  (writeCopy_orderly b n d).trans (commandDone_settles _).toOrderly

theorem refused_orderly (b : Bridge) (r : Reason) : Orderly b (b.commandRefused r) := (commandRefused_settles b r).toOrderly

theorem abortEffect_orderly (n : Nat) (c : CommandItem) (e : Entry) (b : Bridge) : Orderly b (abortEffect n c e b) := by
  unfold abortEffect
  dsimp only
  split
  · exact refused_orderly ..
  · split
    · exact (changeLevel_orderly ..).trans (commandDone_settles _).toOrderly
    · exact changeAndDone_orderly ..

theorem openEffect_orderly (n : Nat) (c : CommandItem) (e : Entry) (b : Bridge) : Orderly b (openEffect n c e b) := by
  unfold openEffect
  split
  · exact refused_orderly ..
  · exact changeAndDone_orderly ..

theorem closeEffect_orderly (n : Nat) (c : CommandItem) (e : Entry) (b : Bridge) : Orderly b (closeEffect n c e b) := by
  unfold closeEffect
  split
  · exact refused_orderly ..
  · exact changeAndDone_orderly ..

theorem clearFaultEffect_orderly (n : Nat) (c : CommandItem) (e : Entry) (b : Bridge) :
    Orderly b (clearFaultEffect n c e b) := by
  unfold clearFaultEffect
  split
  · exact changeAndDone_orderly ..
  · exact refused_orderly ..

theorem closeGuardEffect_orderly (n : Nat) (c : CommandItem) (e : Entry) (b : Bridge) :
    Orderly b (closeGuardEffect n c e b) := by
  unfold closeGuardEffect
  dsimp only
  split
  · exact refused_orderly ..
  · split
    · exact refused_orderly ..
    · split
      · exact refused_orderly ..
      · exact changeAndDone_orderly ..

theorem armEffect_orderly (n : Nat) (c : CommandItem) (e : Entry) (b : Bridge) : Orderly b (armEffect n c e b) := by
  unfold armEffect
  dsimp only
  refine Orderly.trans ?_ (commandDone_settles _).toOrderly
  split
  · exact (writeCopy_orderly ..).trans (post_orderly ..)
  · exact writeCopy_orderly ..

theorem nop_orderly {b b' : Bridge} (h : b.nop = some b') : Orderly b b' := by
  obtain ⟨_, -, rfl⟩ := Option.map_eq_some_iff.mp h
  exact (commandDone_settles b).toOrderly

theorem commandStarted_orderly (b : Bridge) : Orderly b b.commandStarted :=
  Orderly.beside (by constructor <;> simp) rfl rfl rfl

theorem flush_orderly {b b' : Bridge} (h : b.flush = some b') : Orderly b b' := by
  obtain ⟨_, -, rfl⟩ := Option.map_eq_some_iff.mp h
  have marked : Orderly b { b with cache := b.cache.map (fun e => { e with flushMark := e.flushMark || e.countsDirty }) } :=
    Orderly.of (by constructor <;> simp) (CacheOk.of_map _ rfl rfl (fun _ _ => rfl) (fun _ _ => Or.inr rfl)) (PendingOk.congr rfl)
  exact marked.trans (commandStarted_orderly _)

theorem release_orderly {b b' : Bridge} {n : Nat} (h : b.release n = some b') : Orderly b b' := by
  unfold release at h
  split at h
  · split at h
    · cases h
      split
      · exact (commandDone_settles b).toOrderly
      · exact (enqueue_settles ..).toOrderly.trans (commandStarted_orderly _)
    · cases h
  · cases h

theorem postTrigger_orderly {b b' : Bridge} {m : Nat} (h : b.postTrigger m = some b') : Orderly b b' := by
  unfold postTrigger at h
  split at h
  · split at h <;> cases h
    exact (post_orderly ..).trans (commandDone_settles _).toOrderly
  · cases h

theorem withdraw_orderly (b : Bridge) (m : Nat) : Orderly b (b.withdraw m) :=
  trigger_orderly b _ (fun rising => rising.sublist List.filter_sublist)

theorem requestStop_orderly (b : Bridge) (tag : Half) : Orderly b (b.requestStop tag) := by
  unfold requestStop
  split
  · exact engine_orderly ..
  · exact Orderly.refl b

theorem stopMove_orderly {b b' : Bridge} {m : Nat} (h : b.stopMove m = some b') : Orderly b b' := by
  unfold stopMove at h
  split at h
  · split at h
    · cases h
      split
      · exact (withdraw_orderly ..).trans ((requestStop_orderly ..).trans (commandStarted_orderly _))
      · split
        · exact (withdraw_orderly ..).trans (commandDone_settles _).toOrderly
        · exact refused_orderly ..
    · cases h
  · cases h

theorem pauseMoves_orderly {b b' : Bridge} (h : b.pauseMoves = some b') : Orderly b b' := by
  obtain ⟨_, -, rfl⟩ := Option.map_eq_some_iff.mp h
  refine Orderly.trans ?_ (commandDone_settles _).toOrderly
  split
  · exact Orderly.refl b
  · exact engine_orderly ..

theorem resumeMoves_orderly {b b' : Bridge} (h : b.resumeMoves = some b') : Orderly b b' := by
  obtain ⟨_, -, rfl⟩ := Option.map_eq_some_iff.mp h
  refine Orderly.trans ?_ (commandDone_settles _).toOrderly
  split
  · exact Orderly.refl b
  · exact engine_orderly ..

end Sys2Proof.Machine
end

