-- ==== Sys2Proof/Proofs/StepsKeepCounts.lean ====
section
/-! The invariants about counts, handles, settings and indices through START, STOP, the ports and the resets, and so through
every command and every step. -/

namespace Sys2Proof.Machine

open Bridge

/-! ## START, the audit, STOP and the idle timer -/

/-- Bridge control changes beside the dropped-notice count and the settings. -/
theorem control_orderly (b : Bridge) (x : Control) (dropped : x.dropped ≤ max 65535 b.control.dropped)
    (settings : x.settings = b.control.settings ∨ x.settings = none) : Orderly b { b with control := x } :=
  Orderly.beside ⟨List.Sublist.refl _, Nat.le_refl _, Nat.le_max_right _ _, Nat.le_max_right _ _, dropped, settings⟩ rfl rfl rfl

theorem refuseStart_orderly (b : Bridge) (r : StartReason) : Orderly b (b.refuseStart r) := by
  refine Orderly.trans ?_ (enterPass_settles _).toOrderly
  exact control_orderly b _ (Nat.le_max_right _ _) (Or.inl rfl)

theorem takeStart_orderly (b : Bridge) : Orderly b b.takeStart := by
  refine Orderly.trans (Orderly.trans ?_ (setState_settles _ _).toOrderly) (issue_settles ..).toOrderly
  exact control_orderly b _ (Nat.le_max_right _ _) (Or.inl rfl)

theorem takeStop_orderly (b : Bridge) : Orderly b b.takeStop := by
  refine Orderly.trans ?_ (setState_settles _ _).toOrderly
  exact Orderly.beside (by constructor <;> simp) rfl rfl rfl

theorem auditRead_orderly (b : Bridge) (a : Audit) (p : AuditPosition) : Orderly b (b.auditRead a p) := by
  have placed : Orderly b { b with control := { b.control with audit := some { a with position := p } } } :=
    control_orderly b _ (Nat.le_max_right _ _) (Or.inl rfl)
  cases p with
  | struct n => exact placed.trans (issue_settles ..).toOrderly
  | move m => exact placed.trans (issue_settles ..).toOrderly

theorem enterRun_orderly (b : Bridge) (a : Audit) : Orderly b (b.enterRun a) := by
  unfold enterRun
  refine Orderly.trans ?_ ((notify_settles ..).trans ((startTimer_settles _).trans
    ((wakeCommand_settles _).trans (reclassify_settles _)))).toOrderly
  refine Orderly.trans ?_ (setState_settles _ _).toOrderly
  exact control_orderly b _ (Nat.zero_le _) (Or.inl rfl)

theorem auditNext_orderly (b : Bridge) (a : Audit) : Orderly b (b.auditNext a) := by
  unfold auditNext
  split
  · split
    · exact auditRead_orderly ..
    · split
      · exact auditRead_orderly ..
      · exact enterRun_orderly ..
  · split
    · exact auditRead_orderly ..
    · exact enterRun_orderly ..

theorem auditWrite_orderly (b : Bridge) (a : Audit) (addr : Nat) (data : List Byte) : Orderly b (b.auditWrite a addr data) := by
  refine Orderly.trans ?_ (issue_settles ..).toOrderly
  exact control_orderly b _ (Nat.le_max_right _ _) (Or.inl rfl)

theorem auditStruct_orderly (b : Bridge) (a : Audit) (n : Nat) (raw : Descriptor) : Orderly b (b.auditStruct a n raw) := by
  unfold auditStruct
  dsimp only
  split
  · split
    · exact auditNext_orderly ..
    · exact refuseStart_orderly ..
  · split
    · exact auditWrite_orderly ..
    · split
      · exact auditWrite_orderly ..
      · exact auditNext_orderly ..

theorem auditMove_orderly (b : Bridge) (a : Audit) (m : Nat) (d : MoveDescriptor) : Orderly b (b.auditMove a m d) := by
  unfold auditMove
  split
  · exact auditNext_orderly ..
  · exact auditWrite_orderly ..

/-- Anchor values that START accepts have a release level below the must level (R115, R184). -/
theorem startRefusal_levels {g : Settings} {straps : Fin 16} (accepted : g.startRefusal straps = none) :
    g.releaseLevel < g.mustLevel := by
  unfold Settings.startRefusal at accepted
  dsimp only at accepted
  iterate 4
    split at accepted
    · cases accepted
  split at accepted
  · cases accepted
  case isFalse levels => omega

theorem anchorRead_orderly (b : Bridge) (ok : Bool) (data : List Byte) : Orderly b (b.anchorRead ok data) := by
  unfold anchorRead
  split
  · split
    · dsimp only
      split
      · exact refuseStart_orderly ..
      case h_2 accepted =>
        refine Orderly.trans ?_ (auditRead_orderly ..)
        refine Orderly.trans ?_ ((setState_settles _ _).trans (reclassify_settles _)).toOrderly
        have same : Orderly b { b with control := { b.control with settings := none } } :=
          control_orderly b _ (Nat.le_max_right _ _) (Or.inr rfl)
        exact ⟨same.cache, same.inFlight, same.fairness, same.notices, same.handles,
          fun _ g inUse => by cases inUse; exact startRefusal_levels accepted, same.pending⟩
    · exact refuseStart_orderly ..
  · exact Orderly.refl b

theorem auditReadBack_orderly (b : Bridge) (ok : Bool) (data : List Byte) : Orderly b (b.auditReadBack ok data) := by
  unfold auditReadBack
  split
  · split
    · split
      · exact auditStruct_orderly ..
      · exact auditMove_orderly ..
    · exact refuseStart_orderly ..
  · exact Orderly.refl b

theorem auditWriteBack_orderly (b : Bridge) (ok : Bool) : Orderly b (b.auditWriteBack ok) := by
  unfold auditWriteBack
  split
  · split
    · exact auditNext_orderly ..
    · exact refuseStart_orderly ..
  · exact Orderly.refl b

theorem auditFault_orderly {b b' : Bridge} (h : b.auditFault = some b') : Orderly b b' := by
  unfold auditFault at h
  split at h
  · split at h <;> cases h
    refine Orderly.trans ?_ (notify_settles ..).toOrderly
    exact control_orderly b _ (Nat.le_max_right _ _) (Or.inl rfl)
  · cases h

theorem timerExpires_orderly {b b' : Bridge} (h : b.timerExpires = some b') : Orderly b b' := by
  unfold timerExpires at h
  split at h
  · split at h <;> cases h
    · exact control_orderly b _ (Nat.le_max_right _ _) (Or.inl rfl)
    · exact (startTimer_settles b).toOrderly
  · cases h

theorem tick_orderly (b : Bridge) : Orderly b b.tick := by
  unfold tick
  split
  · exact Orderly.refl b
  · split
    · split
      case h_1 expires => exact (timerExpires_orderly expires).trans (settle_settles _).toOrderly
      case h_2 => exact Orderly.refl b
    · exact control_orderly b _ (Nat.le_max_right _ _) (Or.inl rfl)

theorem setCleared_orderly (b : Bridge) (k : Nat) : Orderly b (b.setCleared k) := by
  unfold setCleared
  split
  · exact Orderly.refl b
  · refine Orderly.trans ?_ (mirror_settles _).toOrderly
    exact control_orderly b _ (Nat.le_max_right _ _) (Or.inl rfl)

theorem clearPending_orderly {b b' : Bridge} (h : b.clearPending = some b') : Orderly b b' := by
  unfold clearPending at h
  split at h
  · cases h
    refine (setCleared_orderly b b.trigger.pending.length).trans ?_
    exact Orderly.of (by constructor <;> simp) (CacheOk.congr rfl rfl) (fun _ => List.Pairwise.nil)
  · cases h

theorem beginEmptying_orderly {b b' : Bridge} (h : b.beginEmptying = some b') : Orderly b b' := by
  unfold beginEmptying at h
  split at h <;> cases h
  exact control_orderly b _ (Nat.le_max_right _ _) (Or.inl rfl)

/-! ## The ports -/

theorem noteAccess_orderly (b : Bridge) (c : RequestClass) : Orderly b (b.noteAccess c) := by
  unfold noteAccess
  split
  · exact ((setState_settles ..).trans ((startTimer_settles _).trans (wakeCommand_settles _))).toOrderly
  · split
    · exact (cancelEmptying_settles b).toOrderly
    · exact Orderly.refl b

/-- A request taken where fewer than 32 are in flight gets a handle of its own (R174). -/
theorem takeRequest_orderly (b : Bridge) (r : Request) (c : RequestClass) (room : b.iport.inflight.length < 32) :
    Orderly b (b.takeRequest r c) := by
  refine Orderly.trans ?_ (noteAccess_orderly _ c)
  refine ⟨CacheOk.congr rfl rfl, fun _ => ?_, id, id, fun ⟨distinct, below⟩ => ⟨?_, fun x mem => ?_⟩, id, id⟩
  · dsimp only [InFlightOk]
    rw [List.length_append, List.length_singleton]
    omega
  · dsimp only
    rw [List.map_append]
    refine List.nodup_append.mpr ⟨distinct, List.pairwise_singleton _ _, fun i mem j new => ?_⟩
    obtain ⟨x, was, rfl⟩ := List.mem_map.mp mem
    rw [List.mem_singleton.mp new]
    exact Nat.ne_of_lt (below x was)
  · rcases List.mem_append.mp mem with was | new
    · exact Nat.lt_succ_of_lt (below x was)
    · rw [List.mem_singleton.mp new]
      exact Nat.lt_succ_self _

theorem decode_orderly (b : Bridge) (r : InFlight) : Orderly b (b.decode r) := by
  have noted : Orderly b (if r.request.debug then b.noteAccess .tap else (b.noteAccess .tap).activity) := by
    split
    · exact noteAccess_orderly ..
    · exact (noteAccess_orderly ..).trans (activity_settles _).toOrderly
  unfold decode
  dsimp only
  generalize (if r.request.debug then b.noteAccess .tap else (b.noteAccess .tap).activity) = noting at noted ⊢
  refine noted.trans ?_
  split
  · exact (refuseTap_settles ..).toOrderly
  · split
    · exact (refuseTap_settles ..).toOrderly
    · exact ((setPhase_settles ..).trans (enqueue_settles ..)).toOrderly

theorem forwardPlain_orderly (b : Bridge) (r : InFlight) : Orderly b (b.forwardPlain r) := by
  unfold forwardPlain
  split
  · exact (setPhase_settles ..).toOrderly
  · exact (forward_settles ..).toOrderly

theorem handOn_orderly {b b' : Bridge} {r : InFlight} (h : b.handOn r = some b') : Orderly b b' := by
  unfold handOn at h
  split at h
  · cases h
    exact decode_orderly ..
  · split at h <;> cases h
    exact (noteAccess_orderly ..).trans (beginSnoop_settles ..).toOrderly
  · split at h <;> cases h
    · exact (beginSnoop_settles ..).toOrderly
    · exact forwardPlain_orderly ..
  · cases h
    exact forwardPlain_orderly ..
  all_goals cases h

theorem arrive_orderly {b b' : Bridge} {row : RequestClass → Bool → Bool} {src : Arrival} (h : b.arrive row src = some b') :
    Orderly b b' := by
  unfold arrive at h
  split at h
  case h_1 r =>
    dsimp only at h
    split at h
    case isTrue offered =>
      obtain ⟨-, room, -⟩ := offered
      have taken := takeRequest_orderly b r (classify b.control.state b.control.settings b.control.straps r) room
      split at h
      · cases h
        split
        · cases handed : (b.takeRequest r (classify b.control.state b.control.settings b.control.straps r)).handOn _ with
          | none => exact taken
          | some x => exact taken.trans (handOn_orderly handed)
        · exact taken
      · cases h
        exact taken
    case isFalse => cases h
  case h_2 =>
    split at h
    · split at h
      · exact handOn_orderly h
      · cases h
    · cases h

theorem actOnStartWord_orderly (b : Bridge) (v : Nat) : Orderly b (b.actOnStartWord v) := by
  unfold actOnStartWord
  split
  · exact takeStart_orderly b
  · split
    · exact takeStop_orderly b
    · exact Orderly.refl b

theorem forwardedDone_orderly (b : Bridge) (id : Nat) (ok : Bool) (data : List Byte) :
    Orderly b (b.forwardedDone id ok data) := by
  unfold forwardedDone
  split
  · exact Orderly.refl b
  · have answered (data : List Byte) := (answer_settles b id ok data).toOrderly
    dsimp only
    split
    · split
      · exact (answered _).trans (actOnStartWord_orderly ..)
      · exact answered _
    · exact answered _

theorem stopCommand_orderly {b b' : Bridge} (h : b.stopCommand = some b') : Orderly b b' := by
  unfold stopCommand at h
  split at h
  · cases h
    split
    · exact (commandDone_settles b).toOrderly.trans (takeStop_orderly _)
    · exact (commandDone_settles b).toOrderly
  · cases h

theorem mirrorDone_orderly (b : Bridge) (id : Nat) : Orderly b (b.mirrorDone id) := by
  refine Orderly.trans ?_ (freeMirrorWaiters_settles _).toOrderly
  refine Orderly.beside ?_ rfl rfl rfl
  constructor
  case requests =>
    rw [List.map_map]
    exact List.Sublist.refl _
  all_goals simp

theorem bridgeClass_cases (a : Access) : a.bridgeClass = 0 ∨ a.bridgeClass = 1 ∨ a.bridgeClass = 2 ∨ a.bridgeClass = 3
    ∨ a.bridgeClass = 4 := by
  cases a with
  | item n stack move => cases move <;> simp [Access.bridgeClass]
  | _ => simp [Access.bridgeClass]

theorem forwarded_of_must {q : MemRequest} (h : q.must = true) : q.forwarded = false := by
  unfold MemRequest.must at h
  unfold MemRequest.forwarded
  split at h
  case h_1 n must writes => rw [writes]; rfl
  case h_2 => cases h

/-- The arbiter's first bridge request is none of the forwarded ones. -/
theorem firstBridge_forwarded {m : MPort} {q : MemRequest} (h : m.firstBridge = some q) : q.forwarded = false := by
  have of_class (k : Nat) (bridge : k ≠ 0) (found : m.waiting.find? (fun q => q.access.bridgeClass == k) = some q) :
      q.forwarded = false := by
    have here : q.access.bridgeClass = k := by simpa using List.find?_some found
    rw [MemRequest.forwarded, here]
    exact beq_false_of_ne bridge
  unfold MPort.firstBridge at h
  rcases Option.or_eq_some_iff.mp h with first | ⟨-, h⟩
  · exact of_class 1 (by decide) first
  rcases Option.or_eq_some_iff.mp h with second | ⟨-, h⟩
  · exact of_class 2 (by decide) second
  rcases Option.or_eq_some_iff.mp h with third | ⟨-, fourth⟩
  · exact of_class 3 (by decide) third
  · exact of_class 4 (by decide) fourth

/-- With no bridge request first, every request that waits is forwarded traffic. -/
theorem forwarded_of_firstBridge_none {m : MPort} (h : m.firstBridge = none) : ∀ x ∈ m.waiting, x.forwarded = true := by
  intro x mem
  unfold MPort.firstBridge at h
  simp only [Option.or_eq_none_iff, List.find?_eq_none, beq_iff_eq] at h
  obtain ⟨first, second, third, fourth⟩ := h
  have none_of := (bridgeClass_cases x.access).resolve_right (by
    rintro (one | two | three | four)
    · exact first x mem one
    · exact second x mem two
    · exact third x mem three
    · exact fourth x mem four)
  rw [MemRequest.forwarded, none_of]
  rfl

/-- At a fairness count of 8 a forwarded request is granted only when no bridge request waits (R179). -/
theorem choice_full {m : MPort} {must : Bool} {q : MemRequest} (full : m.fairness = 8) (choice : m.choice must = some q)
    (forwards : q.forwarded = true) : ∀ x ∈ m.waiting, x.forwarded = true := by
  unfold MPort.choice at choice
  rw [if_pos full] at choice
  rcases Option.or_eq_some_iff.mp choice with first | ⟨-, choice⟩
  · cases must with
    | true =>
      rw [forwarded_of_must (List.find?_some first)] at forwards
      cases forwards
    | false => cases first
  rcases Option.or_eq_some_iff.mp choice with bridge | ⟨no_bridge, -⟩
  · rw [firstBridge_forwarded bridge] at forwards
    cases forwards
  · exact forwarded_of_firstBridge_none no_bridge

theorem grant_orderly {b b' : Bridge} (h : b.grant = some b') : Orderly b b' := by
  unfold grant at h
  split at h
  · cases h
  case h_2 q choice =>
    cases h
    refine ⟨CacheOk.congr rfl rfl, id, fun bounded => ?_, id, id, id, id⟩
    dsimp only [FairnessOk] at bounded ⊢
    split
    case isTrue counts =>
      obtain ⟨forwards, left⟩ := counts
      obtain ⟨x, mem, bridge⟩ := List.any_eq_true.mp left
      have not_full : b.mport.fairness ≠ 8 := fun full => by
        have all := choice_full full choice forwards x (List.mem_filter.mp mem).1
        rw [all] at bridge
        cases bridge
      omega
    case isFalse => exact Nat.zero_le _

/-! ## The resets -/

theorem resetRequest_id (draw : Nat) (l : List MemRequest) (r : InFlight) : (resetRequest draw l r).id = r.id := by
  unfold resetRequest
  split <;> try split
  all_goals rfl

theorem powerOnReset_orderly (b : Bridge) : Orderly b b.powerOnReset := by
  have ids : (b.iport.inflight.map (resetRequest b.freeDraws b.mport.outstanding)).map InFlight.id
      = b.iport.inflight.map InFlight.id := by
    rw [List.map_map]
    exact List.map_congr_left (fun r _ => resetRequest_id _ _ r)
  refine Orderly.trans ?_ (drain_settles _).toOrderly
  exact Orderly.of
    ⟨ids ▸ List.Sublist.refl _, Nat.le_refl _, Nat.zero_le _, Nat.zero_le _, Nat.zero_le _, Or.inr rfl⟩
    (fun _ => ⟨Nat.zero_le _, List.nodup_nil, fun _ mem => nomatch mem⟩) (fun _ => List.Pairwise.nil)

theorem endReset_orderly {b b' : Bridge} {straps : Fin 16} (h : b.endReset straps = some b') : Orderly b b' := by
  unfold endReset at h
  split at h <;> cases h
  exact control_orderly b _ (Nat.le_max_right _ _) (Or.inl rfl)

theorem abandonTaps_orderly (b : Bridge) : Orderly b b.abandonTaps := by
  refine Orderly.trans ?_ (drain_settles _).toOrderly
  refine Orderly.beside ?_ rfl rfl rfl
  constructor
  case requests =>
    refine sublist_of_eq ((List.map_map ..).trans (List.map_congr_left (g := InFlight.id) fun r _ => ?_))
    dsimp only [Function.comp]
    split
    · split <;> rfl
    · rfl
  all_goals simp

theorem abandonMove_orderly (b : Bridge) : Orderly b b.abandonMove := by
  refine Orderly.trans ?_ (freeMoveWaiters_settles _).toOrderly
  exact Orderly.beside (by constructor <;> simp) rfl rfl rfl

theorem abandonPending_orderly (b : Bridge) : Orderly b b.abandonPending :=
  Orderly.of ⟨List.Sublist.refl _, Nat.le_refl _, Nat.le_max_right _ _, Nat.le_max_right _ _, Nat.le_max_right _ _, Or.inl rfl⟩
    id (fun _ => List.Pairwise.nil)

theorem discardNotices_orderly (b : Bridge) : Orderly b b.discardNotices := by
  unfold discardNotices
  refine Orderly.trans ?_ (foldl_orderly _ _ (fun b (x : Notice) => (dropNotice_settles b x.kind).toOrderly) _)
  exact Orderly.beside (by constructor <;> simp) rfl rfl rfl

theorem dropUnissued_orderly (b : Bridge) : Orderly b b.dropUnissued :=
  foldl_orderly _ _ (fun b n => by
    unfold dropIndex
    split
    · exact (dropEntry_settles b _).1.toOrderly
    · exact Orderly.refl b) b

theorem atWarm_index (e : Entry) : e.atWarm.index = e.index := by
  unfold Entry.atWarm
  dsimp only
  split <;> rfl

theorem atWarm_claim (e : Entry) : e.atWarm.claim = none := by
  have unclaimed := (atWarm_state (if e.pin then e.unpinned else e).state).2
  unfold Entry.claim
  split
  case h_1 n claims => exact absurd claims (unclaimed n)
  case h_2 => rfl

theorem warmCache_orderly (b : Bridge) : Orderly b b.warmCache := by
  refine Orderly.trans ?_ (dropUnissued_orderly _)
  refine Orderly.of (by constructor <;> simp) (fun ok => ?_) (PendingOk.congr rfl)
  have mapped : CacheOk { b with cache := b.cache.map Entry.atWarm } :=
    CacheOk.of_map Entry.atWarm rfl rfl (fun e _ => atWarm_index e) (fun e _ => Or.inl (atWarm_claim e)) ok
  exact ⟨mapped.1, mapped.2.1, fun _ mem => nomatch mem⟩

theorem warmReset_orderly {b b' : Bridge} (h : b.warmReset = some b') : Orderly b b' := by
  unfold warmReset at h
  split at h
  · cases h
  · cases h
    have warm : Orderly b (setState { b with control := { b.control with
        idleTimer := none, audit := none, findings := [], emptying := false, stopStage := .none } } .warm) := by
      refine Orderly.trans ?_ (setState_settles _ _).toOrderly
      exact control_orderly b _ (Nat.le_max_right _ _) (Or.inl rfl)
    refine warm.trans ((abandonTaps_orderly _).trans ((abandonMove_orderly _).trans ((abandonPending_orderly _).trans
      ((discardNotices_orderly _).trans (Orderly.trans ?_ (warmCache_orderly _))))))
    exact command_orderly _ _

/-! ## The rows -/

/-- Every effect of a command that the bridge settles keeps the invariants. -/
theorem effectOf_orderly {c : Instr} {b b' : Bridge} (h : effectOf c b = some b') : Orderly b b' := by
  unfold effectOf at h
  have answers {b : Bridge} {id : Nat} {ok : Bool} {data : List Byte} : Orderly b (b.answer id ok data) :=
    (answer_settles b id ok data).toOrderly
  split at h
  case h_1 | h_2 | h_3 | h_4 => exact arrive_orderly h
  · exact tapStep_orderly (putEffect_orderly _) h
  · exact tapStep_orderly (headEffect_orderly _ _) h
  · exact tapStep_orderly (headEffect_orderly _ _) h
  · exact tapStep_orderly (fun _ _ _ _ => answers) h
  · exact tapStep_orderly (fun _ _ _ _ => answers) h
  · exact tapStep_orderly (pushTap_orderly _ _ _ _) h
  · exact tapStep_orderly (popEffect_orderly _) h
  · exact tapStep_orderly (topEffect_orderly _) h
  · exact tapStep_orderly (fun _ _ _ _ => answers) h
  · exact tapStep_orderly (pushTap_orderly _ _ _ _) h
  · exact tapStep_orderly (unwindEffect_orderly _) h
  · exact tapStep_orderly (fun _ _ _ _ => (advanceTally_orderly ..).trans answers) h
  · exact tapStep_orderly (fun _ _ _ _ => (advanceTally_orderly ..).trans answers) h
  · exact tapStep_orderly (setEffect_orderly _) h
  · exact tapStep_orderly (fun _ _ _ _ => answers) h
  · exact tapStep_orderly (fun _ _ _ _ => answers) h
  · exact commandTake_orderly h
  · exact noticeStep_orderly h
  · exact nop_orderly h
  · exact flush_orderly h
  · exact release_orderly h
  · exact commandStep_orderly (abortEffect_orderly _) h
  · exact commandStep_orderly (openEffect_orderly _) h
  · exact commandStep_orderly (closeEffect_orderly _) h
  · exact commandStep_orderly (clearFaultEffect_orderly _) h
  · exact commandStep_orderly (closeGuardEffect_orderly _) h
  · exact commandStep_orderly (armEffect_orderly _) h
  · exact commandStep_orderly (fun _ _ _ => changeAndDone_orderly ..) h
  · exact postTrigger_orderly h
  · exact stopMove_orderly h
  · exact pauseMoves_orderly h
  · exact resumeMoves_orderly h
  · exact stopCommand_orderly h
  · exact auditFault_orderly h
  · exact choose_orderly h
  · exact pinStep_orderly h
  · exact reservationStep_orderly h
  · exact takeStep_orderly h
  · exact putStep_orderly h
  · exact releaseStep_orderly h
  · exact reportEnd_orderly h
  · exact completionStep_orderly h
  · exact timerExpires_orderly h
  · exact clearPending_orderly h
  · exact beginEmptying_orderly h
  · exact warmReset_orderly h
  · cases h

theorem bareEffectOf_orderly {c : Instr} {b b' : Bridge} (h : bareEffectOf c b = some b') : Orderly b b' := by
  unfold bareEffectOf at h
  split at h
  · cases h
    exact powerOnReset_orderly b
  · exact endReset_orderly h
  · exact grant_orderly h
  · cases h

/-- What the requester makes of memory's answer keeps the invariants. -/
theorem answerOf_orderly {c : Instr} {a : Answer} (h : answerOf c = some a) (q : MemRequest) (data : List Byte) (b : Bridge) :
    Orderly b (a.effect q data b) := by
  unfold answerOf at h
  split at h <;> cases h
  · exact forwardedDone_orderly ..
  · exact mirrorDone_orderly ..
  · exact ringItemDone_orderly ..
  · exact stackItemDone_orderly ..
  · exact anchorRead_orderly ..
  · exact auditReadBack_orderly ..
  · exact auditWriteBack_orderly ..
  · exact fetchDone_orderly ..
  · exact writeBackDone_orderly ..
  · exact moveRead_orderly ..
  · exact spanReadBack_orderly ..
  · exact spanWriteBack_orderly ..
  · exact stored_orderly ..
  · exact forwardedDone_orderly ..
  · exact forwardedDone_orderly ..

theorem received_orderly (b : Bridge) (id : Nat) : Orderly b (b.received id) := by
  unfold received
  exact Orderly.beside (by constructor <;> simp) rfl rfl rfl

theorem event_orderly {s s' : State} {f : Bridge → Option Bridge} (h : s.event f = .next s')
    (effect : ∀ b', f s.chip = some b' → Orderly s.chip b') : Orderly s.chip s'.chip := by
  unfold State.event at h
  split at h
  case h_1 b' takes => cases h; exact effect b' takes
  case h_2 => cases h; exact Orderly.refl _

theorem exec_orderly {c : Instr} {s s' : State} (h : exec c s = .next s') : Orderly s.chip s'.chip := by
  rcases exec_forms c s with event | event | ⟨a, answer, runs⟩
  · refine event_orderly (event.symm.trans h) (fun b' takes => ?_)
    obtain ⟨b, effect, rfl⟩ := Option.map_eq_some_iff.mp takes
    exact (effectOf_orderly effect).trans (settle_settles b).toOrderly
  · exact event_orderly (event.symm.trans h) (fun b' takes => bareEffectOf_orderly takes)
  · rcases Answer.run_cases (runs.symm.trans h) with rfl | ⟨q, -, -, -, -, let_go | goes_on⟩
    · exact Orderly.refl _
    · rw [let_go]
      exact received_orderly ..
    · rw [goes_on]
      exact (received_orderly ..).trans ((answerOf_orderly answer _ _ _).trans (settle_settles _).toOrderly)

theorem step_orderly {s s' : State} (h : step s = .next s') : Orderly s.chip s'.chip := by
  unfold step at h
  split at h
  · cases h
    exact tick_orderly _
  case h_2 c rest _ => exact exec_orderly (s := { s with pending := rest }) h

/-! ## Reset and every step -/

theorem step_sound {s s' : State} (h : step s = .next s') (sound : Sound s.chip) : Sound s'.chip := by
  unfold step at h
  split at h
  · cases h
    exact tick_sound sound
  case h_2 c rest _ => exact exec_sound c { s with pending := rest } s' h sound

/-- Settles O4: every list of the reset state is empty, and every other field its power-on value. -/
theorem invariantsHoldAtReset : Obligations.InvariantsHoldAtReset := by
  have no_entry {P : Entry → Prop} : ∀ e ∈ State.reset.chip.cache, P e := fun _ mem => nomatch mem
  have engine : StepLaw State.reset.chip := unloadedEngine_law (x := .idle) (p := false) rfl
  have empty : Spare State.reset.chip :=
    ⟨⟨List.nodup_nil, fun _ mem => nomatch mem⟩, no_entry, rfl⟩
  exact ⟨Memory.reset_wf, ⟨Nat.zero_le _, List.nodup_nil, fun _ mem => nomatch mem⟩, Nat.zero_le _, Nat.zero_le _,
    ⟨Nat.zero_le _, Nat.zero_le _⟩, ⟨List.nodup_nil, fun _ mem => nomatch mem⟩, fun _ inUse => (nomatch inUse),
    List.Pairwise.nil, (empty.sound engine).structuresOk⟩

/-- Settles O6: each operation of the bridge keeps the entries apart (`Orderly.cache`). -/
theorem everyStepKeepsEachIndexHeldOnce : Obligations.EveryStepKeepsEachIndexHeldOnce :=
  fun _ _ ok h => (step_orderly h).cache ok

theorem fetched_of_ne {t : EntryState} (h : ∀ issued, t ≠ .fetching issued) : t.isFetching = false := by
  cases t with
  | fetching issued => exact absurd rfl (h issued)
  | clean | dirty | writing => rfl

/-- A working copy that is not HALTED with cause DESCRIPTOR obeys the law of its kind. -/
theorem StructuresOk.copyLaw {b : Bridge} (h : StructuresOk b) {e : Entry} (mem : e ∈ b.cache)
    (fetched : ∀ issued, e.state ≠ .fetching issued)
    (sound : ¬ (e.copy.state = stHalted ∧ e.copy.cause = causeDescriptor)) : CopyLaw e.index e.copy e.reservation := by
  refine (h.entries e mem).copy (fetched_of_ne fetched) ?_
  unfold Descriptor.descriptorHalt
  simpa using sound

/-- Settles O7: each operation of the bridge keeps the counts (`Orderly`), and the laws of the device last by
Laws/Rows.lean. -/
theorem everyStepKeepsCountsInBounds : Obligations.EveryStepKeepsCountsInBounds := by
  intro s s' h
  have kept := step_orderly h
  refine ⟨kept.inFlight, kept.fairness, kept.notices, kept.handles, kept.settings, kept.pending, fun cache laws => ?_⟩
  have laws' := (step_sound h (Sound.of cache laws)).structuresOk
  refine ⟨laws', fun e mem fetched => ?_⟩
  intro d halting sound
  have law := laws'.copyLaw mem fetched sound
  refine ⟨law.ring, fun stack => ?_, law.tally⟩
  obtain ⟨frame, depth, -, closed, opened⟩ := law.stack stack
  exact ⟨frame, depth, closed, opened⟩

end Sys2Proof.Machine
end

