-- ==== Sys2Proof/Proofs/SharedEffects.lean ====
section
/-! The effects that operations share: responses leave in order (R176), refusals and notices are recorded (R34 to R36, R168, R170),
a level that crosses its condition is reported (R54, R81, R149), and the lines follow their shadows (R172, R173). -/

namespace Sys2Proof.Machine

open Bridge

/-! ## Responses leave in order (R176) -/

/-- The request is answered. -/
def InFlight.isAnswered (r : InFlight) : Bool :=
  match r.phase with
  | .answered _ _ => true
  | .waiting | .snooping _ | .moveWait _ | .mirrorWait | .tapped | .forwarded => false

theorem isAnswered_iff (r : InFlight) : r.isAnswered = true ↔ ∃ ok data, r.phase = .answered ok data := by
  unfold InFlight.isAnswered
  cases r.phase <;> simp

/-- The request at an index leaves, when the initiators `blocked` have requests in flight before the list. -/
def leavesAt : List Initiator → List InFlight → Nat → Bool
  | _, [], _ => false
  | blocked, r :: _, 0 => r.isAnswered && !blocked.contains r.request.initiator
  | blocked, r :: rs, i + 1 => leavesAt (if r.isAnswered then blocked else r.request.initiator :: blocked) rs i

theorem leavesAt_iff (l : List InFlight) (blocked : List Initiator) (i : Nat) (r : InFlight) (here : l[i]? = some r) :
    leavesAt blocked l i = true ↔ r.isAnswered = true ∧ r.request.initiator ∉ blocked
      ∧ ∀ j x, j < i → l[j]? = some x → x.request.initiator = r.request.initiator → x.isAnswered = true := by
  induction l generalizing blocked i with
  | nil => cases here
  | cons a l ih =>
    cases i with
    | zero =>
      cases here
      simp [leavesAt]
    | succ i =>
      rw [leavesAt, ih _ i here]
      have later : (∀ j x, j < i + 1 → (a :: l)[j]? = some x → x.request.initiator = r.request.initiator → x.isAnswered = true)
          ↔ (a.request.initiator = r.request.initiator → a.isAnswered = true)
            ∧ ∀ j x, j < i → l[j]? = some x → x.request.initiator = r.request.initiator → x.isAnswered = true := by
        refine ⟨fun h => ⟨h 0 a (Nat.succ_pos i) rfl, fun j x below => h (j + 1) x (Nat.succ_lt_succ below)⟩,
          fun ⟨first, rest⟩ j x below at_j => ?_⟩
        cases j with
        | zero => cases at_j; exact first
        | succ j => exact rest j x (Nat.lt_of_succ_lt_succ below) at_j
      rw [later]
      cases a.isAnswered with
      | true => simp
      | false =>
        simp only [Bool.false_eq_true, if_false, List.mem_cons, not_or, eq_comm (a := r.request.initiator)]
        exact ⟨fun ⟨done, ⟨apart, free⟩, rest⟩ => ⟨done, free, apart, rest⟩,
          fun ⟨done, free, apart, rest⟩ => ⟨done, ⟨apart, free⟩, rest⟩⟩

theorem drainList_of_unanswered (blocked : List Initiator) (r : InFlight) (l : List InFlight) (h : r.isAnswered = false) :
    drainList blocked (r :: l) = (r :: (drainList (r.request.initiator :: blocked) l).1,
      (drainList (r.request.initiator :: blocked) l).2) := by
  unfold InFlight.isAnswered at h
  rw [drainList]
  cases phase : r.phase with
  | answered ok data => rw [phase] at h; cases h
  | _ => rfl

/-- What `drainList` keeps and lets go, as the request at the front leaves or not. -/
theorem drainList_cons (blocked : List Initiator) (r : InFlight) (l : List InFlight) :
    let rest := drainList (if r.isAnswered then blocked else r.request.initiator :: blocked) l
    ((r.isAnswered && !blocked.contains r.request.initiator) = false → drainList blocked (r :: l) = (r :: rest.1, rest.2))
    ∧ ((r.isAnswered && !blocked.contains r.request.initiator) = true →
      ∃ x : Response, drainList blocked (r :: l) = (rest.1, x :: rest.2)
        ∧ (x.id, x.initiator, RequestPhase.answered x.ok x.data) = (r.id, r.request.initiator, r.phase)) := by
  cases answered : r.isAnswered with
  | false => exact ⟨fun _ => drainList_of_unanswered blocked r l answered, fun out => nomatch out⟩
  | true =>
    obtain ⟨ok, data, phase⟩ := (isAnswered_iff r).mp answered
    rw [drainList, phase, if_pos rfl, Bool.true_and]
    refine ⟨fun stays => if_pos (by simpa using stays), fun goes => ⟨⟨r.id, r.request.initiator, ok, data⟩, ?_, rfl⟩⟩
    exact if_neg (by simpa using goes)

/-- `drainList` lets go exactly the requests of `leavesAt`, counted from an index `k` on. -/
theorem drainList_eq (l : List InFlight) (blocked : List Initiator) (k : Nat) (leaves : Nat → Bool)
    (same : ∀ i, leaves (k + i) = leavesAt blocked l i) :
    (drainList blocked l).1 = ((l.zipIdx k).filter (fun p => !leaves p.2)).map Prod.fst
    ∧ (drainList blocked l).2.map (fun x => (x.id, x.initiator, RequestPhase.answered x.ok x.data))
      = ((l.zipIdx k).filter (fun p => leaves p.2)).map (fun p => (p.1.id, p.1.request.initiator, p.1.phase)) := by
  induction l generalizing blocked k with
  | nil => exact ⟨rfl, rfl⟩
  | cons r l ih =>
    obtain ⟨stay, leave⟩ := ih (if r.isAnswered then blocked else r.request.initiator :: blocked) (k + 1) (fun i => by
      rw [Nat.add_assoc, Nat.add_comm 1 i]
      exact same (i + 1))
    have first : leaves k = (r.isAnswered && !blocked.contains r.request.initiator) := same 0
    obtain ⟨stays, goes⟩ := drainList_cons blocked r l
    rw [List.zipIdx_cons]
    cases out : r.isAnswered && !blocked.contains r.request.initiator with
    | false =>
      rw [stays out, List.filter_cons_of_pos (by rw [first, out]; rfl), List.filter_cons_of_neg (by rw [first, out]; decide)]
      exact ⟨congrArg (List.cons r) stay, leave⟩
    | true =>
      obtain ⟨x, drained, fields⟩ := goes out
      rw [drained, List.filter_cons_of_neg (by rw [first, out]; decide), List.filter_cons_of_pos (by rw [first, out])]
      exact ⟨stay, congr (congrArg List.cons fields) leave⟩

/-- Settles O11, by induction on the requests in flight, with the initiators that a request in flight blocks. -/
theorem responsesLeaveInInitiatorOrder : Obligations.ResponsesLeaveInInitiatorOrder := by
  intro b
  refine ⟨leavesAt [] b.iport.inflight, ?_⟩
  intro taken answered
  obtain ⟨stay, leave⟩ := drainList_eq taken [] 0 (leavesAt [] taken) (fun i => by rw [Nat.zero_add])
  refine ⟨fun i r here => ?_, stay, _, rfl, leave⟩
  rw [leavesAt_iff taken [] i r here, isAnswered_iff]
  simp only [List.not_mem_nil, not_false_eq_true, true_and, isAnswered_iff]
  rfl

/-! ## Refusals and notices (R34 to R36, R168, R170) -/

theorem mirror_with_control (b : Bridge) (x : Control) : (mirror { b with control := x }).notices = b.notices := by simp

/-- A notice that finds room joins the queue. -/
theorem notify_of_room (b : Bridge) (x : Notice) (room : b.notices.queue.length < 8) :
    b.notify x = { b with
      notices := { b.notices with queue := b.notices.queue ++ [x] }
      control := if b.control.emptying = true then { b.control with
          emptying := false, idleTimer := if b.cfg.idleTime = 0 then none else some b.cfg.idleTime }
        else b.control } := by
  unfold notify cancelEmptying
  rw [if_pos room]
  dsimp only
  split <;> rfl

theorem notify_queue (b : Bridge) (x : Notice) (room : b.notices.queue.length < 8) :
    (b.notify x).notices.queue = b.notices.queue ++ [x] := by rw [notify_of_room b x room]

theorem notify_of_full (b : Bridge) (x : Notice) (full : 8 ≤ b.notices.queue.length) : b.notify x = b.dropNotice x.kind := by
  unfold notify
  rw [if_neg (by omega)]

theorem dropNotice_control (b : Bridge) (k : NoticeKind) : (b.dropNotice k).control =
    if 65535 ≤ b.control.dropped then b.control else { b.control with
      dropped := b.control.dropped + 1
      firstDropped := if b.control.dropped = 0 then some k else b.control.firstDropped } := by
  unfold dropNotice
  split
  · rfl
  · exact (mirror_frame _).2.2.2.2.2.2.2.2.1

/-- Settles O13. -/
theorem noticeJoinsQueueOrIsCounted : Obligations.NoticeJoinsQueueOrIsCounted := by
  intro b x
  refine ⟨notify_of_room b x, fun full => ?_⟩
  rw [notify_of_full b x full, dropNotice_control]
  refine ⟨by simp, fun below => ?_, fun top => ?_, fun none_before => ?_, fun some_before => ?_⟩
  · rw [if_neg (by omega)]
  · rw [if_pos (by omega)]
  · rw [if_neg (by omega)]
    exact if_pos none_before
  · split
    · rfl
    · exact if_neg (by omega)

theorem notify_control_of_notices {b : Bridge} {x : Notice} : (b.notify x).control.lastRefusal = b.control.lastRefusal := by
  by_cases room : b.notices.queue.length < 8
  · rw [notify_of_room b x room]
    dsimp only
    split <;> rfl
  · rw [notify_of_full b x (by omega), dropNotice_control]
    split <;> rfl

/-- A refusal that is recorded replaces the last-refusal record, and is noticed when the anchor enables it. -/
theorem recordRefusal_of_recorded (b : Bridge) (t : Tap) (r : Reason) (recorded : t.debug = false ∨ t.write = true) :
    b.recordRefusal t r =
      let b1 := mirror { b with control := { b.control with lastRefusal := ⟨t.initiator, r, t.struct, t.offset⟩ } }
      if b.cfg.refusalNotices then b1.notify (refusalNotice t r) else b1 := by
  unfold recordRefusal
  rw [if_neg]
  rcases recorded with plain | write
  · simp [plain]
  · simp [write]

/-- Settles O12. -/
theorem refusalIsAnsweredErrorAndRecorded : Obligations.RefusalIsAnsweredErrorAndRecorded := by
  intro b t r a
  have refuse : b.refuseTap t r = a.recordRefusal t r := rfl
  have cfg : a.cfg = b.cfg := by unfold Bridge.cfg; simp [a]
  have notices : a.notices = b.notices := by simp [a]
  refine ⟨fun debug read => ?_, fun recorded => ?_⟩
  · rw [refuse]
    unfold recordRefusal
    rw [if_pos (by simp [debug, read])]
  · rw [refuse, recordRefusal_of_recorded a t r recorded, cfg]
    dsimp only
    refine ⟨?_, ?_, fun disabled => ?_, fun enabled room => ?_⟩
    · split
      · rw [notify_control_of_notices, (mirror_frame _).2.2.2.2.2.2.2.2.1]
      · rw [(mirror_frame _).2.2.2.2.2.2.2.2.1]
    · split <;> simp
    · simp [disabled, notices]
    · rw [if_pos enabled, notify_queue _ _ (by simpa [notices] using room)]
      simp [notices, refusalNotice]

/-! ## Posts and reports (R54, R81, R149 to R151) -/

theorem insertPending_of_mem (l : List PendingMove) (p : PendingMove) (rising : l.Pairwise (fun x y => x.move < y.move))
    (pending : ∃ q ∈ l, q.move = p.move) : insertPending l p = l := by
  induction l with
  | nil => obtain ⟨q, mem, -⟩ := pending; cases mem
  | cons a l ih =>
    obtain ⟨least, rest⟩ := List.pairwise_cons.mp rising
    obtain ⟨q, mem, move⟩ := pending
    unfold insertPending
    rcases List.mem_cons.mp mem with rfl | later
    · rw [if_neg (by omega), if_pos move.symm]
    · have above := least q later
      rw [if_neg (by omega), if_neg (by omega), ih rest ⟨q, later, move⟩]

theorem mem_insertPending_of_new (l : List PendingMove) (p : PendingMove) (new : ∀ q ∈ l, q.move ≠ p.move) (x : PendingMove) :
    x ∈ insertPending l p ↔ x = p ∨ x ∈ l := by
  induction l with
  | nil => simp [insertPending]
  | cons a l ih =>
    have rest := ih (fun q mem => new q (List.mem_cons_of_mem a mem))
    have other := new a List.mem_cons_self
    unfold insertPending
    split
    · exact List.mem_cons
    · rw [if_neg (Ne.symm other), List.mem_cons, rest, List.mem_cons]
      exact or_left_comm

@[simp] theorem judgeLines_trigger (b : Bridge) (n : Nat) (d : Descriptor) (x y : Bool) :
    (b.judgeLines n d x y).trigger = b.trigger := rfl

theorem post_trigger (b : Bridge) (m : Nat) (o : ChainOrigin) : (b.post m o).trigger =
    if b.control.state = .run ∨ b.control.state = .quiet then
      { b.trigger with pending := insertPending b.trigger.pending ⟨m, .start o⟩ }
    else b.trigger := by
  unfold post
  split <;> rfl

/-- The post of a report, if it makes one. -/
theorem report_trigger (b : Bridge) (n : Nat) (before after : Descriptor) (i : Option Initiator) (m : Option Nat) :
    (b.report n before after i m).trigger = (if (!before.holds && after.holds) && after.armed then
      b.post after.triggerMove.toNat (.structure n) else b).trigger := by
  unfold report
  dsimp only
  split <;> (split <;> simp)

/-- The notice of a report, if it queues one. -/
theorem report_notices (b : Bridge) (n : Nat) (before after : Descriptor) (i : Option Initiator) (m : Option Nat) :
    (b.report n before after i m).notices = ((if (!before.holds && after.holds) && after.watermarkNotices && n != 1 then
      (if (!before.holds && after.holds) && after.armed then b.post after.triggerMove.toNat (.structure n) else b).notify
        (watermarkNotice n after.level i m)
      else b)).notices := by
  unfold report
  dsimp only
  split <;> (split <;> simp) <;> split <;> simp

/-- Settles O14: `report_trigger` and `report_notices` give the two effects, and the second part is the pending set's insertion. -/
theorem crossingPostsAndNotifies : Obligations.CrossingPostsAndNotifies := by
  refine ⟨fun b n before after i m => ?_, fun l p rising => ⟨insertPending_pairwise l p rising,
    insertPending_of_mem l p rising, mem_insertPending_of_new l p⟩⟩
  intro crossing b'
  have crosses : (!before.holds && after.holds) = true ↔ crossing := by simp [crossing]
  have trigger := report_trigger b n before after i m
  have notices := report_notices b n before after i m
  refine ⟨fun crossed armed live => ?_, fun quiet => ?_, fun crossed enabled other room => ?_, fun silent => ?_, by simp [b'],
    by simp [b'], by simp [b']⟩
  · rw [trigger, if_pos (by rw [crosses.mpr crossed, armed]; rfl), post_trigger, if_pos live]
  · rw [trigger]
    split
    case isTrue posts =>
      rw [Bool.and_eq_true, crosses] at posts
      rw [post_trigger, if_neg]
      rcases quiet with no_crossing | unarmed | ⟨not_run, not_quiet⟩
      · exact absurd posts.1 no_crossing
      · rw [unarmed] at posts
        cases posts.2
      · exact not_or.mpr ⟨not_run, not_quiet⟩
    case isFalse => rfl
  · have posted : (if (!before.holds && after.holds) && after.armed then b.post after.triggerMove.toNat (.structure n)
        else b).notices = b.notices := by split <;> simp
    rw [notices, if_pos (by rw [crosses.mpr crossed, enabled]; simpa using other), notify_queue _ _ (by rwa [posted]), posted]
    rfl
  · rw [notices, if_neg]
    rintro noticed
    rw [Bool.and_eq_true, Bool.and_eq_true, crosses, bne_iff_ne] at noticed
    obtain ⟨⟨crossed, enabled⟩, other⟩ := noticed
    rcases silent with no_crossing | disabled | notice_ring
    · exact no_crossing crossed
    · rw [disabled] at enabled
      cases enabled
    · exact other notice_ring

/-! ## The notice line and the demand lines (R172, R173) -/

theorem linesLive_iff (b : Bridge) : b.linesLive = true ↔ b.control.state = .run ∨ b.control.state = .quiet := by
  unfold linesLive
  simp

theorem noticeLineHigh_iff (b : Bridge) : b.noticeLineHigh = true ↔
    (b.control.state = .run ∨ b.control.state = .quiet) ∧ b.cfg.noticeLine = true ∧ b.control.noticeShadow = true := by
  unfold noticeLineHigh
  rw [Bool.and_eq_true, Bool.and_eq_true, linesLive_iff, and_assoc]

theorem demandLineHigh_iff (b : Bridge) (k : Nat) : b.demandLineHigh k = true ↔
    (b.control.state = .run ∨ b.control.state = .quiet) ∧ b.control.demandShadows[k]? = some true
      ∧ ∃ x, b.cfg.bindings[k]? = some x ∧ x.enable = true ∧ x.index < b.cfg.structureCount := by
  unfold demandLineHigh
  rw [← linesLive_iff]
  split
  case h_1 x v binding shadow =>
    rw [binding, shadow]
    simp only [Bool.and_eq_true, decide_eq_true_eq, Option.some.injEq, exists_eq_left']
    exact ⟨fun ⟨⟨⟨live, enabled⟩, within⟩, high⟩ => ⟨live, high, enabled, within⟩,
      fun ⟨live, high, enabled, within⟩ => ⟨⟨⟨live, enabled⟩, within⟩, high⟩⟩
  case h_2 absent =>
    refine ⟨fun h => (nomatch h), fun ⟨_, shadow, x, binding, _⟩ => ?_⟩
    exact (absent x true binding shadow).elim

/-- The shadow of each line bound to the structure takes the value; the others stay. -/
theorem judgeShadows_at (bindings : List Binding) (n : Nat) (v : Bool) (shadows : List Bool) (k : Nat) (x : Binding) (old : Bool)
    (binding : bindings[k]? = some x) (shadow : shadows[k]? = some old) :
    (judgeShadows bindings n v shadows)[k]? = some (if x.index = n then v else old) := by
  induction shadows generalizing bindings k with
  | nil => cases shadow
  | cons s shadows ih =>
    cases bindings with
    | nil => cases binding
    | cons y bindings =>
      cases k with
      | zero => cases binding; cases shadow; rfl
      | succ k => exact ih bindings k binding shadow

/-- What a judgement makes of the shadows. -/
theorem judgeLines_shadows (b : Bridge) (n : Nat) (d : Descriptor) (demand notice : Bool) :
    let c := (b.judgeLines n d demand notice).control
    (n = 1 → (c.noticeShadow = true ↔ d.high.toNat ≤ d.count ∧ notice = true))
    ∧ (n ≠ 1 → c.noticeShadow = b.control.noticeShadow)
    ∧ (∀ (k : Nat) (x : Binding) (old : Bool), b.cfg.bindings[k]? = some x → b.control.demandShadows[k]? = some old →
      (x.index = n → (c.demandShadows[k]? = some true ↔ d.holds = true ∧ demand = true))
      ∧ (x.index ≠ n → c.demandShadows[k]? = some old)) := by
  refine ⟨fun first => ?_, fun other => if_neg other, fun k x old binding shadow => ?_⟩
  · unfold judgeLines
    dsimp only
    rw [if_pos first, Bool.and_eq_true, decide_eq_true_eq]
  · have judged := judgeShadows_at b.cfg.bindings n (d.holds && demand) b.control.demandShadows k x old binding shadow
    unfold judgeLines
    dsimp only
    rw [judged]
    refine ⟨fun bound => ?_, fun free => by rw [if_neg free]⟩
    rw [if_pos bound, Option.some_inj, Bool.and_eq_true]

theorem holds_iff (d : Descriptor) : d.holds = true ↔ (d.kind = kindRing ∨ d.kind = kindStack)
    ∧ ((d.condition = condHigh ∧ d.high.toNat ≤ (if d.kind = kindRing then d.count else d.depth))
      ∨ (d.condition = condLow ∧ (if d.kind = kindRing then d.count else d.depth) ≤ d.low.toNat)) := by
  unfold Descriptor.holds Descriptor.level
  simp only [Bool.and_eq_true, Bool.or_eq_true, isRing_iff, isStack_iff, beq_iff_eq, decide_eq_true_eq]
  refine and_congr_right (fun kind => ?_)
  by_cases ring : d.kind = kindRing
  · simp [ring]
  · simp [kind.resolve_left ring]

theorem descriptorHalt_iff (d : Descriptor) :
    (!d.descriptorHalt) = true ↔ ¬ (d.state = stHalted ∧ d.cause = causeDescriptor) := by
  unfold Descriptor.descriptorHalt
  rw [Bool.not_eq_true', Bool.and_eq_false_iff, beq_eq_false_iff_ne, beq_eq_false_iff_ne]
  exact Classical.not_and_iff_not_or_not.symm

theorem notify_shadows (b : Bridge) (x : Notice) : (b.notify x).control.noticeShadow = b.control.noticeShadow
    ∧ (b.notify x).control.demandShadows = b.control.demandShadows := by
  by_cases room : b.notices.queue.length < 8
  · rw [notify_of_room b x room]
    dsimp only
    split <;> exact ⟨rfl, rfl⟩
  · rw [notify_of_full b x (by omega), dropNotice_control]
    split <;> exact ⟨rfl, rfl⟩

/-- The lines after a report are those that its judgement leaves. -/
theorem report_shadows (b : Bridge) (n : Nat) (before d : Descriptor) (i : Option Initiator) (m : Option Nat) :
    ∃ a : Bridge, a.cfg = b.cfg ∧ a.control.noticeShadow = b.control.noticeShadow
      ∧ a.control.demandShadows = b.control.demandShadows
      ∧ (b.report n before d i m).control = (a.judgeLines n d (!d.descriptorHalt) (!d.descriptorHalt)).control := by
  have posted : (if (!before.holds && d.holds) && d.armed then b.post d.triggerMove.toNat (.structure n) else b).control
      = b.control := by split <;> simp
  unfold report
  dsimp only
  generalize (if (!before.holds && d.holds) && d.armed then b.post d.triggerMove.toNat (.structure n) else b) = b1 at posted ⊢
  generalize notices : (if (!before.holds && d.holds) && d.watermarkNotices && n != 1 then
    b1.notify (watermarkNotice n d.level i m) else b1) = b2
  have noticed : b2.control.settings = b.control.settings ∧ b2.control.noticeShadow = b.control.noticeShadow
      ∧ b2.control.demandShadows = b.control.demandShadows := by
    subst notices
    split <;> simp [notify_shadows, posted]
  obtain ⟨settings, notice, demand⟩ := noticed
  refine ⟨_, ?_, notice, demand, ?_⟩
  · unfold Bridge.cfg
    rw [settings]
  · split <;> simp

/-- Settles O15: a line is its shadow in RUN and QUIET, and a report ends in a judgement of the lines. -/
theorem linesFollowTheirShadows : Obligations.LinesFollowTheirShadows := by
  intro b
  refine ⟨noticeLineHigh_iff b, demandLineHigh_iff b, fun n before d i m => ?_, fun n d demand notice => ?_⟩
  · intro sound c
    obtain ⟨a, cfg, notice, demand, judged⟩ := report_shadows b n before d i m
    have shadows := judgeLines_shadows a n d (!d.descriptorHalt) (!d.descriptorHalt)
    rw [← judged, cfg, notice, demand, descriptorHalt_iff] at shadows
    exact shadows
  · obtain ⟨first, other, lines⟩ := judgeLines_shadows b n d demand notice
    exact ⟨first, other, lines, rfl, holds_iff d⟩

end Sys2Proof.Machine
end

