-- ==== Sys2Proof/Proofs/Taps.lean ====
section
/-! The tap operations: each in its turn is its own part, applied at the front of the recency list (R24, R26, R105), and a tap
that its fourth or fifth check refuses is refused by it (R31, R32). With the first statements about steps and reset. -/

namespace Sys2Proof.Machine

open Bridge

/-! ## Steps and reset -/

/-- Settles O1. -/
theorem stepRunsFrontCommand : Obligations.StepRunsFrontCommand :=
  fun _ _ _ => rfl

theorem tick_of_stopped {b : Bridge} (stopped : b.control.idleTimer = none) : b.tick = b := by
  simp only [tick, stopped]

theorem tick_of_running {b : Bridge} {k : Nat} (running : b.control.idleTimer = some (k + 2)) :
    b.tick = { b with control := { b.control with idleTimer := some (k + 1) } } := by
  simp only [tick, running]
  exact if_neg (by omega)

theorem tick_of_expiring {b : Bridge} (expiring : b.control.idleTimer = some 1) :
    b.tick = (b.timerExpires.map Bridge.settle).getD b := by
  simp only [tick, expiring, Nat.le_refl, if_true]
  cases b.timerExpires <;> rfl

theorem State.event_eq (s : State) (f : Bridge → Option Bridge) : s.event f = .next { s with chip := (f s.chip).getD s.chip } := by
  unfold event
  cases f s.chip <;> rfl

theorem step_of_empty {s : State} (empty : s.pending = []) : step s = .next { s with chip := s.chip.tick } := by
  simp only [step, empty]

/-- Settles O2: the step is a tick of the idle timer, stopped, running or at 1. -/
theorem emptyQueueStepIsOneMicrosecond : Obligations.EmptyQueueStepIsOneMicrosecond := by
  intro s empty
  rw [step_of_empty empty]
  refine ⟨fun stopped => ?_, fun k running => ?_, fun expiring _ => ?_⟩
  · rw [tick_of_stopped stopped]
  · rw [tick_of_running running]
  · rw [tick_of_expiring expiring]
    exact (s.event_eq (fun b => b.timerExpires.map Bridge.settle)).symm

/-- Settles O3: the state after reset is a constant. -/
theorem resetLeavesEveryBlockEmpty : Obligations.ResetLeavesEveryBlockEmpty := by
  unfold Obligations.ResetLeavesEveryBlockEmpty
  exact ⟨rfl, rfl, rfl, rfl, rfl, rfl, rfl, rfl, rfl, rfl, rfl, rfl, rfl, rfl, rfl, rfl, rfl, rfl, rfl, rfl, rfl, rfl, rfl, rfl,
    rfl, rfl, rfl, rfl, rfl, rfl, rfl, rfl⟩

/-! ## The commands of the taps -/

/-- The command that applies a tap operation. -/
def tapCommand (n : Nat) : TapKind → Instr
  | .put => .ringPut n | .take => .ringTake n | .peek => .ringPeek n | .level => .ringLevel n
  | .status => .readStatus n | .push => .stackPush n | .pop => .stackPop n | .top => .stackTop n
  | .depth => .stackDepth n | .mark => .stackMark n | .unwind => .stackUnwind n | .next => .tallyNext n
  | .add => .tallyAdd n | .set => .tallySet n | .value => .tallyValue n | .wraps => .tallyWraps n

/-- What a tap operation does when it passes the checks. -/
def tapEffect (n : Nat) : TapKind → Tap → Descriptor → Entry → Bridge → Bridge
  | .put => putEffect n | .take => headEffect .ringTake n | .peek => headEffect .ringPeek n | .level => levelEffect
  | .status => statusEffect | .push => pushEffect n | .pop => popEffect n | .top => topEffect n
  | .depth => depthEffect | .mark => markEffect n | .unwind => unwindEffect n | .next => nextEffect n
  | .add => addEffect n | .set => setEffect n | .value => valueEffect | .wraps => wrapsEffect

theorem exec_tapCommand (n : Nat) (k : TapKind) (s : State) :
    exec (tapCommand n k) s = s.event (fun b => (b.tapStep n k (tapEffect n k)).map Bridge.settle) := by
  cases k <;> rfl

/-- A tap operation whose turn has come, and that passes the checks, is its own part. -/
theorem exec_tapCommand_turn {s : State} {n : Nat} {k : TapKind} {t : Tap} {e : Entry} {b : Bridge}
    (turn : TapTurn s.chip n k t e) (effect : tapEffect n k t e.copy e (s.chip.applied n e id) = b) :
    exec (tapCommand n k) s = After s b := by
  rw [exec_tapCommand, ← effect]
  exact s.event_settle (fun b => b.tapStep n k (tapEffect n k)) _ (tapStep_turn s.chip n k t e _ turn)

/-- A tap operation that its fourth or fifth check refuses, whatever its own part. -/
theorem exec_tapCommand_gated {s : State} {n : Nat} {k : TapKind} {t : Tap} {e : Entry} {r : Reason}
    (held : s.chip.entry? n = some e) (ready : e.ready = true) (front : e.waiting.head? = some (.tap t))
    (fit : e.copy.fit t = some k) (gate : e.copy.gate n k t.initiator = some r) :
    exec (tapCommand n k) s = After s ((s.chip.applied n e id).refuseGated n e.copy t r) := by
  rw [exec_tapCommand]
  exact s.event_settle (fun b => b.tapStep n k (tapEffect n k)) _
    (tapStep_gated s.chip n k t e r _ held ready front fit gate)

/-! ## What the parts of an operation do to an applied entry -/

/-- An operation of a tap, the command unit or the notice writer begins its item access on the entry it is applied to. -/
theorem applied_beginItem {b : Bridge} {n : Nat} {e : Entry} (held : b.entry? n = some e) (w : ItemWork) (p : Party)
    (stack write : Bool) (addr : Nat) (data : List Byte) (length : Nat) :
    (b.applied n e id).beginItem n w p stack write addr data length
      = (b.applied n e (fun x => { x with busy := some ⟨w, p⟩ })).requesting (.item n stack (p == .engine)) write addr data
          length := by
  unfold beginItem
  rw [applied_setEntry b n e id _ (b.entry?_index n e held)]
  rfl

section Taps

variable {b : Bridge} {n : Nat} {t : Tap} {d : Descriptor} {e : Entry}

theorem putEffect_of_room (room : d.count + (if e.reservation then 1 else 0) < d.cap) :
    putEffect n t d e b = b.beginItem n .ringPut (.tap t) false true (d.slot d.tail) t.data d.size :=
  if_pos (decide_eq_false (Nat.not_le.mpr room))

theorem putEffect_of_full (full : d.cap ≤ d.count + (if e.reservation then 1 else 0)) :
    putEffect n t d e b = if d.fullPolicy = 1 then (b.dropItem n d (some t.initiator) none).answer t.id true []
      else b.refuseTap t .full := by
  have is_full : ¬ d.full e.reservation = false := by rw [Descriptor.full, decide_eq_true full]; decide
  exact if_neg is_full

theorem headEffect_of_item (e : Entry) (work : ItemWork) (item : 0 < d.count) :
    headEffect work n t d e b = b.beginItem n work (.tap t) false false (d.slot d.head) [] d.size :=
  if_pos item

theorem headEffect_of_empty (e : Entry) (work : ItemWork) (empty : d.count = 0) : headEffect work n t d e b = b.answerEmpty t d :=
  if_neg (Nat.not_lt.mpr (Nat.le_of_eq empty))

theorem popEffect_of_item (e : Entry) (item : 0 < d.depth) :
    popEffect n t d e b = if d.depth = d.frame then b.refuseTap t .frame
      else b.beginItem n .stackPop (.tap t) true false (d.slot (d.depth - 1)) [] d.size :=
  if_neg (Nat.ne_of_gt item)

theorem popEffect_of_empty (e : Entry) (empty : d.depth = 0) : popEffect n t d e b = b.underflow n d t :=
  if_pos empty

theorem topEffect_of_item (e : Entry) (item : 0 < d.depth) :
    topEffect n t d e b = b.beginItem n .stackTop (.tap t) true false (d.slot (d.depth - 1)) [] d.size :=
  if_neg (Nat.ne_of_gt item)

theorem topEffect_of_empty (e : Entry) (empty : d.depth = 0) : topEffect n t d e b = b.answerEmpty t d :=
  if_pos empty

theorem unwindEffect_of_frame (e : Entry) (frame : 0 < d.frame) :
    unwindEffect n t d e b = b.beginItem n .stackUnwind (.tap t) true false (d.slot (d.frame - 1)) [] d.size :=
  if_neg (Nat.ne_of_gt frame)

theorem unwindEffect_of_none (e : Entry) (none : d.frame = 0) : unwindEffect n t d e b = b.refuseTap t .frame :=
  if_pos none

/-- A push that can be stored is the write of its item, or of the first item of an overflow push (R70, R72). -/
theorem pushTap_of_room {work : ItemWork} {item : Descriptor → Tap → List Byte} {saved : Descriptor → Nat}
    (room : ¬ (d.guardOpen = true ∧ d.cap ≤ d.depth)) :
    pushTap work item saved n t d e b = b.beginItem n
      (if d.pushPlain then work else .stackOverflow (d.faultFrame (saved d) t.initiator.val)) (.tap t) true true
      (d.slot d.depth) (item d t) d.size := by
  have not_exhausted : ¬ d.pushExhausted = true := by
    rwa [Descriptor.pushExhausted, Bool.and_eq_true, decide_eq_true_eq]
  exact if_neg not_exhausted

theorem pushTap_of_exhausted {work : ItemWork} {item : Descriptor → Tap → List Byte} {saved : Descriptor → Nat}
    (exhausted : d.guardOpen = true ∧ d.cap ≤ d.depth) :
    pushTap work item saved n t d e b = (b.halt n d causeReserve).refuseTap t .reserve := by
  have is_exhausted : d.pushExhausted = true := by
    rwa [Descriptor.pushExhausted, Bool.and_eq_true, decide_eq_true_eq]
  exact if_pos is_exhausted

end Taps

/-- A push is plain below the capacity with the guard open, and below the limit with it closed. -/
theorem Descriptor.pushPlain_iff (d : Descriptor) :
    d.pushPlain = true ↔ if d.guardOpen then d.depth < d.cap else d.depth < d.limit := by
  unfold pushPlain
  split <;> exact decide_eq_true_iff

/-- A plain push is not at reserve exhaustion. -/
theorem Descriptor.room_of_pushPlain {d : Descriptor} (plain : if d.guardOpen then d.depth < d.cap else d.depth < d.limit) :
    ¬ (d.guardOpen = true ∧ d.cap ≤ d.depth) := fun ⟨guard, full⟩ => by
  rw [if_pos guard] at plain
  exact Nat.not_le.mpr plain full

/-! ## Rings -/

/-- Settles O27: the item's write begins. -/
theorem putWritesItemAtTail : Obligations.PutWritesItemAtTail := fun _ _ t _ turn room =>
  exec_tapCommand_turn turn ((putEffect_of_room room).trans
    (applied_beginItem turn.1 .ringPut (.tap t) false true _ t.data _))

/-- Settles O28: without room the full policy decides. -/
theorem putWithoutRoomFollowsFullPolicy : Obligations.PutWithoutRoomFollowsFullPolicy := by
  intro s n t e turn full
  refine ⟨fun refuse => exec_tapCommand_turn turn ?refuse, fun discard => exec_tapCommand_turn turn ?discard⟩
  case refuse => exact (putEffect_of_full full).trans (if_neg refuse)
  case discard =>
    have counted : (e.copy.dropped).discard.toNat = min 65535 (e.copy.discard.toNat + 1) :=
      Nat.mod_eq_of_lt (Nat.lt_succ_of_le (Nat.min_le_left _ _))
    refine (putEffect_of_full full).trans ((if_pos discard).trans (congrArg (fun b => answer b t.id true []) ?_))
    rw [dropItem, applied_writeCopy s.chip n e _ turn.1, overrunNotice, counted]
    rfl

/-! ## What is answered at once -/

theorem answerEmpty_eq (b : Bridge) (t : Tap) (d : Descriptor) :
    b.answerEmpty t d = if d.emptyPolicy = 1 then
        b.answer t.id true (List.replicate d.size (if d.fillValue = 1 then 0xFF else 0x00))
      else b.refuseTap t .empty := rfl

/-- Settles O29: on nothing each of the three meets the empty policy. -/
theorem emptyPolicyAnswersOrRefuses : Obligations.EmptyPolicyAnswersOrRefuses := by
  intro s n t e b fill r
  have policy {k : TapKind} (turn : TapTurn s.chip n k t e) (empty : tapEffect n k t e.copy e b = b.answerEmpty t e.copy) :
      exec (tapCommand n k) s = r := by
    refine (exec_tapCommand_turn turn (empty.trans (answerEmpty_eq b t e.copy))).trans ?_
    exact apply_ite (After s) _ _ _
  exact ⟨fun turn none => policy turn (headEffect_of_empty e _ none), fun turn none => policy turn (headEffect_of_empty e _ none),
    fun turn none => policy turn (topEffect_of_empty e none)⟩

/-- The flags of the STATUS word, a bit for each (R182). -/
def Descriptor.statusFlags (d : Descriptor) : Byte :=
  withBit (withBit (withBit (withBit (withBit (withBit 0 0 d.guardOpen) 1 d.lost)
    2 (d.isRing && d.overrun)) 3 d.armed) 4 (d.isTally && d.atBound)) 5 d.holds

theorem Descriptor.statusBytes_eq (d : Descriptor) : d.statusBytes = [d.state, d.cause, d.statusFlags, 0] := rfl

theorem Descriptor.getLsbD_statusFlags (d : Descriptor) (i : Nat) :
    d.statusFlags.getLsbD i = if i = 5 then d.holds else if i = 4 then (d.isTally && d.atBound) else if i = 3 then d.armed
      else if i = 2 then (d.isRing && d.overrun) else if i = 1 then d.lost else if i = 0 then d.guardOpen else false := by
  simp only [statusFlags, getLsbD_withBit, Nat.reduceLT, BitVec.ofNat_eq_ofNat, BitVec.getLsbD_zero]

/-- Settles O30: each answer is a field of the working copy. -/
theorem fieldReadsAreAnsweredAtOnce : Obligations.FieldReadsAreAnsweredAtOnce := by
  intro s n t e r
  refine ⟨fun turn => exec_tapCommand_turn turn rfl, fun turn => exec_tapCommand_turn turn rfl,
    fun turn => exec_tapCommand_turn turn rfl, fun turn => exec_tapCommand_turn turn rfl, fun turn => ?status⟩
  case status =>
    refine ⟨e.copy.statusFlags, exec_tapCommand_turn turn rfl, ?_⟩
    simp only [Descriptor.getLsbD_statusFlags, reduceIte, Nat.reduceEqDiff, and_self]

/-! ## Stacks -/

/-- The halt at reserve exhaustion on the entry the push is applied to (R14, R71). -/
theorem applied_halt_reserve {b : Bridge} {n : Nat} {e : Entry} (held : b.entry? n = some e)
    (not_halted : e.copy.state ≠ stHalted) :
    (b.applied n e id).halt n e.copy causeReserve
      = (b.applied n e (fun x => { x with copy := { e.copy with state := stHalted, cause := causeReserve }, state := .dirty })).notify
          (faultNotice n .reserve e.copy.level false) := by
  have changed : ({ e.copy with state := stHalted, cause := causeReserve } : Descriptor) ≠ e.copy := fun same =>
    not_halted (congrArg Descriptor.state same).symm
  rw [halt_eq, if_neg not_halted, applied_writeCopy b n e _ held, if_neg changed]
  rfl

/-- A tap that selects PUSH or MARK and passes the checks finds a stack that is not HALTED. -/
theorem TapTurn.push {b : Bridge} {n : Nat} {k : TapKind} {t : Tap} {e : Entry} (turn : TapTurn b n k t e)
    (pushes : k = .push ∨ k = .mark) : e.copy.kind = kindStack ∧ e.copy.state ≠ stHalted := by
  obtain ⟨-, -, -, fit, gate⟩ := turn
  have producing : (k.producing || k.consuming) = true := by rcases pushes with rfl | rfl <;> rfl
  refine ⟨?_, gate_state gate producing⟩
  rcases fit_kind fit with ⟨-, ring⟩ | ⟨stack, -⟩ | ⟨-, tally⟩
  · rcases pushes with rfl | rfl <;> simp at ring
  · exact stack
  · rcases pushes with rfl | rfl <;> simp at tally

/-- Settles O31: PUSH and MARK are one operation with its work and its item, plain below the bound and a halt at the top. -/
theorem pushWritesAtDepthOrHalts : Obligations.PushWritesAtDepthOrHalts := by
  intro s n t e plain exhausted b r
  have stores {k : TapKind} {work : ItemWork} {item : Descriptor → Tap → List Byte} {saved : Descriptor → Nat}
      (effect : tapEffect n k = pushTap work item saved n) (turn : TapTurn s.chip n k t e) (p : plain) :
      exec (tapCommand n k) s = After s (b work (item e.copy t)) := by
    refine exec_tapCommand_turn turn ?_
    rw [effect, pushTap_of_room (Descriptor.room_of_pushPlain p), if_pos (e.copy.pushPlain_iff.mpr p)]
    exact applied_beginItem turn.1 work (.tap t) true true _ _ _
  have halts {k : TapKind} {work : ItemWork} {item : Descriptor → Tap → List Byte} {saved : Descriptor → Nat}
      (effect : tapEffect n k = pushTap work item saved n) (pushes : k = .push ∨ k = .mark)
      (turn : TapTurn s.chip n k t e) (x : exhausted) : exec (tapCommand n k) s = r := by
    obtain ⟨stack, not_halted⟩ := turn.push pushes
    have level : e.copy.level = e.copy.depth := by simp [Descriptor.level, Descriptor.isRing, Descriptor.isStack, stack, kindStack, kindRing]
    refine exec_tapCommand_turn turn ?_
    rw [effect, pushTap_of_exhausted x, applied_halt_reserve turn.1 not_halted, level]
    rfl
  exact ⟨fun turn => ⟨stores (k := .push) rfl turn, halts (k := .push) rfl (Or.inl rfl) turn⟩,
    fun turn => ⟨stores (k := .mark) rfl turn, halts (k := .mark) rfl (Or.inr rfl) turn⟩⟩

/-- Settles O32: at or above the limit with the guard closed the push is an overflow push. -/
theorem overflowPushBeginsFaultFrame : Obligations.OverflowPushBeginsFaultFrame := by
  intro s n t e guard above slot item frame b
  have room : ¬ (e.copy.guardOpen = true ∧ e.copy.cap ≤ e.copy.depth) := fun x => by simp [guard] at x
  have overflow : ¬ e.copy.pushPlain = true := by
    rw [Descriptor.pushPlain_iff, guard]
    exact Nat.not_lt.mpr above
  have begins {k : TapKind} {work : ItemWork} {first : Descriptor → Tap → List Byte} {saved : Descriptor → Nat}
      (effect : tapEffect n k = pushTap work first saved n) (turn : TapTurn s.chip n k t e) :
      exec (tapCommand n k) s = After s (b (saved e.copy) (first e.copy t)) := by
    refine exec_tapCommand_turn turn ?_
    rw [effect, pushTap_of_room room, if_neg overflow]
    exact applied_beginItem turn.1 _ (.tap t) true true _ _ _
  exact ⟨begins (k := .push) rfl, begins (k := .mark) rfl⟩

/-- Settles O33: each begins the read of its item. -/
theorem takingOperationsReadTheirItem : Obligations.TakingOperationsReadTheirItem := by
  intro s n t e b
  have begins {k : TapKind} {stack : Bool} {w : ItemWork} {i : Nat} (turn : TapTurn s.chip n k t e)
      (effect : tapEffect n k t e.copy e (s.chip.applied n e id)
        = (s.chip.applied n e id).beginItem n w (.tap t) stack false (e.copy.slot i) [] e.copy.size) :
      exec (tapCommand n k) s = After s (b stack w i) :=
    exec_tapCommand_turn turn (effect.trans (applied_beginItem turn.1 w (.tap t) stack false _ [] _))
  exact ⟨fun turn item => begins turn (headEffect_of_item e _ item), fun turn item => begins turn (headEffect_of_item e _ item),
    fun turn item above => begins turn ((popEffect_of_item e item).trans (if_neg above)),
    fun turn item => begins turn (topEffect_of_item e item), fun turn frame => begins turn (unwindEffect_of_frame e frame)⟩

/-- Settles O34: a POP on nothing is an underflow, and what would breach the frame is refused FRAME. -/
theorem underflowAndFrameBreachesAreRefused : Obligations.UnderflowAndFrameBreachesAreRefused := by
  intro s n t e d b b1 breach
  refine ⟨fun turn empty => exec_tapCommand_turn turn ?underflow, fun turn item at_frame => exec_tapCommand_turn turn ?frame,
    fun turn none => exec_tapCommand_turn turn (unwindEffect_of_none e none)⟩
  case underflow =>
    refine (popEffect_of_empty e empty).trans ?_
    rw [underflow, applied_writeCopy s.chip n e _ turn.1]
    exact answerEmpty_eq b1 t e.copy
  case frame => exact (popEffect_of_item e item).trans (if_pos at_frame)

/-! ## Tallies -/

/-- Settles O35: each takes its result at once, and an armed tally posts on a wrap. -/
theorem tallyOperationsCompleteAtOnce : Obligations.TallyOperationsCompleteAtOnce := by
  intro s n t e x b take
  have advances (held : s.chip.entry? n = some e) (raw : Int) :
      (s.chip.applied n e id).advanceTally n e.copy raw = take raw := by
    rw [advanceTally, applied_writeCopy s.chip n e _ held]
  refine ⟨fun turn => exec_tapCommand_turn turn ?next, fun turn => exec_tapCommand_turn turn ?add,
    fun turn low high => exec_tapCommand_turn turn ?set, fun turn outside => exec_tapCommand_turn turn ?bounds⟩
  case next => exact congrArg (fun b => answer b t.id true _) (advances turn.1 _)
  case add => exact congrArg (fun b => answer b t.id true _) (advances turn.1 _)
  case set => exact (if_pos ⟨low, high⟩).trans (congrArg (fun b => answer b t.id true _) (applied_writeCopy s.chip n e _ turn.1))
  case bounds =>
    have not_within : ¬ (e.copy.lower ≤ amount t ∧ amount t ≤ e.copy.upper) := fun ⟨low, high⟩ =>
      outside.elim (Int.not_lt.mpr low) (Int.not_lt.mpr high)
    exact if_neg not_within

/-! ## The fourth and fifth checks -/

/-- Settles O37: the refusal does not look at the operation's own part. -/
theorem gateRefusesEveryTapOperation : Obligations.GateRefusesEveryTapOperation := by
  intro s n t e k r held ready front fit gate
  have refused := exec_tapCommand_gated held ready front fit gate
  rw [refuseGated, applied_writeCopy s.chip n e _ held] at refused
  cases k <;> exact refused

end Sys2Proof.Machine
end

