-- ==== Sys2Proof/Proofs/ItemAccesses.lean ====
section
/-! What the item accesses of ring and stack operations leave when they complete (R42, R68). -/

namespace Sys2Proof.Machine

open Bridge

section Rings

variable {b : Bridge} {n : Nat} {e : Entry} {p : Party} (data : List Byte)

theorem ringItemDone_put (held : b.entry? n = some e) (busy : e.busy = some ⟨.ringPut, p⟩) :
    b.ringItemDone n true data = ((b.endBusy n).changeLevel n e.copy e.copy.ringStored p).storesFor p := by
  simp only [ringItemDone, held, busy, if_true, storedFor_eq]

theorem ringItemDone_take (held : b.entry? n = some e) (busy : e.busy = some ⟨.ringTake, p⟩) :
    b.ringItemDone n true data = ((b.endBusy n).changeLevel n e.copy e.copy.ringTaken p).takesFor p data := by
  simp only [ringItemDone, held, busy, if_true, tookFor_eq]

theorem ringItemDone_peek (held : b.entry? n = some e) (busy : e.busy = some ⟨.ringPeek, p⟩) :
    b.ringItemDone n true data = (b.endBusy n).takesFor p data := by
  simp only [ringItemDone, held, busy, if_true, tookFor_eq]

theorem ringItemDone_error (held : b.entry? n = some e) {w : ItemWork} (busy : e.busy = some ⟨w, p⟩)
    (ring : w = .ringPut ∨ w = .ringTake ∨ w = .ringPeek) :
    b.ringItemDone n false data = (b.endBusy n).failsFor n e.copy p := by
  rcases ring with rfl | rfl | rfl <;>
    simp only [ringItemDone, held, busy, Bool.false_eq_true, if_false, itemFailed_eq]

theorem ringItemDone_abandoned (held : b.entry? n = some e) (busy : e.busy = some ⟨.abandoned, p⟩) (ok : Bool) :
    b.ringItemDone n ok data = b.endBusy n := by
  simp only [ringItemDone, held, busy]

end Rings

theorem exec_ringItem_due {s : State} {id : Nat} {q : MemRequest} (due : AnswerDue s id isRingItem q) (ok : Bool) :
    exec (.ringItemAccessDone id ok) s = AfterAnswer s q ok false ((s.chip.received id).ringItemDone (itemStructure q.access) ok
      (Memory.readBytes s.mem q.addr q.length)) :=
  s.answered_due id ok false isRingItem (fun q data b => b.ringItemDone (itemStructure q.access) ok data) q due

/-- Settles O39, by the operation in progress. -/
theorem ringItemAccessCompletes : Obligations.RingItemAccessCompletes := by
  intro s id q n move e p due access held b data change put taken
  replace held : (s.chip.received id).entry? n = some e := held
  have completes {ok : Bool} {after : Bridge} (done : (s.chip.received id).ringItemDone n ok data = after) :
      exec (.ringItemAccessDone id ok) s = AfterAnswer s q ok false after := by
    rw [exec_ringItem_due due, access]
    exact congrArg (AfterAnswer s q ok false) done
  refine ⟨fun busy => completes (ringItemDone_put data held busy), fun busy => completes (ringItemDone_take data held busy),
    fun busy => completes (ringItemDone_peek data held busy), fun busy => completes ?error,
    fun busy ok => completes (ringItemDone_abandoned data held busy ok)⟩
  case error =>
    rcases busy with busy | busy | busy
    · exact ringItemDone_error data held busy (Or.inl rfl)
    · exact ringItemDone_error data held busy (Or.inr (Or.inl rfl))
    · exact ringItemDone_error data held busy (Or.inr (Or.inr rfl))

section Stacks

variable {b : Bridge} {n : Nat} {e : Entry} {p : Party} (data : List Byte)

theorem stackItemDone_push (held : b.entry? n = some e) (busy : e.busy = some ⟨.stackPush, p⟩) :
    b.stackItemDone n true data = ((b.endBusy n).changeLevel n e.copy e.copy.stackPushed p).storesFor p := by
  simp [stackItemDone, held, busy, storedFor_eq]

theorem stackItemDone_mark (held : b.entry? n = some e) (busy : e.busy = some ⟨.stackMark, p⟩) :
    b.stackItemDone n true data = ((b.endBusy n).changeLevel n e.copy e.copy.stackMarked p).storesFor p := by
  simp [stackItemDone, held, busy, storedFor_eq]

theorem stackItemDone_pop (held : b.entry? n = some e) (busy : e.busy = some ⟨.stackPop, p⟩) :
    b.stackItemDone n true data = ((b.endBusy n).changeLevel n e.copy e.copy.stackPopped p).takesFor p data := by
  simp [stackItemDone, held, busy, tookFor_eq]

theorem stackItemDone_top (held : b.entry? n = some e) (busy : e.busy = some ⟨.stackTop, p⟩) :
    b.stackItemDone n true data = (b.endBusy n).takesFor p data := by
  simp [stackItemDone, held, busy, tookFor_eq]

theorem stackItemDone_unwind {t : Tap} (held : b.entry? n = some e) (busy : e.busy = some ⟨.stackUnwind, .tap t⟩) :
    b.stackItemDone n true data = if natAt data 0 4 ≤ e.copy.frame - 1 then
        ((b.endBusy n).changeLevel n e.copy (e.copy.unwound (natAt data 0 4)) (.tap t)).answer t.id true []
      else (b.endBusy n).refuseTap t .frame := by
  simp [stackItemDone, held, busy]

theorem stackItemDone_overflow_next {addr : Nat} {item : List Byte} {left : List (Nat × List Byte)}
    (held : b.entry? n = some e) (busy : e.busy = some ⟨.stackOverflow ((addr, item) :: left), p⟩) :
    b.stackItemDone n true data = b.beginItem n (.stackOverflow left) p true true addr item e.copy.size := by
  simp [stackItemDone, held, busy]

theorem stackItemDone_overflow_last (held : b.entry? n = some e) (busy : e.busy = some ⟨.stackOverflow [], p⟩) :
    let copied := (b.endBusy n).writeCopy n e.copy.overflowed
    b.stackItemDone n true data = ((if e.copy.faultNotices then
        copied.notify (overflowNotice n e.copy.overflowed.depth (partyInitiator p) (b.partyMove p)) else copied).report n e.copy
          e.copy.overflowed (partyInitiator p) (b.partyMove p)).storesFor p := by
  simp [stackItemDone, held, busy, storedFor_eq]

theorem stackItemDone_error {w : ItemWork} (held : b.entry? n = some e) (busy : e.busy = some ⟨w, p⟩) (goes_on : w ≠ .abandoned) :
    b.stackItemDone n false data = (b.endBusy n).failsFor n e.copy p := by
  simp [stackItemDone, held, busy, goes_on, itemFailed_eq]

theorem stackItemDone_abandoned (held : b.entry? n = some e) (busy : e.busy = some ⟨.abandoned, p⟩) (ok : Bool) :
    b.stackItemDone n ok data = b.endBusy n := by
  simp [stackItemDone, held, busy]

end Stacks

theorem exec_stackItem_due {s : State} {id : Nat} {q : MemRequest} (due : AnswerDue s id isStackItem q) (ok : Bool) :
    exec (.stackItemAccessDone id ok) s = AfterAnswer s q ok false ((s.chip.received id).stackItemDone (itemStructure q.access) ok
      (Memory.readBytes s.mem q.addr q.length)) :=
  s.answered_due id ok false isStackItem (fun q data b => b.stackItemDone (itemStructure q.access) ok data) q due

/-- Settles O40, by the operation in progress. -/
theorem stackItemAccessCompletes : Obligations.StackItemAccessCompletes := by
  intro s id q n move e p w due access held busy r b data change resized grown
  replace held : r.entry? n = some e := held
  have completes {ok : Bool} {after : Bridge} (done : r.stackItemDone n ok data = after) :
      exec (.stackItemAccessDone id ok) s = AfterAnswer s q ok false after := by
    rw [exec_stackItem_due due, access]
    exact congrArg (AfterAnswer s q ok false) done
  refine ⟨?push, ?mark, ?pop, ?top, ?unwind, ?next, ?last, ?error, ?abandoned⟩
  case push => rintro rfl; exact completes (stackItemDone_push data held busy)
  case mark => rintro rfl; exact completes (stackItemDone_mark data held busy)
  case pop => rintro rfl; exact completes (stackItemDone_pop data held busy)
  case top => rintro rfl; exact completes (stackItemDone_top data held busy)
  case unwind => rintro t rfl rfl; exact completes (stackItemDone_unwind data held busy)
  case next => rintro addr item left rfl; exact completes (stackItemDone_overflow_next data held busy)
  case last => rintro rfl; exact completes (stackItemDone_overflow_last data held busy)
  case error => exact fun goes_on => completes (stackItemDone_error data held busy goes_on)
  case abandoned => rintro rfl ok; exact completes (stackItemDone_abandoned data held busy ok)

end Sys2Proof.Machine
end

