-- ==== Sys2Proof/Proofs/Arrival.lean ====
section
/-! The I-port: a request is taken, noted, and handed on in its turn (R174 to R176); the class decides where to (R175). -/

namespace Sys2Proof.Machine

open Bridge

/-! ## Taking a request (R174) -/

/-- The request in flight that a request becomes (R174, R181). -/
def newRequest (b : Bridge) (r : Request) (c : RequestClass) : InFlight :=
  ⟨b.nextHandle, r, c, .waiting,
    if r.write = false ∧ r.touchesStatus b.control.straps = true then b.mirrorHandles else []⟩

/-- A bridge with one more request in flight. -/
def withRequest (b : Bridge) (x : InFlight) : Bridge :=
  { b with iport := { b.iport with inflight := b.iport.inflight ++ [x] }, nextHandle := b.nextHandle + 1 }

theorem takeRequest_eq (b : Bridge) (r : Request) (c : RequestClass) :
    b.takeRequest r c = (withRequest b (newRequest b r c)).noteAccess c := rfl

/-- A request that is offered with room, and whose initiator has no request waiting (R174, R176). -/
structure OfferedInTurn (b : Bridge) (r : Request) : Prop where
  wf : r.wf = true
  room : b.iport.inflight.length < 32
  fresh : ∀ x ∈ b.iport.inflight, x.id < b.nextHandle
  first : ∀ x ∈ b.iport.inflight, x.request.initiator = r.initiator → holdsBack x.phase = false

/-- The class that a bridge gives a request now. -/
def classOf (b : Bridge) (r : Request) : RequestClass := classify b.control.state b.control.settings b.control.straps r

@[simp] theorem noteAccess_iport (b : Bridge) (c : RequestClass) : (b.noteAccess c).iport = b.iport := by
  unfold noteAccess
  split <;> (try split) <;> simp

theorem inflight?_withRequest {b : Bridge} {x : InFlight} (fresh : ∀ y ∈ b.iport.inflight, y.id < b.nextHandle)
    (handle : x.id = b.nextHandle) : (withRequest b x).inflight? b.nextHandle = some x := by
  have others : b.iport.inflight.find? (fun y => y.id == b.nextHandle) = none :=
    List.find?_eq_none.mpr fun y y_in => by simpa using Nat.ne_of_lt (fresh y y_in)
  simp [inflight?, withRequest, others, handle]

theorem takeWhile_before_new {l : List InFlight} {x : InFlight} (fresh : ∀ y ∈ l, y.id < x.id) :
    (l ++ [x]).takeWhile (fun y => y.id != x.id) = l := by
  rw [List.takeWhile_append_of_pos fun y y_in => by simpa using Nat.ne_of_lt (fresh y y_in)]
  simp

theorem turnCome_iff (b : Bridge) (x : InFlight) :
    b.turnCome x = true ↔ ∀ y ∈ b.iport.inflight.takeWhile (fun y => y.id != x.id),
      y.request.initiator = x.request.initiator → holdsBack y.phase = false := by
  simp [turnCome, Decidable.imp_iff_not_or]

/-- A request offered in its turn is taken and handed on; where its class waits it only is taken. -/
theorem arrive_offered {b : Bridge} {r : Request} (turn : OfferedInTurn b r) {row : RequestClass → Bool → Bool}
    (accepts : row (classOf b r) r.write = true) :
    b.arrive row (.offered r) = some (((b.takeRequest r (classOf b r)).handOn (newRequest b r (classOf b r))).getD
      (b.takeRequest r (classOf b r))) := by
  have found : (b.takeRequest r (classOf b r)).inflight? b.nextHandle = some (newRequest b r (classOf b r)) := by
    rw [takeRequest_eq, inflight?, noteAccess_iport]
    exact inflight?_withRequest turn.fresh rfl
  have turn_come : (b.takeRequest r (classOf b r)).turnCome (newRequest b r (classOf b r)) = true := by
    rw [turnCome_iff, takeRequest_eq, noteAccess_iport]
    have before := takeWhile_before_new (x := newRequest b r (classOf b r)) turn.fresh
    intro y earlier
    exact turn.first y (before ▸ earlier)
  have room : r.wf = true ∧ b.iport.inflight.length < 32 ∧ row (classOf b r) r.write = true := ⟨turn.wf, turn.room, accepts⟩
  refine (if_pos room).trans ?_
  rw [classOf] at found turn_come ⊢
  rw [found]
  exact congrArg some (if_pos turn_come)

/-- A waiting request whose turn has come is handed on. -/
theorem arrive_waiting {b : Bridge} {id : Nat} {x : InFlight} (turn : ItsTurn b id x) {row : RequestClass → Bool → Bool}
    (accepts : row x.cls x.request.write = true) : b.arrive row (.waiting id) = b.handOn x := by
  obtain ⟨found, waiting, first⟩ := turn
  have handle : x.id = id := (inflight?_mem b id x found).2
  have turn_come : b.turnCome x = true := by
    rw [turnCome_iff, handle]
    exact first
  simp only [arrive, found]
  exact if_pos ⟨waiting, accepts, turn_come⟩

/-! ## Forwarding (R178) -/

theorem forward_of_inflight {b : Bridge} {x : InFlight} (found : b.inflight? x.id = some x) :
    b.forward x.id = b.forwarded x := by
  simp only [forward, found]
  rfl

/-- A request that has just been taken is forwarded: it joins those in flight as forwarded (R178). -/
theorem forward_withRequest {b : Bridge} {x : InFlight} (fresh : ∀ y ∈ b.iport.inflight, y.id < b.nextHandle)
    (handle : x.id = b.nextHandle) : (withRequest b x).forward x.id = { b with
      iport := { b.iport with inflight := b.iport.inflight ++ [{ x with phase := .forwarded }] }
      mport := { b.mport with waiting := b.mport.waiting ++
        [⟨x.id, .forward x.id, x.request.write, x.request.addr.toNat, x.request.data, x.request.size.bytes, false⟩] }
      nextHandle := b.nextHandle + 1 } := by
  have found : (withRequest b x).inflight? x.id = some x := handle ▸ inflight?_withRequest fresh handle
  have others : b.iport.inflight.map (fun r => if r.id = x.id then { r with phase := .forwarded } else r) = b.iport.inflight :=
    map_update_absent b.iport.inflight InFlight.id (fun r => { r with phase := .forwarded }) x.id fun y y_in =>
      handle ▸ Nat.ne_of_lt (fresh y y_in)
  rw [forward_of_inflight found]
  simp only [Bridge.forwarded, withRequest, List.map_append, others, List.map_cons, List.map_nil, if_true]

theorem newRequest_mirrors {b : Bridge} {r : Request} {c : RequestClass}
    (none_waits : r.write = true ∨ r.touchesStatus b.control.straps = false ∨ b.mirrorHandles = []) :
    (newRequest b r c).mirrors = [] := by
  unfold newRequest
  rcases none_waits with h | h | h <;> simp [h]

theorem forwardPlain_of_no_mirrors {b : Bridge} {x : InFlight} (none_waits : x.mirrors = []) :
    b.forwardPlain x = b.forward x.id :=
  if_neg (not_not_intro none_waits)

/-- A request is noted only when it touches the aperture or a table in QUIET, or the aperture. -/
theorem noteAccess_of_quiet {b : Bridge} {c : RequestClass} (quiet : b.control.state = .quiet) (noted : c = .tap ∨ c = .table) :
    b.noteAccess c = ((b.setState .run).startTimer).wakeCommand :=
  if_pos ⟨quiet, noted⟩

theorem noteAccess_tap_of_awake {b : Bridge} (awake : b.control.state ≠ .quiet) : b.noteAccess .tap = b.cancelEmptying :=
  (if_neg (fun h => awake h.1)).trans (if_pos rfl)

theorem noteAccess_of_not_tap {b : Bridge} {c : RequestClass} (other : c ≠ .tap)
    (awake : b.control.state ≠ .quiet ∨ c ≠ .table) : b.noteAccess c = b := by
  have not_back : ¬ (b.control.state = .quiet ∧ (c = .tap ∨ c = .table)) := fun ⟨quiet, noted⟩ =>
    awake.elim (fun h => h quiet) (fun h => noted.elim other h)
  exact (if_neg not_back).trans (if_neg other)

/-- A request handed on to the M-port at once when it arrives is forwarded unchanged (R178). -/
theorem arrive_forwards {b : Bridge} {r : Request} (turn : OfferedInTurn b r) {row : RequestClass → Bool → Bool}
    (accepts : row (classOf b r) r.write = true)
    (quietly : ∀ x, (withRequest b x).noteAccess (classOf b r) = withRequest b x)
    (hands : (withRequest b (newRequest b r (classOf b r))).handOn (newRequest b r (classOf b r))
      = some ((withRequest b (newRequest b r (classOf b r))).forward b.nextHandle)) :
    b.arrive row (.offered r) = some { b with
      iport := { b.iport with inflight := b.iport.inflight ++ [{ newRequest b r (classOf b r) with phase := .forwarded }] }
      mport := { b.mport with waiting := b.mport.waiting ++
        [⟨b.nextHandle, .forward b.nextHandle, r.write, r.addr.toNat, r.data, r.size.bytes, false⟩] }
      nextHandle := b.nextHandle + 1 } := by
  rw [arrive_offered turn accepts, takeRequest_eq, quietly, hands]
  exact congrArg some (forward_withRequest turn.fresh rfl)

/-! ## The rows of the requests -/

theorem exec_plainRequest {s : State} {src : Arrival} {b : Bridge} (h : s.chip.arrive plainRow src = some b) :
    exec (.plainRequest src) s = After s b :=
  s.event_settle (fun b => b.arrive plainRow src) b h

theorem exec_tapRequest {s : State} {src : Arrival} {b : Bridge} (h : s.chip.arrive tapRow src = some b) :
    exec (.tapRequest src) s = After s b :=
  s.event_settle (fun b => b.arrive tapRow src) b h

/-- The row of a TABLE request, by its direction. -/
def tableRow (write : Bool) : RequestClass → Bool → Bool := if write then tableWriteRow else tableReadRow

theorem tableRow_table (write : Bool) : tableRow write .table write = true := by
  cases write <;> rfl

theorem exec_table (write : Bool) (src : Arrival) (s : State) :
    exec (if write then .tableWrite src else .tableRead src) s
      = s.event (fun b => (b.arrive (tableRow write) src).map Bridge.settle) := by
  cases write <;> rfl

theorem exec_table_of_some {s : State} {write : Bool} {src : Arrival} {b : Bridge}
    (h : s.chip.arrive (tableRow write) src = some b) :
    exec (if write then .tableWrite src else .tableRead src) s = After s b :=
  (exec_table write src s).trans (s.event_settle (fun b => b.arrive (tableRow write) src) b h)

/-! ## The classes (R175) -/

theorem coversStartWord_iff (r : Request) (straps : Fin 16) :
    r.coversStartWord straps = true ↔ r.write = true ∧ r.addr.toNat ≤ straps.val * 2 ^ 28
      ∧ straps.val * 2 ^ 28 + 4 ≤ r.addr.toNat + r.size.bytes := by
  simp only [Request.coversStartWord, Bool.and_eq_true, decide_eq_true_eq, and_assoc]
  rfl

theorem touchesTables_iff (g : Settings) (r : Request) :
    g.touchesTables r = true ↔ Meet r.addr.toNat r.size.bytes g.tableBase (g.structureCount * 64)
      ∨ Meet r.addr.toNat r.size.bytes g.moveBase (g.moveCount * 32) := by
  rw [Settings.touchesTables, Bool.or_eq_true, Region.overlaps_meet, Region.overlaps_meet]
  rfl

/-- Out of PASS the class goes by the regions in the order of R175. -/
theorem classify_of_regions {st : BridgeState} (running : st ≠ .pass) (g : Settings) (straps : Fin 16) (r : Request) :
    classify st (some g) straps r = if r.region.overlaps g.aperture then (if st = .run ∨ st = .quiet then .tap else .apertureWait)
      else if r.coversStartWord straps then .anchorStart
      else if g.touchesTables r then (if st = .starting ∨ st = .auditing then .tableWait else .table)
      else .plain :=
  if_neg running

theorem classify_of_pass (g : Option Settings) (straps : Fin 16) (r : Request) :
    classify .pass g straps r = if r.coversStartWord straps then .anchorStart else .plain :=
  if_pos rfl

/-- A request is TABLE in neither START state. -/
theorem state_of_table {b : Bridge} {r : Request} (table : classOf b r = .table) :
    b.control.state ≠ .starting ∧ b.control.state ≠ .auditing := by
  unfold classOf classify at table
  split at table
  case isTrue => split at table <;> cases table
  case isFalse =>
    split at table
    case h_1 => cases table
    case h_2 =>
      split at table
      case isTrue => split at table <;> cases table
      case isFalse =>
        split at table
        case isTrue => cases table
        case isFalse =>
          split at table
          case isTrue =>
            split at table
            case isTrue => cases table
            case isFalse not_starting => exact ⟨fun h => not_starting (Or.inl h), fun h => not_starting (Or.inr h)⟩
          case isFalse => cases table

theorem startingUp_eq_false {b : Bridge} (not_starting : b.control.state ≠ .starting) (not_auditing : b.control.state ≠ .auditing) :
    b.startingUp = false := by
  simp [startingUp, not_starting, not_auditing]

theorem handOn_table {b : Bridge} {x : InFlight} (table : x.cls = .table) (not_starting : b.control.state ≠ .starting)
    (not_auditing : b.control.state ≠ .auditing) : b.handOn x = some ((b.noteAccess .table).beginSnoop x) := by
  simp [handOn, table, startingUp_eq_false not_starting not_auditing]

theorem handOn_anchorStart {b : Bridge} {x : InFlight} (start : x.cls = .anchorStart) :
    b.handOn x = if b.control.state ≠ .pass ∧ b.cfg.touchesTables x.request = true then some (b.beginSnoop x)
      else some (b.forwardPlain x) := by
  simp only [handOn, start]

theorem handOn_plain {b : Bridge} {x : InFlight} (plain : x.cls = .plain) : b.handOn x = some (b.forwardPlain x) := by
  simp only [handOn, plain]

/-- An ANCHOR-START write goes on like a PLAIN request where it touches no table in use. -/
theorem handOn_anchorStart_plain {b : Bridge} {x : InFlight} (start : x.cls = .anchorStart)
    (untouched : b.control.state = .pass ∨ b.cfg.touchesTables x.request = false) : b.handOn x = some (b.forwardPlain x) := by
  have no_table : ¬ (b.control.state ≠ .pass ∧ b.cfg.touchesTables x.request = true) := fun ⟨running, touches⟩ =>
    untouched.elim running (fun h => Bool.false_ne_true (h.symm.trans touches))
  rw [handOn_anchorStart start, if_neg no_table]

/-- Settles O18: PLAIN and ANCHOR-START are handed to the M-port, and the class goes by the regions. -/
theorem plainRequestIsForwarded : Obligations.PlainRequestIsForwarded := by
  refine ⟨?offered, ?waiting, ?classes⟩
  case offered =>
    intro s r c class_eq plain wf room fresh first unmirrored
    have turn : OfferedInTurn s.chip r := ⟨wf, room, fresh, first⟩
    subst class_eq
    have no_mirrors : (newRequest s.chip r (classOf s.chip r)).mirrors = [] := newRequest_mirrors unmirrored
    have quietly (x : InFlight) : (withRequest s.chip x).noteAccess (classOf s.chip r) = withRequest s.chip x := by
      refine noteAccess_of_not_tap ?_ (Or.inr ?_) <;> unfold classOf <;> rcases plain with h | ⟨h, -⟩ <;> rw [h] <;> decide
    have row : plainRow (classOf s.chip r) r.write = true := by
      unfold classOf
      rcases plain with h | ⟨h, -⟩ <;> rw [h] <;> rfl
    have hands : (withRequest s.chip (newRequest s.chip r (classOf s.chip r))).handOn (newRequest s.chip r (classOf s.chip r))
        = some ((withRequest s.chip (newRequest s.chip r (classOf s.chip r))).forward s.chip.nextHandle) := by
      rw [← show (newRequest s.chip r (classOf s.chip r)).id = s.chip.nextHandle from rfl, ← forwardPlain_of_no_mirrors no_mirrors]
      rcases plain with h | ⟨h, untouched⟩
      · exact handOn_plain h
      · exact handOn_anchorStart_plain h untouched
    refine exec_plainRequest ((arrive_forwards turn row quietly hands).trans ?_)
    rw [show { newRequest s.chip r (classOf s.chip r) with phase := .forwarded }
      = (⟨s.chip.nextHandle, r, classOf s.chip r, .forwarded, []⟩ : InFlight) from congrArg (InFlight.mk _ _ _ _) no_mirrors]
    rfl
  case waiting =>
    intro s id x turn plain no_mirrors
    have found : s.chip.inflight? x.id = some x := (inflight?_mem s.chip id x turn.1).2 ▸ turn.1
    have row : plainRow x.cls x.request.write = true := by rw [plain]; rfl
    refine exec_plainRequest ((arrive_waiting turn row).trans ?_)
    rw [handOn_plain plain, forwardPlain_of_no_mirrors no_mirrors, forward_of_inflight found]
  case classes =>
    intro st g straps r touches start tap table c
    have is_start : r.coversStartWord straps = true ↔ start := coversStartWord_iff r straps
    have is_tap : r.region.overlaps g.aperture = true ↔ tap := Region.overlaps_meet _ _
    have is_table : g.touchesTables r = true ↔ table := touchesTables_iff g r
    refine ⟨fun x starts => ?_, fun x plain => ?_, fun running => if_neg running, fun running => ?_⟩
    · rw [classify_of_pass, if_pos (is_start.mpr starts)]
    · rw [classify_of_pass, if_neg (mt is_start.mp plain)]
    · have by_region := classify_of_regions running g straps r
      refine ⟨fun touched => ?_, fun untouched starts => ?_, fun untouched no_start touched => ?_, fun untouched no_start clear => ?_⟩
      · exact by_region.trans (if_pos (is_tap.mpr touched))
      · exact by_region.trans ((if_neg (mt is_tap.mp untouched)).trans (if_pos (is_start.mpr starts)))
      · exact by_region.trans ((if_neg (mt is_tap.mp untouched)).trans ((if_neg (mt is_start.mp no_start)).trans
          (if_pos (is_table.mpr touched))))
      · exact by_region.trans ((if_neg (mt is_tap.mp untouched)).trans ((if_neg (mt is_start.mp no_start)).trans
          (if_neg (mt is_table.mp clear))))

end Sys2Proof.Machine
end

