-- ==== Sys2Proof/Proofs/Snoop.lean ====
section
/-! TABLE requests and the record cache (R116 to R120): a request is judged for the descriptors it touches in address order, and
waits for the first that does not allow it. -/

namespace Sys2Proof.Machine

open Bridge

/-! ## One descriptor after the other (R116 to R119) -/

section Snoop

variable {b : Bridge} {x : InFlight} {n : Nat} {e : Entry} {l k : List Nat}

theorem enqueue_of_held (held : b.entry? n = some e) (op : CacheOp) :
    b.enqueue n op = b.setEntry n (fun e => { e with waiting := e.waiting ++ [op] }) := by
  simp only [enqueue, held]

theorem enqueue_of_unheld (unheld : b.entry? n = none) (op : CacheOp) :
    b.enqueue n op = { b with misses := b.misses ++ [(n, op)] } := by
  simp only [enqueue, unheld]

/-- A request that every descriptor allows goes on, unless it waits for the loaded move or for mirror writes (R120, R181). -/
theorem passOn_eq (b : Bridge) (x : InFlight) :
    b.passOn x = if b.touchesLoaded x.request = true then
        b.setPhase x.id (.moveWait (if x.request.write = true then b.cfg.touchedStructures x.request else []))
      else if x.mirrors = [] then b.forward x.id else b.setPhase x.id .mirrorWait := by
  unfold passOn
  exact ite_congr rfl (fun _ => rfl) (fun _ => ite_not ..)

theorem passOn_of_free (free : b.touchesLoaded x.request = false) (no_mirrors : x.mirrors = []) :
    b.passOn x = b.forward x.id := by
  rw [passOn_eq, free, if_neg Bool.false_ne_true, if_pos no_mirrors]

/-- A read is allowed at once by descriptors that are not held, or CLEAN (R117). -/
theorem snoopRead_append (clean : ∀ m ∈ l, ∀ e, b.entry? m = some e → e.state = .clean) (k : List Nat) :
    b.snoopRead x (l ++ k) = b.snoopRead x k := by
  induction l with
  | nil => rfl
  | cons m l ih =>
    have rest := ih fun i i_in => clean i (List.mem_cons_of_mem m i_in)
    rw [List.cons_append, snoopRead]
    split
    case h_1 => exact rest
    case h_2 e held => rw [if_pos (clean m (List.mem_cons_self ..) e held), rest]

theorem snoopRead_of_clean (clean : ∀ m ∈ l, ∀ e, b.entry? m = some e → e.state = .clean) : b.snoopRead x l = b.passOn x := by
  rw [← List.append_nil l, snoopRead_append clean, snoopRead]

/-- A read waits for the first descriptor that is held and not CLEAN (R117). -/
theorem snoopRead_of_waits (clean : ∀ m ∈ l, ∀ e, b.entry? m = some e → e.state = .clean) (held : b.entry? n = some e)
    (unclean : e.state ≠ .clean) : b.snoopRead x (l ++ n :: k)
      = (b.setEntry n (fun e => { e with waiting := e.waiting ++ [.tableRead x.id] })).setPhase x.id (.snooping (n :: k)) := by
  rw [snoopRead_append clean, snoopRead, held]
  exact (if_neg unclean).trans (congrArg (fun b => setPhase b x.id _) (enqueue_of_held held _))

theorem pinned_eq_false_iff : b.pinned n = false ↔ ∀ e, b.entry? n = some e → e.pin = false := by
  unfold pinned
  split <;> simp_all

theorem pinned_of_held (held : b.entry? n = some e) : b.pinned n = e.pin := by
  simp only [pinned, held]

/-- A write is held as a whole for the first pinned descriptor that it touches (R119). -/
theorem snoopWrite_of_pinned (all : b.cfg.touchedStructures x.request = l ++ n :: k)
    (unpinned : ∀ m ∈ l, ∀ e, b.entry? m = some e → e.pin = false) (held : b.entry? n = some e) (pin : e.pin = true)
    (todo : List Nat) : b.snoopWrite x todo = b.holdRequest n x := by
  have first : b.pinnedOf x.request = some n := by
    rw [pinnedOf, all]
    exact List.find?_eq_some_iff_append.mpr ⟨(pinned_of_held held).trans pin, l, k, rfl, fun m m_in => by
      rw [pinned_eq_false_iff.mpr (unpinned m m_in)]
      rfl⟩
  simp only [snoopWrite, first]

theorem pinnedOf_eq_none (unpinned : ∀ m ∈ b.cfg.touchedStructures x.request, ∀ e, b.entry? m = some e → e.pin = false) :
    b.pinnedOf x.request = none :=
  List.find?_eq_none.mpr fun m m_in => by
    rw [pinned_eq_false_iff.mpr (unpinned m m_in)]
    exact Bool.false_ne_true

theorem dropWhile_of_unheld {l : List Nat} (unheld : ∀ m ∈ l, b.entry? m = none) :
    l.dropWhile (fun m => (b.entry? m).isNone) = [] := by
  induction l with
  | nil => rfl
  | cons m l ih =>
    rw [List.dropWhile_cons_of_pos (by rw [unheld m List.mem_cons_self]; rfl)]
    exact ih fun k k_in => unheld k (List.mem_cons_of_mem m k_in)

/-- A write that touches no pinned descriptor is passed on when none still to allow it is held (R118). -/
theorem snoopWrite_of_unheld (unpinned : ∀ m ∈ b.cfg.touchedStructures x.request, ∀ e, b.entry? m = some e → e.pin = false)
    {todo : List Nat} (unheld : ∀ m ∈ todo, b.entry? m = none) : b.snoopWrite x todo = b.passOn x := by
  have none_held : todo.dropWhile (fun m => (b.entry? m).isNone) = [] :=
    dropWhile_of_unheld unheld
  simp only [snoopWrite, pinnedOf_eq_none unpinned, none_held]

/-- A write that touches no pinned descriptor waits for the first still to allow it that is held (R118). -/
theorem snoopWrite_of_waits (unpinned : ∀ m ∈ b.cfg.touchedStructures x.request, ∀ e, b.entry? m = some e → e.pin = false)
    (unheld : ∀ m ∈ l, b.entry? m = none) (held : b.entry? n = some e) : b.snoopWrite x (l ++ n :: k)
      = (b.setEntry n (fun e => { e with waiting := e.waiting ++ [.tableWrite x.id] })).setPhase x.id (.snooping (n :: k)) := by
  have first : (l ++ n :: k).dropWhile (fun m => (b.entry? m).isNone) = n :: k := by
    rw [List.dropWhile_append_of_pos fun m m_in => by rw [unheld m m_in]; rfl, List.dropWhile_cons_of_neg]
    rw [held]
    exact Bool.false_ne_true
  simp only [snoopWrite, pinnedOf_eq_none unpinned, first, enqueue_of_held held]

theorem snoop_of_write (write : x.request.write = true) (todo : List Nat) : b.snoop x todo = b.snoopWrite x todo :=
  if_pos write

theorem snoop_of_read (read : x.request.write = false) (todo : List Nat) : b.snoop x todo = b.snoopRead x todo :=
  if_neg (by rw [read]; exact Bool.false_ne_true)

theorem beginSnoop_of_loaded (loaded : b.touchesLoaded x.request = true) :
    b.beginSnoop x = b.setPhase x.id (.moveWait (b.cfg.touchedStructures x.request)) :=
  if_pos loaded

theorem beginSnoop_of_free (free : b.touchesLoaded x.request = false) :
    b.beginSnoop x = b.snoop x (b.cfg.touchedStructures x.request) :=
  if_neg (by rw [free]; exact Bool.false_ne_true)

theorem allow_of_snooping {todo : List Nat} (found : b.inflight? x.id = some x) (snooping : x.phase = .snooping (n :: todo)) :
    b.allow n x.id = b.snoop x todo := by
  simp only [allow, found, snooping, List.head?_cons, List.tail_cons, if_true]

/-- A TABLE request that touches nothing held is passed on (R117, R118). -/
theorem beginSnoop_of_unheld (free : b.touchesLoaded x.request = false)
    (unheld : ∀ m ∈ b.cfg.touchedStructures x.request, b.entry? m = none) : b.beginSnoop x = b.passOn x := by
  have nothing (P : Entry → Prop) : ∀ m ∈ b.cfg.touchedStructures x.request, ∀ e, b.entry? m = some e → P e :=
    fun m m_in e held => (nomatch (unheld m m_in).symm.trans held)
  rw [beginSnoop_of_free free]
  cases write : x.request.write with
  | true => rw [snoop_of_write write, snoopWrite_of_unheld (nothing _) unheld]
  | false => rw [snoop_of_read write, snoopRead_of_clean (nothing _)]

end Snoop

/-! ## Nothing held (O19) -/

/-- The request touches no descriptor held in the record cache and not the loaded move. -/
def TouchesNothingHeld (b : Bridge) (r : Request) : Prop :=
  (∀ n ∈ b.cfg.touchedStructures r, ∀ e ∈ b.cache, e.index ≠ n) ∧ b.touchesLoaded r = false

theorem TouchesNothingHeld.unheld {b : Bridge} {r : Request} (free : TouchesNothingHeld b r) :
    ∀ n ∈ b.cfg.touchedStructures r, b.entry? n = none := fun n touched =>
  List.find?_eq_none.mpr fun e held => by simpa using free.1 n touched e held

/-- Settles O19: such a request is passed on by the snoop, and waits before it in STARTING and AUDITING. -/
theorem tableRequestOfUnheldDescriptorIsForwarded : Obligations.TableRequestOfUnheldDescriptorIsForwarded := by
  intro s awake row free
  refine ⟨?offered, ?waiting, ?startingUp⟩
  case offered =>
    intro r table wf room fresh first unmirrored nothing_held
    have turn : OfferedInTurn s.chip r := ⟨wf, room, fresh, first⟩
    have nothing : TouchesNothingHeld s.chip r := nothing_held
    have is_table : classOf s.chip r = .table := table
    have no_mirrors : (newRequest s.chip r .table).mirrors = [] := newRequest_mirrors unmirrored
    have quietly (x : InFlight) : (withRequest s.chip x).noteAccess (classOf s.chip r) = withRequest s.chip x :=
      noteAccess_of_not_tap (by rw [is_table]; decide) (Or.inl awake)
    have hands : (withRequest s.chip (newRequest s.chip r (classOf s.chip r))).handOn (newRequest s.chip r (classOf s.chip r))
        = some ((withRequest s.chip (newRequest s.chip r (classOf s.chip r))).forward s.chip.nextHandle) := by
      rw [is_table] at quietly ⊢
      obtain ⟨not_starting, not_auditing⟩ := state_of_table is_table
      have free : (withRequest s.chip (newRequest s.chip r .table)).touchesLoaded r = false := nothing.2
      rw [handOn_table (b := withRequest s.chip (newRequest s.chip r .table)) rfl not_starting not_auditing, quietly]
      exact congrArg some ((beginSnoop_of_unheld free nothing.unheld).trans (passOn_of_free free no_mirrors))
    refine exec_table_of_some ((arrive_forwards turn (by rw [is_table]; exact tableRow_table _) quietly hands).trans ?_)
    rw [is_table, show { newRequest s.chip r .table with phase := .forwarded }
      = (⟨s.chip.nextHandle, r, .table, .forwarded, []⟩ : InFlight) from congrArg (InFlight.mk _ _ _ _) no_mirrors]
  case waiting =>
    intro not_starting not_auditing id x turn table no_mirrors nothing_held
    have nothing : TouchesNothingHeld s.chip x.request := nothing_held
    have found : s.chip.inflight? x.id = some x := (inflight?_mem s.chip id x turn.1).2 ▸ turn.1
    refine exec_table_of_some ((arrive_waiting turn (by rw [table]; exact tableRow_table _)).trans ?_)
    rw [handOn_table table not_starting not_auditing, noteAccess_of_not_tap (by decide) (Or.inl awake),
      beginSnoop_of_unheld nothing.2 nothing.unheld, passOn_of_free nothing.2 no_mirrors, forward_of_inflight found]
  case startingUp =>
    intro starting id x turn table
    have waits : s.chip.handOn x = none := by
      have is_starting : s.chip.startingUp = true := by rcases starting with h | h <;> simp [startingUp, h]
      simp only [handOn, table, is_starting, if_true]
    refine (exec_table _ _ s).trans (s.event_none _ ?_)
    rw [arrive_waiting turn (by rw [table]; exact tableRow_table _), waits]
    rfl

/-! ## Something held (O20) -/

/-- A TABLE request in QUIET returns the bridge to RUN; elsewhere it is not noted (R187). -/
theorem noteAccess_table (b : Bridge) :
    b.noteAccess .table = if b.control.state = .quiet then ((b.setState .run).startTimer).wakeCommand else b := by
  split
  case isTrue quiet => exact noteAccess_of_quiet quiet (Or.inr rfl)
  case isFalse awake => exact noteAccess_of_not_tap (by decide) (Or.inl awake)

/-- Noting a TABLE request starts no bridge. -/
theorem noteAccess_table_state {b : Bridge} (not_starting : b.control.state ≠ .starting) (not_auditing : b.control.state ≠ .auditing) :
    (b.noteAccess .table).control.state ≠ .starting ∧ (b.noteAccess .table).control.state ≠ .auditing := by
  rw [noteAccess_table]
  split <;> simp [not_starting, not_auditing]

theorem exec_table_offered {s : State} {r : Request} (turn : OfferedInTurn s.chip r) (table : classOf s.chip r = .table) :
    exec (if r.write then .tableWrite (.offered r) else .tableRead (.offered r)) s
      = After s (((withRequest s.chip (newRequest s.chip r .table)).noteAccess .table).beginSnoop (newRequest s.chip r .table)) := by
  obtain ⟨not_starting, not_auditing⟩ := state_of_table table
  refine exec_table_of_some ((arrive_offered turn (by rw [table]; exact tableRow_table _)).trans ?_)
  rw [table, takeRequest_eq]
  have noted := noteAccess_table_state (b := withRequest s.chip (newRequest s.chip r .table)) not_starting not_auditing
  rw [handOn_table rfl noted.1 noted.2]
  refine congrArg (fun b => some (beginSnoop b _)) (noteAccess_of_not_tap (by decide) (Or.inl ?_))
  rw [noteAccess_table]
  split
  case isTrue => simp
  case isFalse awake => exact awake

theorem exec_table_waiting {s : State} {id : Nat} {x : InFlight} (turn : ItsTurn s.chip id x) (table : x.cls = .table)
    (not_starting : s.chip.control.state ≠ .starting) (not_auditing : s.chip.control.state ≠ .auditing) :
    exec (if x.request.write then .tableWrite (.waiting id) else .tableRead (.waiting id)) s
      = After s ((s.chip.noteAccess .table).beginSnoop x) :=
  exec_table_of_some ((arrive_waiting turn (by rw [table]; exact tableRow_table _)).trans
    (handOn_table table not_starting not_auditing))

/-- Settles O20: the snoop goes through the descriptors in address order, and the requests that are shown to it are those of
the rows. -/
theorem tableRequestWaitsForHeldDescriptor : Obligations.TableRequestWaitsForHeldDescriptor := by
  refine ⟨?judged, ?shown⟩
  case judged =>
    intro b x n e one held free no_mirrors
    refine ⟨fun write pin => ?_, fun write unpinned => ?_, fun read unclean => ?_, fun read clean => ?_, ?several⟩
    · rw [beginSnoop_of_free free, snoop_of_write write,
        snoopWrite_of_pinned (l := []) (k := []) one (fun m m_in => (nomatch m_in)) held pin, holdRequest, one]
      simp
    · have not_pinned : ∀ m ∈ b.cfg.touchedStructures x.request, ∀ e, b.entry? m = some e → e.pin = false := by
        rw [one]
        intro m m_in y y_held
        obtain ⟨y_in, y_index⟩ := entry?_mem b m y y_held
        exact unpinned y y_in (y_index.trans (List.mem_singleton.mp m_in))
      rw [beginSnoop_of_free free, snoop_of_write write, one]
      exact snoopWrite_of_waits (l := []) (k := []) not_pinned (fun m m_in => (nomatch m_in)) held
    · rw [beginSnoop_of_free free, snoop_of_read read, one]
      exact snoopRead_of_waits (l := []) (k := []) (fun m m_in => (nomatch m_in)) held unclean
    · have all_clean : ∀ m ∈ b.cfg.touchedStructures x.request, ∀ y, b.entry? m = some y → y.state = .clean := by
        rw [one]
        intro m m_in y y_held
        rw [List.mem_singleton.mp m_in, held] at y_held
        cases y_held
        exact clean
      rw [beginSnoop_of_free free, snoop_of_read read, snoopRead_of_clean all_clean, passOn_of_free free no_mirrors]
    case several =>
      intro b x n todo all passes waits reads writes
      have passes_eq : b.passOn x = passes := passOn_eq b x
      have reads_snoop (left : List Nat) : reads left (b.snoopRead x left) :=
        ⟨fun clean => (snoopRead_of_clean clean).trans passes_eq,
          fun l n k e parts clean held unclean => parts ▸ snoopRead_of_waits clean held unclean⟩
      have writes_snoop (left : List Nat) : writes left (b.snoopWrite x left) :=
        ⟨fun l n k e parts unpinned held pin => snoopWrite_of_pinned parts unpinned held pin left,
          fun unpinned => ⟨fun unheld => (snoopWrite_of_unheld unpinned unheld).trans passes_eq,
            fun l n k e parts unheld held => parts ▸ snoopWrite_of_waits unpinned unheld held⟩⟩
      refine ⟨beginSnoop_of_loaded, fun free => ⟨fun read => ?_, fun write => ?_⟩,
        fun found snooping => ⟨fun read => ?_, fun write => ?_⟩⟩
      · rw [beginSnoop_of_free free, snoop_of_read read]
        exact reads_snoop all
      · rw [beginSnoop_of_free free, snoop_of_write write]
        exact writes_snoop all
      · rw [allow_of_snooping found snooping, snoop_of_read read]
        exact reads_snoop todo
      · rw [allow_of_snooping found snooping, snoop_of_write write]
        exact writes_snoop todo
  case shown =>
    intro s b class? row noted new takes inTurn
    refine ⟨fun r turn table => ?_, fun r turn start running touches => ?_, fun id x turn table not_starting not_auditing => ?_,
      fun id x turn start => ⟨fun running touches => ?_, fun untouched no_mirrors => ?_⟩⟩
    · obtain ⟨wf, room, fresh, first⟩ := turn
      rw [show noted _ = _ from (noteAccess_table _).symm]
      exact exec_table_offered ⟨wf, room, fresh, first⟩ table
    · obtain ⟨wf, room, fresh, first⟩ := turn
      have is_start : classOf s.chip r = .anchorStart := start
      refine exec_plainRequest ((arrive_offered ⟨wf, room, fresh, first⟩ (by rw [is_start]; rfl)).trans ?_)
      rw [is_start, takeRequest_eq, noteAccess_of_not_tap (by decide) (Or.inr (by decide)), handOn_anchorStart rfl]
      exact congrArg (fun o : Option Bridge => some (o.getD _)) (if_pos ⟨running, touches⟩)
    · rw [show noted b = _ from (noteAccess_table b).symm]
      exact exec_table_waiting turn table not_starting not_auditing
    · refine exec_plainRequest ((arrive_waiting turn (by rw [start]; rfl)).trans ?_)
      rw [handOn_anchorStart start]
      exact if_pos ⟨running, touches⟩
    · have found : s.chip.inflight? x.id = some x := (inflight?_mem s.chip id x turn.1).2 ▸ turn.1
      refine exec_plainRequest ((arrive_waiting turn (by rw [start]; rfl)).trans ?_)
      rw [handOn_anchorStart_plain start untouched, forwardPlain_of_no_mirrors no_mirrors, forward_of_inflight found]

end Sys2Proof.Machine
end

