-- ==== Sys2Proof/Proofs/TapDecoder.lean ====
section
/-! The tap decoder (R27 to R29), and what an access in QUIET does (R187). -/

namespace Sys2Proof.Machine

open Bridge

/-! ## The activity that a tap notes (R37, R123, R187) -/

/-- The idle timer as a start leaves it: the idle time, or stopped for an idle time of 0 (R187). -/
def fullTimer (b : Bridge) : Option Nat := if b.cfg.idleTime = 0 then none else some b.cfg.idleTime

/-- The activity of a tap request: none for a debug-tagged one. -/
def tapActivity (debug : Bool) (b : Bridge) : Bridge := if debug then b else b.activity

theorem activity_eq (b : Bridge) : b.activity = { b with control := { b.control with
    idleTimer := if b.control.idleTimer.isSome = true then fullTimer b else b.control.idleTimer } } := by
  unfold activity
  split <;> rfl

theorem cancelEmptying_eq (b : Bridge) : b.cancelEmptying = { b with control := { b.control with
    emptying := false, idleTimer := if b.control.emptying = true then fullTimer b else b.control.idleTimer } } := by
  unfold cancelEmptying
  split
  case isTrue => rfl
  case isFalse not_emptying =>
    rw [Bool.not_eq_true] at not_emptying
    rw [← not_emptying]

theorem cancelEmptying_of_stopped {b : Bridge} (stopped : b.control.emptying = false) : b.cancelEmptying = b :=
  if_neg (by rw [stopped]; exact Bool.false_ne_true)

/-- A timer that was just started is not changed by activity. -/
theorem tapActivity_of_full {b : Bridge} (full : b.control.idleTimer = fullTimer b) (debug : Bool) : tapActivity debug b = b := by
  unfold tapActivity
  rw [activity_eq, ite_eq_left_iff]
  intro _
  rw [full, ite_self, ← full]

/-- The activity of a tap out of QUIET (R123, R187). -/
theorem tapActivity_cancelEmptying (debug : Bool) (b : Bridge) :
    tapActivity debug b.cancelEmptying = { b with control := { b.control with
      emptying := false
      idleTimer := if b.control.emptying = true ∨ (debug = false ∧ b.control.idleTimer.isSome = true) then fullTimer b
        else b.control.idleTimer } } := by
  cases emptying : b.control.emptying with
  | true =>
    have started : b.cancelEmptying = { b with control := { b.control with emptying := false, idleTimer := fullTimer b } } := by
      rw [cancelEmptying_eq, if_pos emptying]
    have full : b.cancelEmptying.control.idleTimer = fullTimer b.cancelEmptying := by
      rw [started]
      rfl
    rw [tapActivity_of_full full, started, if_pos (Or.inl rfl)]
  | false =>
    rw [cancelEmptying_of_stopped emptying, ← emptying]
    cases debug with
    | true =>
      simp only [tapActivity, emptying, Bool.false_eq_true, Bool.true_eq_false, false_or, false_and, if_true, if_false]
      rw [← emptying]
    | false =>
      simp only [tapActivity, activity_eq, emptying, Bool.false_eq_true, if_false, false_or, true_and]

/-! ## The decoder -/

/-- A tap request that was noted is decoded: the first check, the second check, and the hand-over (R28, R29). -/
theorem decode_eq (b : Bridge) (x : InFlight) : b.decode x =
    if b.cfg.shapeOk x.request = false then
      (tapActivity x.request.debug (b.noteAccess .tap)).refuseTap (b.cfg.decodeTap x.id x.request) .shape
    else if b.cfg.structureCount ≤ b.cfg.apertureOffset x.request / 32 then
      (tapActivity x.request.debug (b.noteAccess .tap)).refuseTap (b.cfg.decodeTap x.id x.request) .range
    else ((tapActivity x.request.debug (b.noteAccess .tap)).setPhase x.id .tapped).enqueue
      (b.cfg.apertureOffset x.request / 32) (.tap (b.cfg.decodeTap x.id x.request)) := rfl

theorem setPhase_setPhase (b : Bridge) (id : Nat) (p q : RequestPhase) : (b.setPhase id p).setPhase id q = b.setPhase id q := by
  unfold setPhase
  simp only [List.map_map]
  congr 2
  refine List.map_congr_left fun r _ => ?_
  by_cases h : r.id = id <;> simp [h]

/-- The answer to a request does not look at its phase. -/
theorem refuseTap_setPhase (b : Bridge) (t : Tap) (r : Reason) (p : RequestPhase) :
    (b.setPhase t.id p).refuseTap t r = b.refuseTap t r := by
  simp only [refuseTap, answer, setPhase_setPhase]

/-- A request that has just been taken changes its phase alone. -/
theorem setPhase_withRequest {b : Bridge} {x : InFlight} (fresh : ∀ y ∈ b.iport.inflight, y.id < b.nextHandle)
    (handle : x.id = b.nextHandle) (p : RequestPhase) :
    (withRequest b x).setPhase x.id p = withRequest b { x with phase := p } := by
  have others : b.iport.inflight.map (fun r => if r.id = x.id then { r with phase := p } else r) = b.iport.inflight :=
    map_update_absent b.iport.inflight InFlight.id (fun r => { r with phase := p }) x.id fun y y_in =>
      handle ▸ Nat.ne_of_lt (fresh y y_in)
  simp only [setPhase, withRequest, List.map_append, others, List.map_cons, List.map_nil, if_true]

/-- The three outcomes of a decoded request: `noted` is the bridge when the request was noted, as it is (`.waiting`) and with
the request handed over (`.tapped`). -/
theorem decode_judged {b : Bridge} {x : InFlight} {noted : RequestPhase → Bridge}
    (refused : ∀ r, (tapActivity x.request.debug (b.noteAccess .tap)).refuseTap (b.cfg.decodeTap x.id x.request) r
      = (noted .waiting).refuseTap (b.cfg.decodeTap x.id x.request) r)
    (tapped : (tapActivity x.request.debug (b.noteAccess .tap)).setPhase x.id .tapped = noted .tapped) :
    (b.cfg.shapeOk x.request = false → b.decode x = (noted .waiting).refuseTap (b.cfg.decodeTap x.id x.request) .shape)
    ∧ (b.cfg.shapeOk x.request = true → b.cfg.structureCount ≤ b.cfg.apertureOffset x.request / 32 →
      b.decode x = (noted .waiting).refuseTap (b.cfg.decodeTap x.id x.request) .range)
    ∧ (b.cfg.shapeOk x.request = true → b.cfg.apertureOffset x.request / 32 < b.cfg.structureCount →
      b.decode x = (noted .tapped).enqueue (b.cfg.apertureOffset x.request / 32) (.tap (b.cfg.decodeTap x.id x.request))) := by
  rw [decode_eq, refused, refused, tapped]
  refine ⟨fun bad => if_pos bad, fun good above => ?_, fun good below => ?_⟩
  · rw [if_neg (by rw [good]; decide), if_pos above]
  · rw [if_neg (by rw [good]; decide), if_neg (Nat.not_le.mpr below)]

theorem handOn_tap {b : Bridge} {x : InFlight} (tap : x.cls = .tap) : b.handOn x = some (b.decode x) := by
  simp only [handOn, tap]

theorem exec_tap_offered {s : State} {r : Request} (turn : OfferedInTurn s.chip r) (tap : classOf s.chip r = .tap) :
    exec (.tapRequest (.offered r)) s
      = After s (((withRequest s.chip (newRequest s.chip r .tap)).noteAccess .tap).decode (newRequest s.chip r .tap)) := by
  refine exec_tapRequest ((arrive_offered turn (by rw [tap]; rfl)).trans ?_)
  rw [tap, takeRequest_eq, handOn_tap rfl]
  rfl

theorem exec_tap_waiting {s : State} {id : Nat} {x : InFlight} (turn : ItsTurn s.chip id x) (tap : x.cls = .tap) :
    exec (.tapRequest (.waiting id)) s = After s (s.chip.decode x) :=
  exec_tapRequest ((arrive_waiting turn (by rw [tap]; rfl)).trans (handOn_tap tap))

/-! ## Back in RUN (R187) -/

/-- A QUIET bridge that an access returned to RUN, with the timer started and an IDLE command unit woken (R163, R187). -/
def backInRun (b : Bridge) : Bridge := ((b.setState .run).startTimer).wakeCommand

theorem noteAccess_tap_of_quiet {b : Bridge} (quiet : b.control.state = .quiet) : b.noteAccess .tap = backInRun b :=
  noteAccess_of_quiet quiet (Or.inl rfl)

@[simp] theorem backInRun_control (b : Bridge) : (backInRun b).control = { b.control with state := .run, idleTimer := fullTimer b } := by
  simp [backInRun, startTimer, fullTimer, cfg]
  rfl

theorem backInRun_full (b : Bridge) : (backInRun b).control.idleTimer = fullTimer (backInRun b) := by
  simp [fullTimer, cfg]
  rfl

/-- A bridge whose cache does not empty itself for QUIET (R123). -/
def notEmptying (b : Bridge) : Bridge := { b with control := { b.control with emptying := false } }

/-- A tap that is noted a second time, in RUN, stops a cache that empties itself and finds the timer full. -/
theorem noteAccess_backInRun (b : Bridge) (debug : Bool) : tapActivity debug ((backInRun b).noteAccess .tap)
    = notEmptying (backInRun b) := by
  rw [noteAccess_tap_of_awake (by simp), tapActivity_cancelEmptying, ← backInRun_full, ite_self]
  rfl

theorem setPhase_mirror (b : Bridge) (id : Nat) (p : RequestPhase) : b.mirror.setPhase id p = (b.setPhase id p).mirror := by
  unfold mirror
  exact apply_ite (fun b => setPhase b id p) _ _ _

theorem setPhase_wakeCommand (b : Bridge) (id : Nat) (p : RequestPhase) :
    b.wakeCommand.setPhase id p = (b.setPhase id p).wakeCommand := by
  unfold wakeCommand
  exact apply_ite (fun b => setPhase b id p) _ _ _

theorem setPhase_backInRun (b : Bridge) (id : Nat) (p : RequestPhase) :
    (backInRun b).setPhase id p = backInRun (b.setPhase id p) := by
  unfold backInRun setState
  rw [setPhase_wakeCommand]
  exact congrArg (fun b => wakeCommand (startTimer b)) (setPhase_mirror _ id p)

/-! ## The four ways to the decoder -/

/-- The command `c` decodes the request `x`, noted as `noted` says, by the phase in which it goes on. -/
def DecodedAs (c : Instr) (s : State) (x : InFlight) (noted : RequestPhase → Bridge) : Prop :=
  let t := s.chip.cfg.decodeTap x.id x.request
  (s.chip.cfg.shapeOk x.request = false → exec c s = After s ((noted .waiting).refuseTap t .shape))
  ∧ (s.chip.cfg.shapeOk x.request = true → s.chip.cfg.structureCount ≤ t.struct →
    exec c s = After s ((noted .waiting).refuseTap t .range))
  ∧ (s.chip.cfg.shapeOk x.request = true → t.struct < s.chip.cfg.structureCount →
    exec c s = After s ((noted .tapped).enqueue t.struct (.tap t)))

theorem DecodedAs.of {c : Instr} {s : State} {x : InFlight} {noted : RequestPhase → Bridge} {b : Bridge}
    (row : exec c s = After s (b.decode x)) (settings : b.cfg = s.chip.cfg)
    (refused : ∀ t r, t.id = x.id → (tapActivity x.request.debug (b.noteAccess .tap)).refuseTap t r
      = (noted .waiting).refuseTap t r)
    (tapped : (tapActivity x.request.debug (b.noteAccess .tap)).setPhase x.id .tapped = noted .tapped) :
    DecodedAs c s x noted := by
  obtain ⟨shape, range, goes⟩ := decode_judged (fun r => refused _ r rfl) tapped
  rw [settings] at shape range goes
  exact ⟨fun h => row.trans (congrArg (After s) (shape h)), fun h h' => row.trans (congrArg (After s) (range h h')),
    fun h h' => row.trans (congrArg (After s) (goes h h'))⟩

theorem setPhase_tapActivity (b : Bridge) (debug : Bool) (id : Nat) (p : RequestPhase) :
    (tapActivity debug b.cancelEmptying).setPhase id p = tapActivity debug (b.setPhase id p).cancelEmptying := by
  rw [tapActivity_cancelEmptying, tapActivity_cancelEmptying]
  rfl

section Offered

variable {s : State} {r : Request} (turn : OfferedInTurn s.chip r) (tap : classOf s.chip r = .tap)
include turn tap

theorem decoded_offered_awake (awake : s.chip.control.state ≠ .quiet) :
    DecodedAs (.tapRequest (.offered r)) s (newRequest s.chip r .tap)
      (fun p => tapActivity r.debug (withRequest s.chip { newRequest s.chip r .tap with phase := p }).cancelEmptying) := by
  have once : (withRequest s.chip (newRequest s.chip r .tap)).noteAccess .tap
      = (withRequest s.chip (newRequest s.chip r .tap)).cancelEmptying := noteAccess_tap_of_awake awake
  have still_awake : (withRequest s.chip (newRequest s.chip r .tap)).cancelEmptying.control.state ≠ .quiet := by
    rw [cancelEmptying_eq]
    exact awake
  have twice : (withRequest s.chip (newRequest s.chip r .tap)).cancelEmptying.noteAccess .tap
      = (withRequest s.chip (newRequest s.chip r .tap)).cancelEmptying := by
    rw [noteAccess_tap_of_awake still_awake, cancelEmptying_of_stopped (by rw [cancelEmptying_eq])]
  have row := exec_tap_offered turn tap
  rw [once] at row
  refine DecodedAs.of row (by rw [cancelEmptying_eq]; rfl) (fun t reason _ => by rw [twice]; rfl) ?_
  rw [twice, setPhase_tapActivity, setPhase_withRequest turn.fresh rfl]
  rfl

theorem decoded_offered_quiet (quiet : s.chip.control.state = .quiet) :
    DecodedAs (.tapRequest (.offered r)) s (newRequest s.chip r .tap)
      (fun p => notEmptying (backInRun (withRequest s.chip { newRequest s.chip r .tap with phase := p }))) := by
  have once : (withRequest s.chip (newRequest s.chip r .tap)).noteAccess .tap
      = backInRun (withRequest s.chip (newRequest s.chip r .tap)) := noteAccess_tap_of_quiet quiet
  have row := exec_tap_offered turn tap
  rw [once] at row
  refine DecodedAs.of row (by rw [cfg, backInRun_control]; rfl) (fun t reason _ => by rw [noteAccess_backInRun]; rfl) ?_
  rw [noteAccess_backInRun]
  exact congrArg notEmptying ((setPhase_backInRun ..).trans (congrArg backInRun (setPhase_withRequest turn.fresh rfl _)))

end Offered

section Waiting

variable {s : State} {id : Nat} {x : InFlight} (turn : ItsTurn s.chip id x) (tap : x.cls = .tap)
include turn tap

theorem decoded_waiting_awake (awake : s.chip.control.state ≠ .quiet) :
    DecodedAs (.tapRequest (.waiting id)) s x
      (fun p => tapActivity x.request.debug (s.chip.setPhase x.id p).cancelEmptying) := by
  refine DecodedAs.of (exec_tap_waiting turn tap) rfl (fun t reason handle => ?_) ?_ <;>
    rw [noteAccess_tap_of_awake awake]
  · rw [← setPhase_tapActivity, ← handle, refuseTap_setPhase]
  · exact setPhase_tapActivity ..

theorem decoded_waiting_quiet (quiet : s.chip.control.state = .quiet) :
    DecodedAs (.tapRequest (.waiting id)) s x (fun p => backInRun (s.chip.setPhase x.id p)) := by
  refine DecodedAs.of (exec_tap_waiting turn tap) rfl (fun t reason handle => ?_) ?_ <;>
    rw [noteAccess_tap_of_quiet quiet, tapActivity_of_full (backInRun_full _)]
  · rw [← setPhase_backInRun, ← handle, refuseTap_setPhase]
  · exact setPhase_backInRun ..

end Waiting

/-- Settles O21: the activity is noted, and the decoder's checks decide, on each of the four ways. -/
theorem tapRequestIsDecoded : Obligations.TapRequestIsDecoded := by
  intro s state off tap timed back judged takes
  refine ⟨fun r is_tap wf room fresh first => ⟨fun awake => ?_, fun quiet => ?_⟩,
    fun id x turn is_tap => ⟨fun awake => ?_, fun quiet => ?_⟩⟩
  · have decoded := decoded_offered_awake ⟨wf, room, fresh, first⟩ is_tap awake
    simp only [tapActivity_cancelEmptying] at decoded
    exact decoded
  · exact decoded_offered_quiet ⟨wf, room, fresh, first⟩ is_tap quiet
  · obtain rfl : x.id = id := (inflight?_mem s.chip id x turn.1).2
    have decoded := decoded_waiting_awake turn is_tap awake
    simp only [tapActivity_cancelEmptying] at decoded
    exact decoded
  · obtain rfl : x.id = id := (inflight?_mem s.chip id x turn.1).2
    exact decoded_waiting_quiet turn is_tap quiet

/-! ## An access in QUIET (R163, R187) -/

/-- `b` is in RUN with a full timer, and its command unit has heard of it when that of `b₀` was IDLE (R163, R187). -/
structure Awoken (b₀ b : Bridge) : Prop where
  run : b.control.state = .run
  settings : b.control.settings = b₀.control.settings
  full : b.control.idleTimer = fullTimer b
  wake : b₀.command.state = .idle → b.command.wake = true

/-- What changes neither bridge control nor the command unit. -/
structure Aside (b b' : Bridge) : Prop where
  control : b'.control = b.control
  command : b'.command = b.command

theorem Aside.trans {a b c : Bridge} (h : Aside a b) (g : Aside b c) : Aside a c :=
  ⟨g.control.trans h.control, g.command.trans h.command⟩

theorem fullTimer_congr {b b' : Bridge} (settings : b'.control.settings = b.control.settings) : fullTimer b' = fullTimer b := by
  have same : b'.cfg = b.cfg := congrArg (fun g : Option Settings => g.getD Settings.absent) settings
  rw [fullTimer, fullTimer, same]

theorem Awoken.aside {b₀ b b' : Bridge} (awoken : Awoken b₀ b) (beside : Aside b b') : Awoken b₀ b' where
  run := beside.control ▸ awoken.run
  settings := beside.control ▸ awoken.settings
  full := by
    rw [fullTimer_congr (congrArg Control.settings beside.control), beside.control]
    exact awoken.full
  wake idle := beside.command ▸ awoken.wake idle

theorem aside_setPhase (b : Bridge) (id : Nat) (p : RequestPhase) : Aside b (b.setPhase id p) := ⟨rfl, rfl⟩

theorem aside_enqueue (b : Bridge) (n : Nat) (op : CacheOp) : Aside b (b.enqueue n op) := by
  constructor <;> simp

theorem aside_forward (b : Bridge) (id : Nat) : Aside b (b.forward id) := by
  unfold forward
  split <;> exact ⟨rfl, rfl⟩

theorem aside_passOn (b : Bridge) (x : InFlight) : Aside b (b.passOn x) := by
  unfold passOn
  split
  · exact aside_setPhase ..
  · split
    · exact aside_setPhase ..
    · exact aside_forward ..

theorem aside_snoopRead (b : Bridge) (x : InFlight) (todo : List Nat) : Aside b (b.snoopRead x todo) := by
  induction todo with
  | nil => exact aside_passOn b x
  | cons n rest ih =>
    unfold snoopRead
    split
    · exact ih
    · split
      · exact ih
      · exact (aside_enqueue b n _).trans (aside_setPhase ..)

theorem aside_snoopWrite (b : Bridge) (x : InFlight) (todo : List Nat) : Aside b (b.snoopWrite x todo) := by
  unfold snoopWrite
  split
  · exact ⟨rfl, rfl⟩
  · split
    · exact aside_passOn b x
    · exact (aside_enqueue b _ _).trans (aside_setPhase ..)

theorem aside_beginSnoop (b : Bridge) (x : InFlight) : Aside b (b.beginSnoop x) := by
  unfold beginSnoop snoop
  split
  · exact aside_setPhase ..
  · split
    · exact aside_snoopWrite ..
    · exact aside_snoopRead ..

theorem aside_forwardPlain (b : Bridge) (x : InFlight) : Aside b (b.forwardPlain x) := by
  unfold forwardPlain
  split
  · exact aside_setPhase ..
  · exact aside_forward ..

section Awake

variable {b₀ b : Bridge} (awoken : Awoken b₀ b)
include awoken

theorem Awoken.activity : Awoken b₀ b.activity := by
  have same : b.activity = b := tapActivity_of_full awoken.full false
  rw [same]
  exact awoken

theorem Awoken.cancelEmptying : Awoken b₀ b.cancelEmptying := by
  rw [cancelEmptying_eq]
  refine ⟨awoken.run, awoken.settings, ?_, awoken.wake⟩
  show (if b.control.emptying = true then fullTimer b else b.control.idleTimer) = fullTimer b
  rw [awoken.full, ite_self]

theorem Awoken.mirror : Awoken b₀ b.mirror := by
  refine awoken.aside ?_
  constructor <;> simp

theorem Awoken.notify (x : Notice) : Awoken b₀ (b.notify x) := by
  unfold Bridge.notify
  split
  case isTrue =>
    have queued : Awoken b₀ { b with notices := { b.notices with queue := b.notices.queue ++ [x] } } := awoken.aside ⟨rfl, rfl⟩
    exact queued.cancelEmptying
  case isFalse =>
    unfold dropNotice
    split
    · exact awoken
    · exact Awoken.mirror ⟨awoken.run, awoken.settings, awoken.full, awoken.wake⟩

theorem Awoken.refuseTap (t : Tap) (r : Reason) : Awoken b₀ (b.refuseTap t r) := by
  have answered : Awoken b₀ (b.answer t.id false (errorData t)) := awoken.aside ⟨rfl, rfl⟩
  unfold Bridge.refuseTap recordRefusal
  split
  · exact answered
  · have recorded : Awoken b₀ { b.answer t.id false (errorData t) with
        control := { (b.answer t.id false (errorData t)).control with lastRefusal := ⟨t.initiator, r, t.struct, t.offset⟩ } } :=
      ⟨answered.run, answered.settings, answered.full, answered.wake⟩
    dsimp only
    split
    · exact recorded.mirror.notify _
    · exact recorded.mirror

theorem Awoken.noteAccess (c : RequestClass) : Awoken b₀ (b.noteAccess c) := by
  have not_quiet : ¬ (b.control.state = .quiet ∧ (c = .tap ∨ c = .table)) := fun ⟨quiet, _⟩ =>
    (nomatch quiet.symm.trans awoken.run)
  unfold Bridge.noteAccess
  rw [if_neg not_quiet]
  split
  · exact awoken.cancelEmptying
  · exact awoken

theorem Awoken.decode (x : InFlight) : Awoken b₀ (b.decode x) := by
  have noted : Awoken b₀ (tapActivity x.request.debug (b.noteAccess .tap)) := by
    unfold tapActivity
    split
    · exact awoken.noteAccess .tap
    · exact (awoken.noteAccess .tap).activity
  rw [decode_eq]
  split
  · exact noted.refuseTap ..
  · split
    · exact noted.refuseTap ..
    · exact noted.aside ((aside_setPhase ..).trans (aside_enqueue ..))

theorem Awoken.handOn {b' : Bridge} {x : InFlight} (hands : b.handOn x = some b') : Awoken b₀ b' := by
  unfold Bridge.handOn at hands
  split at hands
  case h_1 => cases hands; exact awoken.decode x
  case h_2 =>
    split at hands
    · cases hands
    · cases hands; exact (awoken.noteAccess .table).aside (aside_beginSnoop ..)
  case h_3 =>
    split at hands
    · cases hands; exact awoken.aside (aside_beginSnoop ..)
    · cases hands; exact awoken.aside (aside_forwardPlain ..)
  case h_4 => cases hands; exact awoken.aside (aside_forwardPlain ..)
  all_goals cases hands

end Awake

theorem awoken_backInRun (b : Bridge) : Awoken b (backInRun b) where
  run := by simp
  settings := by simp
  full := backInRun_full b
  wake idle := by
    have still_idle : ((b.setState .run).startTimer).command.state = .idle := by simpa using idle
    rw [backInRun, wakeCommand, if_pos still_idle]

/-- A TAP or TABLE request offered in QUIET with room leaves the bridge back in RUN, whatever then becomes of it. -/
theorem arrive_in_quiet {b : Bridge} {r : Request} (quiet : b.control.state = .quiet) (wf : r.wf = true)
    (room : b.iport.inflight.length < 32) {row : RequestClass → Bool → Bool} (accepts : row (classOf b r) r.write = true)
    (noted : classOf b r = .tap ∨ classOf b r = .table) : ∃ b', b.arrive row (.offered r) = some b' ∧ Awoken b b' := by
  have taken : Awoken b (b.takeRequest r (classOf b r)) := by
    rw [takeRequest_eq, noteAccess_of_quiet (b := withRequest b _) quiet noted]
    have back := awoken_backInRun (withRequest b (newRequest b r (classOf b r)))
    exact ⟨back.run, back.settings, back.full, back.wake⟩
  rw [classOf] at accepts taken
  simp only [arrive, wf, room, accepts, and_self, if_true]
  split
  case h_1 x _ =>
    refine ⟨_, rfl, ?_⟩
    split
    · cases hands : (b.takeRequest r (classify b.control.state b.control.settings b.control.straps r)).handOn x with
      | some b' => exact taken.handOn hands
      | none => exact taken
    · exact taken
  case h_2 => exact ⟨_, rfl, taken⟩

/-- Settles O22: a TAP or TABLE request that is taken in QUIET wakes the bridge, and nothing it does then changes that. -/
theorem accessInQuietReturnsToRun : Obligations.AccessInQuietReturnsToRun := by
  intro s r quiet wf room c back
  have is_class : classOf s.chip r = c := by rw [classOf, quiet]
  have returns {i : Instr} {b : Bridge} (row : exec i s = After s b) (awoken : Awoken s.chip b) : back i := by
    have timer : b.control.idleTimer = fullTimer s.chip := awoken.full.trans (fullTimer_congr awoken.settings)
    exact ⟨b, row, awoken.run, fun positive => timer.trans (if_neg positive), fun zero => timer.trans (if_pos zero), awoken.wake⟩
  refine ⟨fun tap => ?_, fun table => ?_⟩
  · rw [tap] at is_class
    obtain ⟨b, arrives, awoken⟩ := arrive_in_quiet quiet wf room (row := tapRow) (by rw [is_class]; rfl) (Or.inl is_class)
    exact returns (exec_tapRequest arrives) awoken
  · rw [table] at is_class
    obtain ⟨b, arrives, awoken⟩ := arrive_in_quiet quiet wf room (row := tableRow r.write)
      (by rw [is_class]; exact tableRow_table _) (Or.inr is_class)
    exact returns (exec_table_of_some arrives) awoken

end Sys2Proof.Machine
end

