-- ==== Sys2Proof/Proofs/MemoryPort.lean ====
section
/-! The M-port: the answer to a forwarded request (R177, R178), the arbiter's grant (R179), and the status mirror with its
record (R181, R182). -/

namespace Sys2Proof.Machine

open Bridge

/-! ## The fields of a record that is written (R182) -/

@[simp] theorem byteIn_cons_zero (v : Byte) (bs : List Byte) : byteIn (v :: bs) 0 = v := rfl

@[simp] theorem byteIn_cons_succ (v : Byte) (bs : List Byte) (i : Nat) : byteIn (v :: bs) (i + 1) = byteIn bs i := rfl

theorem byteIn_zeros (k i : Nat) : byteIn (List.replicate k 0) i = 0 := by
  unfold byteIn
  rw [List.getElem?_replicate]
  split <;> rfl

/-- The two bytes of a 16-bit number. -/
theorem append_bytes (n : Nat) : BitVec.ofNat 8 (n / 256) ++ BitVec.ofNat 8 n = BitVec.ofNat 16 n := by
  apply BitVec.eq_of_toNat_eq
  rw [BitVec.toNat_append, ← Nat.shiftLeft_add_eq_or_of_lt (BitVec.isLt _), Nat.shiftLeft_eq]
  simp only [BitVec.toNat_ofNat]
  omega

/-- The two halves of a 32-bit number. -/
theorem append_halves (n : Nat) : BitVec.ofNat 16 (n / 65536) ++ BitVec.ofNat 16 n = BitVec.ofNat 32 n := by
  apply BitVec.eq_of_toNat_eq
  rw [BitVec.toNat_append, ← Nat.shiftLeft_add_eq_or_of_lt (BitVec.isLt _), Nat.shiftLeft_eq]
  simp only [BitVec.toNat_ofNat]
  omega

/-! ## The answer to a forwarded request (R177, R178) -/

theorem takesStop_iff (b : Bridge) : b.takesStop = true ↔ b.control.state = .starting ∨ b.control.state = .auditing
    ∨ b.control.state = .run ∨ b.control.state = .quiet := by
  simp [takesStop, or_assoc]

theorem takesStop_eq_false {b : Bridge} (still : b.control.state = .pass ∨ b.control.state = .stopping ∨ b.control.state = .warm) :
    b.takesStop = false := by
  unfold takesStop
  rcases still with h | h | h <;> rw [h] <;> rfl

/-- A start word that neither starts nor stops the bridge changes nothing (R177). -/
theorem actOnStartWord_of_ignored {b : Bridge} {v : Nat} (no_start : v ≠ 1 ∨ b.control.state ≠ .pass)
    (no_stop : v ≠ 2 ∨ b.takesStop = false) : b.actOnStartWord v = b := by
  have not_start : ¬ (v = 1 ∧ b.control.state = .pass) := fun ⟨one, pass⟩ => no_start.elim (· one) (· pass)
  have not_stop : ¬ (v = 2 ∧ b.takesStop = true) := fun ⟨two, stops⟩ =>
    no_stop.elim (· two) (fun h => Bool.false_ne_true (h.symm.trans stops))
  rw [actOnStartWord, if_neg not_start, if_neg not_stop]

theorem startWordOf_of_found {b : Bridge} {id : Nat} {r : InFlight} (found : b.inflight? id = some r) :
    b.startWordOf id = if r.cls = .anchorStart ∧ r.request.coversStartWord b.control.straps = true then
      some (r.request.startWord b.control.straps) else none := by
  simp only [startWordOf, found]

/-- The answer to a forwarded request, and bridge control's part when it is an OKAY start word (R177, R178). -/
theorem forwardedDone_of_found {b : Bridge} {id : Nat} {r : InFlight} (found : b.inflight? id = some r) (ok : Bool)
    (data : List Byte) : b.forwardedDone id ok data =
      if ok = true ∧ r.cls = .anchorStart ∧ r.request.coversStartWord b.control.straps = true then
        (b.answer id ok (forwardedData b.freeDraws r.request ok data)).actOnStartWord (r.request.startWord b.control.straps)
      else b.answer id ok (forwardedData b.freeDraws r.request ok data) := by
  simp only [forwardedDone, found, startWordOf_of_found found]
  by_cases start : r.cls = .anchorStart ∧ r.request.coversStartWord b.control.straps = true
  · simp only [if_pos start]
    exact ite_of_iff (and_iff_left start).symm
  · simp only [if_neg start]
    exact (if_neg (fun h => start h.2)).symm

theorem exec_forwarded_due {s : State} {id : Nat} {q : MemRequest} (due : AnswerDue s id isForward q) (ok : Bool) :
    exec (.forwardedRequestDone id ok) s = AfterAnswer s q ok false ((s.chip.received id).forwardedDone id ok
      (Memory.readBytes s.mem q.addr q.length)) :=
  s.answered_due id ok false isForward (fun _ data b => b.forwardedDone id ok data) q due

/-- Settles O24: the answer is returned, and a start word that starts or stops nothing is ignored. -/
theorem forwardedAnswerIsReturned : Obligations.ForwardedAnswerIsReturned := by
  intro s id ok q r v due found ignored
  rw [exec_forwarded_due due, forwardedDone_of_found (b := s.chip.received id) found]
  refine congrArg (AfterAnswer s q ok false) ?_
  split
  case isFalse => rfl
  case isTrue starts =>
    obtain ⟨okay, start, covers⟩ := starts
    refine actOnStartWord_of_ignored ?_ ?_ <;> rcases ignored with error | other | bare | ⟨no_start, no_stop⟩
    · exact absurd error (by rw [okay]; decide)
    · exact absurd start other
    · exact absurd covers (Bool.eq_false_iff.mp bare)
    · exact no_start
    · exact absurd error (by rw [okay]; decide)
    · exact absurd start other
    · exact absurd covers (Bool.eq_false_iff.mp bare)
    · exact no_stop.imp_right (takesStop_eq_false (b := (s.chip.received id).answer id ok _))

/-! ## The arbiter (R179) -/

theorem choice_of_must {m : MPort} {q : MemRequest} (first : m.waiting.find? MemRequest.must = some q) :
    m.choice true = some q := by
  rw [MPort.choice, if_pos rfl, first]
  rfl

theorem choice_of_no_must {m : MPort} {must : Bool} (none_must : must = false ∨ m.waiting.find? MemRequest.must = none) :
    m.choice must = (if m.fairness = 8 then m.firstBridge else none).or (m.firstForwarded.or m.firstBridge) := by
  have none_first : (if must = true then m.waiting.find? MemRequest.must else none) = none := by
    rcases none_must with h | h
    · rw [h]; rfl
    · rw [h, ite_self]
  rw [MPort.choice, none_first, Option.none_or]

/-- The first bridge request is the oldest of the first class that has one. -/
theorem firstBridge_of_class {m : MPort} {q : MemRequest} {k : Nat} (low : 1 ≤ k) (high : k ≤ 4)
    (found : m.waiting.find? (fun x => x.access.bridgeClass == k) = some q)
    (none_below : ∀ j, 1 ≤ j → j < k → m.waiting.find? (fun x => x.access.bridgeClass == j) = none) :
    m.firstBridge = some q := by
  unfold MPort.firstBridge
  obtain rfl | rfl | rfl | rfl : k = 1 ∨ k = 2 ∨ k = 3 ∨ k = 4 := by omega
  · rw [found]; rfl
  · rw [found, none_below 1 (by decide) (by decide)]; rfl
  · rw [found, none_below 1 (by decide) (by decide), none_below 2 (by decide) (by decide)]; rfl
  · rw [found, none_below 1 (by decide) (by decide), none_below 2 (by decide) (by decide), none_below 3 (by decide) (by decide)]
    rfl

theorem firstBridge_eq_none {m : MPort} (all : ∀ x ∈ m.waiting, x.forwarded = true) : m.firstBridge = none := by
  cases first : m.firstBridge with
  | none => rfl
  | some q =>
    have waits : q ∈ m.waiting := by
      unfold MPort.firstBridge at first
      rcases Option.or_eq_some_iff.mp first with h | ⟨-, h⟩
      · exact List.mem_of_find?_eq_some h
      rcases Option.or_eq_some_iff.mp h with h | ⟨-, h⟩
      · exact List.mem_of_find?_eq_some h
      rcases Option.or_eq_some_iff.mp h with h | ⟨-, h⟩ <;> exact List.mem_of_find?_eq_some h
    exact absurd (all q waits) (by rw [firstBridge_forwarded first]; decide)

theorem exec_grant {s : State} {q : MemRequest} (choice : s.chip.mport.choice s.chip.atMustLevel = some q) :
    exec .mportGrant s = .next { s with chip := { s.chip with mport := {
      waiting := s.chip.mport.waiting.filter (fun x => x.id != q.id)
      outstanding := s.chip.mport.outstanding ++
        [if q.access = .mirror then { q with data := s.chip.control.mirrorBytes } else q]
      fairness := if q.forwarded = true ∧ (∃ x ∈ s.chip.mport.waiting.filter (fun x => x.id != q.id), x.forwarded = false) then
        s.chip.mport.fairness + 1 else 0 } } } := by
  have bridge_waits (l : List MemRequest) : l.any (fun x => !x.forwarded) = true ↔ ∃ x ∈ l, x.forwarded = false := by simp
  show s.event Bridge.grant = _
  simp only [State.event, grant, choice, bridge_waits]

theorem exec_grant_of_none {s : State} (choice : s.chip.mport.choice s.chip.atMustLevel = none) :
    exec .mportGrant s = .next s := by
  refine s.event_none Bridge.grant ?_
  simp only [grant, choice]

theorem forwarded_iff (q : MemRequest) : q.forwarded = true ↔ ∃ id, q.access = .forward id := by
  unfold MemRequest.forwarded
  cases q.access with
  | item n stack move => cases move <;> simp [Access.bridgeClass]
  | _ => simp [Access.bridgeClass]

theorem must_iff (q : MemRequest) : q.must = true ↔ ∃ n, q.access = .writeBack n true := by
  unfold MemRequest.must
  cases q.access <;> simp

/-! ## The status mirror's record (section 10.5) -/

theorem mirrorBytes_eq (c : Control) : c.mirrorBytes =
    [c.state.code, c.startReason.code, BitVec.ofNat 8 c.dropped, BitVec.ofNat 8 (c.dropped / 256),
      (c.firstDropped.map NoticeKind.code).getD 0xFF, BitVec.ofNat 8 c.clearedPending,
      BitVec.ofNat 8 c.lastRefusal.initiator.val, c.lastRefusal.reason.code, BitVec.ofNat 8 c.lastRefusal.struct,
      BitVec.ofNat 8 c.lastRefusal.offset] ++ List.replicate 22 0 := rfl

theorem byteIn_mirrorBytes_of_reserved (c : Control) {i : Nat} (reserved : 10 ≤ i) : byteIn c.mirrorBytes i = 0 := by
  rw [mirrorBytes_eq, byteIn, List.getElem?_append_right reserved]
  exact byteIn_zeros 22 _

/-- Settles O25: the choice of the arbiter, its classes, and the bytes of the status mirror. -/
theorem arbiterGrantsInItsOrder : Obligations.ArbiterGrantsInItsOrder := by
  refine ⟨?grants, ?classes, fun q => ⟨forwarded_iff q, must_iff q⟩, ?mirror, by decide, by decide⟩
  case grants =>
    intro s q w firstBridge noMust left granted
    have bridge (first : firstBridge) : s.chip.mport.firstBridge = some q := by
      obtain ⟨k, low, high, found, none_below⟩ := first
      exact firstBridge_of_class low high found none_below
    refine ⟨fun must first => ?_, fun no_must full first => ?_, fun no_must unfull first => ?_, fun no_must none_forwarded first => ?_,
      fun empty => ?_⟩
    · exact exec_grant (by rw [must]; exact choice_of_must first)
    · exact exec_grant (by rw [choice_of_no_must no_must, if_pos full, bridge first]; rfl)
    · have none_first : (if s.chip.mport.fairness = 8 then s.chip.mport.firstBridge else none) = none := by
        rcases unfull with h | h
        · exact if_neg h
        · rw [firstBridge_eq_none h, ite_self]
      exact exec_grant (by rw [choice_of_no_must no_must, none_first, MPort.firstForwarded, first]; rfl)
    · refine exec_grant ?_
      rw [choice_of_no_must no_must, MPort.firstForwarded, none_forwarded, bridge first]
      split <;> rfl
    · refine exec_grant_of_none ?_
      have empty' : s.chip.mport.waiting = [] := empty
      simp [MPort.choice, MPort.firstBridge, MPort.firstForwarded, empty']
  case classes =>
    intro n f
    exact ⟨rfl, rfl, rfl, rfl⟩
  case mirror =>
    intro c bs
    refine ⟨rfl, rfl, rfl, append_bytes c.dropped, fun none_dropped => ?_, fun k dropped => ?_, rfl, rfl, rfl, rfl, rfl,
      fun i => byteIn_mirrorBytes_of_reserved c⟩
    · show (c.firstDropped.map NoticeKind.code).getD 0xFF = 0xFF
      rw [none_dropped]
      rfl
    · show (c.firstDropped.map NoticeKind.code).getD 0xFF = k.code
      rw [dropped]
      rfl

/-! ## The status reads that a mirror write releases (R181) -/

/-- The request waits for mirror writes, and for none any more. -/
def InFlight.freed (r : InFlight) : Bool := decide (r.phase = .mirrorWait) && r.mirrors.isEmpty

/-- The request is a TABLE one that touches the loaded move (R120). -/
def heldByMove (b : Bridge) (r : InFlight) : Bool := decide (r.cls = .table) && b.touchesLoaded r.request

/-- The descriptors that a write waits to be judged for. -/
def touchedBy (b : Bridge) (r : InFlight) : List Nat := if r.request.write then b.cfg.touchedStructures r.request else []

/-- A request after a mirror write was answered: released to the M-port, or to wait for the loaded move. -/
def resumed (b : Bridge) (r : InFlight) : InFlight :=
  { r with phase := if r.freed then (if heldByMove b r then .moveWait (touchedBy b r) else .forwarded) else r.phase }

/-- The request to memory that forwards a request in flight (R178). -/
def forwardOf (r : InFlight) : MemRequest :=
  ⟨r.id, .forward r.id, r.request.write, r.request.addr.toNat, r.request.data, r.request.size.bytes, false⟩

/-- What one request does when a mirror write is answered. -/
def resume (b : Bridge) (r : InFlight) : Bridge :=
  if r.freed then (if heldByMove b r then b.setPhase r.id (.moveWait (touchedBy b r)) else b.forward r.id) else b

theorem freeMirrorWaiters_eq (b : Bridge) : b.freeMirrorWaiters = b.iport.inflight.foldl resume b := by
  unfold freeMirrorWaiters
  refine congrArg (fun f => List.foldl f b b.iport.inflight) (funext fun b => funext fun r => ?_)
  unfold resume InFlight.freed
  by_cases waits : r.phase = .mirrorWait ∧ r.mirrors = []
  · obtain ⟨waiting, none_left⟩ := waits
    rw [if_pos ⟨waiting, none_left⟩]
    simp only [waiting, none_left, decide_true, List.isEmpty_nil, Bool.and_self, if_true, heldByMove, passOn_eq, touchedBy]
    by_cases table : r.cls = .table
    · simp only [table, if_true, decide_true, Bool.true_and]
    · simp only [table, if_false, decide_false, Bool.false_and, Bool.false_eq_true]
  · rw [if_neg waits]
    have not_freed : (decide (r.phase = .mirrorWait) && r.mirrors.isEmpty) = false := by
      rw [Bool.eq_false_iff]
      simpa using waits
    rw [not_freed]
    rfl

theorem resume_of_not_freed (b : Bridge) {r : InFlight} (h : r.freed = false) : resume b r = b :=
  if_neg (by rw [h]; decide)

@[simp] theorem resume_control (b : Bridge) (r : InFlight) : (resume b r).control = b.control := by
  unfold resume
  split
  · split
    · rfl
    · exact (aside_forward b r.id).control
  · rfl

@[simp] theorem resume_engine (b : Bridge) (r : InFlight) : (resume b r).engine = b.engine := by
  unfold resume forward
  split
  · split
    · rfl
    · split <;> rfl
  · rfl

theorem foldl_resume_frame (l : List InFlight) (b : Bridge) :
    (l.foldl resume b).control = b.control ∧ (l.foldl resume b).engine = b.engine := by
  induction l generalizing b with
  | nil => exact ⟨rfl, rfl⟩
  | cons r l ih =>
    rw [List.foldl_cons, (ih _).1, (ih _).2]
    exact ⟨resume_control b r, resume_engine b r⟩

/-- A request keeps the mirror writes that it waits for. -/
theorem resume_mirrors {b : Bridge} {x r : InFlight} (there : r ∈ (resume b x).iport.inflight) :
    ∃ y ∈ b.iport.inflight, y.mirrors = r.mirrors := by
  have setPhase_mirrors {p : RequestPhase} (there : r ∈ (b.setPhase x.id p).iport.inflight) :
      ∃ y ∈ b.iport.inflight, y.mirrors = r.mirrors := by
    obtain ⟨y, y_in, rfl⟩ := List.mem_map.mp there
    exact ⟨y, y_in, by split <;> rfl⟩
  unfold resume forward at there
  split at there
  · split at there
    · exact setPhase_mirrors there
    · split at there
      · exact setPhase_mirrors there
      · exact ⟨r, there, rfl⟩
  · exact ⟨r, there, rfl⟩

theorem foldl_resume_mirrors (l : List InFlight) {b : Bridge} {r : InFlight} (there : r ∈ (l.foldl resume b).iport.inflight) :
    ∃ y ∈ b.iport.inflight, y.mirrors = r.mirrors := by
  induction l generalizing b with
  | nil => exact ⟨r, there, rfl⟩
  | cons x l ih =>
    obtain ⟨y, y_in, same⟩ := ih there
    obtain ⟨z, z_in, same'⟩ := resume_mirrors y_in
    exact ⟨z, z_in, same'.trans same⟩

theorem foldl_resume_of_none_freed {l : List InFlight} (none_freed : ∀ r ∈ l, r.freed = false) (b : Bridge) :
    l.foldl resume b = b := by
  induction l with
  | nil => rfl
  | cons r l ih =>
    rw [List.foldl_cons, resume_of_not_freed b (none_freed r (List.mem_cons_self ..))]
    exact ih fun x x_in => none_freed x (List.mem_cons_of_mem r x_in)

/-- With handles that are all different, a change of phase changes one request. -/
theorem setPhase_at {b : Bridge} {before after : List InFlight} {r : InFlight} (parts : b.iport.inflight = before ++ r :: after)
    (apart : (b.iport.inflight.map InFlight.id).Nodup) (p : RequestPhase) :
    b.setPhase r.id p = { b with iport := { b.iport with inflight := before ++ { r with phase := p } :: after } } := by
  have others : ∀ l : List InFlight, (∀ x ∈ l, x.id ≠ r.id) → l.map (fun x => if x.id = r.id then { x with phase := p } else x) = l :=
    fun l => map_update_absent l InFlight.id (fun x => { x with phase := p }) r.id
  rw [parts, List.map_append, List.map_cons, List.nodup_append, List.nodup_cons] at apart
  obtain ⟨-, ⟨not_after, -⟩, differ⟩ := apart
  have before_differ : ∀ x ∈ before, x.id ≠ r.id := fun x x_in same =>
    differ x.id (List.mem_map_of_mem x_in) r.id (List.mem_cons_self ..) same
  have after_differ : ∀ x ∈ after, x.id ≠ r.id := fun x x_in same => not_after (same ▸ List.mem_map_of_mem x_in)
  simp only [setPhase, parts, List.map_append, List.map_cons, others before before_differ, others after after_differ, if_true]

theorem inflight?_at {b : Bridge} {before after : List InFlight} {r : InFlight} (parts : b.iport.inflight = before ++ r :: after)
    (apart : (b.iport.inflight.map InFlight.id).Nodup) : b.inflight? r.id = some r := by
  rw [parts, List.map_append, List.map_cons, List.nodup_append] at apart
  obtain ⟨-, -, differ⟩ := apart
  rw [inflight?, parts]
  exact List.find?_eq_some_iff_append.mpr ⟨beq_self_eq_true r.id, before, after, rfl, fun (x : InFlight) x_in => by
    simpa using fun same : x.id = r.id => differ x.id (List.mem_map_of_mem x_in) r.id (List.mem_cons_self ..) same⟩

/-- What one request in flight, with handles all different, does when a mirror write is answered. -/
theorem resume_at {b : Bridge} {before after : List InFlight} {r : InFlight} (parts : b.iport.inflight = before ++ r :: after)
    (apart : (b.iport.inflight.map InFlight.id).Nodup) : resume b r = { b with
      iport := { b.iport with inflight := before ++ resumed b r :: after }
      mport := { b.mport with waiting := b.mport.waiting ++ if r.freed && !heldByMove b r then [forwardOf r] else [] } } := by
  unfold resume resumed
  cases r.freed with
  | false => simp [← parts]
  | true =>
    cases heldByMove b r with
    | true => simp [setPhase_at parts apart]
    | false =>
      simp only [if_true, Bool.false_eq_true, if_false, forward, inflight?_at parts apart, setPhase_at parts apart]
      rfl

/-- What the answer of a mirror write makes of the requests in flight: each once, in order. -/
theorem foldl_resume_eq (after : List InFlight) : ∀ (before : List InFlight) (b : Bridge), b.iport.inflight = before ++ after →
    (b.iport.inflight.map InFlight.id).Nodup → after.foldl resume b = { b with
      iport := { b.iport with inflight := before ++ after.map (resumed b) }
      mport := { b.mport with waiting := b.mport.waiting ++
        (after.filter (fun r => r.freed && !heldByMove b r)).map forwardOf } } := by
  induction after with
  | nil =>
    intro before b parts apart
    simp only [List.foldl_nil, List.map_nil, List.filter_nil, List.append_nil, ← parts]
  | cons r after ih =>
    intro before b parts apart
    have same_handles : ((before ++ resumed b r :: after).map InFlight.id).Nodup := by
      rw [parts, List.map_append, List.map_cons] at apart
      rw [List.map_append, List.map_cons]
      exact apart
    rw [List.foldl_cons, resume_at parts apart, ih (before ++ [resumed b r]) _ (by simp) same_handles]
    simp only [List.append_assoc, List.singleton_append, List.map_cons, List.filter_cons]
    congr 2
    cases r.freed && !heldByMove b r with
    | true => rfl
    | false => rfl

/-! ## The answer of a mirror write -/

/-- The requests in flight once a mirror write was answered: none waits for it any more. -/
def withoutMirror (b : Bridge) (id : Nat) : Bridge :=
  { b with iport := { b.iport with
    inflight := b.iport.inflight.map (fun r => { r with mirrors := r.mirrors.filter (fun x => x != id) }) } }

theorem mirrorDone_eq (b : Bridge) (id : Nat) :
    b.mirrorDone id = (withoutMirror b id).iport.inflight.foldl resume (withoutMirror b id) :=
  freeMirrorWaiters_eq _

theorem withoutMirror_ids (b : Bridge) (id : Nat) :
    (withoutMirror b id).iport.inflight.map InFlight.id = b.iport.inflight.map InFlight.id := by
  simp [withoutMirror]

/-- The request waits for mirror writes, and for none but this one. -/
def freedBy (id : Nat) (r : InFlight) : Bool := decide (r.phase = .mirrorWait) && r.mirrors.all (fun k => k == id)

theorem freed_without (id : Nat) (r : InFlight) :
    InFlight.freed { r with mirrors := r.mirrors.filter (fun x => x != id) } = freedBy id r := by
  have none_left (l : List Nat) : (l.filter (fun x => x != id)).isEmpty = l.all (fun k => k == id) := by
    rw [Bool.eq_iff_iff]
    simp [List.filter_eq_nil_iff]
  simp only [InFlight.freed, freedBy, none_left]

/-- With handles all different, the requests that this write alone kept back go on, each once, in order. -/
theorem mirrorDone_of_apart {b : Bridge} (id : Nat) (apart : (b.iport.inflight.map InFlight.id).Nodup) :
    b.mirrorDone id = { b with
      iport := { b.iport with inflight := b.iport.inflight.map (fun r => { r with
        mirrors := r.mirrors.filter (fun x => x != id)
        phase := if freedBy id r then (if heldByMove b r then .moveWait (touchedBy b r) else .forwarded) else r.phase }) }
      mport := { b.mport with waiting := b.mport.waiting ++
        (b.iport.inflight.filter (fun r => freedBy id r && !heldByMove b r)).map forwardOf } } := by
  rw [mirrorDone_eq, foldl_resume_eq _ [] _ rfl (by rw [withoutMirror_ids]; exact apart)]
  simp only [withoutMirror, List.nil_append, List.map_map, List.filter_map, Function.comp_def, resumed, freed_without]
  rfl

/-- Settles O26: the requests that waited for this write alone go on, each once, in order. -/
theorem mirrorAnswerReleasesStatusReads : Obligations.MirrorAnswerReleasesStatusReads := by
  intro s id ok q due
  have row : exec (.statusMirrorWriteDone id ok) s = AfterAnswer s q ok true ((s.chip.received id).mirrorDone id) :=
    s.answered_due id ok true isMirror (fun _ _ b => b.mirrorDone id) q due
  refine ⟨(s.chip.received id).mirrorDone id, row, ?_⟩
  rw [mirrorDone_eq]
  obtain ⟨control, engine⟩ := foldl_resume_frame (withoutMirror (s.chip.received id) id).iport.inflight
    (withoutMirror (s.chip.received id) id)
  refine ⟨control, engine, fun r there => ?mirrors, fun none_waits => ?none, fun r alone waits mirrors plain => ?alone,
    fun handles => ?all⟩
  case mirrors =>
    obtain ⟨y, y_in, same⟩ := foldl_resume_mirrors _ there
    obtain ⟨z, -, rfl⟩ := List.mem_map.mp y_in
    rw [← same]
    simp
  case none =>
    rw [foldl_resume_of_none_freed]
    · rfl
    · intro r r_in
      obtain ⟨z, z_in, rfl⟩ := List.mem_map.mp r_in
      simp [InFlight.freed, none_waits z z_in]
  case alone =>
    have apart : ((s.chip.received id).iport.inflight.map InFlight.id).Nodup := by
      rw [show (s.chip.received id).iport.inflight = [r] from alone]
      simp
    have freed : freedBy id r = true := by simp [freedBy, waits, mirrors]
    have not_held : heldByMove (s.chip.received id) r = false := by simp [heldByMove, plain]
    rw [← mirrorDone_eq, mirrorDone_of_apart id apart, show (s.chip.received id).iport.inflight = [r] from alone]
    simp only [List.filter_cons, freed, not_held, Bool.not_false, Bool.and_self, if_true, List.filter_nil]
    rfl
  case all =>
    rw [← mirrorDone_eq]
    exact mirrorDone_of_apart (b := s.chip.received id) id handles.1

end Sys2Proof.Machine
end

