-- ==== Sys2Proof/Proofs/Resets.lean ====
section
/-! The resets: power-on reset empties every block (R190), warm reset abandons the work in progress and keeps the copies (R189,
R124). -/

namespace Sys2Proof.Machine

open Bridge

/-! ## Power-on reset (R190) -/

/-- A request keeps its phase at power-on reset when memory has it, or when it has its answer and is no TAP (R174). -/
def keptAtReset (b : Bridge) (r : InFlight) : Bool :=
  match r.phase with
  | .answered _ _ => decide (r.cls ≠ .tap)
  | .forwarded => b.mport.outstanding.any (fun q => q.id == r.id)
  | _ => false

theorem resetRequest_eq (b : Bridge) (r : InFlight) : resetRequest b.freeDraws b.mport.outstanding r =
    if keptAtReset b r then r else { r with phase := .answered false (resetData b.freeDraws r) } := by
  unfold resetRequest keptAtReset
  cases r.phase with
  | answered ok data => by_cases tap : r.cls = .tap <;> simp [tap]
  | forwarded => rfl
  | _ => rfl

theorem letGo_of_forwarded (q : MemRequest) : { q with abandoned := q.abandoned || !q.forwarded }
    = if q.forwarded then q else { q with abandoned := true } := by
  cases q.forwarded <;> simp

/-- Settles O16: every block is at its power-on state, and the straps are sampled once when the reset ends. -/
theorem powerOnResetEmptiesEveryBlock : Obligations.PowerOnResetEmptiesEveryBlock := by
  refine ⟨?reset, fun s straps => ⟨fun held => ?sampled, fun ended => ?again⟩⟩
  case reset =>
    intro s b error kept after
    have requests : b.iport.inflight.map (resetRequest b.freeDraws b.mport.outstanding) = after.iport.inflight :=
      List.map_congr_left fun r _ => resetRequest_eq b r
    have accesses : b.mport.outstanding.map (fun q => { q with abandoned := q.abandoned || !q.forwarded }) = after.mport.outstanding :=
      List.map_congr_left fun q _ => letGo_of_forwarded q
    show Host.Outcome.next { s with chip := b.powerOnReset } = _
    rw [powerOnReset, requests, accesses]
    rfl
  case sampled =>
    have ends : s.chip.endReset straps = some { s.chip with control := { s.chip.control with straps := straps, resetHeld := false } } :=
      if_pos held
    show s.event (fun b => b.endReset straps) = _
    simp only [State.event, ends]
  case again =>
    have not_held : ¬ s.chip.control.resetHeld = true := by rw [ended]; decide
    exact s.event_none (fun b => b.endReset straps) (if_neg not_held)

/-! ## TABLE requests going on (R120, R124) -/

/-- What an entry becomes while TABLE requests go on: more of them wait for it, or are held on it. -/
def Joined (e x : Entry) : Prop :=
  ∃ w h, (∀ op ∈ w, CacheOp.survivesWarm op = true) ∧ x = { e with waiting := e.waiting ++ w, held := e.held ++ h }

theorem Joined.refl (e : Entry) : Joined e e := ⟨[], [], by simp, by simp⟩

theorem Joined.trans {e x y : Entry} (first : Joined e x) (second : Joined x y) : Joined e y := by
  obtain ⟨w, h, tables, rfl⟩ := first
  obtain ⟨w', h', tables', rfl⟩ := second
  refine ⟨w ++ w', h ++ h', fun op op_in => ?_, by simp⟩
  rcases List.mem_append.mp op_in with op_in | op_in
  · exact tables op op_in
  · exact tables' op op_in

theorem Joined.index {e x : Entry} (joined : Joined e x) : x.index = e.index := by
  obtain ⟨w, h, -, rfl⟩ := joined
  rfl

/-- Every TAP request in flight has its answer. -/
def TapsAnswered (b : Bridge) : Prop := ∀ r ∈ b.iport.inflight, r.cls = .tap → r.isAnswered = true

/-- No TAP request in flight has the handle. -/
def NotTap (b : Bridge) (id : Nat) : Prop := ∀ r ∈ b.iport.inflight, r.cls = .tap → r.id ≠ id

/-- TABLE requests go on, and nothing else happens. -/
structure GoesOn (b b' : Bridge) : Prop where
  cache : ∃ f, b'.cache = b.cache.map f ∧ ∀ e, Joined e (f e)
  waiting : ∃ l, b'.mport.waiting = b.mport.waiting ++ l ∧ ∀ q ∈ l, q.forwarded = true
  outstanding : b'.mport.outstanding = b.mport.outstanding
  misses : b'.misses = b.misses
  engine : b'.engine = b.engine
  trigger : b'.trigger = b.trigger
  command : b'.command = b.command
  notices : b'.notices = b.notices
  control : b'.control = b.control
  sent : b'.iport.sent = b.iport.sent
  handles : b'.iport.inflight.map InFlight.id = b.iport.inflight.map InFlight.id

theorem GoesOn.refl (b : Bridge) : GoesOn b b :=
  ⟨⟨id, by simp, Joined.refl⟩, ⟨[], by simp, by simp⟩, rfl, rfl, rfl, rfl, rfl, rfl, rfl, rfl, rfl⟩

theorem GoesOn.trans {a b c : Bridge} (first : GoesOn a b) (second : GoesOn b c) : GoesOn a c where
  cache := by
    obtain ⟨f, cache, joined⟩ := first.cache
    obtain ⟨g, cache', joined'⟩ := second.cache
    exact ⟨g ∘ f, by rw [cache', cache, List.map_map], fun e => (joined e).trans (joined' (f e))⟩
  waiting := by
    obtain ⟨l, waiting, forwarded⟩ := first.waiting
    obtain ⟨k, waiting', forwarded'⟩ := second.waiting
    refine ⟨l ++ k, by rw [waiting', waiting, List.append_assoc], fun q q_in => ?_⟩
    rcases List.mem_append.mp q_in with q_in | q_in
    · exact forwarded q q_in
    · exact forwarded' q q_in
  outstanding := second.outstanding.trans first.outstanding
  misses := second.misses.trans first.misses
  engine := second.engine.trans first.engine
  trigger := second.trigger.trans first.trigger
  command := second.command.trans first.command
  notices := second.notices.trans first.notices
  control := second.control.trans first.control
  sent := second.sent.trans first.sent
  handles := second.handles.trans first.handles

/-- What goes on with the request of a handle that no TAP request has changes no TAP request. -/
structure KeepsTaps (b b' : Bridge) : Prop where
  same : ∀ r, r.cls = .tap → (r ∈ b'.iport.inflight ↔ r ∈ b.iport.inflight)

theorem KeepsTaps.refl (b : Bridge) : KeepsTaps b b := ⟨fun _ _ => Iff.rfl⟩

theorem KeepsTaps.trans {a b c : Bridge} (first : KeepsTaps a b) (second : KeepsTaps b c) : KeepsTaps a c :=
  ⟨fun r tap => (second.same r tap).trans (first.same r tap)⟩

theorem KeepsTaps.answered {b b' : Bridge} (keeps : KeepsTaps b b') (taps : TapsAnswered b) : TapsAnswered b' :=
  fun r r_in tap => taps r ((keeps.same r tap).mp r_in) tap

theorem KeepsTaps.notTap {b b' : Bridge} (keeps : KeepsTaps b b') {id : Nat} (free : NotTap b id) : NotTap b' id :=
  fun r r_in tap => free r ((keeps.same r tap).mp r_in) tap

theorem setPhase_goesOn (b : Bridge) (id : Nat) (p : RequestPhase) : GoesOn b (b.setPhase id p) :=
  { GoesOn.refl b with handles := setPhase_ids b id p }

theorem setPhase_keepsTaps {b : Bridge} {id : Nat} (free : NotTap b id) (p : RequestPhase) : KeepsTaps b (b.setPhase id p) where
  same r tap := by
    refine ⟨fun r_in => ?_, fun r_in => ?_⟩
    · obtain ⟨x, x_in, rfl⟩ := List.mem_map.mp r_in
      by_cases same : x.id = id
      · rw [if_pos same] at tap
        exact absurd same (free x x_in tap)
      · rw [if_neg same]
        exact x_in
    · exact List.mem_map.mpr ⟨r, r_in, if_neg (free r r_in tap)⟩

/-- A change of an entry that TABLE requests join. -/
theorem setEntry_goesOn (b : Bridge) (n : Nat) {f : Entry → Entry} (joined : ∀ e, Joined e (f e)) : GoesOn b (b.setEntry n f) :=
  { GoesOn.refl b with cache := ⟨fun e => if e.index = n then f e else e, rfl, fun e => by
      show Joined e (if e.index = n then f e else e)
      split
      · exact joined e
      · exact Joined.refl e⟩ }

theorem enqueue_goesOn {b : Bridge} {n : Nat} {op : CacheOp} (held : (b.entry? n).isSome = true) (table : op.survivesWarm = true) :
    GoesOn b (b.enqueue n op) := by
  obtain ⟨e, found⟩ := Option.isSome_iff_exists.mp held
  rw [enqueue_of_held found]
  exact setEntry_goesOn b n fun e => ⟨[op], [], by simpa using table, by simp⟩

theorem forward_goesOn (b : Bridge) (id : Nat) : GoesOn b (b.forward id) := by
  unfold forward
  split
  · refine { setPhase_goesOn b id .forwarded with waiting := ⟨_, rfl, ?_⟩ }
    simp [MemRequest.forwarded, Access.bridgeClass]
  · exact GoesOn.refl b

theorem passOn_goesOn (b : Bridge) (x : InFlight) : GoesOn b (b.passOn x) := by
  unfold passOn
  split
  · exact setPhase_goesOn ..
  · split
    · exact setPhase_goesOn ..
    · exact forward_goesOn ..

theorem snoopRead_goesOn (b : Bridge) (x : InFlight) (todo : List Nat) : GoesOn b (b.snoopRead x todo) := by
  induction todo with
  | nil => exact passOn_goesOn b x
  | cons n rest ih =>
    unfold snoopRead
    split
    · exact ih
    case h_2 e found =>
      split
      · exact ih
      · exact (enqueue_goesOn (by rw [found]; rfl) rfl).trans (setPhase_goesOn ..)

theorem snoopWrite_goesOn (b : Bridge) (x : InFlight) (todo : List Nat) : GoesOn b (b.snoopWrite x todo) := by
  unfold snoopWrite
  split
  case h_1 n pinned =>
    exact (setEntry_goesOn b n (f := fun e => { e with held := e.held ++ [x.id] }) fun e => ⟨[], [x.id], by simp, by simp⟩).trans
      (setPhase_goesOn ..)
  case h_2 =>
    split
    case h_1 => exact passOn_goesOn b x
    case h_2 n rest waits =>
      have held : (b.entry? n).isSome = true := by
        have first := List.head?_dropWhile_not (fun n => (b.entry? n).isNone) todo
        rw [waits] at first
        simpa using first
      exact (enqueue_goesOn held rfl).trans (setPhase_goesOn ..)

theorem snoop_goesOn (b : Bridge) (x : InFlight) (todo : List Nat) : GoesOn b (b.snoop x todo) := by
  unfold snoop
  split
  · exact snoopWrite_goesOn ..
  · exact snoopRead_goesOn ..

section Taps

variable {b : Bridge} {x : InFlight} (free : NotTap b x.id)
include free

theorem forward_keepsTaps : KeepsTaps b (b.forward x.id) := by
  unfold forward
  split
  · exact ⟨(setPhase_keepsTaps free _).same⟩
  · exact KeepsTaps.refl b

theorem passOn_keepsTaps : KeepsTaps b (b.passOn x) := by
  unfold passOn
  split
  · exact setPhase_keepsTaps free _
  · split
    · exact setPhase_keepsTaps free _
    · exact forward_keepsTaps free

theorem enqueue_keepsTaps (n : Nat) (op : CacheOp) (p : RequestPhase) : KeepsTaps b ((b.enqueue n op).setPhase x.id p) := by
  have same : KeepsTaps b (b.enqueue n op) := ⟨fun r _ => by simp⟩
  exact same.trans (setPhase_keepsTaps (same.notTap free) p)

theorem snoop_keepsTaps (todo : List Nat) : KeepsTaps b (b.snoop x todo) := by
  unfold snoop
  split
  · unfold snoopWrite
    split
    · exact ⟨(setPhase_keepsTaps free _).same⟩
    · split
      · exact passOn_keepsTaps free
      · exact enqueue_keepsTaps free ..
  · induction todo with
    | nil => exact passOn_keepsTaps free
    | cons n rest ih =>
      unfold snoopRead
      split
      · exact ih
      · split
        · exact ih
        · exact enqueue_keepsTaps free ..

end Taps

/-- With handles all different, a request without an answer shares its handle with no TAP request, when those have theirs. -/
theorem notTap_of_unanswered {b : Bridge} {x : InFlight} (taps : TapsAnswered b) (apart : (b.iport.inflight.map InFlight.id).Nodup)
    (there : x ∈ b.iport.inflight) (unanswered : x.isAnswered = false) : NotTap b x.id := fun r r_in tap same => by
  rw [eq_of_map_nodup apart r_in there same] at tap
  have answered := taps x there tap
  rw [unanswered] at answered
  cases answered

theorem allow_goesOn (b : Bridge) (n id : Nat) : GoesOn b (b.allow n id) := by
  unfold allow
  split
  · split
    · split
      · exact snoop_goesOn ..
      · exact GoesOn.refl b
    all_goals exact GoesOn.refl b
  · exact GoesOn.refl b

theorem allow_keepsTaps {b : Bridge} (taps : TapsAnswered b) (apart : (b.iport.inflight.map InFlight.id).Nodup) (n id : Nat) :
    KeepsTaps b (b.allow n id) := by
  unfold allow
  split
  case h_1 x found =>
    split
    case h_1 todo snooping =>
      split
      · have unanswered : x.isAnswered = false := by rw [InFlight.isAnswered, snooping]
        exact snoop_keepsTaps (notTap_of_unanswered taps apart (inflight?_mem b id x found).1 unanswered) _
      · exact KeepsTaps.refl b
    all_goals exact KeepsTaps.refl b
  · exact KeepsTaps.refl b

/-! ## The requests that wait for the loaded move (R120) -/

/-- One request in flight goes on when the loaded move is let go. -/
def freeMoveWaiter (b : Bridge) (r : InFlight) : Bridge :=
  match r.phase with
  | .moveWait todo => b.snoop r todo
  | .waiting | .snooping _ | .mirrorWait | .tapped | .forwarded | .answered _ _ => b

theorem freeMoveWaiters_eq (b : Bridge) : b.freeMoveWaiters = b.iport.inflight.foldl freeMoveWaiter b := rfl

theorem freeMoveWaiter_goesOn (b : Bridge) (r : InFlight) : GoesOn b (freeMoveWaiter b r) := by
  unfold freeMoveWaiter
  split
  · exact snoop_goesOn ..
  all_goals exact GoesOn.refl b

theorem foldl_goesOn {α : Type} {step : Bridge → α → Bridge} (one : ∀ b a, GoesOn b (step b a)) (l : List α) (b : Bridge) :
    GoesOn b (l.foldl step b) := by
  induction l generalizing b with
  | nil => exact GoesOn.refl b
  | cons a l ih => exact (one b a).trans (ih _)

theorem freeMoveWaiters_goesOn (b : Bridge) : GoesOn b b.freeMoveWaiters :=
  foldl_goesOn freeMoveWaiter_goesOn _ b

theorem freeMoveWaiters_keepsTaps {b : Bridge} (taps : TapsAnswered b) (apart : (b.iport.inflight.map InFlight.id).Nodup) :
    KeepsTaps b b.freeMoveWaiters := by
  have fold (l : List InFlight) : ∀ a, (∀ x ∈ l, x ∈ b.iport.inflight) → KeepsTaps b a → KeepsTaps b (l.foldl freeMoveWaiter a) := by
    induction l with
    | nil => exact fun a _ keeps => keeps
    | cons x l ih =>
      intro a there keeps
      refine ih _ (fun y y_in => there y (List.mem_cons_of_mem x y_in)) (keeps.trans ?_)
      unfold freeMoveWaiter
      split
      case h_1 todo waits =>
        have unanswered : x.isAnswered = false := by rw [InFlight.isAnswered, waits]
        exact snoop_keepsTaps (keeps.notTap (notTap_of_unanswered taps apart (there x (List.mem_cons_self ..)) unanswered)) _
      all_goals exact KeepsTaps.refl a
  exact fold _ b (fun _ x_in => x_in) (KeepsTaps.refl b)

/-! ## Entries at warm reset (R124) -/

@[simp] theorem atWarm_pin (e : Entry) : e.atWarm.pin = false := by
  show (if e.pin then e.unpinned else e).pin = false
  split
  · rfl
  case isFalse unpinned => exact Bool.eq_false_iff.mpr unpinned

@[simp] theorem atWarm_reservation (e : Entry) : e.atWarm.reservation = false := rfl

theorem atWarm_copy (e : Entry) :
    e.atWarm.copy = if e.pin = true ∧ e.copy.state = stClosing then { e.copy with state := stClosed } else e.copy := by
  show (if e.pin then e.unpinned else e).copy = _
  by_cases pin : e.pin = true
  · rw [if_pos pin]
    exact ite_of_iff (and_iff_right pin).symm
  · rw [if_neg pin, if_neg fun h => pin h.1]

theorem atWarm_busy (e : Entry) : e.atWarm.busy = e.busy.map (fun w => { w with work := .abandoned }) := by
  show (if e.pin then e.unpinned else e).busy.map _ = _
  split <;> rfl

/-- The state of an entry at warm reset: what was being written back or fetched goes on, and a CLOSING copy that becomes CLOSED
makes a CLEAN entry DIRTY. -/
theorem atWarm_state_eq (e : Entry) :
    e.atWarm.state = (if e.atWarm.copy ≠ e.copy ∧ e.state = .clean then .dirty else e.state).atWarm := by
  show (if e.pin then e.unpinned else e).state.atWarm = _
  by_cases pin : e.pin = true
  · have copy : e.atWarm.copy = e.unpinned.copy := by show (if e.pin then e.unpinned else e).copy = _; rw [if_pos pin]
    rw [if_pos pin, copy]
    refine congrArg EntryState.atWarm ?_
    show (if e.unpinned.copy = e.copy then e.state else if e.state = .clean then .dirty else e.state) = _
    by_cases same : e.unpinned.copy = e.copy <;> simp [same]
  · have same : e.atWarm.copy = e.copy := by show (if e.pin then e.unpinned else e).copy = _; rw [if_neg pin]
    simp [pin, same]

theorem atWarm_unissued (e : Entry) : e.atWarm.state = .fetching false ↔ e.state = .fetching false := by
  rw [atWarm_state_eq]
  split
  case isTrue clean => simp [clean.2, EntryState.atWarm]
  case isFalse =>
    unfold EntryState.atWarm
    split <;> simp_all

theorem atWarm_waiting (e : Entry) : e.atWarm.waiting
    = ((if e.pin then e.held.map CacheOp.tableWrite else []) ++ e.waiting.filter CacheOp.survivesWarm) := by
  show (if e.pin then e.unpinned else e).waiting.filter CacheOp.survivesWarm = _
  split
  · have tables : (e.held.map CacheOp.tableWrite).filter CacheOp.survivesWarm = e.held.map CacheOp.tableWrite :=
      List.filter_eq_self.mpr fun op op_in => by
        obtain ⟨id, -, rfl⟩ := List.mem_map.mp op_in
        rfl
    have no_release : (if e.heldRelease then [CacheOp.release] else []).filter CacheOp.survivesWarm = [] := by split <;> rfl
    simp only [Entry.unpinned, List.filter_append, tables, no_release, List.append_nil]
  · rfl

/-- Only TABLE accesses wait. -/
def OnlyTables (b : Bridge) : Prop := ∀ e ∈ b.cache, ∀ op ∈ e.waiting, CacheOp.survivesWarm op = true

theorem Joined.onlyTables {e x : Entry} (joined : Joined e x) (tables : ∀ op ∈ e.waiting, CacheOp.survivesWarm op = true) :
    ∀ op ∈ x.waiting, CacheOp.survivesWarm op = true := by
  obtain ⟨w, h, more, rfl⟩ := joined
  intro op op_in
  rcases List.mem_append.mp op_in with op_in | op_in
  · exact tables op op_in
  · exact more op op_in

theorem GoesOn.onlyTables {b b' : Bridge} (goes : GoesOn b b') (tables : OnlyTables b) : OnlyTables b' := by
  obtain ⟨f, cache, joined⟩ := goes.cache
  intro x x_in
  rw [cache] at x_in
  obtain ⟨e, e_in, rfl⟩ := List.mem_map.mp x_in
  exact (joined e).onlyTables (tables e e_in)

/-- A TABLE access whose entry was dropped goes on. -/
theorem orphan_table {op : CacheOp} (table : op.survivesWarm = true) (n : Nat) (b : Bridge) :
    ∃ id, orphan n b op = b.allow n id := by
  cases op with
  | tableRead id | tableWrite id => exact ⟨id, rfl⟩
  | _ => cases table

theorem orphans_goOn {n : Nat} {ops : List CacheOp} (tables : ∀ op ∈ ops, CacheOp.survivesWarm op = true) (b : Bridge) :
    GoesOn b (ops.foldl (orphan n) b) := by
  induction ops generalizing b with
  | nil => exact GoesOn.refl b
  | cons op ops ih =>
    obtain ⟨id, allowed⟩ := orphan_table (tables op (List.mem_cons_self ..)) n b
    rw [List.foldl_cons, allowed]
    exact (allow_goesOn b n id).trans (ih (fun op op_in => tables op (List.mem_cons_of_mem _ op_in)) _)

theorem orphans_keepTaps {n : Nat} {ops : List CacheOp} (tables : ∀ op ∈ ops, CacheOp.survivesWarm op = true) {b : Bridge}
    (taps : TapsAnswered b) (apart : (b.iport.inflight.map InFlight.id).Nodup) : KeepsTaps b (ops.foldl (orphan n) b) := by
  induction ops generalizing b with
  | nil => exact KeepsTaps.refl b
  | cons op ops ih =>
    obtain ⟨id, allowed⟩ := orphan_table (tables op (List.mem_cons_self ..)) n b
    rw [List.foldl_cons, allowed]
    have keeps := allow_keepsTaps taps apart n id
    exact keeps.trans (ih (fun op op_in => tables op (List.mem_cons_of_mem _ op_in)) (keeps.answered taps)
      (by rw [(allow_goesOn b n id).handles]; exact apart))

/-- A bridge without the entries of some indices. -/
def withoutEntries (b : Bridge) (l : List Nat) : Bridge :=
  { b with cache := b.cache.filter (fun e => !l.contains e.index) }

theorem OnlyTables.without {b : Bridge} (tables : OnlyTables b) (l : List Nat) : OnlyTables (withoutEntries b l) :=
  fun e e_in => tables e (List.mem_filter.mp e_in).1

/-- The entry of an index is dropped, and the TABLE accesses that waited for it go on. -/
theorem dropIndex_goesOn {b : Bridge} (tables : OnlyTables b) (n : Nat) : GoesOn (withoutEntries b [n]) (b.dropIndex n) := by
  unfold dropIndex
  split
  case h_1 e found =>
    obtain ⟨e_in, index⟩ := entry?_mem b n e found
    have same : b.cache.filter (fun x => !([n] : List Nat).contains x.index) = b.cache.filter (fun x => x.index != e.index) :=
      List.filter_congr fun x _ => by
        rw [index, Bool.eq_iff_iff]
        simp
    rw [withoutEntries, same]
    exact orphans_goOn (tables e e_in) _
  case h_2 absent =>
    have same : withoutEntries b [n] = b := by
      have all : b.cache.filter (fun e => !([n] : List Nat).contains e.index) = b.cache :=
        List.filter_eq_self.mpr fun e e_in => by simpa using List.find?_eq_none.mp absent e e_in
      rw [withoutEntries, all]
    rw [same]
    exact GoesOn.refl b

theorem dropIndex_keepsTaps {b : Bridge} (tables : OnlyTables b) (taps : TapsAnswered b)
    (apart : (b.iport.inflight.map InFlight.id).Nodup) (n : Nat) : KeepsTaps b (b.dropIndex n) := by
  unfold dropIndex
  split
  case h_1 e found =>
    exact ⟨(orphans_keepTaps (b := { b with cache := b.cache.filter (fun x => x.index != e.index) })
      (tables e (entry?_mem b n e found).1) taps apart).same⟩
  case h_2 => exact KeepsTaps.refl b

/-- What goes on without some entries goes on without others too. -/
theorem GoesOn.without {b b' : Bridge} (goes : GoesOn b b') (l : List Nat) : GoesOn (withoutEntries b l) (withoutEntries b' l) :=
  { goes with
    cache := by
      obtain ⟨f, cache, joined⟩ := goes.cache
      refine ⟨f, ?_, joined⟩
      have same (e : Entry) : (!l.contains (f e).index) = !l.contains e.index := by rw [(joined e).index]
      simp only [withoutEntries, cache, List.filter_map, Function.comp_def, same] }

theorem withoutEntries_cons (b : Bridge) (n : Nat) (l : List Nat) :
    withoutEntries (withoutEntries b [n]) l = withoutEntries b (n :: l) := by
  simp [withoutEntries, List.filter_filter, Bool.and_comm]

theorem dropIndices_goesOn (l : List Nat) {b : Bridge} (tables : OnlyTables b) :
    GoesOn (withoutEntries b l) (l.foldl dropIndex b) := by
  induction l generalizing b with
  | nil =>
    have same : withoutEntries b [] = b :=
      congrArg (fun l => ({ b with cache := l } : Bridge)) (List.filter_eq_self.mpr fun _ _ => rfl)
    rw [same]
    exact GoesOn.refl b
  | cons n l ih =>
    have first := dropIndex_goesOn tables n
    have rest := first.without l
    rw [withoutEntries_cons] at rest
    exact rest.trans (ih (first.onlyTables (tables.without [n])))

theorem dropIndices_keepTaps (l : List Nat) {b : Bridge} (tables : OnlyTables b) (taps : TapsAnswered b)
    (apart : (b.iport.inflight.map InFlight.id).Nodup) : KeepsTaps b (l.foldl dropIndex b) := by
  induction l generalizing b with
  | nil => exact KeepsTaps.refl b
  | cons n l ih =>
    have first := dropIndex_goesOn tables n
    have keeps := dropIndex_keepsTaps tables taps apart n
    exact keeps.trans (ih (first.onlyTables (tables.without [n])) (keeps.answered taps) (by rw [first.handles]; exact apart))

/-! ## The cache at warm reset (R124) -/

/-- Every entry at warm reset, and no miss. -/
def warmed (b : Bridge) : Bridge := { b with cache := b.cache.map Entry.atWarm, misses := [] }

/-- The indices whose fetch was not issued. -/
def unissued (b : Bridge) : List Nat := ((warmed b).cache.filter (fun e => e.state == .fetching false)).map Entry.index

theorem warmCache_eq (b : Bridge) : b.warmCache = (unissued b).foldl dropIndex (warmed b) := rfl

theorem onlyTables_warmed (b : Bridge) : OnlyTables (warmed b) := by
  intro x x_in op op_in
  obtain ⟨e, -, rfl⟩ := List.mem_map.mp x_in
  exact (List.mem_filter.mp op_in).2

theorem warmCache_goesOn (b : Bridge) : GoesOn (withoutEntries (warmed b) (unissued b)) b.warmCache :=
  dropIndices_goesOn _ (onlyTables_warmed b)

theorem warmCache_keepsTaps {b : Bridge} (taps : TapsAnswered b) (apart : (b.iport.inflight.map InFlight.id).Nodup) :
    KeepsTaps b b.warmCache :=
  ⟨(dropIndices_keepTaps (unissued b) (b := warmed b) (onlyTables_warmed b) taps apart).same⟩

theorem mem_unissued {b : Bridge} {e : Entry} (e_in : e ∈ b.cache) (fetching : e.state = .fetching false) : e.index ∈ unissued b := by
  refine List.mem_map.mpr ⟨e.atWarm, List.mem_filter.mpr ⟨List.mem_map_of_mem e_in, ?_⟩, atWarm_index e⟩
  rw [beq_iff_eq]
  exact (atWarm_unissued e).mpr fetching

theorem not_mem_unissued {b : Bridge} (distinct : (b.cache.map Entry.index).Nodup) {e : Entry} (e_in : e ∈ b.cache)
    (issued : e.state ≠ .fetching false) : e.index ∉ unissued b := fun listed => by
  obtain ⟨y, y_in, index⟩ := List.mem_map.mp listed
  obtain ⟨y_in, fetching⟩ := List.mem_filter.mp y_in
  obtain ⟨x, x_in, rfl⟩ := List.mem_map.mp y_in
  rw [atWarm_index] at index
  rw [eq_of_index_nodup distinct x_in e_in index, beq_iff_eq, atWarm_unissued] at fetching
  exact issued fetching

/-- What an entry becomes by warm reset: as at warm reset, and joined by TABLE requests that go on. -/
theorem mem_warmCache {b : Bridge} {x : Entry} (x_in : x ∈ b.warmCache.cache) :
    ∃ e ∈ b.cache, Joined e.atWarm x ∧ e.state ≠ .fetching false := by
  obtain ⟨f, cache, joined⟩ := (warmCache_goesOn b).cache
  rw [cache] at x_in
  obtain ⟨y, y_in, rfl⟩ := List.mem_map.mp x_in
  obtain ⟨y_in, kept⟩ := List.mem_filter.mp y_in
  obtain ⟨e, e_in, rfl⟩ := List.mem_map.mp y_in
  refine ⟨e, e_in, joined _, fun fetching => ?_⟩
  simp [atWarm_index, mem_unissued e_in fetching] at kept

theorem warmCache_mem {b : Bridge} (distinct : (b.cache.map Entry.index).Nodup) {e : Entry} (e_in : e ∈ b.cache)
    (issued : e.state ≠ .fetching false) : ∃ x ∈ b.warmCache.cache, Joined e.atWarm x := by
  obtain ⟨f, cache, joined⟩ := (warmCache_goesOn b).cache
  refine ⟨f e.atWarm, ?_, joined _⟩
  rw [cache]
  refine List.mem_map_of_mem (List.mem_filter.mpr ⟨List.mem_map_of_mem e_in, ?_⟩)
  simp [atWarm_index, not_mem_unissued distinct e_in issued]

/-! ## The steps of warm reset (R189) -/

/-- The bridge in WARM, with nothing under way in bridge control. -/
def warmStart (b : Bridge) : Bridge :=
  setState { b with control := { b.control with
    idleTimer := none, audit := none, findings := [], emptying := false, stopStage := .none } } .warm

/-- Warm reset but for the record cache. -/
def warmBlocks (b : Bridge) : Bridge :=
  (warmStart b).abandonTaps.abandonMove.abandonPending.discardNotices.abandonCommand

theorem warmReset_eq {b : Bridge} (running : b.control.state ≠ .pass) (cold : b.control.state ≠ .warm) :
    b.warmReset = some (warmBlocks b).warmCache :=
  if_neg fun h => h.elim running cold

@[simp] theorem warmStart_fields (b : Bridge) : (warmStart b).iport = b.iport ∧ (warmStart b).cache = b.cache
    ∧ (warmStart b).trigger = b.trigger ∧ (warmStart b).notices = b.notices
    ∧ (warmStart b).mport.outstanding = b.mport.outstanding ∧ (warmStart b).control = { b.control with
      state := .warm, idleTimer := none, audit := none, findings := [], emptying := false, stopStage := .none } := by
  simp [warmStart]

theorem abandonMove_goesOn (b : Bridge) : GoesOn { b with
    engine := Engine.unloaded .idle false
    mport := { b.mport with
      waiting := b.mport.waiting.filter (fun q => !engineAccess q.access)
      outstanding := b.mport.outstanding.map (fun q => { q with abandoned := q.abandoned || engineAccess q.access }) } }
    b.abandonMove :=
  freeMoveWaiters_goesOn _

theorem abandonMove_keepsTaps {b : Bridge} (taps : TapsAnswered b) (apart : (b.iport.inflight.map InFlight.id).Nodup) :
    KeepsTaps b b.abandonMove :=
  ⟨(freeMoveWaiters_keepsTaps (b := { b with
    engine := Engine.unloaded .idle false
    mport := { b.mport with
      waiting := b.mport.waiting.filter (fun q => !engineAccess q.access)
      outstanding := b.mport.outstanding.map (fun q => { q with abandoned := q.abandoned || engineAccess q.access }) } })
    taps apart).same⟩

/-- What dropping notices, oldest first, leaves (R170). -/
structure Drops (k : Nat) (b b' : Bridge) : Prop where
  iport : b'.iport = b.iport
  cache : b'.cache = b.cache
  misses : b'.misses = b.misses
  engine : b'.engine = b.engine
  trigger : b'.trigger = b.trigger
  notices : b'.notices = b.notices
  outstanding : b'.mport.outstanding = b.mport.outstanding
  waiting : ∀ q ∈ b'.mport.waiting, q ∈ b.mport.waiting ∨ q.access = .mirror
  control : ∃ d f, b'.control = { b.control with dropped := d, firstDropped := f }
    ∧ (b.control.dropped + k ≤ 65535 → d = b.control.dropped + k)

theorem Drops.refl (b : Bridge) : Drops 0 b b :=
  ⟨rfl, rfl, rfl, rfl, rfl, rfl, rfl, fun _ => Or.inl, ⟨_, _, rfl, fun _ => rfl⟩⟩

theorem Drops.trans {j k : Nat} {a b c : Bridge} (first : Drops j a b) (second : Drops k b c) : Drops (j + k) a c where
  iport := second.iport.trans first.iport
  cache := second.cache.trans first.cache
  misses := second.misses.trans first.misses
  engine := second.engine.trans first.engine
  trigger := second.trigger.trans first.trigger
  notices := second.notices.trans first.notices
  outstanding := second.outstanding.trans first.outstanding
  waiting q q_in := (second.waiting q q_in).elim (first.waiting q) Or.inr
  control := by
    obtain ⟨d, f, control, counted⟩ := first.control
    obtain ⟨d', f', control', counted'⟩ := second.control
    refine ⟨d', f', by rw [control', control], fun room => ?_⟩
    have so_far : b.control.dropped = a.control.dropped + j := by
      rw [control]
      exact counted (by omega)
    rw [counted' (by omega), so_far, Nat.add_assoc]

theorem mem_mirror_waiting {b : Bridge} {q : MemRequest} (q_in : q ∈ b.mirror.mport.waiting) :
    q ∈ b.mport.waiting ∨ q.access = .mirror := by
  unfold mirror at q_in
  split at q_in
  · exact Or.inl q_in
  · rcases List.mem_append.mp q_in with q_in | q_in
    · exact Or.inl q_in
    · rw [List.mem_singleton.mp q_in]
      exact Or.inr rfl

theorem dropNotice_drops (b : Bridge) (k : NoticeKind) : Drops 1 b (b.dropNotice k) := by
  have control := dropNotice_control b k
  have waiting : ∀ q ∈ (b.dropNotice k).mport.waiting, q ∈ b.mport.waiting ∨ q.access = .mirror := by
    unfold dropNotice
    split
    · exact fun q => Or.inl
    · exact fun q => mem_mirror_waiting
  split at control
  case isTrue full =>
    exact ⟨by simp, by simp, by simp, by simp, by simp, by simp, by simp, waiting, ⟨_, _, control, fun room => by omega⟩⟩
  case isFalse =>
    exact ⟨by simp, by simp, by simp, by simp, by simp, by simp, by simp, waiting, ⟨_, _, control, fun _ => rfl⟩⟩

theorem foldl_drops (l : List Notice) (b : Bridge) : Drops l.length b (l.foldl (fun b x => b.dropNotice x.kind) b) := by
  induction l generalizing b with
  | nil => exact Drops.refl b
  | cons x l ih =>
    rw [List.length_cons, Nat.add_comm]
    exact (dropNotice_drops b x.kind).trans (ih _)

theorem discardNotices_drops (b : Bridge) :
    Drops b.notices.queue.length { b with notices := ⟨[], false⟩ } b.discardNotices :=
  foldl_drops b.notices.queue _

/-! ## The taps at warm reset (R34, R189) -/

/-- A request at warm reset: a TAP without an answer is answered ERROR. -/
def tapAtWarm (r : InFlight) : InFlight :=
  if r.cls = .tap ∧ r.isAnswered = false then
    { r with phase := .answered false (if r.request.write then [] else List.replicate r.request.size.bytes 0) }
  else r

theorem abandonTaps_eq (b : Bridge) :
    b.abandonTaps = drain { b with iport := { b.iport with inflight := b.iport.inflight.map tapAtWarm } } := by
  unfold abandonTaps
  refine congrArg (fun l => drain { b with iport := { b.iport with inflight := l } }) (List.map_congr_left fun r _ => ?_)
  unfold tapAtWarm InFlight.isAnswered
  by_cases tap : r.cls = .tap
  · cases phase : r.phase <;> simp [tap]
  · simp [tap]

theorem tapAtWarm_answered {r : InFlight} (tap : (tapAtWarm r).cls = .tap) : (tapAtWarm r).isAnswered = true := by
  unfold tapAtWarm at tap ⊢
  split
  · rfl
  case isFalse answered =>
    rw [if_neg answered] at tap
    exact Bool.of_not_eq_false fun unanswered => answered ⟨tap, unanswered⟩

/-- An answered request that is drained stays, or its response leaves. -/
theorem drainList_cases {r : InFlight} {ok : Bool} {data : List Byte} (answered : r.phase = .answered ok data) {l : List InFlight}
    (r_in : r ∈ l) (blocked : List Initiator) :
    r ∈ (drainList blocked l).1 ∨ ⟨r.id, r.request.initiator, ok, data⟩ ∈ (drainList blocked l).2 := by
  induction l generalizing blocked with
  | nil => cases r_in
  | cons x l ih =>
    unfold drainList
    rcases List.mem_cons.mp r_in with rfl | r_in
    · rw [answered]
      dsimp only
      split
      · exact Or.inl (List.mem_cons_self ..)
      · exact Or.inr (List.mem_cons_self ..)
    · split
      · split
        · exact (ih r_in blocked).imp_left (List.mem_cons_of_mem x)
        · exact (ih r_in blocked).imp_right (List.mem_cons_of_mem _)
      all_goals exact (ih r_in _).imp_left (List.mem_cons_of_mem x)

theorem tapsAnswered_abandonTaps (b : Bridge) : TapsAnswered b.abandonTaps := by
  rw [abandonTaps_eq]
  intro r r_in tap
  obtain ⟨x, -, rfl⟩ := List.mem_map.mp ((drainList_sublist [] _).subset r_in)
  exact tapAtWarm_answered tap

theorem abandonTaps_apart {b : Bridge} (apart : (b.iport.inflight.map InFlight.id).Nodup) :
    (b.abandonTaps.iport.inflight.map InFlight.id).Nodup := by
  have same : (b.iport.inflight.map tapAtWarm).map InFlight.id = b.iport.inflight.map InFlight.id := by
    rw [List.map_map]
    refine List.map_congr_left fun r _ => ?_
    show (tapAtWarm r).id = r.id
    unfold tapAtWarm
    split <;> rfl
  rw [abandonTaps_eq]
  exact ((same ▸ apart : ((b.iport.inflight.map tapAtWarm).map InFlight.id).Nodup)).sublist
    ((drainList_sublist [] (b.iport.inflight.map tapAtWarm)).map InFlight.id)

/-! ## The blocks at warm reset -/

theorem engineAccess_iff (a : Access) :
    engineAccess a = true ↔ a = .moveRead ∨ a = .storeBack ∨ a = .spanRead ∨ a = .spanWrite := by
  simp [engineAccess, or_assoc]

theorem engineAccess_of_forwarded {q : MemRequest} (forwards : q.forwarded = true) : engineAccess q.access = false := by
  obtain ⟨id, access⟩ := (forwarded_iff q).mp forwards
  rw [access]
  rfl

/-- What warm reset has made of the blocks when it comes to the record cache (R189). -/
structure WarmBlocks (b b' : Bridge) : Prop where
  cache : ∃ f, b'.cache = b.cache.map f ∧ ∀ e, Joined e (f e)
  engine : b'.engine = Engine.unloaded .idle false
  trigger : b'.trigger = TriggerUnit.nothing
  command : b'.command = CommandUnit.nothing
  notices : b'.notices = ⟨[], false⟩
  waiting : ∀ q ∈ b'.mport.waiting, engineAccess q.access = false
  outstanding : b'.mport.outstanding
    = b.mport.outstanding.map (fun q => { q with abandoned := q.abandoned || engineAccess q.access })
  state : b'.control.state = .warm
  timer : b'.control.idleTimer = none
  reason : b'.control.startReason = b.control.startReason
  cleared : b'.control.clearedPending = b.trigger.pending.length
  dropped : b.control.dropped + b.notices.queue.length ≤ 65535 →
    b'.control.dropped = b.control.dropped + b.notices.queue.length
  sent : b'.iport.sent = b.abandonTaps.iport.sent

theorem abandonTaps_warmStart (b : Bridge) : (warmStart b).abandonTaps.iport = b.abandonTaps.iport := by
  rw [abandonTaps_eq, abandonTaps_eq, drain, drain]
  simp

theorem warmBlocks_spec (b : Bridge) : WarmBlocks b (warmBlocks b) := by
  have moved := abandonMove_goesOn (warmStart b).abandonTaps
  have drops := discardNotices_drops (warmStart b).abandonTaps.abandonMove.abandonPending
  generalize a_eq : (warmStart b).abandonTaps.abandonMove = a at moved drops
  have blocks : warmBlocks b = a.abandonPending.discardNotices.abandonCommand := by rw [← a_eq]; rfl
  obtain ⟨d, first, control, counted⟩ := drops.control
  obtain ⟨l, waiting, forwarded⟩ := moved.waiting
  have control_before : a.control = (warmStart b).control := by simpa using moved.control
  have queue : a.notices = b.notices := by simpa using moved.notices
  have pending : a.trigger = b.trigger := by simpa using moved.trigger
  have at_warm : a.abandonPending.discardNotices.control
      = { (warmStart b).control with clearedPending := b.trigger.pending.length, dropped := d, firstDropped := first } := by
    rw [control, ← control_before, ← pending]
    rfl
  rw [blocks]
  refine ⟨?cache, ?engine, ?trigger, rfl, ?notices, ?waiting, ?outstanding, ?state, ?timer, ?reason, ?cleared, ?dropped, ?sent⟩
  case cache =>
    obtain ⟨f, cache, joined⟩ := moved.cache
    exact ⟨f, by simpa [drops.cache] using cache, joined⟩
  case engine => simpa [drops.engine] using moved.engine
  case trigger => simp [drops.trigger]
  case notices => simp [drops.notices]
  case waiting =>
    intro q q_in
    rcases drops.waiting q q_in with q_in | mirror
    · have split_in : q ∈ a.mport.waiting := q_in
      rw [waiting] at split_in
      rcases List.mem_append.mp split_in with q_in | q_in
      · simpa using (List.mem_filter.mp q_in).2
      · exact engineAccess_of_forwarded (forwarded q q_in)
    · rw [mirror]
      rfl
  case outstanding =>
    rw [show a.abandonPending.discardNotices.abandonCommand.mport.outstanding = a.mport.outstanding from drops.outstanding]
    simpa using moved.outstanding
  case state => exact (congrArg Control.state at_warm).trans (by simp)
  case timer => exact (congrArg Control.idleTimer at_warm).trans (by simp)
  case reason => exact (congrArg Control.startReason at_warm).trans (by simp)
  case cleared => exact congrArg Control.clearedPending at_warm
  case dropped =>
    intro room
    have total : b.control.dropped + b.notices.queue.length ≤ 65535 → d = b.control.dropped + b.notices.queue.length := by
      have counts : a.control.dropped + a.notices.queue.length ≤ 65535 → d = a.control.dropped + a.notices.queue.length := counted
      rw [control_before, queue] at counts
      simpa using counts
    exact (congrArg Control.dropped at_warm).trans (total room)
  case sent =>
    have sent : a.iport.sent = (warmStart b).abandonTaps.iport.sent := moved.sent
    rw [abandonTaps_warmStart] at sent
    simpa [drops.iport] using sent

/-- Warm reset leaves the TAP requests as its first step has answered them. -/
theorem warmBlocks_keepsTaps {b : Bridge} (apart : (b.iport.inflight.map InFlight.id).Nodup) :
    KeepsTaps b.abandonTaps (warmBlocks b) ∧ ((warmBlocks b).iport.inflight.map InFlight.id).Nodup := by
  have same := abandonTaps_warmStart b
  have taps : TapsAnswered (warmStart b).abandonTaps := tapsAnswered_abandonTaps _
  have distinct : ((warmStart b).abandonTaps.iport.inflight.map InFlight.id).Nodup := abandonTaps_apart (by simpa using apart)
  have keeps := abandonMove_keepsTaps taps distinct
  have rest : (warmBlocks b).iport = (warmStart b).abandonTaps.abandonMove.iport :=
    (discardNotices_drops (warmStart b).abandonTaps.abandonMove.abandonPending).iport
  refine ⟨⟨fun r tap => ?_⟩, ?_⟩
  · rw [rest, keeps.same r tap, same]
  · rw [rest, (abandonMove_goesOn (warmStart b).abandonTaps).handles]
    exact distinct

/-- A TAP request without an answer stays answered ERROR, or that response is sent (R34). -/
theorem abandonTaps_answers {b : Bridge} {r : InFlight} (r_in : r ∈ b.iport.inflight) (tap : r.cls = .tap)
    (unanswered : r.isAnswered = false) :
    let zeros : List Byte := if r.request.write = true then [] else List.replicate r.request.size.bytes 0
    { r with phase := .answered false zeros } ∈ b.abandonTaps.iport.inflight
      ∨ ⟨r.id, r.request.initiator, false, zeros⟩ ∈ b.abandonTaps.iport.sent := by
  intro zeros
  have there : { r with phase := .answered false zeros } ∈ b.iport.inflight.map tapAtWarm :=
    List.mem_map.mpr ⟨r, r_in, if_pos ⟨tap, unanswered⟩⟩
  rw [abandonTaps_eq]
  exact (drainList_cases rfl there []).imp_right (List.mem_append_right _)

/-- What warm reset leaves of an entry whose fetch was not waiting to be issued (R124). -/
theorem joined_atWarm_spec {e y x : Entry} (before : Joined e y) (after : Joined y.atWarm x) :
    x.index = e.index
    ∧ x.copy = (if e.pin = true ∧ e.copy.state = stClosing then { e.copy with state := stClosed } else e.copy)
    ∧ x.state = (if x.copy ≠ e.copy ∧ e.state = .clean then .dirty else e.state).atWarm
    ∧ x.busy = e.busy.map (fun w => { w with work := .abandoned }) ∧ x.flushMark = false
    ∧ (∀ op ∈ x.waiting, CacheOp.survivesWarm op = true)
    ∧ ((if e.pin = true then e.held.map CacheOp.tableWrite else []) ++ e.waiting.filter CacheOp.survivesWarm).Sublist x.waiting := by
  have only : ∀ op ∈ x.waiting, CacheOp.survivesWarm op = true :=
    after.onlyTables fun op op_in => (List.mem_filter.mp op_in).2
  have index := after.index.trans ((atWarm_index y).trans before.index)
  obtain ⟨w, h, -, rfl⟩ := before
  obtain ⟨w', h', -, rfl⟩ := after
  refine ⟨index, atWarm_copy _, atWarm_state_eq _, atWarm_busy _, rfl, only, ?_⟩
  show List.Sublist _ (Entry.waiting (Entry.atWarm _) ++ w')
  rw [atWarm_waiting]
  refine List.Sublist.trans ?_ (List.sublist_append_left _ w')
  rw [List.filter_append]
  refine List.Sublist.append ?_ (List.sublist_append_left _ _)
  show List.Sublist _ (if e.pin = true then (e.held ++ h).map CacheOp.tableWrite else [])
  split
  · rw [List.map_append]
    exact List.sublist_append_left _ _
  · exact List.Sublist.refl _

/-- Settles O17: warm reset is its six steps, each of which does its part and leaves the others' alone. -/
theorem warmResetAbandonsWork : Obligations.WarmResetAbandonsWork := by
  intro s
  refine ⟨fun still => ?_, fun running cold => ?_⟩
  · refine s.event_none (fun b => b.warmReset.map Bridge.settle) ?_
    show (s.chip.warmReset).map Bridge.settle = none
    rw [warmReset, if_pos still]
    rfl
  have blocks := warmBlocks_spec s.chip
  have cached := warmCache_goesOn (warmBlocks s.chip)
  obtain ⟨f, cache, joined⟩ := blocks.cache
  have sent : (warmBlocks s.chip).warmCache.iport.sent = s.chip.abandonTaps.iport.sent := cached.sent.trans blocks.sent
  have keepsTaps (apart : (s.chip.iport.inflight.map InFlight.id).Nodup) :
      KeepsTaps s.chip.abandonTaps (warmBlocks s.chip).warmCache := by
    obtain ⟨keeps, distinct⟩ := warmBlocks_keepsTaps apart
    exact keeps.trans (warmCache_keepsTaps (keeps.answered (tapsAnswered_abandonTaps s.chip)) distinct)
  refine ⟨(warmBlocks s.chip).warmCache, s.event_settle Bridge.warmReset _ (warmReset_eq running cold),
    (congrArg Control.state cached.control).trans blocks.state, (congrArg Control.idleTimer cached.control).trans blocks.timer,
    (congrArg Control.startReason cached.control).trans blocks.reason, cached.engine.trans blocks.engine,
    cached.trigger.trans blocks.trigger, (congrArg Control.clearedPending cached.control).trans blocks.cleared,
    cached.notices.trans blocks.notices, cached.command.trans blocks.command, cached.misses,
    fun room => (congrArg Control.dropped cached.control).trans (blocks.dropped room), fun x x_in => ?pins,
    fun apart r r_in tap => ?taps, fun apart r r_in tap unanswered => ?answers, ?accesses,
    fun ok => ⟨fun e e_in issued => ?kept, fun x x_in => ?only⟩⟩
  case pins =>
    obtain ⟨e, -, ⟨w, h, -, rfl⟩, -⟩ := mem_warmCache x_in
    exact ⟨atWarm_pin e, rfl⟩
  case taps =>
    exact (isAnswered_iff r).mp ((keepsTaps apart).answered (tapsAnswered_abandonTaps s.chip) r r_in tap)
  case answers =>
    have not_answered : r.isAnswered = false := by
      rw [Bool.eq_false_iff]
      intro answered
      obtain ⟨ok, data, phase⟩ := (isAnswered_iff r).mp answered
      exact unanswered ok data phase
    rw [sent]
    refine (abandonTaps_answers r_in tap not_answered).imp_left fun there => ((keepsTaps apart).same _ ?_).mpr there
    exact tap
  case accesses =>
    intro own
    have is_own (a : Access) : engineAccess a = true ↔ own a := engineAccess_iff a
    have outstanding : (warmBlocks s.chip).warmCache.mport.outstanding = s.chip.mport.outstanding.map
        (fun q => { q with abandoned := q.abandoned || engineAccess q.access }) := cached.outstanding.trans blocks.outstanding
    rw [outstanding]
    refine ⟨fun q q_in => ?_, fun q q_in others => ?_, fun q q_in mine => ?_, ?_⟩
    · obtain ⟨l, waiting, forwarded⟩ := cached.waiting
      rw [waiting] at q_in
      rw [← is_own, Bool.not_eq_true]
      rcases List.mem_append.mp q_in with q_in | q_in
      · exact blocks.waiting q q_in
      · exact engineAccess_of_forwarded (forwarded q q_in)
    · rw [← is_own, Bool.not_eq_true] at others
      exact List.mem_map.mpr ⟨q, q_in, by rw [others, Bool.or_false]⟩
    · exact List.mem_map.mpr ⟨q, q_in, by rw [(is_own _).mpr mine, Bool.or_true]⟩
    · rw [List.map_map]
      rfl
  case kept =>
    have distinct : ((warmBlocks s.chip).cache.map Entry.index).Nodup := by
      rw [cache, List.map_map, show Entry.index ∘ f = Entry.index from funext fun e => (joined e).index]
      exact (Apart.ofCacheOk ok).indices
    have same_state : (f e).state = e.state := by
      obtain ⟨w, h, -, same⟩ := joined e
      rw [same]
    obtain ⟨x, x_in, after⟩ := warmCache_mem distinct (e := f e) (by rw [cache]; exact List.mem_map_of_mem e_in) (same_state ▸ issued)
    obtain ⟨index, copy, state, busy, unmarked, only, sublist⟩ := joined_atWarm_spec (joined e) after
    have tables : CacheOp.survivesWarm = (fun op : CacheOp => match op with
        | .tableRead _ | .tableWrite _ => true
        | _ => false) := by
      funext op
      cases op <;> rfl
    rw [tables] at sublist
    refine ⟨x, x_in, index, copy, fun clean => ?_, fun dirty => ?_, fun r writing => ?_, fun fetching => ?_, busy, unmarked,
      fun op op_in => ?_, sublist⟩
    · rw [state, clean]
      by_cases same : x.copy = e.copy <;> simp [same, EntryState.atWarm]
    · rw [state, dirty]
      simp [EntryState.atWarm]
    · rw [state, writing]
      cases r <;> simp [EntryState.atWarm]
    · rw [state, fetching]
      simp [EntryState.atWarm]
    · have table := only op op_in
      cases op with
      | tableRead id => exact ⟨id, Or.inl rfl⟩
      | tableWrite id => exact ⟨id, Or.inr rfl⟩
      | _ => cases table
  case only =>
    obtain ⟨y, y_in, after, issued⟩ := mem_warmCache x_in
    rw [cache] at y_in
    obtain ⟨e, e_in, rfl⟩ := List.mem_map.mp y_in
    refine ⟨e, e_in, ((after.index.trans (atWarm_index (f e))).trans (joined e).index).symm, ?_⟩
    obtain ⟨w, h, -, same⟩ := joined e
    rwa [same] at issued

end Sys2Proof.Machine
end

