-- ==== Sys2Proof/Proofs/CommandUnit.lean ====
section
/-! Operations that are handed to the record cache (R105, R106), and two that are: the command unit's take with the judgement and
the reports of a command (R163 to R165), and the notice writer's put (R168). -/

namespace Sys2Proof.Machine

open Bridge

/-! ## An operation that is asked (R105, R106) -/

theorem frontOp_congr {b b' : Bridge} (cache : b'.cache = b.cache) (n : Nat) (op : CacheOp) : b'.frontOp n op = b.frontOp n op := by
  simp only [frontOp, entry?, cache]

theorem entry?_setEntry {b : Bridge} {n : Nat} {e : Entry} (held : b.entry? n = some e) (f : Entry → Entry)
    (index : (f e).index = e.index) : (b.setEntry n f).entry? n = some (f e) := by
  unfold entry? at held ⊢
  obtain ⟨here, before, after, parts, others⟩ := List.find?_eq_some_iff_append.mp held
  rw [beq_iff_eq] at here
  refine List.find?_eq_some_iff_append.mpr ⟨by rw [index, here, beq_self_eq_true],
    before.map (fun e => if e.index = n then f e else e), after.map (fun e => if e.index = n then f e else e), ?_, fun x x_in => ?_⟩
  · simp [setEntry, parts, here]
  · obtain ⟨y, y_in, rfl⟩ := List.mem_map.mp x_in
    have other : y.index ≠ n := by simpa using others y y_in
    rw [if_neg other]
    simpa using other

section Ask

variable {b : Bridge} {n : Nat} {e : Entry} {op : CacheOp} {mark : Bridge → Bridge} {apply : Entry → Bridge → Bridge}

/-- What joins a waiting list, and is noted by the party that asks. -/
def joining (b : Bridge) (n : Nat) (op : CacheOp) : Bridge :=
  b.setEntry n (fun x => { x with waiting := x.waiting ++ [op] })

theorem joining_entry (held : b.entry? n = some e) (op : CacheOp) :
    (joining b n op).entry? n = some { e with waiting := e.waiting ++ [op] } :=
  entry?_setEntry held _ rfl

theorem askOrApply_of_unheld (marks : ∀ b, (mark b).cache = b.cache) (unheld : b.entry? n = none) :
    b.askOrApply n op false mark apply = some (mark { b with misses := b.misses ++ [(n, op)] }) := by
  have no_front : (mark { b with misses := b.misses ++ [(n, op)] }).frontOp n op = none := by
    rw [frontOp_congr (marks _), frontOp, show ({ b with misses := b.misses ++ [(n, op)] } : Bridge).entry? n = none from unheld]
  simp only [askOrApply, Bool.false_eq_true, if_false, enqueue_of_unheld unheld, no_front]

theorem askOrApply_of_waits (marks : ∀ b, (mark b).cache = b.cache) (held : b.entry? n = some e)
    (waits : e.ready = false ∨ ∃ x l, e.waiting = x :: l ∧ x ≠ op) :
    b.askOrApply n op false mark apply = some (mark (joining b n op)) := by
  have no_front : (mark (joining b n op)).frontOp n op = none := by
    rw [frontOp_congr (marks _), frontOp, joining_entry held]
    refine if_neg fun ⟨ready, first⟩ => ?_
    rcases waits with unready | ⟨x, l, waiting, other⟩
    · exact Bool.false_ne_true (unready.symm.trans ready)
    · rw [waiting] at first
      exact other (Option.some.inj first)
  simp only [askOrApply, Bool.false_eq_true, if_false, enqueue_of_held held]
  rw [show b.setEntry n (fun e => { e with waiting := e.waiting ++ [op] }) = joining b n op from rfl, no_front]

/-- What joins a ready entry that nothing waits for is applied at once. -/
theorem askOrApply_of_ready (marks : ∀ b, (mark b).cache = b.cache) (held : b.entry? n = some e) (ready : e.ready = true)
    (none_waits : e.waiting = []) : ∃ b', b.askOrApply n op false mark apply = some b'
      ∧ (mark (joining b n op)).askOrApply n op true mark apply = some b' := by
  have front : (mark (joining b n op)).frontOp n op = some { e with waiting := e.waiting ++ [op] } := by
    rw [frontOp_congr (marks _), frontOp, joining_entry held]
    exact if_pos ⟨ready, by rw [none_waits]; rfl⟩
  refine ⟨apply { e with waiting := e.waiting ++ [op] } ((mark (joining b n op)).startOp n), ?_, ?_⟩
  · simp only [askOrApply, Bool.false_eq_true, if_false, enqueue_of_held held]
    rw [show b.setEntry n (fun e => { e with waiting := e.waiting ++ [op] }) = joining b n op from rfl, front]
  · simp only [askOrApply, if_true, front]

end Ask

/-- An event that does the same on two bridges leaves the same. -/
theorem State.event_eq_of_some {s : State} {f : Bridge → Option Bridge} {b b' : Bridge} (here : f s.chip = some b')
    (there : f b = some b') :
    s.event (fun b => (f b).map Bridge.settle) = ({ s with chip := b } : State).event (fun b => (f b).map Bridge.settle) :=
  (s.event_settle f b' here).trans (({ s with chip := b } : State).event_settle f b' there).symm

/-! ## The command unit's take (R163) -/

theorem commandTake_of_idle {b : Bridge} (idle : b.command.state = .idle) (run : b.control.state = .run)
    (woken : b.command.wake = true) : b.commandTake = b.askOrApply 0 .commandTake false markTaking applyCommandTake := by
  simp only [commandTake, idle]
  exact if_pos ⟨run, woken⟩

theorem commandTake_of_taking {b : Bridge} (taking : b.command.state = .taking) :
    b.commandTake = b.askOrApply 0 .commandTake true markTaking applyCommandTake := by
  simp only [commandTake, taking]

theorem exec_commandTake {s : State} {b : Bridge} (h : s.chip.commandTake = some b) : exec .commandUnitTake s = After s b :=
  s.event_settle Bridge.commandTake b h

theorem applyCommandTake_of_halted {e : Entry} (halted : e.copy.state = stHalted) (b : Bridge) :
    applyCommandTake e b = b.takeYieldsNothing (decide (e.copy.count = 0)) :=
  if_pos (beq_iff_eq.mpr halted)

theorem applyCommandTake_of_empty {e : Entry} (sound : e.copy.state ≠ stHalted) (empty : e.copy.count = 0) (b : Bridge) :
    applyCommandTake e b = b.takeYieldsNothing true :=
  (if_neg (fun h => sound (beq_iff_eq.mp h))).trans (if_pos empty)

theorem applyCommandTake_of_item {e : Entry} (sound : e.copy.state ≠ stHalted) (item : 0 < e.copy.count) (b : Bridge) :
    applyCommandTake e b = b.beginItem 0 .ringTake .commandUnit false false (e.copy.slot e.copy.head) [] e.copy.size :=
  (if_neg (fun h => sound (beq_iff_eq.mp h))).trans (if_neg (Nat.ne_of_gt item))

/-! ## The judgement (R164) -/

theorem known_iff (c : CommandItem) : c.known = false ↔ 14 < c.op.toNat := by
  simp [CommandItem.known]

theorem namesStruct_iff (c : CommandItem) : c.namesStruct = true ↔ 2 ≤ c.op.toNat ∧ c.op.toNat ≤ 9 := by
  simp [CommandItem.namesStruct]

theorem onWorkingCopy_iff (c : CommandItem) : onWorkingCopy c = true ↔ 3 ≤ c.op.toNat ∧ c.op.toNat ≤ 9 := by
  have release : c.op = opRelease ↔ c.op.toNat = 2 := by
    rw [← BitVec.toNat_inj]
    rfl
  simp only [onWorkingCopy, Bool.and_eq_true, namesStruct_iff, bne_iff_ne, ne_eq, release]
  omega

/-- The commands that structures 0 and 1 refuse (R164). -/
def Guarded (c : CommandItem) : Prop :=
  (c.struct = 0 ∧ (c.op = opOpen ∨ c.op = opClose ∨ c.op = opAbort)) ∨ (c.struct = 1 ∧ (c.op = opOpen ∨ c.op = opClose))

section Judge

variable {c : CommandItem} {structs moves : Nat}

theorem judgeRefusal_of_unknown (unknown : 14 < c.op.toNat) : judgeRefusal c structs moves = some .unknown :=
  if_pos ((known_iff c).mpr unknown)

theorem judgeRefusal_of_known (known : c.op.toNat ≤ 14) : judgeRefusal c structs moves =
    if (2 ≤ c.op.toNat ∧ c.op.toNat ≤ 9) ∧ structs ≤ c.struct.toNat then some .range
    else if c.op = opTrigger ∧ moves ≤ c.move.toNat then some .invalidMove
    else if c.op = opStopMove ∧ moves ≤ c.move.toNat then some .range
    else if c.struct = 0 ∧ (c.op = opOpen ∨ c.op = opClose ∨ c.op = opAbort) then some .protectedRing
    else if c.struct = 1 ∧ (c.op = opOpen ∨ c.op = opClose) then some .protectedRing
    else none := by
  have is_known : ¬ c.known = false := fun h => Nat.not_lt.mpr known ((known_iff c).mp h)
  rw [judgeRefusal, if_neg is_known]
  simp only [namesStruct_iff]

theorem judgeRefusal_of_range (names : 2 ≤ c.op.toNat ∧ c.op.toNat ≤ 9) (above : structs ≤ c.struct.toNat) :
    judgeRefusal c structs moves = some .range := by
  rw [judgeRefusal_of_known (by omega), if_pos ⟨names, above⟩]

/-- The operation of a command that names a move (R164). -/
theorem names_move {c : CommandItem} (names : c.op = opTrigger ∨ c.op = opStopMove) : c.op.toNat = 10 ∨ c.op.toNat = 11 := by
  rcases names with h | h <;> rw [h]
  · exact Or.inl rfl
  · exact Or.inr rfl

theorem judgeRefusal_of_move (names : c.op = opTrigger ∨ c.op = opStopMove) (above : moves ≤ c.move.toNat) :
    judgeRefusal c structs moves = some (if c.op = opTrigger then .invalidMove else .range) := by
  have code := names_move names
  rw [judgeRefusal_of_known (by omega), if_neg (by omega)]
  rcases names with h | h
  · rw [if_pos ⟨h, above⟩, if_pos h]
  · have no_trigger : c.op ≠ opTrigger := by rw [h]; decide
    rw [if_neg (fun x => no_trigger x.1), if_pos ⟨h, above⟩, if_neg no_trigger]

/-- The operation of a guarded command. -/
theorem Guarded.code (guarded : Guarded c) : c.op.toNat = 3 ∨ c.op.toNat = 4 ∨ c.op.toNat = 5 := by
  have of_op {op : Byte} {k : Nat} (h : c.op = op) (code : op.toNat = k) : c.op.toNat = k := h ▸ code
  rcases guarded with ⟨-, h | h | h⟩ | ⟨-, h | h⟩
  · exact Or.inr (Or.inl (of_op h rfl))
  · exact Or.inr (Or.inr (of_op h rfl))
  · exact Or.inl (of_op h rfl)
  · exact Or.inr (Or.inl (of_op h rfl))
  · exact Or.inr (Or.inr (of_op h rfl))

theorem not_names_move (low : c.op.toNat ≤ 9) : c.op ≠ opTrigger ∧ c.op ≠ opStopMove := by
  constructor <;> intro h <;> rw [h] at low <;> exact absurd low (by decide)

theorem judgeRefusal_of_guarded (in_range : ¬ ((2 ≤ c.op.toNat ∧ c.op.toNat ≤ 9) ∧ structs ≤ c.struct.toNat)) (guarded : Guarded c) :
    judgeRefusal c structs moves = some .protectedRing := by
  have code := guarded.code
  obtain ⟨no_trigger, no_stop⟩ := not_names_move (c := c) (by omega)
  rw [judgeRefusal_of_known (by omega), if_neg in_range, if_neg (fun x => no_trigger x.1), if_neg (fun x => no_stop x.1)]
  by_cases zero : c.struct = 0 ∧ (c.op = opOpen ∨ c.op = opClose ∨ c.op = opAbort)
  · rw [if_pos zero]
  · rw [if_neg zero, if_pos (guarded.resolve_left zero)]

/-- A known command whose index is in range, and that is not guarded, is not refused by its item. -/
theorem judgeRefusal_eq_none (known : c.op.toNat ≤ 14) (in_range : ¬ ((2 ≤ c.op.toNat ∧ c.op.toNat ≤ 9) ∧ structs ≤ c.struct.toNat))
    (move : ¬ ((c.op = opTrigger ∨ c.op = opStopMove) ∧ moves ≤ c.move.toNat)) (unguarded : ¬ Guarded c) :
    judgeRefusal c structs moves = none := by
  rw [judgeRefusal_of_known known, if_neg in_range, if_neg (fun x => move ⟨Or.inl x.1, x.2⟩), if_neg (fun x => move ⟨Or.inr x.1, x.2⟩),
    if_neg (fun x => unguarded (Or.inl x)), if_neg (fun x => unguarded (Or.inr x))]

end Judge

theorem judgeCommand_of_some {b : Bridge} {c : CommandItem} {r : Reason}
    (refusal : judgeRefusal c b.cfg.structureCount b.cfg.moveCount = some r) :
    b.judgeCommand c = (b.holdCommand c).commandRefused r := by
  simp only [judgeCommand, refusal]

theorem judgeCommand_of_none {b : Bridge} {c : CommandItem} (refusal : judgeRefusal c b.cfg.structureCount b.cfg.moveCount = none) :
    b.judgeCommand c = if 3 ≤ c.op.toNat ∧ c.op.toNat ≤ 9 then (b.holdCommand c).enqueue c.struct.toNat .command
      else b.holdCommand c := by
  simp only [judgeCommand, refusal, onWorkingCopy_iff]

theorem holdCommand_entry (b : Bridge) (c : CommandItem) (n : Nat) : (b.holdCommand c).entry? n = b.entry? n := by
  simp [holdCommand, entry?]

theorem holdCommand_misses (b : Bridge) (c : CommandItem) : (b.holdCommand c).misses = b.misses := by
  simp [holdCommand]

/-! ## The reports (R165) -/

theorem commandNotice_eq (c : CommandItem) (k : NoticeKind) (r : Reason) : commandNotice c k r =
    { kind := k, cause := r, struct := if 2 ≤ c.op.toNat ∧ c.op.toNat ≤ 9 then some c.struct else none,
      move := if c.op = opTrigger ∨ c.op = opStopMove then some c.move else none, initiator := none, itemLost := false,
      writeback := false, tag := c.tag, value := BitVec.ofNat 32 c.op.toNat } := by
  simp only [commandNotice, namesStruct_iff]
  simp [CommandItem.namesMove]

theorem commandDone_of_held {b : Bridge} {c : CommandItem} (held : b.command.held = some c) :
    b.commandDone = (if c.report then b.notify (commandNotice c .commandDone .none) else b).commandEnd := by
  simp only [commandDone, held]

theorem commandRefused_of_held {b : Bridge} {c : CommandItem} (held : b.command.held = some c) (r : Reason) :
    b.commandRefused r = (b.notify (commandNotice c .commandRefused r)).commandEnd := by
  simp only [commandRefused, held]

theorem commandItem_ofBytes (bs : List Byte) :
    CommandItem.ofBytes bs = ⟨byteIn bs 0, byteIn bs 1, byteIn bs 2, byteIn bs 3, halfIn bs 4⟩ := by
  simp only [CommandItem.ofBytes, byteAt_eq, halfAt_eq]

/-- Settles O41: the take is asked and applied in its turn, the judgement goes by the item, and the reports end the command. -/
theorem commandUnitTakesTheHeadItem : Obligations.CommandUnitTakesTheHeadItem := by
  intro s
  refine ⟨?unheld, ?held, ?turn, ?judged, ?reports, ?timer, commandItem_ofBytes, by decide⟩
  case unheld =>
    intro idle run woken absent
    have no_entry : s.chip.entry? 0 = none := List.find?_eq_none.mpr fun e e_in => by simpa using absent e e_in
    exact exec_commandTake ((commandTake_of_idle idle run woken).trans (askOrApply_of_unheld (fun _ => rfl) no_entry))
  case held =>
    intro e idle run woken held asked
    refine ⟨fun waits => ?_, fun ready none_waits => ?_⟩
    · exact exec_commandTake ((commandTake_of_idle idle run woken).trans (askOrApply_of_waits (fun _ => rfl) held waits))
    · obtain ⟨b, here, there⟩ := askOrApply_of_ready (op := .commandTake) (mark := markTaking) (apply := applyCommandTake)
        (fun _ => rfl) held ready none_waits
      exact State.event_eq_of_some (f := Bridge.commandTake) ((commandTake_of_idle idle run woken).trans here)
        ((commandTake_of_taking (b := asked) rfl).trans there)
  case turn =>
    intro e taking held ready front b idle
    have applies {b' : Bridge} (effect : applyCommandTake e b = b') : exec .commandUnitTake s = After s b' :=
      exec_commandTake (((commandTake_of_taking taking).trans
        (askOrApply_turn s.chip 0 e .commandTake markTaking applyCommandTake held ready front)).trans (congrArg some effect))
    exact ⟨fun halted => applies (applyCommandTake_of_halted halted b),
      fun sound empty => applies (applyCommandTake_of_empty sound empty b),
      fun sound item => applies ((applyCommandTake_of_item sound item b).trans
        (applied_beginItem held .ringTake .commandUnit false false _ [] _))⟩
  case judged =>
    intro b c structs moves held unknown names range move guarded
    refine ⟨fun h => judgeCommand_of_some (judgeRefusal_of_unknown h), fun h => judgeCommand_of_some (judgeRefusal_of_range h.1 h.2),
      fun h => judgeCommand_of_some (judgeRefusal_of_move h.1 h.2),
      fun in_range h => judgeCommand_of_some (judgeRefusal_of_guarded in_range h), ?_, ?_⟩
    · intro in_range unguarded low high n struct
      have no_move := not_names_move high
      have judged := judgeCommand_of_none (b := b) (judgeRefusal_eq_none (c := c) (by omega) in_range
        (fun h => h.1.elim no_move.1 no_move.2) unguarded)
      rw [if_pos ⟨low, high⟩, struct] at judged
      refine ⟨fun absent => judged.trans ?_, fun there => judged.trans ?_⟩
      · rw [enqueue_of_unheld ((holdCommand_entry b c n).trans absent), holdCommand_misses]
        rfl
      · obtain ⟨e, found⟩ := Option.isSome_iff_exists.mp there
        exact enqueue_of_held ((holdCommand_entry b c n).trans found) _
    · intro known in_range no_move others
      have unguarded : ¬ Guarded c := fun h => by
        have := h.code
        omega
      have judged := judgeCommand_of_none (b := b) (judgeRefusal_eq_none (c := c) (by omega) in_range no_move unguarded)
      rwa [if_neg (by omega)] at judged
  case reports =>
    intro b c r held notice ends
    rw [commandDone_of_held held, commandRefused_of_held held, commandNotice_eq, commandNotice_eq]
    exact ⟨rfl, rfl⟩
  case timer =>
    intro b
    rw [activity_eq]
    cases b.control.idleTimer with
    | none => rfl
    | some _ => simp [fullTimer]

/-! ## The notice writer's put (R168) and its record (R182) -/

theorem noticeStep_of_queue {b : Bridge} {x : Notice} {rest : List Notice} {asked : Bool} (queue : b.notices = ⟨x :: rest, asked⟩)
    (runs : b.control.state = .run ∨ b.control.state = .stopping) :
    b.noticeStep = b.askOrApply 1 .noticePut asked markNotice (applyNotice x) := by
  simp only [noticeStep, queue]
  exact if_pos runs

theorem exec_noticePut {s : State} {b : Bridge} (h : s.chip.noticeStep = some b) : exec .noticePut s = After s b :=
  s.event_settle Bridge.noticeStep b h

theorem applyNotice_of_dropped {e : Entry} (dropped : e.copy.state = stHalted ∨ e.copy.cap ≤ e.copy.count) (x : Notice) (b : Bridge) :
    applyNotice x e b = b.dropOldest :=
  if_pos (dropped.imp_left beq_iff_eq.mpr)

theorem applyNotice_of_room {e : Entry} (sound : e.copy.state ≠ stHalted) (room : e.copy.count < e.copy.cap) (x : Notice) (b : Bridge) :
    applyNotice x e b = b.beginItem 1 .ringPut .noticeWriter false true (e.copy.slot e.copy.tail) x.toBytes e.copy.size :=
  if_neg (not_or.mpr ⟨fun h => sound (beq_iff_eq.mp h), Nat.not_le.mpr room⟩)

theorem dropOldest_of_queue {b : Bridge} {x : Notice} {rest : List Notice} {asked : Bool} (queue : b.notices = ⟨x :: rest, asked⟩) :
    b.dropOldest = Bridge.dropNotice { b with notices := ⟨rest, false⟩ } x.kind := by
  simp only [dropOldest, dequeueNotice, queue]
  rfl

theorem Notice.toBytes_eq (x : Notice) : x.toBytes =
    [x.kind.code, x.cause.code, x.struct.getD 0xFF, x.move.getD 0xFF,
      (x.initiator.map (fun i => BitVec.ofNat 8 i.val)).getD 0xFF, x.flagByte,
      BitVec.ofNat 8 x.tag.toNat, BitVec.ofNat 8 (x.tag.toNat / 256),
      BitVec.ofNat 8 x.value.toNat, BitVec.ofNat 8 (x.value.toNat / 256), BitVec.ofNat 8 (x.value.toNat / 256 / 256),
      BitVec.ofNat 8 (x.value.toNat / 256 / 256 / 256), 0, 0, 0, 0] := rfl

/-- The four bytes of a 32-bit number. -/
theorem append_four_bytes (n : Nat) :
    (BitVec.ofNat 8 (n / 256 / 256 / 256) ++ BitVec.ofNat 8 (n / 256 / 256)) ++ (BitVec.ofNat 8 (n / 256) ++ BitVec.ofNat 8 n)
      = BitVec.ofNat 32 n := by
  rw [append_bytes, append_bytes, Nat.div_div_eq_div_mul, append_halves]

theorem Notice.flagByte_bit (x : Notice) (i : Nat) :
    x.flagByte.getLsbD i = if i = 1 then x.writeback else if i = 0 then x.itemLost else false := by
  rw [Notice.flagByte, getLsbD_withBit _ (by decide), getLsbD_withBit _ (by decide)]
  simp

/-- Settles O42: in its turn the oldest notice is dropped or its record is written, and the record's bytes are those of R182. -/
theorem noticeWriterPutsTheOldestNotice : Obligations.NoticeWriterPutsTheOldestNotice := by
  refine ⟨?put, ?record, by decide, by decide, by decide, by decide, by decide⟩
  case put =>
    intro s x rest e queue runs held ready front
    have turn : s.chip.noticeStep = some (applyNotice x e (s.chip.applied 1 e id)) :=
      (noticeStep_of_queue queue runs).trans
        (askOrApply_turn s.chip 1 e .noticePut markNotice (applyNotice x) held ready front)
    refine ⟨fun dropped => exec_noticePut (turn.trans (congrArg some ?_)), fun sound room => exec_noticePut (turn.trans (congrArg some ?_))⟩
    · rw [applyNotice_of_dropped dropped, dropOldest_of_queue (b := s.chip.applied 1 e id) queue]
    · exact (applyNotice_of_room sound room x _).trans (applied_beginItem held .ringPut .noticeWriter false true _ _ _)
  case record =>
    intro x bs
    have bytes : bs = x.toBytes := rfl
    rw [Notice.toBytes_eq] at bytes
    have flags : byteIn bs 5 = x.flagByte := by rw [bytes]; rfl
    have initiator : byteIn bs 4 = (x.initiator.map (fun i => BitVec.ofNat 8 i.val)).getD 0xFF := by rw [bytes]; rfl
    refine ⟨rfl, rfl, rfl, rfl, rfl, fun none_named => ?_, fun i named => ?_, ?_, ?_, fun i above => ?_, ?_, ?_, ?_⟩
    · rw [initiator, none_named]
      rfl
    · rw [initiator, named]
      rfl
    · rw [flags, x.flagByte_bit]
      rfl
    · rw [flags, x.flagByte_bit]
      rfl
    · rw [flags, x.flagByte_bit, if_neg (by omega), if_neg (by omega)]
    · exact (append_bytes x.tag.toNat).trans ((BitVec.ofNat_toNat 16 x.tag).trans (BitVec.setWidth_eq x.tag))
    · exact (append_four_bytes x.value.toNat).trans ((BitVec.ofNat_toNat 32 x.value).trans (BitVec.setWidth_eq x.value))
    · show ((0 : Byte) ++ (0 : Byte)) ++ ((0 : Byte) ++ (0 : Byte)) = (0 : Word)
      decide

end Sys2Proof.Machine
end

