-- ==== Sys2Proof/Proofs/Commands.lean ====
section
/-! Commands (R164): those applied to a working copy (R13, R16, R85; R58, R86, R100, R152, R153), and those that name none
(R121, R122, R143 to R145, R154). -/

namespace Sys2Proof.Machine

open Bridge

/-! ## The rule for a command on a working copy -/

section WorkingCopy

variable {s : State} {op : Byte} {n : Nat} {c : CommandItem} {e : Entry} {effect : CommandItem → Entry → Bridge → Bridge}

theorem State.event_command (turn : CommandTurn s.chip op n c e) :
    s.event (fun b => (b.commandStep op n effect).map Bridge.settle) = After s (effect c e (s.chip.applied n e id)) :=
  s.event_settle _ _ (commandStep_turn s.chip op n c e effect turn)

/-- On a copy of kind OFF a command is refused (R2, R164). -/
theorem State.event_command_off (held : Holds s.chip op c) (names : c.struct.toNat = n) (entry : s.chip.entry? n = some e)
    (ready : e.ready = true) (front : e.waiting.head? = some .command) (off : e.copy.kind = kindOff) :
    s.event (fun b => (b.commandStep op n effect).map Bridge.settle) = After s ((s.chip.applied n e id).commandRefused .off) := by
  refine s.event_settle (fun b => b.commandStep op n effect) _ ?_
  have is_off : e.copy.isOff = true := beq_iff_eq.mpr off
  simp only [commandStep, judgedCommand_holds s.chip op c held, names, if_true, frontOp_turn s.chip n e .command entry ready front,
    is_off, startOp_eq s.chip n e entry]

theorem entry_of_turn (turn : CommandTurn s.chip op n c e) : s.chip.entry? n = some e := by
  obtain ⟨-, -, entry, -⟩ := turn
  exact entry

theorem changeAndDone_applied (entry : s.chip.entry? n = some e) (d : Descriptor) :
    (s.chip.applied n e id).changeAndDone n d = (s.chip.applied n e (fun y =>
      { y with copy := d, state := if d = e.copy then e.state else .dirty })).commandDone :=
  congrArg commandDone (applied_writeCopy s.chip n e d entry)

theorem changeLevel_applied (entry : s.chip.entry? n = some e) (d : Descriptor) :
    (s.chip.applied n e id).changeLevel n e.copy d .commandUnit = (s.chip.applied n e (fun y =>
      { y with copy := d, state := if d = e.copy then e.state else .dirty })).report n e.copy d none none :=
  congrArg (fun b => Bridge.report b n e.copy d none none) (applied_writeCopy s.chip n e d entry)

end WorkingCopy

/-! ## What the commands make of a descriptor -/

namespace Descriptor

variable {d : Descriptor}

theorem opened_of_not_open (shut : d.state = stClosing ∨ d.state = stClosed) :
    d.opened = { d with state := stOpen, flags := withBit d.flags 1 false } := by
  refine if_neg fun isOpen => ?_
  rw [isOpen] at shut
  exact absurd shut (by decide)

theorem not_open_of_halted (halted : d.state = stHalted) : d.state ≠ stOpen := by
  rw [halted]
  decide

theorem isHalted_eq_false : d.isHalted = false ↔ d.state ≠ stHalted := by
  simp [isHalted]

theorem closed_of_not_open (shut : d.state = stClosing ∨ d.state = stClosed) (pinned : Bool) : d.closed pinned = d := by
  refine if_neg fun isOpen => ?_
  rw [isOpen] at shut
  exact absurd shut (by decide)

theorem sound_of_open (isOpen : d.state = stOpen) : d.isHalted = false :=
  isHalted_eq_false.mpr (by rw [isOpen]; decide)

theorem sound_of_shut (shut : d.state = stClosing ∨ d.state = stClosed) : d.isHalted = false := by
  refine isHalted_eq_false.mpr fun halted => ?_
  rw [halted] at shut
  exact absurd shut (by decide)

section ClearFault

variable (g : Settings) (straps : Fin 16) (n : Nat)

theorem clearFault_of_none (cause : d.cause = causeNone) : d.clearFault g straps n = some d :=
  if_pos cause

theorem clearFault_of_underflow (cause : d.cause = causeUnderflow) : d.clearFault g straps n = some { d with cause := causeNone } := by
  rw [clearFault, cause]
  exact (if_neg (by decide)).trans (if_pos rfl)

theorem clearFault_of_overflow (cause : d.cause = causeOverflow) :
    d.clearFault g straps n = if d.guardOpen = true then none else some { d with cause := causeNone } := by
  rw [clearFault, cause]
  exact ((if_neg (by decide)).trans (if_neg (by decide))).trans (if_pos rfl)

theorem clearFault_of_memory (cause : d.cause = causeMemory) : d.clearFault g straps n = some d.cleared := by
  rw [clearFault, cause]
  exact (((if_neg (by decide)).trans (if_neg (by decide))).trans (if_neg (by decide))).trans (if_pos rfl)

theorem clearFault_of_reserve (cause : d.cause = causeReserve) :
    d.clearFault g straps n = if d.isStack = true ∧ d.cap ≤ d.depth then none else some d.cleared := by
  rw [clearFault, cause]
  exact ((((if_neg (by decide)).trans (if_neg (by decide))).trans (if_neg (by decide))).trans (if_neg (by decide))).trans (if_pos rfl)

theorem clearFault_of_descriptor (cause : d.cause = causeDescriptor) :
    d.clearFault g straps n = if d.cleared.valid g straps n = true then some d.cleared else none := by
  rw [clearFault, cause]
  exact ((((if_neg (by decide)).trans (if_neg (by decide))).trans (if_neg (by decide))).trans (if_neg (by decide))).trans
    (if_neg (by decide))

end ClearFault

theorem aborted_of_ring (kind : d.kind = kindRing) : d.aborted =
    { d with w32 := BitVec.ofNat 16 ((d.head + d.count) % d.cap), w34 := 0, flags := withBit d.flags 2 false, flushed := d.w34 } := by
  have ring : d.isRing = true := beq_iff_eq.mpr kind
  have count : BitVec.ofNat 16 d.count = d.w34 := (BitVec.ofNat_toNat 16 d.w34).trans (BitVec.setWidth_eq _)
  rw [aborted, if_pos ring, count]
  rfl

theorem aborted_of_stack (kind : d.kind = kindStack) : d.aborted =
    { d with w32 := 0, w34 := 0, b38 := 0, flushed := d.w32,
             cause := if d.cause = causeOverflow ∨ d.cause = causeUnderflow then causeNone else d.cause } := by
  have no_ring : ¬ d.isRing = true := by simp [isRing, kind, kindStack, kindRing]
  have stack : d.isStack = true := beq_iff_eq.mpr kind
  have depth : BitVec.ofNat 16 d.depth = d.w32 := (BitVec.ofNat_toNat 16 d.w32).trans (BitVec.setWidth_eq _)
  rw [aborted, if_neg no_ring, if_pos stack, depth]
  rfl

theorem aborted_of_tally (kind : d.kind = kindTally) : d.aborted = { d.withValue d.lower with w48 := 0, flushed := 0 } := by
  have no_ring : ¬ d.isRing = true := by simp [isRing, kind, kindTally, kindRing]
  have no_stack : ¬ d.isStack = true := by simp [isStack, kind, kindTally, kindStack]
  rw [aborted, if_neg no_ring, if_neg no_stack]
  rfl

theorem level_of_ring (kind : d.kind = kindRing) : d.level = d.count := if_pos (beq_iff_eq.mpr kind)

theorem level_of_stack (kind : d.kind = kindStack) : d.level = d.depth := by
  simp [level, isRing, isStack, kind, kindRing, kindStack]

theorem level_of_tally (kind : d.kind = kindTally) : d.level = 0 := by
  simp [level, isRing, isStack, kind, kindRing, kindStack, kindTally]

theorem descriptorHalt_iff : d.descriptorHalt = true ↔ d.state = stHalted ∧ d.cause = causeDescriptor := by
  simp [descriptorHalt]

end Descriptor

/-! ## State commands (R13, R16, R85) -/

section Effects

variable {n : Nat} {c : CommandItem} {e : Entry} {b : Bridge}

theorem openEffect_of_halted (halted : e.copy.state = stHalted) : openEffect n c e b = b.commandRefused .halted :=
  if_pos (beq_iff_eq.mpr halted)

theorem openEffect_of_sound (sound : e.copy.isHalted = false) : openEffect n c e b = b.changeAndDone n e.copy.opened :=
  if_neg (by rw [sound]; exact Bool.false_ne_true)

theorem closeEffect_of_halted (halted : e.copy.state = stHalted) : closeEffect n c e b = b.commandRefused .halted :=
  if_pos (beq_iff_eq.mpr halted)

theorem closeEffect_of_sound (sound : e.copy.isHalted = false) : closeEffect n c e b = b.changeAndDone n (e.copy.closed e.pin) :=
  if_neg (by rw [sound]; exact Bool.false_ne_true)

theorem closeGuardEffect_of_other (kind : e.copy.kind = kindRing ∨ e.copy.kind = kindTally) :
    closeGuardEffect n c e b = b.commandRefused .wrongKind :=
  if_pos (kind.imp beq_iff_eq.mpr beq_iff_eq.mpr)

theorem closeGuardEffect_of_stack (kind : e.copy.kind = kindStack) : closeGuardEffect n c e b =
    if e.copy.isHalted then b.commandRefused .halted
    else if e.copy.limit < e.copy.depth then b.commandRefused .depthAboveLimit
    else b.changeAndDone n e.copy.guardClosed := by
  refine if_neg ?_
  simp [Descriptor.isRing, Descriptor.isTally, kind, kindRing, kindTally, kindStack]

theorem clearFaultEffect_of_some {d : Descriptor} (clears : e.copy.clearFault b.cfg b.control.straps n = some d) :
    clearFaultEffect n c e b = b.changeAndDone n d := by
  simp only [clearFaultEffect, clears]

theorem clearFaultEffect_of_none (persists : e.copy.clearFault b.cfg b.control.straps n = none) :
    clearFaultEffect n c e b = b.commandRefused .causePersists := by
  simp only [clearFaultEffect, persists]

end Effects

/-- Settles O43: each state command's effect by the state, the kind and the cause of its working copy. -/
theorem stateCommandsChangeTheWorkingCopy : Obligations.StateCommandsChangeTheWorkingCopy := by
  intro s n c e done refused d
  refine ⟨fun turn => ?opens, fun turn => ?closes, fun turn => ?guard, fun turn => ?clears, ?off⟩
  case opens =>
    have does {b : Bridge} (h : openEffect n c e (s.chip.applied n e id) = b) : exec (.cmdOpen n) s = After s b :=
      (State.event_command turn).trans (congrArg (After s) h)
    have changes {d' : Descriptor} (sound : d.isHalted = false) (h : d.opened = d') : exec (.cmdOpen n) s = done d' :=
      does ((openEffect_of_sound sound).trans ((congrArg _ h).trans (changeAndDone_applied (entry_of_turn turn) d')))
    exact ⟨fun halted => does (openEffect_of_halted halted), fun isOpen => changes (Descriptor.sound_of_open isOpen) (if_pos isOpen),
      fun shut => changes (Descriptor.sound_of_shut shut) (Descriptor.opened_of_not_open shut)⟩
  case closes =>
    have does {b : Bridge} (h : closeEffect n c e (s.chip.applied n e id) = b) : exec (.cmdClose n) s = After s b :=
      (State.event_command turn).trans (congrArg (After s) h)
    have changes {d' : Descriptor} (sound : d.isHalted = false) (h : d.closed e.pin = d') : exec (.cmdClose n) s = done d' :=
      does ((closeEffect_of_sound sound).trans ((congrArg _ h).trans (changeAndDone_applied (entry_of_turn turn) d')))
    exact ⟨fun halted => does (closeEffect_of_halted halted), fun isOpen => changes (Descriptor.sound_of_open isOpen) (if_pos isOpen),
      fun shut => changes (Descriptor.sound_of_shut shut) (Descriptor.closed_of_not_open shut e.pin)⟩
  case guard =>
    have does {b : Bridge} (h : closeGuardEffect n c e (s.chip.applied n e id) = b) : exec (.cmdCloseGuard n) s = After s b :=
      (State.event_command turn).trans (congrArg (After s) h)
    have sound (h : d.state ≠ stHalted) : ¬ d.isHalted = true := by rwa [Descriptor.isHalted, beq_iff_eq]
    refine ⟨fun kind => does (closeGuardEffect_of_other kind), fun kind halted => does ?_, fun kind h above => does ?_,
      fun kind h below => does ?_⟩
    · exact (closeGuardEffect_of_stack kind).trans (if_pos (beq_iff_eq.mpr halted))
    · exact (closeGuardEffect_of_stack kind).trans ((if_neg (sound h)).trans (if_pos above))
    · exact ((closeGuardEffect_of_stack kind).trans ((if_neg (sound h)).trans (if_neg (Nat.not_lt.mpr below)))).trans
        (changeAndDone_applied (entry_of_turn turn) d.guardClosed)
  case clears =>
    intro cleared
    let after := s.chip.applied n e id
    have changes {d' : Descriptor} (h : d.clearFault s.chip.cfg s.chip.control.straps n = some d') :
        exec (.cmdClearFault n) s = done d' :=
      (State.event_command turn).trans (congrArg (After s)
        ((clearFaultEffect_of_some (b := after) h).trans (changeAndDone_applied (entry_of_turn turn) d')))
    have persists (h : d.clearFault s.chip.cfg s.chip.control.straps n = none) : exec (.cmdClearFault n) s = refused .causePersists :=
      (State.event_command turn).trans (congrArg (After s) (clearFaultEffect_of_none (b := after) h))
    refine ⟨fun cause => changes (d.clearFault_of_none _ _ _ cause), ?_, ?_, fun cause => changes (d.clearFault_of_memory _ _ _ cause),
      ?_, ?_, ?_, ?_⟩
    · rintro (cause | ⟨cause, shut⟩)
      · exact changes (Descriptor.clearFault_of_underflow _ _ _ cause)
      · exact changes ((Descriptor.clearFault_of_overflow _ _ _ cause).trans (if_neg (by rw [shut]; exact Bool.false_ne_true)))
    · rintro ⟨cause, guarded⟩
      exact persists ((Descriptor.clearFault_of_overflow _ _ _ cause).trans (if_pos guarded))
    · intro cause kind below
      exact changes ((Descriptor.clearFault_of_reserve _ _ _ cause).trans (if_neg fun h => Nat.not_le.mpr below h.2))
    · intro cause kind above
      exact persists ((Descriptor.clearFault_of_reserve _ _ _ cause).trans (if_pos ⟨beq_iff_eq.mpr kind, above⟩))
    · intro cause valid
      exact changes ((Descriptor.clearFault_of_descriptor _ _ _ cause).trans (if_pos valid))
    · intro cause invalid
      exact persists ((Descriptor.clearFault_of_descriptor _ _ _ cause).trans
        (if_neg (fun h => Bool.false_ne_true (invalid.symm.trans h))))
  case off =>
    intro op held names entry ready front kind
    refine ⟨?_, ?_, ?_, ?_⟩ <;> rintro rfl <;> exact State.event_command_off held names entry ready front kind

/-! ## ABORT, ARM and DISARM (R58, R86, R100, R152, R153) -/

theorem abortEffect_of_refused {n : Nat} {c : CommandItem} {e : Entry} {b : Bridge}
    (unusable : e.copy.state = stHalted ∧ e.copy.cause = causeDescriptor) : abortEffect n c e b = b.commandRefused .halted :=
  if_pos (Descriptor.descriptorHalt_iff.mpr unusable)

/-- What ABORT leaves of a working copy it empties. -/
theorem abortEffect_applied {s : State} {n : Nat} {c : CommandItem} {e : Entry} (entry : s.chip.entry? n = some e)
    (usable : ¬ (e.copy.state = stHalted ∧ e.copy.cause = causeDescriptor)) {d : Descriptor} (aborted : e.copy.aborted = d)
    {level : Nat} (held : e.copy.level = level) :
    let b := s.chip.applied n e (fun y => { y with copy := d, state := if d = e.copy then e.state else .dirty })
    abortEffect n c e (s.chip.applied n e id) = (if 0 < level then b.report n e.copy d none none else b).commandDone := by
  intro b
  have empties : abortEffect n c e (s.chip.applied n e id) =
      if 0 < e.copy.level then ((s.chip.applied n e id).changeLevel n e.copy e.copy.aborted .commandUnit).commandDone
      else (s.chip.applied n e id).changeAndDone n e.copy.aborted :=
    if_neg (fun h => usable (Descriptor.descriptorHalt_iff.mp h))
  rw [empties, aborted, changeLevel_applied entry, changeAndDone_applied entry, held]
  exact (apply_ite commandDone _ _ _).symm

/-- Settles O44: ABORT empties or is refused, ARM arms and posts when the condition holds, DISARM disarms. -/
theorem abortAndArmingChangeTheWorkingCopy : Obligations.AbortAndArmingChangeTheWorkingCopy := by
  intro s n c e d b change
  refine ⟨fun turn => ?aborts, fun turn => ?arms, fun turn => ?disarms, ?off⟩
  case aborts =>
    have does {b : Bridge} (h : abortEffect n c e (s.chip.applied n e id) = b) : exec (.cmdAbort n) s = After s b :=
      (State.event_command turn).trans (congrArg (After s) h)
    refine ⟨fun unusable => does (abortEffect_of_refused unusable), fun usable kind => does ?_, fun usable kind => does ?_,
      fun usable kind => does ?_⟩
    · exact abortEffect_applied (entry_of_turn turn) usable (Descriptor.aborted_of_ring kind) (Descriptor.level_of_ring kind)
    · exact abortEffect_applied (entry_of_turn turn) usable (Descriptor.aborted_of_stack kind) (Descriptor.level_of_stack kind)
    · exact abortEffect_applied (entry_of_turn turn) usable (Descriptor.aborted_of_tally kind) (Descriptor.level_of_tally kind)
  case arms =>
    intro armed
    refine (State.event_command turn).trans (congrArg (After s) ?_)
    show commandDone (if d.holds = true ∧ d.descriptorHalt = false then
      ((s.chip.applied n e id).writeCopy n armed).post d.triggerMove.toNat (.structure n) else (s.chip.applied n e id).writeCopy n armed) = _
    rw [applied_writeCopy s.chip n e armed (entry_of_turn turn)]
  case disarms =>
    exact (State.event_command turn).trans (congrArg (After s) (changeAndDone_applied (entry_of_turn turn) (d.setArmed false)))
  case off =>
    intro op held names entry ready front kind refused
    refine ⟨?_, ?_, ?_⟩ <;> rintro rfl <;> exact State.event_command_off held names entry ready front kind

/-! ## Commands that name no working copy (R121, R122, R143 to R145, R154) -/

section Other

variable {b : Bridge} {c : CommandItem} {n m : Nat}

theorem nop_of_held (held : Holds b opNop c) : b.nop = some b.commandDone := by
  rw [nop, judgedCommand_holds b opNop c held]
  rfl

theorem flush_of_held (held : Holds b opFlush c) : b.flush = some (commandStarted
    { b with cache := b.cache.map (fun e => { e with flushMark := e.flushMark || e.countsDirty }) }) := by
  rw [flush, judgedCommand_holds b opFlush c held]
  rfl

theorem release_of_unheld (held : Holds b opRelease c) (names : c.struct.toNat = n) (unheld : b.entry? n = none) :
    b.release n = some b.commandDone := by
  simp only [release, judgedCommand_holds b opRelease c held, names, if_true, unheld]

theorem release_of_held (held : Holds b opRelease c) (names : c.struct.toNat = n) {e : Entry} (entry : b.entry? n = some e) :
    b.release n = some (b.setEntry n (fun e => { e with waiting := e.waiting ++ [.release] })).commandStarted := by
  simp only [release, judgedCommand_holds b opRelease c held, names, if_true, entry, enqueue_of_held entry]

theorem postTrigger_of_held (held : Holds b opTrigger c) (names : c.move.toNat = m) :
    b.postTrigger m = some (b.post m .software).commandDone := by
  simp only [postTrigger, judgedCommand_holds b opTrigger c held, names, if_true]

theorem isLoaded_iff : b.isLoaded m = true ↔ b.engine.move.map LoadedMove.index = some m := beq_iff_eq

theorem isPending_iff : b.isPending m = true ↔ ∃ p ∈ b.trigger.pending, p.move = m := by
  simp [isPending]

theorem stopMove_of_held (held : Holds b opStopMove c) (names : c.move.toNat = m) :
    b.stopMove m = some (if b.isLoaded m then ((b.withdraw m).requestStop c.tag).commandStarted
      else if b.isPending m then (b.withdraw m).commandDone else b.commandRefused .notActive) := by
  simp only [stopMove, judgedCommand_holds b opStopMove c held, names, if_true]

theorem stopMove_of_loaded (held : Holds b opStopMove c) (names : c.move.toNat = m)
    (loaded : b.engine.move.map LoadedMove.index = some m) :
    b.stopMove m = some ((b.withdraw m).requestStop c.tag).commandStarted :=
  (stopMove_of_held held names).trans (congrArg some (if_pos (isLoaded_iff.mpr loaded)))

theorem stopMove_of_not_loaded (held : Holds b opStopMove c) (names : c.move.toNat = m)
    (other : b.engine.move.map LoadedMove.index ≠ some m) :
    b.stopMove m = some (if b.isPending m then (b.withdraw m).commandDone else b.commandRefused .notActive) :=
  (stopMove_of_held held names).trans (congrArg some (if_neg (fun h => other (isLoaded_iff.mp h))))

theorem pauseMoves_of_held (held : Holds b opPauseMoves c) : b.pauseMoves = some (commandDone
    (if b.control.state = .stopping then b else { b with engine := { b.engine with
      pauseRequest := true, state := if b.engine.state = .idle then .paused else b.engine.state } })) := by
  rw [pauseMoves, judgedCommand_holds b opPauseMoves c held]
  rfl

theorem resumeMoves_of_held (held : Holds b opResumeMoves c) : b.resumeMoves = some (commandDone
    (if b.control.state = .stopping then b else { b with engine := { b.engine with
      pauseRequest := false, state := if b.engine.state = .paused then .idle else b.engine.state } })) := by
  rw [resumeMoves, judgedCommand_holds b opResumeMoves c held]
  rfl

/-- A FLUSH that is carried out is done when no mark is left (R121). -/
theorem flushStep_of_started (held : b.command.held = some c) (started : b.command.stage = .started) (flushes : c.op = opFlush) :
    b.flushStep = if b.cache.all (fun e => !e.flushMark) = true then some b.commandDone else none := by
  simp only [flushStep, held, started, flushes, true_and]

end Other

/-- Settles O45: each of these commands does what its rule says, by one lemma per operation. -/
theorem otherCommandsAreCarriedOut : Obligations.OtherCommandsAreCarriedOut := by
  intro s c n m b started left withdrawn loaded
  refine ⟨?nop, ?flush, ?unheld, ?release, ?trigger, ?running, ?storing, ?pending, ?absent, ?pause, ?resume, ?stopping, ?flushed⟩
  case nop => exact fun held => s.event_settle Bridge.nop _ (nop_of_held held)
  case flush => exact fun held => s.event_settle Bridge.flush _ (flush_of_held held)
  case unheld => exact fun held names unheld => s.event_settle (fun b => b.release n) _ (release_of_unheld held names unheld)
  case release => exact fun e held names entry => s.event_settle (fun b => b.release n) _ (release_of_held held names entry)
  case trigger => exact fun held names => s.event_settle (fun b => b.postTrigger m) _ (postTrigger_of_held held names)
  case running =>
    intro held names loads runs
    have asks : (b.withdraw m).requestStop c.tag
        = { b.withdraw m with engine := { b.engine with stopRequest := some c.tag } } := if_pos runs
    have done := stopMove_of_loaded held names loads
    rw [asks] at done
    exact s.event_settle (fun b => b.stopMove m) _ done
  case storing =>
    intro held names loads storing
    have asks_not : (b.withdraw m).requestStop c.tag = b.withdraw m := by
      refine if_neg fun runs : b.engine.state = .loading ∨ b.engine.state = .running => ?_
      rw [storing] at runs
      exact absurd runs (by decide)
    have done := stopMove_of_loaded held names loads
    rw [asks_not] at done
    exact s.event_settle (fun b => b.stopMove m) _ done
  case pending =>
    intro held names other pends
    exact s.event_settle (fun b => b.stopMove m) _
      ((stopMove_of_not_loaded held names other).trans (congrArg some (if_pos (isPending_iff.mpr pends))))
  case absent =>
    intro held names other absent
    have not_pending : ¬ b.isPending m = true := fun h => by
      obtain ⟨p, p_in, here⟩ := isPending_iff.mp h
      exact absent p p_in here
    exact s.event_settle (fun b => b.stopMove m) _
      ((stopMove_of_not_loaded held names other).trans (congrArg some (if_neg not_pending)))
  case pause =>
    intro held goes
    have done := pauseMoves_of_held held
    rw [if_neg goes] at done
    exact s.event_settle Bridge.pauseMoves _ done
  case resume =>
    intro held goes
    have done := resumeMoves_of_held held
    rw [if_neg goes] at done
    exact s.event_settle Bridge.resumeMoves _ done
  case stopping =>
    intro stopping
    refine ⟨fun held => ?_, fun held => ?_⟩
    · have done := pauseMoves_of_held held
      rw [if_pos stopping] at done
      exact s.event_settle Bridge.pauseMoves _ done
    · have done := resumeMoves_of_held held
      rw [if_pos stopping] at done
      exact s.event_settle Bridge.resumeMoves _ done
  case flushed =>
    intro held stage flushes
    refine ⟨fun none_marked => ?_, fun marked => ?_⟩
    · refine (flushStep_of_started held stage flushes).trans (if_pos (List.all_eq_true.mpr fun e e_in => ?_))
      rw [none_marked e e_in]
      rfl
    · obtain ⟨e, e_in, mark⟩ := marked
      refine (flushStep_of_started held stage flushes).trans (if_neg fun all => ?_)
      have unmarked := List.all_eq_true.mp all e e_in
      rw [mark] at unmarked
      exact Bool.false_ne_true unmarked

end Sys2Proof.Machine
end

