-- ==== Sys2Proof/Proofs/StartStop.lean ====
section
/-! START and STOP (R177, R184, R188). -/

namespace Sys2Proof.Machine

open Bridge

/-! ## A write of the start word (R177) -/

section StartWord

variable {s : State} {id : Nat} {q : MemRequest} {r : InFlight} {v : Nat}

/-- An OKAY answer to a write of the start word, as bridge control takes it (R177, R178). -/
theorem exec_startWord_due (due : AnswerDue s id isForward q) (found : s.chip.inflight? id = some r) (start : r.cls = .anchorStart)
    (covers : r.request.coversStartWord s.chip.control.straps = true) (word : r.request.startWord s.chip.control.straps = v) :
    exec (.forwardedRequestDone id true) s
      = AfterAnswer s q true false (((s.chip.received id).answer id true []).actOnStartWord v) := by
  have done := (forwardedDone_of_found (b := s.chip.received id) found true (Memory.readBytes s.mem q.addr q.length)).trans
    (if_pos ⟨rfl, start, covers⟩)
  have no_data : forwardedData (s.chip.received id).freeDraws r.request true (Memory.readBytes s.mem q.addr q.length) = [] :=
    if_pos ((coversStartWord_iff _ _).mp covers).1
  rw [no_data] at done
  exact word ▸ (exec_forwarded_due due true).trans (congrArg (AfterAnswer s q true false) done)

theorem startWordOf_of_start (found : s.chip.inflight? id = some r) (start : r.cls = .anchorStart)
    (covers : r.request.coversStartWord s.chip.control.straps = true) (word : r.request.startWord s.chip.control.straps = v) :
    s.chip.startWordOf id = some v := by
  rw [startWordOf_of_found found, if_pos ⟨start, covers⟩, word]

/-- START out of PASS is the answer to its write (R184). -/
theorem exec_startBridge (word : s.chip.startWordOf id = some 1) (pass : s.chip.control.state = .pass) :
    exec (.startBridge id) s = exec (.forwardedRequestDone id true) s :=
  if_pos ⟨word, pass⟩

/-- STOP by the start word is the answer to its write (R188). -/
theorem exec_stopBridge (word : s.chip.startWordOf id = some 2) (stops : s.chip.takesStop = true) :
    exec (.stopBridge (.startWord id)) s = exec (.forwardedRequestDone id true) s :=
  if_pos ⟨word, stops⟩

end StartWord

/-! ## START (R184) -/

theorem actOnStartWord_one {b : Bridge} (pass : b.control.state = .pass) : b.actOnStartWord 1 = b.takeStart :=
  if_pos ⟨rfl, pass⟩

theorem takeStart_control (b : Bridge) : b.takeStart.control = { b.control with
    startReason := .none, noticeShadow := false, demandShadows := [false, false, false, false], state := .starting } := by
  simp [takeStart]

theorem takeStart_iport (b : Bridge) : b.takeStart.iport = b.iport := by
  simp [takeStart]

/-- A request that is issued is the last one queued. -/
theorem issue_last (b : Bridge) (a : Access) (w : Bool) (addr : Nat) (data : List Byte) (k : Nat) :
    ∃ h, (b.issue a w addr data k).mport.waiting.getLast? = some ⟨h, a, w, addr, data, k, false⟩ :=
  ⟨b.nextHandle, List.getLast?_concat ..⟩

/-- Settles O46: the write's answer is bridge control's START, which leaves the anchor read the last request queued. -/
theorem startBeginsWithTheAnchorRead : Obligations.StartBeginsWithTheAnchorRead := by
  intro s id q r due found start covers word pass
  have answered := exec_startWord_due due found start covers word
  let b := (s.chip.received id).answer id true []
  have here : b.control = s.chip.control := rfl
  rw [actOnStartWord_one (b := b) (by rw [here, pass])] at answered
  refine ⟨b.takeStart, (exec_startBridge (startWordOf_of_start found start covers word) pass).trans answered, answered, ?_⟩
  rw [takeStart_control]
  refine ⟨rfl, rfl, rfl, rfl, ?_, ?_⟩
  · have last := issue_last (setState { b with control := { b.control with
      startReason := .none, noticeShadow := false, demandShadows := [false, false, false, false] } } .starting)
      .anchorRead false (anchorAddress b.control.straps) [] 32
    rwa [here] at last
  · exact takeStart_iport b

/-! ## STOP (R188) -/

theorem actOnStartWord_two {b : Bridge} (stops : b.takesStop = true) : b.actOnStartWord 2 = b.takeStop :=
  (if_neg (fun h => absurd h.1 (by decide))).trans (if_pos ⟨rfl, stops⟩)

/-- What a bridge is that took STOP (R188). -/
theorem takeStop_control (b : Bridge) : b.takeStop.control = { b.control with
    state := .stopping, audit := none, findings := [], idleTimer := none, emptying := false,
    stopStage := if b.control.state = .starting ∨ b.control.state = .auditing then .halting else .finishing } := by
  simp [takeStop, startingUp]

theorem takeStop_engine (b : Bridge) : b.takeStop.engine = { b.engine with
    pauseRequest := false, stopRequest := none, state := if b.engine.state = .paused then .idle else b.engine.state } := by
  simp [takeStop]

theorem takeStop_rest (b : Bridge) :
    b.takeStop.trigger = b.trigger ∧ b.takeStop.cache = b.cache ∧ b.takeStop.command = b.command := by
  simp [takeStop]

theorem commandEnd_command (b : Bridge) : b.commandEnd.command.state = .idle ∧ b.commandEnd.command.held = none := by
  simp [commandEnd]

theorem commandDone_command (b : Bridge) (c : CommandItem) (held : b.command.held = some c) :
    b.commandDone.command.state = .idle ∧ b.commandDone.command.held = none := by
  rw [commandDone_of_held held]
  exact commandEnd_command _

/-- Settles O47: STOP is taken from the start word and as a command, and leaves the fields that R188 names. -/
theorem stopBeginsTheStopSequence : Obligations.StopBeginsTheStopSequence := by
  intro s running stopped
  have takes : s.chip.takesStop = true := (takesStop_iff _).mpr running
  have stops {b : Bridge} (state : b.control.state = s.chip.control.state) (engine : b.engine = s.chip.engine)
      (trigger : b.trigger = s.chip.trigger) (cache : b.cache = s.chip.cache) : stopped b.takeStop := by
    obtain ⟨same_trigger, same_cache, -⟩ := takeStop_rest b
    simp only [stopped, takeStop_control, takeStop_engine, same_trigger, same_cache, state, engine, trigger, cache, and_self]
  refine ⟨fun id q r due found start covers word => ?_, fun c held => ?_⟩
  · have answered := exec_startWord_due due found start covers word
    rw [actOnStartWord_two (b := (s.chip.received id).answer id true []) takes] at answered
    exact ⟨_, (exec_stopBridge (startWordOf_of_start found start covers word) takes).trans answered, answered,
      stops rfl rfl rfl rfl⟩
  · have taken : s.chip.stopCommand = some s.chip.commandDone.takeStop := by
      simp only [stopCommand, judgedCommand_holds s.chip opStop c held, takes, if_true]
    obtain ⟨-, -, holds, -⟩ := held
    obtain ⟨-, -, same_command⟩ := takeStop_rest s.chip.commandDone
    refine ⟨s.chip.commandDone.takeStop, s.event_settle Bridge.stopCommand _ taken, stops ?_ ?_ ?_ ?_, ?_⟩
    · simp
    · simp
    · simp
    · simp
    · rw [same_command]
      exact commandDone_command s.chip c holds

end Sys2Proof.Machine
end

