-- ==== Sys2Proof/Proofs/AnchorRead.lean ====
section
/-! The answer to the anchor read (R184). -/

namespace Sys2Proof.Machine

open Bridge

namespace Bridge

/-- The requests whose classification waited, as a state, settings and straps classify them (R22, R175). -/
def classified (i : IPort) (straps : Fin 16) (st : BridgeState) (x : Option Settings) : IPort :=
  { i with inflight := i.inflight.map (fun r =>
      if r.cls = .unknown ∨ r.cls = .apertureWait ∨ r.cls = .tableWait then { r with cls := classify st x straps r.request }
      else r) }

@[simp] theorem reclassify_iport (b : Bridge) :
    b.reclassify.iport = classified b.iport b.control.straps b.control.state b.control.settings := rfl

theorem enterPass_control (b : Bridge) : b.enterPass.control = { b.control with
    settings := none, stopStage := .none, emptying := false, idleTimer := none, audit := none, findings := [], state := .pass } := by
  simp [enterPass]

theorem enterPass_holdings (b : Bridge) : b.enterPass.cache = [] ∧ b.enterPass.misses = []
    ∧ b.enterPass.iport = classified b.iport b.control.straps .pass none := by
  simp [enterPass, freeAll]

/-- A refused START leaves PASS with the reason, nothing held and what waited classified (R184, R185). -/
theorem refuseStart_eq (b : Bridge) (r : StartReason) : (b.refuseStart r).control.state = .pass
    ∧ (b.refuseStart r).control.startReason = r ∧ (b.refuseStart r).control.settings = none
    ∧ (b.refuseStart r).control.findings = [] ∧ (b.refuseStart r).cache = [] ∧ (b.refuseStart r).misses = []
    ∧ (b.refuseStart r).iport = classified b.iport b.control.straps .pass none := by
  obtain ⟨cache, misses, iport⟩ := enterPass_holdings { b with control := { b.control with startReason := r } }
  have control := enterPass_control { b with control := { b.control with startReason := r } }
  simp only [refuseStart, control, cache, misses, iport, and_self]

/-- The read of a descriptor of the structure table. -/
theorem auditRead_struct (b : Bridge) (a : Audit) (n : Nat) :
    (b.auditRead a (.struct n)).control = { b.control with audit := some { a with position := .struct n } }
      ∧ (b.auditRead a (.struct n)).iport = b.iport
      ∧ ∃ h, (b.auditRead a (.struct n)).mport.waiting.getLast? =
        some ⟨h, .auditRead, false, b.cfg.tableBase + n * 64, [], 64, false⟩ :=
  ⟨rfl, rfl, issue_last _ _ _ _ _ _⟩

/-- The read of a descriptor of the move table. -/
theorem auditRead_move (b : Bridge) (a : Audit) (m : Nat) :
    ∃ h, (b.auditRead a (.move m)).mport.waiting.getLast? =
      some ⟨h, .auditRead, false, b.cfg.moveBase + m * 32, [], 32, false⟩ :=
  issue_last _ _ _ _ _ _

theorem anchorRead_of_error {b : Bridge} (starting : b.control.state = .starting) (data : List Byte) :
    b.anchorRead false data = b.refuseStart .memory :=
  (if_pos starting).trans (if_neg Bool.false_ne_true)

theorem anchorRead_of_refused {b : Bridge} (starting : b.control.state = .starting) {data : List Byte} {r : StartReason}
    (refused : (Settings.ofBytes data).startRefusal b.control.straps = some r) :
    b.anchorRead true data = b.refuseStart r := by
  simp only [anchorRead, starting, if_true, refused]

/-- The values read are in use, and the requests that waited are classified by AUDITING. -/
def auditing (b : Bridge) (g : Settings) : Bridge :=
  reclassify (setState { b with control := { b.control with settings := some g } } .auditing)

theorem anchorRead_of_passed {b : Bridge} (starting : b.control.state = .starting) {data : List Byte}
    (passed : (Settings.ofBytes data).startRefusal b.control.straps = none) :
    b.anchorRead true data = (auditing b (Settings.ofBytes data)).auditRead ⟨.struct 0, [], 0, []⟩ (.struct 0) := by
  simp only [anchorRead, starting, if_true, passed]
  rfl

theorem auditing_control (b : Bridge) (g : Settings) :
    (auditing b g).control = { b.control with settings := some g, state := .auditing } := by
  simp [auditing]

theorem auditing_iport (b : Bridge) (g : Settings) :
    (auditing b g).iport = classified b.iport b.control.straps .auditing (some g) := by
  simp [auditing]

end Bridge

theorem exec_anchorRead_due {s : State} {id : Nat} {q : MemRequest} (due : AnswerDue s id isAnchorRead q) (ok : Bool) :
    exec (.anchorReadDone id ok) s = AfterAnswer s q ok false
      ((s.chip.received id).anchorRead ok (Memory.readBytes s.mem q.addr q.length)) :=
  s.answered_due id ok false isAnchorRead (fun _ data b => b.anchorRead ok data) q due

/-! ## The checks of the anchor (R184) -/

/-- The layout that the anchor values give fails a check. -/
def BadLayout (g : Settings) (straps : Fin 16) : Prop :=
  (g.tableBase % 64 ≠ 0 ∨ g.moveBase % 32 ≠ 0 ∨ g.apertureBase % 8192 ≠ 0)
    ∨ (g.structureCount < 2 ∨ 256 < g.structureCount ∨ 64 < g.moveCount)
    ∨ (2 ^ 32 < g.apertureBase + 8192 ∨ 2 ^ 32 < g.tableBase + g.structureCount * 64
      ∨ (0 < g.moveCount ∧ 2 ^ 32 < g.moveBase + g.moveCount * 32))
    ∨ (Meet (straps.val * 2 ^ 28) 64 g.apertureBase 8192 ∨ Meet (straps.val * 2 ^ 28) 64 g.tableBase (g.structureCount * 64)
      ∨ Meet (straps.val * 2 ^ 28) 64 g.moveBase (g.moveCount * 32) ∨ Meet g.apertureBase 8192 g.tableBase (g.structureCount * 64)
      ∨ Meet g.apertureBase 8192 g.moveBase (g.moveCount * 32)
      ∨ Meet g.tableBase (g.structureCount * 64) g.moveBase (g.moveCount * 32))

/-- The levels that the anchor values give fail a check. -/
def BadLevels (g : Settings) : Prop := g.mustLevel < 1 ∨ 16 < g.mustLevel ∨ g.mustLevel ≤ g.releaseLevel

open Classical in
theorem startRefusal_eq (g : Settings) (straps : Fin 16) : g.startRefusal straps =
    if BadLayout g straps then some .layout else if BadLevels g then some .levels else none := by
  unfold Settings.startRefusal
  dsimp only
  rw [ite_either, ite_either, ite_either]
  refine ite_congr (propext ?_) (fun _ => rfl) (fun _ => ite_of_iff Iff.rfl)
  simp only [BadLayout, Region.overlaps_meet, or_assoc]
  rfl

/-- Settles O48: the answer refuses START or begins the audit, the checks are made in their order, and the values are read by
the layout of the anchor block. -/
theorem anchorReadLeadsToPassOrAuditing : Obligations.AnchorReadLeadsToPassOrAuditing := by
  refine ⟨?answered, ?values⟩
  case answered =>
    intro s id ok q due starting g waited
    refine ⟨(s.chip.received id).anchorRead ok (Memory.readBytes s.mem q.addr q.length), exec_anchorRead_due due ok,
      ?_, ?_, ?_, ?_⟩
    · rintro rfl
      rw [anchorRead_of_error (b := s.chip.received id) starting]
      obtain ⟨state, reason, settings, -, cache, misses, iport⟩ := refuseStart_eq (s.chip.received id) .memory
      exact ⟨state, reason, settings, cache, misses, iport⟩
    · rintro r rfl refused
      rw [anchorRead_of_refused (b := s.chip.received id) starting refused]
      obtain ⟨state, reason, settings, -, cache, misses, iport⟩ := refuseStart_eq (s.chip.received id) r
      exact ⟨state, reason, settings, cache, misses, iport⟩
    · rintro rfl passed
      rw [anchorRead_of_passed (b := s.chip.received id) starting passed]
      obtain ⟨control, iport, h, last⟩ := auditRead_struct (auditing (s.chip.received id) g) ⟨.struct 0, [], 0, []⟩ 0
      have table : (auditing (s.chip.received id) g).cfg.tableBase + 0 * 64 = g.tableBase := by
        simp [cfg, auditing_control]
      rw [table] at last
      rw [auditing_control] at control
      exact ⟨congrArg Control.state control, congrArg Control.settings control, iport.trans (auditing_iport _ _),
        congrArg Control.audit control, h, last⟩
    · intro g straps anchor structs moves layout levels
      have bad_layout : layout ↔ BadLayout g straps := by simp only [layout, BadLayout, or_assoc]; rfl
      rw [bad_layout, startRefusal_eq]
      exact ⟨fun bad => if_pos bad, fun good bad => (if_neg good).trans (if_pos bad), fun good fine => (if_neg good).trans (if_neg fine)⟩
  case values =>
    intro bs byte enables
    simp only [Settings.ofBytes, natAt_one, natAt_two, natAt_four, byteAt_eq]
    rfl

end Sys2Proof.Machine
end

