-- ==== Sys2Proof/Proofs/Audit.lean ====
section
/-! The audit: what a descriptor's validation asks (R17 to R20), and what each answer brings (R185). -/

namespace Sys2Proof.Machine

open Bridge

/-! ## Validation (R17) -/

namespace Descriptor

variable {d : Descriptor} {g : Settings} {straps : Fin 16} {n : Nat}

theorem isRing_iff : d.isRing = true ↔ d.kind = kindRing := beq_iff_eq

theorem isStack_iff : d.isStack = true ↔ d.kind = kindStack := beq_iff_eq

theorem isTally_iff : d.isTally = true ↔ d.kind = kindTally := beq_iff_eq

theorem isOff_iff : d.isOff = true ↔ d.kind = kindOff := beq_iff_eq

theorem isHalted_iff : d.isHalted = true ↔ d.state = stHalted := beq_iff_eq

theorem shapeOk_iff : d.shapeOk n = true ↔
    (n = 0 → d.kind = kindRing ∧ d.itemSize = 8 ∧ (d.state = stOpen ∨ d.state = stHalted))
    ∧ (n = 1 → d.kind = kindRing ∧ d.itemSize = 16 ∧ d.fullPolicy = 0 ∧ 1 ≤ d.high.toNat
      ∧ (d.state = stOpen ∨ d.state = stHalted)) := by
  match n with
  | 0 => simp [shapeOk, isRing_iff, and_assoc]
  | 1 => simp [shapeOk, isRing_iff, and_assoc]
  | _ + 2 => simp [shapeOk]

theorem commonOk_iff {moves : Nat} : d.commonOk moves = true ↔
    (d.state = stOpen ∨ d.state = stClosed ∨ d.state = stHalted) ∧ d.cause.toNat ≤ 5
    ∧ (d.state = stHalted ↔ d.cause = causeReserve ∨ d.cause = causeMemory ∨ d.cause = causeDescriptor)
    ∧ (d.condition = condNone ∨ ((d.condition = condHigh ∨ d.condition = condLow) ∧ (d.kind = kindRing ∨ d.kind = kindStack))
      ∨ (d.condition = condWrap ∧ d.kind = kindTally))
    ∧ (d.condition ≠ condNone → d.triggerMove.toNat < moves) := by
  have halted : (d.isHalted == (d.cause == causeReserve || d.cause == causeMemory || d.cause == causeDescriptor)) = true ↔
      (d.state = stHalted ↔ d.cause = causeReserve ∨ d.cause = causeMemory ∨ d.cause = causeDescriptor) := by
    rw [beq_iff_eq, Bool.eq_iff_iff, isHalted_iff]
    simp [or_assoc]
  simp only [commonOk, Bool.and_eq_true, halted, Bool.or_eq_true, beq_iff_eq, decide_eq_true_eq, isRing_iff, isStack_iff,
    isTally_iff, and_assoc, or_assoc, Decidable.imp_iff_not_or, ne_eq, Decidable.not_not]

theorem storageOk_iff : d.storageOk g straps = true ↔
    (d.itemSize = 4 ∨ d.itemSize = 8 ∨ d.itemSize = 16) ∧ 1 ≤ d.cap ∧ d.base.toNat % d.size = 0
    ∧ d.base.toNat + d.cap * d.size ≤ 2 ^ 32 ∧ ClearOfRegions g straps d.base.toNat (d.cap * d.size)
    ∧ d.high.toNat ≤ d.cap ∧ d.low.toNat ≤ d.cap ∧ d.emptyPolicy.toNat ≤ 1 ∧ d.fillValue.toNat ≤ 1 := by
  simp only [storageOk, Bool.and_eq_true, Bool.or_eq_true, beq_iff_eq, decide_eq_true_eq, Settings.clearOf_iff, and_assoc, or_assoc]
  rfl

theorem ringOk_iff : d.ringOk = true ↔ d.fullPolicy.toNat ≤ 1 ∧ d.head < d.cap ∧ d.count ≤ d.cap := by
  simp only [ringOk, Bool.and_eq_true, decide_eq_true_eq, and_assoc]

theorem stackOk_iff (stack : d.kind = kindStack) : d.stackOk = true ↔
    1 ≤ d.limit ∧ d.limit + 5 ≤ d.cap ∧ d.frame ≤ d.depth ∧ d.depth ≤ d.cap ∧ d.b38.toNat ≤ 1
    ∧ (d.b38 = 0 → d.depth ≤ d.limit)
    ∧ (d.b38 = 1 → d.cause = causeOverflow ∨ d.cause = causeReserve ∨ d.cause = causeMemory ∨ d.cause = causeDescriptor) := by
  have guard : d.guardOpen = true ↔ d.b38 = 1 := by
    rw [guardOpen, isStack_iff.mpr stack, Bool.true_and, beq_iff_eq]
  have shut (legal : d.b38.toNat ≤ 1) : d.b38 = 1 ↔ ¬ d.b38 = 0 := by
    simp only [← BitVec.toNat_inj]
    show d.b38.toNat = 1 ↔ ¬ d.b38.toNat = 0
    omega
  simp only [stackOk, Bool.and_eq_true, decide_eq_true_eq, and_assoc, Bool.or_eq_true, Bool.not_eq_true', ← Bool.not_eq_true,
    guard, beq_iff_eq, or_assoc]
  refine and_congr_right fun _ => and_congr_right fun _ => and_congr_right fun _ => and_congr_right fun _ => and_congr_right fun legal =>
    and_congr ?_ Decidable.imp_iff_not_or.symm
  rw [shut legal, Decidable.imp_iff_not_or]

theorem tallyOk_iff : d.tallyOk = true ↔ d.lower ≤ d.value ∧ d.value ≤ d.upper ∧ d.step ≠ 0 ∧ d.b38.toNat ≤ 1 := by
  simp only [tallyOk, Bool.and_eq_true, decide_eq_true_eq, and_assoc]

theorem valid_iff : d.valid g straps n = true ↔ d.shapeOk n = true ∧ (d.kind = kindOff ∨ (d.commonOk g.moveCount = true
    ∧ ((d.kind = kindRing ∧ d.storageOk g straps = true ∧ d.ringOk = true)
      ∨ (d.kind = kindStack ∧ d.storageOk g straps = true ∧ d.stackOk = true) ∨ (d.kind = kindTally ∧ d.tallyOk = true)))) := by
  simp only [valid, Bool.and_eq_true, Bool.or_eq_true, isRing_iff, isStack_iff, isTally_iff, isOff_iff, and_assoc, or_assoc]

theorem passes_iff : d.passes g straps n = true ↔ (d.state = stHalted ∧ d.cause = causeDescriptor ∧ d.kind.toNat ≤ 3)
    ∨ d.closingAsClosed.valid g straps n = true := by
  simp only [passes, alreadyMarked, Bool.or_eq_true, Bool.and_eq_true, decide_eq_true_eq, descriptorHalt_iff, and_assoc]

end Descriptor

namespace Bridge

variable {b : Bridge} {a : Audit}

/-- A STRUCT end fits what the audit read of its structure (R133). -/
theorem auditEndFits_iff (a : Audit) (size : Byte) (e : Option Nat) : auditEndFits a size e = true ↔
    e = none ∨ ∃ i k, e = some i ∧ a.shapes[i]? = some (k, size) ∧ k ≠ kindOff ∧ k ≠ kindTally := by
  cases e with
  | none => simp [auditEndFits]
  | some i =>
    cases read : a.shapes[i]? with
    | none => simp [auditEndFits, read]
    | some shape =>
      obtain ⟨k, item⟩ := shape
      simp only [auditEndFits, read, endFits, Bool.and_eq_true, bne_iff_ne, beq_iff_eq]
      constructor
      · rintro ⟨⟨not_off, not_tally⟩, rfl⟩
        exact Or.inr ⟨i, k, rfl, read, not_off, not_tally⟩
      · rintro (absent | ⟨i', k', here, shape, not_off, not_tally⟩)
        · exact absurd absent (by simp)
        · rw [← Option.some.inj here, read] at shape
          obtain ⟨rfl, rfl⟩ := Prod.mk.inj (Option.some.inj shape)
          exact ⟨⟨not_off, not_tally⟩, rfl⟩

/-! ## The answers (R185) -/

theorem auditReadBack_of_error (auditing : b.control.state = .auditing) (audit : b.control.audit = some a) (data : List Byte) :
    b.auditReadBack false data = b.refuseStart .memory := by
  simp [auditReadBack, auditing, audit]

theorem auditReadBack_of_struct (auditing : b.control.state = .auditing) (audit : b.control.audit = some a) {n : Nat}
    (position : a.position = .struct n) (data : List Byte) :
    b.auditReadBack true data = b.auditStruct a n (Descriptor.ofBytes data) := by
  simp [auditReadBack, auditing, audit, position]

theorem auditReadBack_of_move (auditing : b.control.state = .auditing) (audit : b.control.audit = some a) {m : Nat}
    (position : a.position = .move m) (data : List Byte) :
    b.auditReadBack true data = b.auditMove a m (MoveDescriptor.ofBytes data) := by
  simp [auditReadBack, auditing, audit, position]

theorem auditWriteBack_of_auditing (auditing : b.control.state = .auditing) (audit : b.control.audit = some a) (ok : Bool) :
    b.auditWriteBack ok = if ok then b.auditNext a else b.refuseStart .memory := by
  simp [auditWriteBack, auditing, audit]

section Struct

variable {n : Nat} {raw : Descriptor}

/-- The audit with what the descriptor read says of its structure. -/
def withShape (a : Audit) (raw : Descriptor) : Audit := { a with shapes := a.shapes ++ [(raw.kind, raw.itemSize)] }

theorem auditStruct_of_fixed (fixed : n ≤ 1) : b.auditStruct a n raw =
    if raw.valid b.cfg b.control.straps n = true ∧ raw.state = stOpen then b.auditNext (withShape a raw)
    else b.refuseStart (if n = 0 then .commandRing else .noticeRing) :=
  if_pos fixed

theorem auditStruct_of_free (free : 1 < n) : b.auditStruct a n raw =
    if raw.passes b.cfg b.control.straps n = false then
      b.auditWrite { withShape a raw with findings := a.findings ++ [n] } (b.cfg.tableBase + n * 64 + 1) [stHalted, causeDescriptor]
    else if raw.closingAsClosed ≠ raw then b.auditWrite (withShape a raw) (b.cfg.tableBase + n * 64 + 1) [stClosed]
    else b.auditNext (withShape a raw) :=
  if_neg (Nat.not_le.mpr free)

end Struct

theorem auditWrite_eq (b : Bridge) (a : Audit) (addr : Nat) (bytes : List Byte) :
    (b.auditWrite a addr bytes).control = { b.control with audit := some a }
      ∧ ∃ h, (b.auditWrite a addr bytes).mport.waiting.getLast? = some ⟨h, .auditWrite, true, addr, bytes, bytes.length, false⟩ :=
  ⟨rfl, issue_last _ _ _ _ _ _⟩

end Bridge

section Answers

variable {s : State} {id : Nat} {q : MemRequest}

theorem exec_auditRead_due (due : AnswerDue s id isAuditRead q) (ok : Bool) : exec (.auditReadDone id ok) s =
    AfterAnswer s q ok false ((s.chip.received id).auditReadBack ok (Memory.readBytes s.mem q.addr q.length)) :=
  s.answered_due id ok false isAuditRead (fun _ data b => b.auditReadBack ok data) q due

theorem exec_auditWrite_due (due : AnswerDue s id isAuditWrite q) (ok : Bool) : exec (.auditWriteDone id ok) s =
    AfterAnswer s q ok false ((s.chip.received id).auditWriteBack ok) :=
  s.answered_due id ok false isAuditWrite (fun _ _ b => b.auditWriteBack ok) q due

end Answers

/-- Settles O49: each answer of the audit by its kind and its descriptor, and validation by its clauses. -/
theorem auditJudgesEachDescriptor : Obligations.AuditJudgesEachDescriptor := by
  intro s a id q audit g data refused writes
  let b := s.chip.received id
  have refuses {c : Instr} {ok : Bool} {r : StartReason} (done : exec c s = AfterAnswer s q ok false (b.refuseStart r)) :
      refused c ok r := by
    obtain ⟨state, reason, settings, findings, -, -, iport⟩ := refuseStart_eq b r
    exact ⟨b.refuseStart r, done, state, reason, findings, settings, iport⟩
  refine ⟨fun auditing => ?_, ?valid⟩
  · have back (due : AnswerDue s id isAuditRead q) {b' : Bridge} (h : b.auditReadBack true data = b') :
        exec (.auditReadDone id true) s = AfterAnswer s q true false b' :=
      (exec_auditRead_due due true).trans (congrArg (AfterAnswer s q true false) h)
    have writes_of (due : AnswerDue s id isAuditRead q) {a' : Audit} {addr : Nat} {bytes : List Byte}
        (h : b.auditReadBack true data = b.auditWrite a' addr bytes) : writes addr bytes a' := by
      obtain ⟨control, last⟩ := auditWrite_eq b a' addr bytes
      exact ⟨_, back due h, congrArg Control.audit control, (congrArg Control.state control).trans auditing, last⟩
    refine ⟨fun due => ?readError, fun due => ?writeError, fun n due position => ?struct, fun m due position => ?move,
      fun due => ?written⟩
    case readError =>
      exact refuses ((exec_auditRead_due due false).trans
        (congrArg (AfterAnswer s q false false) (auditReadBack_of_error (b := b) auditing audit data)))
    case writeError =>
      exact refuses ((exec_auditWrite_due due false).trans
        (congrArg (AfterAnswer s q false false) (auditWriteBack_of_auditing (b := b) auditing audit false)))
    case written =>
      exact (exec_auditWrite_due due true).trans
        (congrArg (AfterAnswer s q true false) (auditWriteBack_of_auditing (b := b) auditing audit true))
    case struct =>
      intro d a'
      have judged : b.auditReadBack true data = b.auditStruct a n d :=
        auditReadBack_of_struct (b := b) auditing audit position data
      have passes_not (passes : d.passes g s.chip.control.straps n = true) : ¬ d.passes b.cfg b.control.straps n = false :=
        fun fails => Bool.false_ne_true (fails.symm.trans passes)
      have fixed_judged (fixed : n ≤ 1) : b.auditReadBack true data = _ := judged.trans (auditStruct_of_fixed fixed)
      have free_judged (free : 1 < n) : b.auditReadBack true data = _ := judged.trans (auditStruct_of_free free)
      refine ⟨fun fixed bad => refuses (back due ((fixed_judged fixed).trans (if_neg bad))),
        fun free fails => writes_of due ((free_judged free).trans (if_pos fails)),
        fun free passes closing => writes_of due ((free_judged free).trans ((if_neg (passes_not passes)).trans (if_pos closing))), ?_⟩
      rintro (⟨fixed, valid, isOpen⟩ | ⟨free, passes, closed⟩)
      · exact back due ((fixed_judged fixed).trans (if_pos ⟨valid, isOpen⟩))
      · exact back due ((free_judged free).trans ((if_neg (passes_not passes)).trans (if_neg fun h => h closed)))
    case move =>
      intro d passes
      have judged : b.auditReadBack true data = b.auditMove a m d :=
        auditReadBack_of_move (b := b) auditing audit position data
      exact ⟨fun good => back due (judged.trans (if_pos good)), fun bad => writes_of due (judged.trans (if_neg bad))⟩
  case valid =>
    intro d g straps n ring stack tally shape common storage ringOk stackOk tallyOk
    refine ⟨auditEndFits_iff a, ?_, rfl, Descriptor.passes_iff⟩
    have stack_fields : d.kind = kindStack ∧ d.storageOk g straps = true ∧ d.stackOk = true
        ↔ d.kind = kindStack ∧ d.storageOk g straps = true ∧ stackOk :=
      and_congr_right fun kind => and_congr_right fun _ => Descriptor.stackOk_iff kind
    rw [Descriptor.valid_iff, stack_fields, Descriptor.shapeOk_iff, Descriptor.commonOk_iff, Descriptor.storageOk_iff,
      Descriptor.ringOk_iff, Descriptor.tallyOk_iff]

end Sys2Proof.Machine
end

