-- ==== Sys2Proof/Proofs/AuditEnd.lean ====
section
/-! The end of the audit (R185, R186). -/

namespace Sys2Proof.Machine

open Bridge

namespace Bridge

/-- What a notice that finds room leaves of bridge control: a cache that empties itself for QUIET stops (R123, R168). -/
theorem notify_control_of_room {b : Bridge} (room : b.notices.queue.length < 8) (x : Notice) : (b.notify x).control = { b.control with
    emptying := false, idleTimer := if b.control.emptying = true then fullTimer b else b.control.idleTimer } := by
  have joins : b.notify x = cancelEmptying { b with notices := { b.notices with queue := b.notices.queue ++ [x] } } := if_pos room
  rw [joins, cancelEmptying_eq]
  rfl

theorem auditNext_of_struct {b : Bridge} {a : Audit} {n : Nat} (position : a.position = .struct n) : b.auditNext a =
    if n + 1 < b.cfg.structureCount then b.auditRead a (.struct (n + 1))
    else if 0 < b.cfg.moveCount then b.auditRead a (.move 0) else b.enterRun a := by
  simp only [auditNext, position]

theorem auditNext_of_move {b : Bridge} {a : Audit} {m : Nat} (position : a.position = .move m) : b.auditNext a =
    if m + 1 < b.cfg.moveCount then b.auditRead a (.move (m + 1)) else b.enterRun a := by
  simp only [auditNext, position]

/-- The last descriptor is followed by RUN (R186). -/
theorem auditNext_of_last {b : Bridge} {a : Audit} (last : (∃ n, a.position = .struct n ∧ b.cfg.structureCount ≤ n + 1
    ∧ b.cfg.moveCount = 0) ∨ (∃ m, a.position = .move m ∧ b.cfg.moveCount ≤ m + 1)) : b.auditNext a = b.enterRun a := by
  rcases last with ⟨n, position, above, no_moves⟩ | ⟨m, position, above⟩
  · rw [auditNext_of_struct position, if_neg (Nat.not_lt.mpr above), if_neg (by omega)]
  · rw [auditNext_of_move position, if_neg (Nat.not_lt.mpr above)]

/-- The bridge in RUN, before its notice and its timer. -/
def inRun (b : Bridge) (a : Audit) : Bridge :=
  setState { b with control := { b.control with
    dropped := 0, firstDropped := none, lastRefusal := LastRefusal.nothing, audit := none, findings := a.findings } } .run

theorem inRun_fields (b : Bridge) (a : Audit) : (inRun b a).notices = b.notices ∧ (inRun b a).iport = b.iport
    ∧ (inRun b a).command = b.command ∧ (inRun b a).control = { b.control with
      dropped := 0, firstDropped := none, lastRefusal := LastRefusal.nothing, audit := none, findings := a.findings, state := .run } := by
  simp [inRun]

section EnterRun

variable {b : Bridge} {a : Audit}

theorem enterRun_control (room : b.notices.queue.length < 8) : (b.enterRun a).control = { b.control with
    dropped := 0, firstDropped := none, lastRefusal := LastRefusal.nothing, audit := none, findings := a.findings, state := .run,
    emptying := false, idleTimer := fullTimer b } := by
  obtain ⟨notices, -, -, control⟩ := inRun_fields b a
  rw [← notices] at room
  show ((((inRun b a).notify _).startTimer).wakeCommand).reclassify.control = _
  have settings : (inRun b a).control.settings = b.control.settings := by rw [control]
  simp only [startTimer, reclassify_fields, wakeCommand_frame, notify_control_of_room room, cfg, settings]
  rw [control]
  rfl

theorem enterRun_notices (room : b.notices.queue.length < 8) :
    (b.enterRun a).notices.queue = b.notices.queue ++ [startedNotice a.findings.length a.movesMarked] := by
  obtain ⟨notices, -, -, -⟩ := inRun_fields b a
  rw [← notices] at room ⊢
  show ((((inRun b a).notify _).startTimer).wakeCommand).reclassify.notices.queue = _
  rw [notify_of_room _ _ room]
  simp

theorem enterRun_command (b : Bridge) (a : Audit) :
    (b.enterRun a).command = if b.command.state = .idle then { b.command with wake := true } else b.command := by
  obtain ⟨-, -, command, -⟩ := inRun_fields b a
  show ((((inRun b a).notify _).startTimer).wakeCommand).reclassify.command = _
  simp only [reclassify_fields, wakeCommand]
  split <;> simp_all

theorem enterRun_iport (b : Bridge) (a : Audit) :
    (b.enterRun a).iport = classified b.iport b.control.straps .run b.control.settings := by
  obtain ⟨-, iport, -, control⟩ := inRun_fields b a
  show ((((inRun b a).notify _).startTimer).wakeCommand).reclassify.iport = _
  simp [iport, control]

end EnterRun

end Bridge

/-- Settles O50: the next read, or RUN with its fields, and the findings' notices in order. -/
theorem auditEndsInRun : Obligations.AuditEndsInRun := by
  refine ⟨fun b a => ⟨fun n position below => ?_, fun n position above moves => ?_, fun m position below => ?_,
    fun last room => ?_⟩, fun s n rest findings running room => ?_⟩
  · rw [auditNext_of_struct position, if_pos below]
    obtain ⟨-, -, read⟩ := auditRead_struct b a (n + 1)
    exact read
  · rw [auditNext_of_struct position, if_neg (Nat.not_lt.mpr above), if_pos moves]
    have read := auditRead_move b a 0
    rwa [Nat.zero_mul, Nat.add_zero] at read
  · rw [auditNext_of_move position, if_pos below]
    exact auditRead_move b a (m + 1)
  · intro r
    have last_run : r = b.enterRun a := auditNext_of_last last
    rw [last_run, enterRun_control room]
    exact ⟨rfl, rfl, rfl, rfl, rfl, rfl, rfl, enterRun_command b a, enterRun_iport b a, enterRun_notices room⟩
  · refine s.event_settle Bridge.auditFault _ ?_
    simp only [auditFault, findings]
    exact if_pos ⟨running, room⟩

end Sys2Proof.Machine
end

