-- ==== Sys2Proof/Proofs/StopSteps.lean ====
section
/-! The idle timer's expiry and the steps of STOPPING (R123, R187, R188), and the end of an emptying of the record cache. -/

namespace Sys2Proof.Machine

open Bridge

namespace Bridge

variable {b : Bridge}

/-! ## At rest (R187) -/

theorem noSnoopWaits_iff : b.noSnoopWaits = true ↔
    ∀ r ∈ b.iport.inflight, ∀ todo, r.phase ≠ .snooping todo ∧ r.phase ≠ .moveWait todo := by
  refine List.all_eq_true.trans (forall₂_congr fun r _ => ?_)
  cases r.phase <;> simp

theorem cacheAtRest_iff : b.cacheAtRest = true ↔
    b.misses = [] ∧ ∀ e ∈ b.cache, e.busy = none ∧ e.waiting = [] ∧ e.held = [] ∧ e.heldRelease = false := by
  simp [cacheAtRest, and_assoc]

theorem atRest_iff : b.atRest = true ↔ b.command.state = .idle ∧ b.command.lastEmpty = true ∧ b.command.wake = false
    ∧ (b.engine.state = .idle ∨ b.engine.state = .paused) ∧ b.trigger.link = none ∧ b.trigger.completion = none
    ∧ b.trigger.pending = [] ∧ b.notices.queue = [] ∧ b.control.findings = [] ∧ b.misses = []
    ∧ (∀ e ∈ b.cache, e.busy = none ∧ e.waiting = [] ∧ e.held = [] ∧ e.heldRelease = false)
    ∧ (∀ r ∈ b.iport.inflight, ∀ todo, r.phase ≠ .snooping todo ∧ r.phase ≠ .moveWait todo) := by
  simp only [atRest, Bool.and_eq_true, Bool.or_eq_true, beq_iff_eq, Bool.not_eq_true', Option.isNone_iff_eq_none, List.isEmpty_iff,
    cacheAtRest_iff, noSnoopWaits_iff, and_assoc]

theorem timerExpires_of_running (run : b.control.state = .run) (timed : b.control.idleTimer.isSome = true) :
    b.timerExpires = if b.atRest then some { b with control := { b.control with idleTimer := none, emptying := true } }
      else some b.startTimer :=
  if_pos ⟨run, timed⟩

/-! ## The STOP sequence (R188) -/

theorem tapsAnswered_iff : b.tapsAnswered = true ↔
    ∀ r ∈ b.iport.inflight, r.cls = .tap → ∃ ok data, r.phase = .answered ok data := by
  refine List.all_eq_true.trans (forall₂_congr fun r _ => ?_)
  rw [Bool.or_eq_true, bne_iff_ne, ← Decidable.imp_iff_not_or]
  refine imp_congr_right fun _ => ?_
  cases r.phase <;> simp

theorem setCleared_keeps (b : Bridge) (k : Nat) : (b.setCleared k).control.clearedPending = k
    ∧ (b.setCleared k).cache = b.cache ∧ (b.setCleared k).notices = b.notices := by
  unfold setCleared
  split
  case isTrue same => exact ⟨same, rfl, rfl⟩
  case isFalse => simp

/-! ## The cache has emptied itself (R123, R188, R189) -/

theorem cacheSettled_iff : b.cacheSettled = true ↔
    b.misses = [] ∧ ∀ e ∈ b.cache, e.state = .clean ∧ e.busy = none ∧ e.waiting = [] ∧ e.pin = false := by
  simp [cacheSettled, and_assoc]

theorem startAccess_iff : b.startAccess = false ↔ ∀ q ∈ b.mport.waiting ++ b.mport.outstanding, q.abandoned = false →
    q.access ≠ .anchorRead ∧ q.access ≠ .auditRead ∧ q.access ≠ .auditWrite := by
  refine List.any_eq_false.trans (forall₂_congr fun q _ => ?_)
  simp only [Bool.and_eq_true, Bool.or_eq_true, Bool.not_eq_true', beq_iff_eq, not_and, not_or, and_assoc]

theorem mirror_queued (b : Bridge) : ∃ q ∈ b.mirror.mport.waiting, q.access = .mirror := by
  unfold mirror
  split
  case isTrue queued => simpa using queued
  case isFalse => exact ⟨_, List.mem_append_right _ (List.mem_singleton_self _), rfl⟩

/-- What a bridge keeps and loses when every entry is freed. -/
def Frees (b b' : Bridge) : Prop :=
  b'.cache = [] ∧ b'.misses = [] ∧ b'.episode = false ∧ b'.engine = b.engine ∧ b'.trigger = b.trigger ∧ b'.command = b.command
    ∧ b'.notices = b.notices ∧ b'.mport.outstanding = b.mport.outstanding ∧ ∃ q ∈ b'.mport.waiting, q.access = .mirror

theorem setState_frees (b : Bridge) (c : Control) (t : BridgeState) : Frees b (setState { b.freeAll with control := c } t) := by
  unfold Frees
  simp [freeAll, setState, mirror_queued]

theorem enterPass_frees (b : Bridge) : Frees b b.enterPass :=
  setState_frees b _ .pass

/-- What waits is classified in PASS by the start word alone (R175, R177). -/
theorem classified_pass (i : IPort) (straps : Fin 16) : classified i straps .pass none = { i with inflight := i.inflight.map (fun r =>
    if r.cls = .unknown ∨ r.cls = .apertureWait ∨ r.cls = .tableWait then
      { r with cls := if r.request.coversStartWord straps = true then .anchorStart else .plain } else r) } := by
  simp only [classified, classify_of_pass]

section Steps

variable (b)

theorem emptyStep_of_run (run : b.control.state = .run) : b.emptyStep =
    if b.control.emptying = true ∧ b.cacheSettled = true then
      some (setState { b.freeAll with control := { b.control with emptying := false, idleTimer := none } } .quiet) else none := by
  simp [emptyStep, run]

theorem emptyStep_of_stopping (stopping : b.control.state = .stopping) : b.emptyStep =
    if b.control.stopStage = .emptying ∧ b.cacheSettled = true then some b.enterPass
    else if b.control.stopStage = .halting ∧ b.startAccess = false then
      some (enterPass { b with control := { b.control with clearedPending := 0 } }) else none := by
  simp [emptyStep, stopping]

theorem emptyStep_of_warm (warm : b.control.state = .warm) : b.emptyStep =
    if b.cacheSettled = true ∧ b.startAccess = false then some b.enterPass else none := by
  simp [emptyStep, warm]

theorem emptyStep_of_other (other : b.control.state ≠ .run ∧ b.control.state ≠ .stopping ∧ b.control.state ≠ .warm) :
    b.emptyStep = none := by
  simp [emptyStep, other]

end Steps

end Bridge

/-- Settles O51: the timer's expiry by `atRest`, the three steps of STOPPING, and the end of an emptying by the bridge state. -/
theorem idleExpiryAndStopStepsComplete : Obligations.IdleExpiryAndStopStepsComplete := by
  intro s b
  refine ⟨?expiry, ?clears, ?empty, atRest_iff, ?settles⟩
  case expiry =>
    intro run timed
    have expires := timerExpires_of_running run timed
    refine ⟨fun rest => s.event_settle Bridge.timerExpires _ (expires.trans (if_pos rest)), fun busy => ?_⟩
    exact s.event_settle Bridge.timerExpires _ (expires.trans (if_neg (by rw [busy]; exact Bool.false_ne_true)))
  case clears =>
    intro stopping finishing idle unloaded quiet no_completion answered
    have taps : b.tapsAnswered = true := tapsAnswered_iff.mpr answered
    obtain ⟨cleared, cache, notices⟩ := setCleared_keeps b b.trigger.pending.length
    exact ⟨_, s.event_settle Bridge.clearPending _ (if_pos ⟨stopping, finishing, idle, unloaded, quiet, no_completion, taps⟩),
      rfl, cleared, rfl, cache, notices⟩
  case empty =>
    intro stopping draining empty
    exact s.event_settle Bridge.beginEmptying _ (if_pos ⟨stopping, draining, empty⟩)
  case settles =>
    intro settled answered empties stops halts resets frees passes
    have is_settled : b.cacheSettled = true ↔ settled := cacheSettled_iff
    have is_answered : b.startAccess = false ↔ answered := startAccess_iff
    have enters {k : Nat} {b1 : Bridge} (step : b.emptyStep = some b1.enterPass)
        (cleared : b1 = { b with control := { b.control with clearedPending := k } }) : passes k := by
      obtain ⟨-, -, iport⟩ := enterPass_holdings b1
      have control := enterPass_control b1
      rw [classified_pass] at iport
      subst cleared
      exact ⟨_, step, enterPass_frees _, control, iport⟩
    refine ⟨fun ⟨run, emptying, all⟩ => ?_, fun ⟨stopping, stage, all⟩ => ?_, fun ⟨stopping, stage, done⟩ => ?_,
      fun ⟨warm, all, done⟩ => ?_, fun no_empties no_stops no_halts no_resets => ?_⟩
    · refine ⟨_, (emptyStep_of_run b run).trans (if_pos ⟨emptying, is_settled.mpr all⟩), setState_frees b _ .quiet, ?_, ?_⟩
      · simp [freeAll]
      · simp
    · exact enters (b1 := b) ((emptyStep_of_stopping b stopping).trans (if_pos ⟨stage, is_settled.mpr all⟩)) rfl
    · refine enters ((emptyStep_of_stopping b stopping).trans ((if_neg ?_).trans (if_pos ⟨stage, is_answered.mpr done⟩))) rfl
      rintro ⟨emptying, -⟩
      exact absurd (stage.symm.trans emptying) (by decide)
    · exact enters (b1 := b) ((emptyStep_of_warm b warm).trans (if_pos ⟨is_settled.mpr all, is_answered.mpr done⟩)) rfl
    · by_cases run : b.control.state = .run
      · exact (emptyStep_of_run b run).trans (if_neg fun ⟨emptying, all⟩ => no_empties ⟨run, emptying, is_settled.mp all⟩)
      by_cases stopping : b.control.state = .stopping
      · exact (emptyStep_of_stopping b stopping).trans ((if_neg fun ⟨stage, all⟩ => no_stops ⟨stopping, stage, is_settled.mp all⟩).trans
          (if_neg fun ⟨stage, done⟩ => no_halts ⟨stopping, stage, is_answered.mp done⟩))
      by_cases warm : b.control.state = .warm
      · exact (emptyStep_of_warm b warm).trans (if_neg fun ⟨all, done⟩ => no_resets ⟨warm, is_settled.mp all, is_answered.mp done⟩)
      exact emptyStep_of_other b ⟨run, stopping, warm⟩

end Sys2Proof.Machine
end

