-- ==== Sys2Proof/Proofs/Fetch.lean ====
section
/-! The answer to a fetch (R18, R109, R110, R124), and the layout of a structure descriptor (R182). -/

namespace Sys2Proof.Machine

open Bridge

/-! ## What a fetch makes of the bytes read (R17, R18, R109) -/

namespace Descriptor

variable {d : Descriptor} {g : Settings} {straps : Fin 16} {n : Nat}

theorem ofBytes_eq (bs : List Byte) : Descriptor.ofBytes bs =
    { kind := byteIn bs 0, state := byteIn bs 1, cause := byteIn bs 2, itemSize := byteIn bs 3, capacity := halfIn bs 4,
      condition := byteIn bs 6, triggerMove := byteIn bs 7, base := wordIn bs 8, high := halfIn bs 12, low := halfIn bs 14,
      producers := halfIn bs 16, consumers := halfIn bs 18, fullPolicy := byteIn bs 20, emptyPolicy := byteIn bs 21,
      fillValue := byteIn bs 22, flags := byteIn bs 23, discard := halfIn bs 24, flushed := halfIn bs 26,
      rsv28 := wordIn bs 28, w32 := halfIn bs 32, w34 := halfIn bs 34, w36 := halfIn bs 36, b38 := byteIn bs 38,
      b39 := byteIn bs 39, w40 := wordIn bs 40, w44 := wordIn bs 44, w48 := halfIn bs 48,
      rsv50 := BitVec.ofNat 112 (natAt bs 50 14) } := by
  simp only [Descriptor.ofBytes, byteAt_eq, halfAt_eq, wordAt_eq]

theorem guardOpen_iff : d.guardOpen = true ↔ d.kind = kindStack ∧ d.b38 = 1 := by
  simp only [guardOpen, Bool.and_eq_true, isStack_iff, beq_iff_eq]

theorem stick_iff : d.stick = true ↔ d.b38 = 1 := beq_iff_eq

theorem isRing_eq : d.isRing = decide (d.kind = kindRing) :=
  Bool.eq_iff_iff.mpr (isRing_iff.trans decide_eq_true_iff.symm)

/-- One that is marked already has no CLOSING state to close. -/
theorem closingAsClosed_of_marked (halted : d.alreadyMarked = true) : d.closingAsClosed = d := by
  refine if_neg fun closing => ?_
  simp only [alreadyMarked, Bool.and_eq_true, descriptorHalt_iff, closing] at halted
  obtain ⟨⟨state, -⟩, -⟩ := halted
  exact absurd state (by decide)

theorem fetched_of_passes (passes : d.passes g straps n = true) : d.fetched g straps n = d.closingAsClosed := by
  by_cases marked : d.alreadyMarked = true
  · rw [fetched, if_pos marked, closingAsClosed_of_marked marked]
  · have valid := ((Bool.or_eq_true _ _).mp passes).resolve_left marked
    rw [fetched, if_neg marked, if_pos valid]

theorem fetched_of_fails (fails : d.passes g straps n = false) :
    d.fetched g straps n = { d with state := stHalted, cause := causeDescriptor } := by
  obtain ⟨unmarked, invalid⟩ := Bool.or_eq_false_iff.mp fails
  rw [fetched, unmarked, invalid]
  rfl

end Descriptor

namespace Bridge

/-- The entry `n` as a fetch leaves it. -/
def filled (b : Bridge) (n : Nat) (d : Descriptor) (st : EntryState) : Bridge :=
  b.setEntry n (fun x => { x with copy := d, state := st })

theorem fetchTaken_of_passes {b : Bridge} {n : Nat} {raw : Descriptor} (passes : raw.passes b.cfg b.control.straps n = true) :
    b.fetchTaken n raw =
      let good := raw.closingAsClosed
      let judged := (filled b n good (if good = raw then .clean else .dirty)).judgeLines n good true (decide (good.kind = kindRing))
      if n = 0 then judged.wakeCommand else judged := by
  simp only [fetchTaken, passes, Descriptor.fetched_of_passes passes, true_and, if_true, Bool.true_and, Descriptor.isRing_eq]
  rfl

theorem fetchTaken_of_fails {b : Bridge} {n : Nat} {raw : Descriptor} (fails : raw.passes b.cfg b.control.straps n = false) :
    b.fetchTaken n raw =
      let bad : Descriptor := { raw with state := stHalted, cause := causeDescriptor }
      let judged := ((filled b n bad .dirty).notify (faultNotice n .descriptor 0 false)).judgeLines n bad false false
      if n = 0 then judged.wakeCommand else judged := by
  simp only [fetchTaken, fails, Descriptor.fetched_of_fails fails, Bool.false_and, Bool.false_eq_true, false_and, if_false]
  rfl

/-- What joins the queue at one moment joins in one of the two orders (log 6). -/
theorem faultWith_either (b : Bridge) (x : Notice) (rest : Bridge → Bridge) :
    b.faultWith x rest = rest (b.notify x) ∨ b.faultWith x rest = (rest b).notify x := by
  unfold faultWith
  split
  · exact Or.inl rfl
  · exact Or.inr rfl

section Done

variable {b : Bridge} {n : Nat} {e : Entry}

theorem fetchDone_of_warm (held : b.entry? n = some e) (fetching : ∃ issued, e.state = .fetching issued)
    (warm : b.control.state = .warm) (ok : Bool) (data : List Byte) : b.fetchDone n ok data = b.dropEntry e := by
  obtain ⟨issued, state⟩ := fetching
  simp only [fetchDone, held, state, warm, if_true]

theorem fetchDone_of_awake (held : b.entry? n = some e) (fetching : ∃ issued, e.state = .fetching issued)
    (awake : b.control.state ≠ .warm) (ok : Bool) (data : List Byte) :
    b.fetchDone n ok data = if ok then b.fetchTaken n (Descriptor.ofBytes data) else b.fetchFailed e := by
  obtain ⟨issued, state⟩ := fetching
  simp only [fetchDone, held, state, awake, if_false]

end Done

end Bridge

theorem exec_fetch_due {s : State} {id n : Nat} {q : MemRequest} (due : AnswerDue s id isFetch q) (access : q.access = .fetch n)
    (ok : Bool) : exec (.fetchComplete id ok) s =
      AfterAnswer s q ok false ((s.chip.received id).fetchDone n ok (Memory.readBytes s.mem q.addr q.length)) :=
  (s.answered_due id ok false isFetch (fun q data b => b.fetchDone (cacheStructure q.access) ok data) q due).trans
    (by rw [access]; rfl)

/-- Settles O52: the descriptor is taken in or marked, a failed fetch lets go of what waited, and the fields are those of the
layout. -/
theorem fetchFillsOrFreesTheEntry : Obligations.FetchFillsOrFreesTheEntry := by
  refine ⟨?answered, ?layout, by decide, by decide, by decide, by decide⟩
  case answered =>
    intro s id q n e due access held fetching raw b taken woken good bad fault freed puts others dropped ended
    have done {ok : Bool} {b' : Bridge} (h : b.fetchDone n ok (Memory.readBytes s.mem q.addr q.length) = b') :
        exec (.fetchComplete id ok) s = AfterAnswer s q ok false b' :=
      (exec_fetch_due due access ok).trans (congrArg (AfterAnswer s q ok false) h)
    have here : e.index = n := entry?_index s.chip n e held
    refine ⟨fun awake => ?_, fun warm ok => done ?_⟩
    · have answers (ok : Bool) := fetchDone_of_awake (b := b) held fetching awake ok (Memory.readBytes s.mem q.addr q.length)
      have failed : b.fetchFailed e = dropped.faultWith (faultNotice n .memory 0 false) ended := by
        simp only [fetchFailed, fetchFailedFor_eq, here]
        rfl
      refine ⟨fun passes => done ((answers true).trans (fetchTaken_of_passes passes)),
        fun fails => done ((answers true).trans (fetchTaken_of_fails fails)), ?_, fun unawaited => ?_⟩
      · exact (faultWith_either dropped (faultNotice n .memory 0 false) ended).imp
          (fun order => done ((answers false).trans (failed.trans order))) (fun order => done ((answers false).trans (failed.trans order)))
      · have nothing_put : dropped = freed := by simp only [dropped, puts, unawaited, List.filter_nil, List.foldl_nil]
        have nothing_ends (b : Bridge) : ended b = b := by simp only [ended, others, unawaited, List.filter_nil, List.foldl_nil]
        rw [nothing_put] at failed
        refine done ((answers false).trans (failed.trans ?_))
        rcases faultWith_either freed (faultNotice n .memory 0 false) ended with order | order
        · exact order.trans (nothing_ends _)
        · exact order.trans (congrArg (fun b => Bridge.notify b (faultNotice n .memory 0 false)) (nothing_ends freed))
    · rw [fetchDone_of_warm (b := b) held fetching warm, dropEntry_eq, here]
  case layout =>
    intro bs d byte half word
    have fields : d = _ := Descriptor.ofBytes_eq bs
    clear_value d
    subst fields
    refine ⟨?_, ?_, ⟨rfl, rfl⟩, ⟨rfl, rfl, rfl, Descriptor.guardOpen_iff⟩, rfl, rfl, Descriptor.stick_iff, rfl, rfl, rfl⟩ <;>
      and_intros <;> rfl

end Sys2Proof.Machine
end

