-- ==== Sys2Proof/Proofs/WriteBack.lean ====
section
/-! The answer to a write-back (R108, R111, R112, R117, R124), and the 64 bytes it writes (R182). -/

namespace Sys2Proof.Machine

open Bridge

/-! ## The bytes of a descriptor (R182) -/

namespace Descriptor

/-- The two halves of a 32-bit field are read back as the number it holds. -/
theorem halves_of_number (n : Nat) : BitVec.ofNat 16 (n / 256 / 256) ++ BitVec.ofNat 16 n = BitVec.ofNat 32 n := by
  rw [Nat.div_div_eq_div_mul, append_halves]

theorem ofNat_of_field {w : Nat} (x : BitVec w) : BitVec.ofNat w x.toNat = x :=
  (BitVec.ofNat_toNat w x).trans (BitVec.setWidth_eq x)

end Descriptor

/-- The `k` bytes of a record from offset `i`. -/
def slice (bs : List Byte) (i k : Nat) : List Byte := (bs.drop i).take k

theorem slice_append (bs : List Byte) (i k l : Nat) : slice bs i k ++ slice bs (i + k) l = slice bs i (k + l) := by
  rw [slice, slice, slice, List.take_add, List.drop_drop]

section Slices

variable {bs : List Byte} {i k : Nat}

theorem leBytes_natAt (within : i + k ≤ bs.length) : leBytes k (natAt bs i k) = slice bs i k := by
  have length : (slice bs i k).length = k := by
    rw [slice, List.length_take, List.length_drop]
    omega
  have spelled := leBytes_ofLe (slice bs i k)
  rwa [length] at spelled

theorem byteAt_slice (within : i + 1 ≤ bs.length) : [byteAt bs i] = slice bs i 1 :=
  leBytes_natAt within

theorem two_bytes_slice (within : i + 2 ≤ bs.length) : [byteAt bs i, byteAt bs (i + 1)] = slice bs i 2 := by
  rw [← slice_append bs i 1 1, ← byteAt_slice (by omega), ← byteAt_slice (by omega)]
  rfl

theorem four_bytes_slice (within : i + 4 ≤ bs.length) :
    [byteAt bs i, byteAt bs (i + 1), byteAt bs (i + 2), byteAt bs (i + 3)] = slice bs i 4 := by
  rw [← slice_append bs i 2 2, ← two_bytes_slice (by omega), ← two_bytes_slice (by omega)]
  rfl

theorem halfAt_slice (within : i + 2 ≤ bs.length) : leBytes 2 (halfAt bs i).toNat = slice bs i 2 := by
  rw [← leBytes_natAt within, halfAt_eq, natAt_two]

theorem wordAt_slice (within : i + 4 ≤ bs.length) : leBytes 4 (wordAt bs i).toNat = slice bs i 4 := by
  rw [← leBytes_natAt within, wordAt_eq, natAt_four]

/-- A wide field at the end of a record. -/
theorem wide_slice {w : Nat} (width : 256 ^ k = 2 ^ w) (within : i + k ≤ bs.length) :
    leBytes k (BitVec.ofNat w (natAt bs i k)).toNat = slice bs i k := by
  have small : natAt bs i k < 2 ^ w := by
    refine width ▸ Nat.lt_of_lt_of_le (ofLe_lt (slice bs i k)) (Nat.pow_le_pow_right (by decide) ?_)
    exact List.length_take_le ..
  rw [BitVec.toNat_ofNat, Nat.mod_eq_of_lt small]
  exact leBytes_natAt within

theorem slice_all (whole : bs.length = k) : slice bs 0 k = bs :=
  List.take_of_length_le (Nat.le_of_eq whole)

end Slices

namespace Descriptor

theorem toBytes_length (d : Descriptor) : d.toBytes.length = 64 := by
  unfold Descriptor.toBytes
  simp only [List.length_append, leBytes_length]
  rfl

theorem reserved_at (d : Descriptor) : natAt d.toBytes 50 14 = d.rsv50.toNat := by
  have last : natAt d.toBytes 50 14 = ofLe (leBytes 14 d.rsv50.toNat) := by
    refine congrArg ofLe ?_
    unfold Descriptor.toBytes
    rw [List.drop_left' (by simp only [List.length_append, leBytes_length]; rfl)]
    exact List.take_of_length_le (Nat.le_of_eq (leBytes_length 14 _))
  rw [last, ofLe_leBytes 14 _ d.rsv50.isLt]

theorem ofBytes_toBytes (d : Descriptor) : Descriptor.ofBytes d.toBytes = d := by
  rw [ofBytes_eq, reserved_at]
  unfold Descriptor.toBytes
  simp only [halfIn, wordIn, leBytes, List.cons_append, List.nil_append, byteIn_cons_succ, byteIn_cons_zero, Nat.reduceAdd,
    append_bytes, halves_of_number, ofNat_of_field]

/-- The record is written back as it was read: its fields stand side by side. -/
theorem toBytes_ofBytes {bs : List Byte} (whole : bs.length = 64) : (Descriptor.ofBytes bs).toBytes = bs := by
  have codes : [byteAt bs 0, byteAt bs 1, byteAt bs 2, byteAt bs 3] = slice bs 0 4 := four_bytes_slice (by omega)
  have trigger : [byteAt bs 6, byteAt bs 7] = slice bs 6 2 := two_bytes_slice (by omega)
  have policies : [byteAt bs 20, byteAt bs 21, byteAt bs 22, byteAt bs 23] = slice bs 20 4 := four_bytes_slice (by omega)
  have mode : [byteAt bs 38, byteAt bs 39] = slice bs 38 2 := two_bytes_slice (by omega)
  have reserved : leBytes 14 (BitVec.ofNat 112 (natAt bs 50 14)).toNat = slice bs 50 14 := wide_slice (by decide) (by omega)
  have half (i : Nat) (within : i + 2 ≤ 64) : leBytes 2 (halfAt bs i).toNat = slice bs i 2 := halfAt_slice (by omega)
  have word (i : Nat) (within : i + 4 ≤ 64) : leBytes 4 (wordAt bs i).toNat = slice bs i 4 := wordAt_slice (by omega)
  unfold Descriptor.toBytes Descriptor.ofBytes
  simp only [codes, trigger, policies, mode, reserved, half, word, Nat.reduceAdd, Nat.reduceLeDiff]
  calc
    _ = slice bs 0 64 := by
      iterate 19 rw [slice_append]
    _ = bs := slice_all whole

end Descriptor

/-! ## What an answer leaves (R111, R112) -/

namespace Bridge

theorem setEntry_setEntry (b : Bridge) (n : Nat) {f : Entry → Entry} (keeps : ∀ e, (f e).index = e.index) (g : Entry → Entry) :
    (b.setEntry n f).setEntry n g = b.setEntry n (fun e => g (f e)) := by
  simp only [setEntry, List.map_map]
  congr 1
  refine List.map_congr_left fun e _ => ?_
  by_cases here : e.index = n <;> simp [here, keeps]

/-- A change of the entries and of the miss list alone. -/
def onLists (f : List Entry → List (Nat × CacheOp) → List Entry) (g : List (Nat × CacheOp) → List (Nat × CacheOp)) (b : Bridge) :
    Bridge :=
  { b with cache := f b.cache b.misses, misses := g b.misses }

theorem notify_with_lists (b : Bridge) (x : Notice) (c : List Entry) (m : List (Nat × CacheOp)) :
    Bridge.notify { b with cache := c, misses := m } x = { b.notify x with cache := c, misses := m } := by
  unfold notify cancelEmptying dropNotice mirror
  dsimp only
  split
  case isTrue => split <;> rfl
  case isFalse =>
    split
    case isTrue => rfl
    case isFalse => split <;> rfl

/-- Such a change and a notice do not depend on their order. -/
theorem onLists_notify (f : List Entry → List (Nat × CacheOp) → List Entry) (g : List (Nat × CacheOp) → List (Nat × CacheOp))
    (b : Bridge) (x : Notice) : onLists f g (b.notify x) = (onLists f g b).notify x := by
  have joins := notify_with_lists b x (f b.cache b.misses) (g b.misses)
  unfold onLists
  rw [joins]
  simp

/-- The FAULT notice of a failed write-back, but in STOPPING and WARM (R112, R124). -/
def faultNoted (n : Nat) (b : Bridge) : Bridge :=
  if b.control.state = .stopping ∨ b.control.state = .warm then b else b.notify (faultNotice n .memory 0 true)

/-- What a failed write-back makes of its entry (R112). -/
def afterFailedWrite (e : Entry) (reason : WriteBackFor) (b : Bridge) : Bridge :=
  if e.pin then b.keepPinned e reason
  else match reason with
    | .claim n => b.reuse e n
    | .must | .tableRead | .other => b.dropEntry e

section Failed

variable {b : Bridge} {e : Entry} {reason : WriteBackFor} {n : Nat}

theorem writeBackFailed_eq (b : Bridge) (e : Entry) (reason : WriteBackFor) : b.writeBackFailed e reason =
    if b.control.state = .stopping ∨ b.control.state = .warm then afterFailedWrite e reason b
    else b.faultWith (faultNotice e.index .memory 0 true) (afterFailedWrite e reason) := rfl

/-- A failed write-back that changes the lists alone: the notice's place does not matter. -/
theorem writeBackFailed_of_lists (here : e.index = n) {f : List Entry → List (Nat × CacheOp) → List Entry}
    {g : List (Nat × CacheOp) → List (Nat × CacheOp)} (goes : ∀ b, afterFailedWrite e reason b = onLists f g b) :
    b.writeBackFailed e reason = faultNoted n (onLists f g b) := by
  rw [writeBackFailed_eq, goes, faultNoted, here]
  refine ite_congr rfl (fun _ => rfl) (fun _ => ?_)
  rcases faultWith_either b (faultNotice n .memory 0 true) (afterFailedWrite e reason) with order | order
  · rw [order, goes, onLists_notify]
  · rw [order, goes]

/-- A failed write-back and its notice, in either order (log 6). -/
theorem writeBackFailed_either (here : e.index = n) {f : Bridge → Bridge} (goes : ∀ b, afterFailedWrite e reason b = f b)
    (stays : (f b).control.state = b.control.state) :
    if b.control.state = .stopping ∨ b.control.state = .warm then b.writeBackFailed e reason = f b
    else b.writeBackFailed e reason = f (faultNoted n b) ∨ b.writeBackFailed e reason = faultNoted n (f b) := by
  rw [writeBackFailed_eq, here]
  split
  case isTrue => exact goes b
  case isFalse awake =>
    have noted : faultNoted n b = b.notify (faultNotice n .memory 0 true) := if_neg awake
    have noted' : faultNoted n (f b) = (f b).notify (faultNotice n .memory 0 true) := if_neg (by rwa [stays])
    rw [noted, noted', ← goes, ← goes]
    exact faultWith_either _ _ _

theorem keepPinned_of_other (other : reason ≠ .tableRead ∨ ∀ rid l, e.waiting ≠ .tableRead rid :: l) (b : Bridge) :
    b.keepPinned e reason = b.setEntry e.index (fun x => { x with state := .dirty, flushMark := false }) := by
  unfold keepPinned
  split
  case h_1 id l waiting => exact absurd waiting (other.resolve_left (fun h => h rfl) id l)
  case h_2 => rfl

theorem keepPinned_of_tableRead {rid : Nat} {l : List CacheOp} (waiting : e.waiting = .tableRead rid :: l) (b : Bridge) :
    b.keepPinned e .tableRead = (b.setEntry e.index (fun x =>
      { x with state := .dirty, flushMark := false, waiting := x.waiting.tail })).allow e.index rid := by
  simp only [keepPinned, waiting, popFront]
  rw [setEntry_setEntry b e.index (f := fun x => { x with state := .dirty, flushMark := false }) (fun _ => rfl)]

theorem afterFailedWrite_of_pinned (pinned : e.pin = true) (b : Bridge) : afterFailedWrite e reason b = b.keepPinned e reason :=
  if_pos pinned

theorem afterFailedWrite_of_claim (unpinned : e.pin = false) (m : Nat) (b : Bridge) :
    afterFailedWrite e (.claim m) b = (b.dropEntry e).allocate m :=
  if_neg (by rw [unpinned]; exact Bool.false_ne_true)

theorem afterFailedWrite_of_drop (unpinned : e.pin = false) (no_claim : ∀ m, reason ≠ .claim m) (b : Bridge) :
    afterFailedWrite e reason b = b.dropEntry e := by
  refine (if_neg (by rw [unpinned]; exact Bool.false_ne_true)).trans ?_
  split
  case h_1 m => exact absurd rfl (no_claim m)
  case h_2 => rfl
  all_goals rfl

theorem writeBackOk_of_own (no_claim : ∀ m, reason ≠ .claim m) (b : Bridge) (e : Entry) (written : List Byte) :
    b.writeBackOk e reason written = b.setEntry e.index (fun x =>
      { x with state := if x.copy.toBytes = written then .clean else .dirty, flushMark := false }) := by
  unfold writeBackOk
  split
  case h_1 m => exact absurd rfl (no_claim m)
  all_goals rfl

theorem goesOn_state (n : Nat) (b : Bridge) (op : CacheOp) : (goesOn n b op).control.state = b.control.state := by
  cases op with
  | tableRead id | tableWrite id => exact congrArg Control.state (allow_goesOn b n id).control
  | release => simp [goesOn]
  | tap | engine | commandTake | command | noticePut => rfl

theorem dropEntry_state (b : Bridge) (e : Entry) : (b.dropEntry e).control.state = b.control.state := by
  rw [dropEntry_eq]
  generalize start : ({ b with cache := b.cache.filter (fun x => x.index != e.index) } : Bridge) = b1
  have same : b1.control.state = b.control.state := by rw [← start]
  rw [← same]
  clear start same
  induction e.waiting generalizing b1 with
  | nil => rfl
  | cons op ops ih => exact (ih _).trans (goesOn_state e.index b1 op)

theorem writeBackDone_of_writing (held : b.entry? n = some e) (writing : e.state = .writing reason) (ok : Bool) (written : List Byte) :
    b.writeBackDone n ok written = if ok then b.writeBackOk e reason written else b.writeBackFailed e reason := by
  simp only [writeBackDone, held, writing]

end Failed

end Bridge

theorem exec_writeBack_due {s : State} {id n : Nat} {must : Bool} {q : MemRequest} (due : AnswerDue s id isWriteBack q)
    (access : q.access = .writeBack n must) (ok : Bool) : exec (.writeBackComplete id ok) s =
      AfterAnswer s q ok true ((s.chip.received id).writeBackDone n ok q.data) :=
  (s.answered_due id ok true isWriteBack (fun q _ b => b.writeBackDone (cacheStructure q.access) ok q.data) q due).trans
    (by rw [access]; rfl)

/-- Settles O53: an answered write-back cleans, reuses, drops or keeps its entry, and the 64 bytes are one layout. -/
theorem writeBackCleansReusesOrDrops : Obligations.WriteBackCleansReusesOrDrops := by
  refine ⟨?answered, fun d => ⟨d.toBytes_length, d.ofBytes_toBytes⟩, fun bs full => Descriptor.toBytes_ofBytes full⟩
  intro s id q n must e reason due access held writing b freed reused noted r dropped takes fails
  have here : e.index = n := entry?_index s.chip n e held
  have answers {ok : Bool} {b' : Bridge} (h : b.writeBackDone n ok q.data = b') : r ok b' :=
    (exec_writeBack_due due access ok).trans (congrArg (AfterAnswer s q ok true) h)
  have done {b' : Bridge} (h : b.writeBackOk e reason q.data = b') : r true b' :=
    answers ((writeBackDone_of_writing (b := b) held writing true q.data).trans h)
  have failed {b' : Bridge} (h : b.writeBackFailed e reason = b') : r false b' :=
    answers ((writeBackDone_of_writing (b := b) held writing false q.data).trans h)
  have drops (b : Bridge) : b.dropEntry e = dropped b := by rw [dropEntry_eq, here]
  have either {f : Bridge → Bridge} (goes : ∀ b, afterFailedWrite e reason b = f b) (stays : (f b).control.state = b.control.state) :
      fails f := by
    have orders := writeBackFailed_either (b := b) here goes stays
    show if b.control.state = .stopping ∨ b.control.state = .warm then r false (f b)
      else r false (f (noted b)) ∨ r false (noted (f b))
    split at orders
    case isTrue still => exact (if_pos still).mpr (failed orders)
    case isFalse awake => exact (if_neg awake).mpr (orders.imp failed failed)
  have listed {f : List Entry → List (Nat × CacheOp) → List Entry} {g : List (Nat × CacheOp) → List (Nat × CacheOp)}
      (goes : ∀ b, afterFailedWrite e reason b = onLists f g b) {b' : Bridge} (form : b' = onLists f g b) : r false (noted b') := by
    subst form
    exact failed (writeBackFailed_of_lists here goes)
  have kept : (e.pin = true) → (reason ≠ .tableRead ∨ ∀ rid l, e.waiting ≠ .tableRead rid :: l) →
      r false (noted (b.setEntry n (fun x => { x with state := .dirty, flushMark := false }))) := by
    intro pinned other
    refine listed (f := fun cache _ => cache.map (fun x => if x.index = n then { x with state := .dirty, flushMark := false } else x))
      (g := fun misses => misses) (fun b => ?_) rfl
    rw [afterFailedWrite_of_pinned pinned, keepPinned_of_other other, here]
    rfl
  have unawaited (waiting : e.waiting = []) (b : Bridge) :
      b.dropEntry e = { b with cache := b.cache.filter (fun x => x.index != n) } := by
    rw [dropEntry_eq, waiting, here, List.foldl_nil]
  refine ⟨fun no_claim => done ?own, ?claimed, fun pinned other => kept pinned (Or.inl other), fun unpinned no_claim waiting => ?freed,
    fun t unpinned no_claim waiting => ?tapped, ?reused, ?takes, fun unpinned no_claim => ?dropped, ?takesAgain, ?read,
    fun pinned _ other => kept pinned (Or.inr other)⟩
  case own => rw [writeBackOk_of_own no_claim, here]
  case claimed =>
    rintro m rfl waiting
    refine done ?_
    show (b.dropEntry e).allocate m = _
    rw [unawaited waiting]
    rfl
  case freed =>
    refine listed (f := fun cache _ => cache.filter (fun x => x.index != n)) (g := fun misses => misses ++ []) (fun b => ?_) rfl
    rw [afterFailedWrite_of_drop unpinned no_claim, unawaited waiting, onLists, List.append_nil]
  case tapped =>
    refine listed (f := fun cache _ => cache.filter (fun x => x.index != n)) (g := fun misses => misses ++ [(n, .tap t)]) (fun b => ?_) rfl
    rw [afterFailedWrite_of_drop unpinned no_claim, drops]
    simp only [dropped, waiting, List.foldl_cons, List.foldl_nil]
    rfl
  case reused =>
    rintro m unpinned rfl waiting
    refine listed (f := fun cache misses => ⟨m, .fetching false, Descriptor.blank, false, false,
        (misses.filter (fun p => p.1 == m)).map (fun p => p.2), [], false, none, false⟩ :: cache.filter (fun x => x.index != n))
      (g := fun misses => misses.filter (fun p => p.1 != m)) (fun b => ?_) rfl
    rw [afterFailedWrite_of_claim unpinned, unawaited waiting]
    rfl
  case takes =>
    rintro m rfl
    refine done ?_
    show (b.dropEntry e).allocate m = _
    rw [drops]
    rfl
  case dropped =>
    refine either (fun b => (afterFailedWrite_of_drop unpinned no_claim b).trans (drops b)) ?_
    rw [← drops]
    exact dropEntry_state b e
  case takesAgain =>
    rintro m unpinned rfl
    refine either (fun b => (afterFailedWrite_of_claim unpinned m b).trans (congrArg (fun b => Bridge.allocate b m) (drops b))) ?_
    show (dropped b).control.state = _
    rw [← drops]
    exact dropEntry_state b e
  case read =>
    rintro rid l pinned rfl waiting
    have goes (b : Bridge) : afterFailedWrite e .tableRead b = (b.setEntry n (fun x =>
        { x with state := .dirty, flushMark := false, waiting := x.waiting.tail })).allow n rid := by
      rw [afterFailedWrite_of_pinned pinned, keepPinned_of_tableRead waiting, here]
    have stays : ((b.setEntry n (fun x => { x with state := .dirty, flushMark := false, waiting := x.waiting.tail })).allow n
        rid).control.state = b.control.state := congrArg Control.state (allow_goesOn _ n rid).control
    have orders := either goes stays
    exact orders

end Sys2Proof.Machine
end

