-- ==== Sys2Proof/Proofs/CacheTurns.lean ====
section
/-! What the record cache does by itself (R106 to R108, R115, R117 to R119, R121 to R124). -/

namespace Sys2Proof.Machine

open Bridge

namespace Bridge

variable {b : Bridge} {e : Entry} {n id : Nat}

/-! ## Misses and victims (R106 to R108) -/

/-- The last entry of the recency list that satisfies a test. -/
theorem leastRecent_of_last {p : Entry → Bool} {l r : List Entry} (parts : b.cache = l ++ e :: r) (here : p e = true)
    (after : ∀ x ∈ r, p x = false) : b.leastRecent p = some e := by
  refine List.find?_eq_some_iff_append.mpr ⟨here, r.reverse, l.reverse, ?_, fun x x_in => ?_⟩
  · rw [parts, List.reverse_append, List.reverse_cons, List.append_assoc]
    rfl
  · rw [after x (List.mem_reverse.mp x_in)]
    rfl

theorem leastRecent_eq_none {p : Entry → Bool} (none_such : ∀ x ∈ b.cache, p x = false) : b.leastRecent p = none :=
  List.find?_eq_none.mpr fun x x_in h => Bool.false_ne_true ((none_such x (List.mem_reverse.mp x_in)).symm.trans h)

/-- The entry is idle and CLEAN. -/
def idleClean (e : Entry) : Bool := e.idle && e.state == .clean

/-- The entry is idle and DIRTY. -/
def idleDirty (e : Entry) : Bool := e.idle && e.state == .dirty

/-- The oldest miss whose index no victim is claimed for is served. -/
theorem serveMiss_of_oldest {op : CacheOp} {l r : List (Nat × CacheOp)} (misses : b.misses = l ++ (n, op) :: r)
    (unclaimed : b.claimed n = false) (earlier : ∀ p ∈ l, b.claimed p.1 = true) : b.serveMiss =
      if b.cache.length < 16 then some (b.allocate n)
      else match b.leastRecent idleClean with
        | some e => some ({ b with cache := b.cache.filter (fun x => x.index != e.index) }.allocate n)
        | none => match b.leastRecent idleDirty with
          | some e => some (b.startWriteBack e (.claim n))
          | none => none := by
  have oldest : b.misses.find? (fun p => !b.claimed p.1) = some (n, op) := by
    refine List.find?_eq_some_iff_append.mpr ⟨by rw [unclaimed]; rfl, l, r, misses, fun p p_in => ?_⟩
    rw [earlier p p_in]
    rfl
  simp only [serveMiss, oldest]
  rfl

/-! ## The must and release levels (R115) -/

section Must

variable {g : Settings} (settings : b.control.settings = some g)
include settings

theorem mustStep_of_none (none_begun : b.episode = false) :
    b.mustStep = if g.mustLevel ≤ b.dirtyCount then some { b with episode := true } else none := by
  simp only [mustStep, settings, none_begun, Bool.false_eq_true, if_false]

theorem mustStep_of_episode (begun : b.episode = true) : b.mustStep =
    if b.dirtyCount ≤ g.releaseLevel then some { b with episode := false }
    else if g.releaseLevel < b.dirtyCount - b.mustInFlight then
      match b.leastRecent idleDirty with
      | some e => some (b.startWriteBack e .must)
      | none => none
    else none := by
  simp only [mustStep, settings, begun, if_true]
  rfl

end Must

/-! ## The turn of a ready entry (R105, R117 to R119, R121, R122) -/

theorem turn_of_front {b' : Bridge} (front : b.frontTurn e = some b') : b.turn e = some b' := by
  rw [turn, front]
  rfl

theorem turn_of_unheld (front : b.frontTurn e = none) (unheld : b.holdWrite e = none) : b.turn e = none := by
  rw [turn, front, unheld]
  rfl

theorem holdWrite_of_unpinned (unpinned : e.pin = false) : b.holdWrite e = none := by
  unfold holdWrite
  split
  · exact if_neg (by rw [unpinned]; exact Bool.false_ne_true)
  · rfl

theorem holdWrite_of_unawaited (waiting : e.waiting = []) : b.holdWrite e = none := by
  rw [holdWrite, waiting]
  rfl

section Ready

variable (ready : e.ready = true)
include ready

theorem frontTurn_of_flush (marked : e.flushMark = true) (dirty : e.state = .dirty) :
    b.frontTurn e = some (b.startWriteBack e .other) :=
  (if_pos ready).trans (if_pos ⟨marked, dirty⟩)

variable (unflushed : ¬ (e.flushMark = true ∧ e.state = .dirty))
include unflushed

theorem frontTurn_of_tap {t : Tap} {l : List CacheOp} (waiting : e.waiting = .tap t :: l) (unfit : e.copy.fit t = none) :
    b.frontTurn e = some ((b.startOp e.index).refuseTap t e.copy.misfit) := by
  simp only [frontTurn, ready, unflushed, waiting, unfit, if_true, if_false]

theorem frontTurn_of_tableRead {l : List CacheOp} (waiting : e.waiting = .tableRead id :: l) : b.frontTurn e =
    if e.state = .clean then some ((b.popFront e.index).allow e.index id) else some (b.startWriteBack e .tableRead) := by
  simp only [frontTurn, ready, unflushed, waiting, if_true, if_false]

theorem frontTurn_of_heldWrite {l : List CacheOp} (waiting : e.waiting = .tableWrite id :: l) (place : b.holdPlace e id = some n) :
    b.frontTurn e = some ((b.popFront e.index).hold n id) := by
  simp only [frontTurn, ready, unflushed, waiting, place, if_true, if_false]

theorem frontTurn_of_freeWrite {l : List CacheOp} (waiting : e.waiting = .tableWrite id :: l) (no_place : b.holdPlace e id = none) :
    b.frontTurn e = if e.state = .clean then some (b.dropEntry e) else some (b.startWriteBack e .other) := by
  simp only [frontTurn, ready, unflushed, waiting, no_place, if_true, if_false]

theorem frontTurn_of_release {l : List CacheOp} (waiting : e.waiting = .release :: l) : b.frontTurn e =
    if e.pin then some (b.setEntry e.index (fun x => { x with waiting := x.waiting.tail, heldRelease := true }))
    else if e.state = .clean then some (b.dropEntry e) else some (b.startWriteBack e .other) := by
  simp only [frontTurn, ready, unflushed, waiting, if_true, if_false]

theorem frontTurn_of_unawaited (waiting : e.waiting = []) : b.frontTurn e =
    if b.emptyingCache = true ∧ e.state = .dirty then some (b.startWriteBack e .other) else none := by
  simp only [frontTurn, ready, unflushed, waiting, if_true, if_false]

end Ready

theorem emptyingCache_iff : b.emptyingCache = true ↔ b.control.emptying = true
    ∨ (b.control.state = .stopping ∧ b.control.stopStage = .emptying) ∨ b.control.state = .warm := by
  simp only [emptyingCache, Bool.or_eq_true, Bool.and_eq_true, beq_iff_eq, or_assoc]

/-! ## TABLE writes and pinned entries (R119) -/

theorem hold_of_write {r : InFlight} (found : b.inflight? id = some r) (write : r.request.write = true) (n : Nat) :
    b.hold n id = b.holdRequest n r := by
  have is_write : b.write? id = some r := by rw [write?, found, Option.filter_some, if_pos write]
  simp only [hold, is_write]

theorem holdPlace_of_pinned (pinned : e.pin = true) (id : Nat) : b.holdPlace e id = some e.index := if_pos pinned

theorem holdPlace_of_write {r : InFlight} (unpinned : e.pin = false) (found : b.inflight? id = some r)
    (write : r.request.write = true) : b.holdPlace e id = b.pinnedOf r.request := by
  have is_write : b.write? id = some r := by rw [write?, found, Option.filter_some, if_pos write]
  rw [holdPlace, if_neg (by rw [unpinned]; exact Bool.false_ne_true), is_write]
  rfl

theorem holdWrite_of_pinned {l k : List CacheOp} (pinned : e.pin = true) (waiting : e.waiting = l ++ .tableWrite id :: k)
    (earlier : ∀ op ∈ l, ∀ i, op ≠ .tableWrite i) : b.holdWrite e =
      some ((b.setEntry e.index (fun x => { x with waiting := x.waiting.erase (.tableWrite id) })).hold e.index id) := by
  have first : e.waiting.findSome? CacheOp.tableWrite? = some id := by
    have no_write (op : CacheOp) (op_in : op ∈ l) : CacheOp.tableWrite? op = none := by
      cases op with
      | tableWrite i => exact absurd rfl (earlier _ op_in i)
      | tap | engine | commandTake | command | noticePut | tableRead | release => rfl
    rw [waiting, List.findSome?_append, List.findSome?_eq_none_iff.mpr no_write]
    rfl
  simp only [holdWrite, first, pinned, if_true]

/-- The first descriptor that a write touches and that is pinned. -/
theorem pinnedOf_of_first {r : Request} {before after : List Nat} {y : Entry} (touched : b.cfg.touchedStructures r = before ++ n :: after)
    (earlier : ∀ i ∈ before, ∀ y, b.entry? i = some y → y.pin = false) (there : b.entry? n = some y) (pinned : y.pin = true) :
    b.pinnedOf r = some n := by
  rw [pinnedOf, touched]
  refine List.find?_eq_some_iff_append.mpr ⟨(pinned_of_held there).trans pinned, before, after, rfl, fun i i_in => ?_⟩
  rw [pinned_eq_false_iff.mpr (earlier i i_in)]
  rfl

/-! ## The order of the five (R104) -/

theorem turns_of_first {l r : List Entry} (earlier : ∀ x ∈ l, b.turn x = none) (acts : (b.turn e).isSome = true) :
    b.turns (l ++ e :: r) = b.turn e := by
  obtain ⟨b', turn⟩ := Option.isSome_iff_exists.mp acts
  induction l with
  | nil => simp only [List.nil_append, turns, turn]
  | cons x l ih =>
    rw [List.cons_append, turns, earlier x List.mem_cons_self]
    exact ih fun y y_in => earlier y (List.mem_cons_of_mem x y_in)

theorem turns_eq_none {l : List Entry} (still : ∀ x ∈ l, b.turn x = none) : b.turns l = none := by
  induction l with
  | nil => rfl
  | cons x l ih =>
    rw [turns, still x List.mem_cons_self]
    exact ih fun y y_in => still y (List.mem_cons_of_mem x y_in)

/-- The entry that acts comes ahead of everything else. -/
theorem autoStep_of_entry {l r : List Entry} (parts : b.cache = l ++ e :: r) (later : ∀ x ∈ r, b.turn x = none)
    (acts : (b.turn e).isSome = true) : b.autoStep = b.turn e := by
  have first : b.turns b.cache.reverse = b.turn e := by
    rw [parts, List.reverse_append, List.reverse_cons, List.append_assoc]
    exact turns_of_first (fun x x_in => later x (List.mem_reverse.mp x_in)) acts
  rw [autoStep, first]
  exact Option.or_of_isSome acts

/-- When no entry acts, the miss list does, then must episodes, FLUSH, and the emptying. -/
theorem autoStep_of_still (still : ∀ e ∈ b.cache, b.turn e = none) :
    b.autoStep = b.serveMiss.or (b.mustStep.or (b.flushStep.or b.emptyStep)) := by
  rw [autoStep, turns_eq_none fun x x_in => still x (List.mem_reverse.mp x_in)]
  rfl

/-! ## The fetch that is issued (R106) -/

theorem ready_of_fetching {issued : Bool} (fetching : e.state = .fetching issued) : e.ready = false := by
  rw [Entry.ready, fetching]
  rfl

theorem frontTurn_of_fetching (fetching : e.state = .fetching false) :
    b.frontTurn e = if b.writeOutstanding e.index = false then some (b.issueFetch e.index) else none := by
  simp only [frontTurn, ready_of_fetching fetching, fetching, true_and, Bool.false_eq_true, if_false]

theorem letGo_iff (b : Bridge) (n : Nat) (r : InFlight) : b.letGo n r = true ↔ n ∈ b.cfg.touchedStructures r.request
    ∧ (r.phase = .forwarded ∨ ∃ todo, r.phase = .snooping todo ∧ n ∉ todo) := by
  rw [letGo, Bool.and_eq_true, List.contains_iff_mem]
  refine and_congr_right fun _ => ?_
  cases r.phase <;> simp

theorem writeOutstanding_iff : b.writeOutstanding n = true ↔ ∃ r ∈ b.iport.inflight, r.request.write = true
    ∧ (r.cls = .table ∨ r.cls = .anchorStart) ∧ n ∈ b.cfg.touchedStructures r.request
    ∧ (r.phase = .forwarded ∨ ∃ todo, r.phase = .snooping todo ∧ n ∉ todo) := by
  simp only [writeOutstanding, List.any_eq_true, Bool.and_eq_true, Bool.or_eq_true, beq_iff_eq, letGo_iff, and_assoc]

end Bridge

/-- Settles O54: misses, must episodes, the turn of an entry by its front operation, its fetch, and the write held on it. -/
theorem cacheServesItsListsByItself : Obligations.CacheServesItsListsByItself := by
  intro b entryFor without lastSuch clean dirty writing popped unpinned held
  have last {p : Entry → Bool} {e : Entry} (such : lastSuch p e) : b.leastRecent p = some e := by
    obtain ⟨l, r, parts, here, after⟩ := such
    exact leastRecent_of_last parts here after
  refine ⟨?misses, ?must, ?ready, ?fetch, ?hold, ?entries, ?others⟩
  case misses =>
    intro n op l r misses unclaimed earlier
    have served := serveMiss_of_oldest misses unclaimed earlier
    refine ⟨fun room => served.trans (if_pos room), fun e full such => served.trans ((if_neg (Nat.not_lt.mpr full)).trans ?_),
      fun e full no_clean such => served.trans ((if_neg (Nat.not_lt.mpr full)).trans ?_),
      fun full none_idle => served.trans ((if_neg (Nat.not_lt.mpr full)).trans ?_)⟩
    · rw [show b.leastRecent idleClean = some e from last such]
      rfl
    · rw [leastRecent_eq_none (p := idleClean) no_clean, show b.leastRecent idleDirty = some e from last such]
      rfl
    · rw [leastRecent_eq_none (p := idleClean) fun x x_in => (none_idle x x_in).1,
        leastRecent_eq_none (p := idleDirty) fun x x_in => (none_idle x x_in).2]
  case must =>
    intro g settings
    refine ⟨fun idle above => (mustStep_of_none settings idle).trans (if_pos above),
      fun idle below => (mustStep_of_none settings idle).trans (if_neg (Nat.not_le.mpr below)),
      fun begun low => (mustStep_of_episode settings begun).trans (if_pos low), fun e begun above such => ?_⟩
    rw [mustStep_of_episode settings begun, if_neg (by omega), if_pos (by omega), show b.leastRecent idleDirty = some e from last such]
    rfl
  case ready =>
    intro e ready
    refine ⟨fun marked is_dirty => turn_of_front (frontTurn_of_flush ready marked is_dirty), fun unflushed => ?_⟩
    have not_clean (is_dirty : e.state = .dirty) : ¬ e.state = .clean := by rw [is_dirty]; decide
    refine ⟨?tap, ?readClean, ?readDirty, ?write, ?release, ?releasePinned, ?empties, ?rests⟩
    case tap =>
      intro t l waiting unfit here
      have refused := frontTurn_of_tap (b := b) ready unflushed waiting unfit
      have reason : e.copy.misfit = if e.copy.kind = kindOff then .off else .shape := ite_of_iff Descriptor.isOff_iff
      rw [startOp_eq b e.index e here, reason] at refused
      exact turn_of_front refused
    case readClean =>
      exact fun id l waiting is_clean => turn_of_front ((frontTurn_of_tableRead ready unflushed waiting).trans (if_pos is_clean))
    case readDirty =>
      exact fun id l waiting is_dirty =>
        turn_of_front ((frontTurn_of_tableRead ready unflushed waiting).trans (if_neg (not_clean is_dirty)))
    case write =>
      intro id l r waiting found write
      have holds (n : Nat) : (b.popFront e.index).hold n id = held (popped e) n r :=
        hold_of_write (b := b.popFront e.index) found write n
      refine ⟨fun pinned => ?_, fun before m after y no_pin touched earlier there pinned => ?_, fun no_pin none_pinned => ?_⟩
      · exact turn_of_front ((frontTurn_of_heldWrite ready unflushed waiting (holdPlace_of_pinned pinned id)).trans
          (congrArg some (holds e.index)))
      · have place := (holdPlace_of_write no_pin found write).trans (pinnedOf_of_first touched earlier there pinned)
        exact turn_of_front ((frontTurn_of_heldWrite ready unflushed waiting place).trans (congrArg some (holds m)))
      · have front := frontTurn_of_freeWrite ready unflushed waiting
          ((holdPlace_of_write no_pin found write).trans (pinnedOf_eq_none none_pinned))
        exact ⟨fun is_dirty => turn_of_front (front.trans (if_neg (not_clean is_dirty))),
          fun is_clean => turn_of_front (front.trans (if_pos is_clean))⟩
    case release =>
      intro l waiting no_pin
      have front := (frontTurn_of_release (b := b) ready unflushed waiting).trans (if_neg (by rw [no_pin]; exact Bool.false_ne_true))
      exact ⟨fun is_dirty => turn_of_front (front.trans (if_neg (not_clean is_dirty))),
        fun is_clean => turn_of_front (front.trans (if_pos is_clean))⟩
    case releasePinned =>
      exact fun l waiting pinned => turn_of_front ((frontTurn_of_release ready unflushed waiting).trans (if_pos pinned))
    case empties =>
      exact fun waiting is_dirty emptying => turn_of_front ((frontTurn_of_unawaited ready unflushed waiting).trans
        (if_pos ⟨emptyingCache_iff.mpr emptying, is_dirty⟩))
    case rests =>
      intro waiting stays
      refine turn_of_unheld ((frontTurn_of_unawaited ready unflushed waiting).trans (if_neg ?_)) (holdWrite_of_unawaited waiting)
      rintro ⟨emptying, is_dirty⟩
      rcases stays with is_clean | ⟨no_emptying, no_stop, no_warm⟩
      · exact not_clean is_dirty is_clean
      · rcases emptyingCache_iff.mp emptying with empties | stops | warm
        · exact Bool.false_ne_true (no_emptying.symm.trans empties)
        · exact no_stop stops
        · exact no_warm warm
  case fetch =>
    intro e fetching blocked
    have outstanding : b.writeOutstanding e.index = true ↔ blocked := writeOutstanding_iff
    have front := frontTurn_of_fetching (b := b) fetching
    refine ⟨fun free => turn_of_front (front.trans (if_pos (Bool.eq_false_iff.mpr (mt outstanding.mp free)))), fun blocks no_pin => ?_⟩
    exact turn_of_unheld (front.trans (if_neg (by rw [outstanding.mpr blocks]; decide))) (holdWrite_of_unpinned no_pin)
  case hold =>
    intro e id l k r front pinned waiting earlier found write
    rw [turn, front, holdWrite_of_pinned pinned waiting earlier]
    exact congrArg some (hold_of_write (b := b.setEntry e.index _) found write e.index)
  case entries => exact fun l e r parts later acts => autoStep_of_entry parts later acts
  case others =>
    intro still
    rw [autoStep_of_still still]
    refine ⟨fun serves => Option.or_of_isSome serves, fun no_miss begins => ?_, fun no_miss no_must ends => ?_,
      fun no_miss no_must no_flush => ?_⟩
    · rw [no_miss]
      exact Option.or_of_isSome begins
    · rw [no_miss, no_must]
      exact Option.or_of_isSome ends
    · rw [no_miss, no_must, no_flush]
      rfl

end Sys2Proof.Machine
end

