-- ==== Sys2Proof/Proofs/RunLoading.lean ====
section
/-! The arbiter's choice, the load of a move and its pins (R131 to R133, R155), and the layout of a move descriptor (R182). -/

namespace Sys2Proof.Machine

open Bridge

/-! ## The move descriptor (R126, R132, R182) -/

/-- The low byte of a word of a record. -/
theorem wordIn_low (bs : List Byte) (i : Nat) : (wordIn bs i).toNat % 256 = (byteIn bs i).toNat := by
  have low := (byteIn bs i).isLt
  rw [← natAt_four, natAt_succ]
  omega

namespace MoveDescriptor

variable {d : MoveDescriptor} {g : Settings} {straps : Fin 16}

theorem ofBytes_eq (bs : List Byte) : MoveDescriptor.ofBytes bs =
    { mode := byteIn bs 0, itemSize := byteIn bs 1, srcType := byteIn bs 2, srcStep := byteIn bs 3, src := wordIn bs 4,
      dstType := byteIn bs 8, dstStep := byteIn bs 9, rsv10 := halfIn bs 10, dst := wordIn bs 12, count := halfIn bs 16,
      blockLength := halfIn bs 18, flags := byteIn bs 20, linkIndex := byteIn bs 21, lastEnd := byteIn bs 22,
      rsv23 := BitVec.ofNat 72 (natAt bs 23 9) } := by
  simp only [MoveDescriptor.ofBytes, byteAt_eq, halfAt_eq, wordAt_eq]

theorem spanOk_iff {size : Nat} {addr : Word} : spanOk g straps size addr = true ↔
    addr.toNat % size = 0 ∧ ClearOfRegions g straps addr.toNat size := by
  simp only [spanOk, Bool.and_eq_true, decide_eq_true_eq, Settings.clearOf_iff]

/-- An end of a move, a structure above the lowest index that it may not be, or a span (R132). -/
theorem endOk_iff {size : Nat} {type step : Byte} {place : Word} {dest : Bool} : endOk g straps size type step place dest = true ↔
    (type = 0 ∧ place.toNat % 256 < g.structureCount ∧ (if dest then 1 else 0) < place.toNat % 256)
    ∨ (type = 1 ∧ step.toNat ≤ 2 ∧ place.toNat % size = 0 ∧ ClearOfRegions g straps place.toNat size) := by
  unfold endOk
  split
  case isTrue struct =>
    subst struct
    have no_span : ¬ (0 : Byte) = 1 := by decide
    cases dest <;> simp only [no_span, Bool.and_eq_true, decide_eq_true_eq, bne_iff_ne, Bool.not_eq_true', Bool.and_eq_false_iff,
      beq_eq_false_iff_ne, false_and, or_false, true_and, Bool.false_eq_true, if_false, if_true, Bool.true_eq_false, false_or,
      and_true, true_or] <;> omega
  case isFalse span =>
    simp only [span, Bool.and_eq_true, beq_iff_eq, decide_eq_true_eq, spanOk_iff, false_and, false_or, and_assoc]

theorem loadOk_iff : d.loadOk g straps = true ↔ d.mode.toNat ≤ 2 ∧ (d.itemSize = 4 ∨ d.itemSize = 8 ∨ d.itemSize = 16)
    ∧ endOk g straps d.size d.srcType d.srcStep d.src false = true ∧ endOk g straps d.size d.dstType d.dstStep d.dst true = true
    ∧ (d.mode = 2 → 1 ≤ d.blockLength.toNat ∧ d.blockLength.toNat ≤ 256)
    ∧ (d.linkEnable = true → d.linkIndex.toNat < g.moveCount) := by
  have block : d.block = true ↔ d.mode = 2 := beq_iff_eq
  simp only [loadOk, Bool.and_eq_true, Bool.or_eq_true, beq_iff_eq, decide_eq_true_eq, and_assoc, or_assoc, Bool.not_eq_true',
    ← Bool.not_eq_true, block, Decidable.imp_iff_not_or]

end MoveDescriptor

namespace Bridge

variable {b : Bridge} {n : Nat} {e : Entry}

/-! ## The engine's copy (R129) -/

theorem setMoveCopy_moveCopy (loaded : b.engine.move.isSome = true) (d : MoveDescriptor) : (b.setMoveCopy d).moveCopy = d := by
  obtain ⟨m, move⟩ := Option.isSome_iff_exists.mp loaded
  simp only [moveCopy, setMoveCopy, move]
  rfl

/-! ## The arbiter's choice (R155) -/

theorem choose_of_pending {p : PendingMove} {rest : List PendingMove} (run : b.control.state = .run) (idle : b.engine.state = .idle)
    (pending : b.trigger = ⟨p :: rest, none, none, none⟩) : b.choose =
      some (loadMove { b with trigger := ⟨rest, some (openChain p), none, none⟩ } p.move (openChain p).run) := by
  simp only [choose, run, idle, pending, and_self, if_true]

/-! ## The descriptor's read (R131, R132) -/

theorem moveRead_of_error (reading : b.engine.step = .readDescriptor) (data : List Byte) : b.moveRead false data =
    freeMoveWaiters { b with engine := { b.engine with
      ending := some ⟨.memory, false, none, 0⟩, step := .report, asked := false } } :=
  (if_pos reading).trans (if_neg Bool.false_ne_true)

theorem moveRead_of_loaded (reading : b.engine.step = .readDescriptor) (loaded : b.engine.move.isSome = true) (data : List Byte) :
    b.moveRead true data = if (MoveDescriptor.ofBytes data).loadOk b.cfg b.control.straps = true
      then (b.setMoveCopy (MoveDescriptor.ofBytes data)).startPins
      else (b.setMoveCopy (MoveDescriptor.ofBytes data)).endRun .invalid false none := by
  refine (if_pos reading).trans ((if_pos rfl).trans ?_)
  dsimp only
  rw [setMoveCopy_moveCopy loaded]
  rfl

theorem startPins_of_source (source : b.moveCopy.srcStruct.isSome = true) : b.startPins = b.setStep .pinSource := by
  obtain ⟨n, struct⟩ := Option.isSome_iff_exists.mp source
  simp only [startPins, struct]

theorem startPins_of_destination (source : b.moveCopy.srcStruct = none) (destination : b.moveCopy.dstStruct.isSome = true) :
    b.startPins = b.setStep .pinDestination := by
  obtain ⟨n, struct⟩ := Option.isSome_iff_exists.mp destination
  simp only [startPins, source, struct]

theorem startPins_of_spans (source : b.moveCopy.srcStruct = none) (destination : b.moveCopy.dstStruct = none) :
    b.startPins = b.startRunning := by
  simp only [startPins, source, destination]

/-- No TABLE access waits for the loaded move: none goes on (R120). -/
theorem freeMoveWaiters_of_none (none_waits : ∀ x ∈ b.iport.inflight, ∀ todo, x.phase ≠ .moveWait todo) : b.freeMoveWaiters = b := by
  rw [freeMoveWaiters_eq]
  generalize b.iport.inflight = l at none_waits
  induction l with
  | nil => rfl
  | cons x l ih =>
    have stays : freeMoveWaiter b x = b := by
      unfold freeMoveWaiter
      split
      case h_1 todo waits => exact absurd waits (none_waits x List.mem_cons_self todo)
      all_goals rfl
    rw [List.foldl_cons, stays]
    exact ih fun y y_in => none_waits y (List.mem_cons_of_mem x y_in)

/-! ## Pins (R113, R133) -/

theorem pinTarget_of_source (step : b.engine.step = .pinSource) : b.pinTarget = b.moveCopy.srcStruct := by
  simp only [pinTarget, step]

theorem pinTarget_of_destination (step : b.engine.step = .pinDestination) : b.pinTarget = b.moveCopy.dstStruct := by
  simp only [pinTarget, step]

theorem pinStep_of_target (target : b.pinTarget = some n) :
    b.pinStep = b.askOrApply n (.engine .pin) b.engine.asked markAsked (applyPin n) := by
  simp only [pinStep, target]

theorem endFits_iff {kind itemSize moveSize : Byte} : endFits kind itemSize moveSize = true ↔
    (kind ≠ kindOff ∧ kind ≠ kindTally) ∧ itemSize = moveSize := by
  simp only [endFits, Bool.and_eq_true, bne_iff_ne, beq_iff_eq]

/-- The bridge once the pin of `n` is set and noted. -/
def withPin (b : Bridge) (n : Nat) : Bridge :=
  let b1 := b.setEntry n (fun x => { x with pin := true })
  { b1 with engine := { b1.engine with pins := b1.engine.pins ++ [n] } }

theorem applyPin_of_unfit (unfit : ¬ endFits e.copy.kind e.copy.itemSize b.moveCopy.itemSize = true) :
    applyPin n e b = b.endRun .invalid false (some n) :=
  if_neg unfit

theorem applyPin_of_fit (fits : endFits e.copy.kind e.copy.itemSize b.moveCopy.itemSize = true) :
    applyPin n e b = if b.engine.step = .pinSource then (withPin b n).afterSourcePin else (withPin b n).startRunning :=
  if_pos fits

theorem afterSourcePin_of_other (source : b.moveCopy.srcStruct = some n)
    (other : ∃ m, b.moveCopy.dstStruct = some m ∧ m ≠ n) : b.afterSourcePin = b.setStep .pinDestination := by
  obtain ⟨m, destination, apart⟩ := other
  simp only [afterSourcePin, destination, source]
  exact if_neg fun h => apart (Option.some.inj h).symm

theorem afterSourcePin_of_last (source : b.moveCopy.srcStruct = some n)
    (last : ∀ m, b.moveCopy.dstStruct = some m → m = n) : b.afterSourcePin = b.startRunning := by
  unfold afterSourcePin
  split
  case h_1 m destination => exact if_pos (source.trans (congrArg some (last m destination).symm))
  case h_2 => rfl

/-- The pin set on the entry whose operation was applied. -/
theorem withPin_applied (held : b.entry? n = some e) : withPin (b.applied n e id) n =
    { b.applied n e (fun x => { x with pin := true }) with engine := { b.engine with pins := b.engine.pins ++ [n] } } := by
  unfold withPin
  rw [applied_setEntry b n e id _ (entry?_index b n e held)]
  rfl

end Bridge

theorem exec_moveRead_due {s : State} {id : Nat} {q : MemRequest} (due : AnswerDue s id isMoveRead q) (ok : Bool) :
    exec (.moveDescriptorReadDone id ok) s = AfterAnswer s q ok false
      ((s.chip.received id).moveRead ok (Memory.readBytes s.mem q.addr q.length)) :=
  s.answered_due id ok false isMoveRead (fun _ data b => b.moveRead ok data) q due

/-- Settles O55: the choice, the read with the load checks, the pins in turn, and the fields of the layout. -/
theorem runsLoadAndPin : Obligations.RunsLoadAndPin := by
  intro s b asking
  refine ⟨?chosen, ?read, ?pins, ?checks, ?order, ?layout⟩
  case chosen =>
    intro p rest run idle pending c
    have chain : c = openChain p := by
      unfold c openChain
      cases p.origin <;> rfl
    rw [chain]
    exact s.event_settle Bridge.choose _ (choose_of_pending run idle pending)
  case read =>
    intro id q due reading d r read goes ok
    have done {b' : Bridge} (h : r.moveRead true (Memory.readBytes s.mem q.addr q.length) = b') : goes b' :=
      (exec_moveRead_due due true).trans (congrArg (AfterAnswer s q true false) h)
    have copy (loaded : b.engine.move.isSome = true) : read.moveCopy = d := setMoveCopy_moveCopy (b := r) loaded d
    have starts (passes : ok) {b' : Bridge} (h : read.startPins = b') : goes b' := by
      obtain ⟨loaded, checked⟩ := passes
      exact done ((moveRead_of_loaded (b := r) reading loaded _).trans ((if_pos checked).trans h))
    refine ⟨fun loaded fails => done ((moveRead_of_loaded (b := r) reading loaded _).trans
        (if_neg (fun h => Bool.false_ne_true (fails.symm.trans h)))),
      fun passes source => starts passes (startPins_of_source ?_),
      fun passes source destination => starts passes (startPins_of_destination ?_ ?_),
      fun passes source destination => starts passes (startPins_of_spans ?_ ?_), fun none_waits => ?_⟩
    · rwa [copy passes.1]
    · rwa [copy passes.1]
    · rwa [copy passes.1]
    · rwa [copy passes.1]
    · rwa [copy passes.1]
    · refine (exec_moveRead_due due false).trans (congrArg (AfterAnswer s q false false) ?_)
      rw [moveRead_of_error (b := s.chip.received id) reading]
      exact freeMoveWaiters_of_none none_waits
  case pins =>
    intro n e turn asked src dst fits a pinned
    have fit_iff : endFits e.copy.kind e.copy.itemSize b.moveCopy.itemSize = true ↔ fits := endFits_iff
    have held : b.entry? n = some e := turn.1
    have applies (target : src ∨ dst) {b' : Bridge} (h : applyPin n e (b.applied n e id) = b') : exec .pinEnd s = After s b' := by
      have aim : b.pinTarget = some n := by
        rcases target with ⟨step, struct⟩ | ⟨step, struct⟩
        · exact (pinTarget_of_source step).trans struct
        · exact (pinTarget_of_destination step).trans struct
      refine s.event_settle Bridge.pinStep _ ((pinStep_of_target aim).trans ?_)
      rw [asked]
      exact (engineStep_turn b n .pin e markAsked (applyPin n) turn).trans (congrArg some h)
    have sets : withPin (b.applied n e id) n = pinned := withPin_applied held
    have noted (fit : fits) : applyPin n e (b.applied n e id)
        = if b.engine.step = .pinSource then pinned.afterSourcePin else pinned.startRunning :=
      sets ▸ applyPin_of_fit (b := b.applied n e id) (fit_iff.mpr fit)
    refine ⟨fun target unfit => applies target (applyPin_of_unfit (b := b.applied n e id) (mt fit_iff.mp unfit)),
      fun source fit other => applies (Or.inl source) ?_, ?_⟩
    · exact (noted fit).trans ((if_pos source.1).trans (afterSourcePin_of_other (b := pinned) source.2 other))
    · rintro (⟨source, last⟩ | destination) fit
      · exact applies (Or.inl source) ((noted fit).trans ((if_pos source.1).trans (afterSourcePin_of_last (b := pinned) source.2 last)))
      · refine applies (Or.inr destination) ((noted fit).trans (if_neg ?_))
        rw [destination.1]
        decide
  case checks =>
    intro d g straps ends
    rw [MoveDescriptor.loadOk_iff, MoveDescriptor.endOk_iff, MoveDescriptor.endOk_iff]
    rfl
  case order =>
    intro p rest ordered pending
    unfold PendingOk at ordered
    rw [pending] at ordered
    exact (List.pairwise_cons.mp ordered).1
  case layout =>
    intro bs d byte
    have fields : d = _ := MoveDescriptor.ofBytes_eq bs
    clear_value d
    subst fields
    refine ⟨by and_intros <;> rfl, by and_intros <;> rfl, ?_, ?_, rfl, rfl, rfl⟩
    · show (if byteIn bs 2 = 0 then some ((wordIn bs 4).toNat % 256) else none) = _
      rw [wordIn_low]
    · show (if byteIn bs 8 = 0 then some ((wordIn bs 12).toNat % 256) else none) = _
      rw [wordIn_low]

end Sys2Proof.Machine
end

