-- ==== Sys2Proof/Proofs/RunItems.lean ====
section
/-! The take and the put of a run (R136, R137, R139), and operations that wait their turn (R105, R106). -/

namespace Sys2Proof.Machine

open Bridge

namespace Bridge

variable {b : Bridge} {n : Nat} {e : Entry}

/-! ## The steps by what they ask for -/

theorem reservationStep_of_struct (step : b.engine.step = .reserve) (struct : b.moveCopy.dstStruct = some n) :
    b.reservationStep = b.askOrApply n (.engine .reserve) b.engine.asked markAsked (applyReserve n) := by
  simp only [reservationStep, step, struct, if_true]

theorem takeStep_of_struct (step : b.engine.step = .take) (struct : b.moveCopy.srcStruct = some n) :
    b.takeStep = b.askOrApply n (.engine .take) b.engine.asked markAsked (applyTake n) := by
  simp only [takeStep, step, struct, if_true]

theorem takeStep_of_span (step : b.engine.step = .take) (span : b.moveCopy.srcStruct = none) :
    b.takeStep = some ((b.setStep .spanRead).issue .spanRead false b.moveCopy.src.toNat [] b.moveCopy.size) := by
  simp only [takeStep, step, span, if_true]

theorem putStep_of_reserved (step : b.engine.step = .put) (disposal : b.engine.disposal = some .reserved)
    (struct : b.moveCopy.dstStruct = some n) :
    b.putStep = b.askOrApply n (.engine .put) b.engine.asked markAsked (applyPut n) := by
  simp only [putStep, step, disposal, struct, if_true]

theorem putStep_of_drop (step : b.engine.step = .put) (disposal : b.engine.disposal = some .drop)
    (struct : b.moveCopy.dstStruct = some n) :
    b.putStep = b.askOrApply n (.engine .put) b.engine.asked markAsked (applyDrop n) := by
  simp only [putStep, step, disposal, struct, if_true]

theorem putStep_of_write (step : b.engine.step = .put) (disposal : b.engine.disposal = some .write) :
    b.putStep = some ((b.setStep .spanWrite).issue .spanWrite true b.moveCopy.dst.toNat b.transitItem b.moveCopy.size) := by
  simp only [putStep, step, disposal, if_true]

/-! ## The take (R136) -/

theorem nothingToTake_iff (d : Descriptor) : nothingToTake d = true ↔
    if d.kind = kindRing then d.count = 0 else d.depth = 0 ∨ d.depth = d.frame := by
  by_cases ring : d.kind = kindRing
  · simp [nothingToTake, Descriptor.isRing, ring]
  · simp [nothingToTake, Descriptor.isRing, ring]

theorem applyTake_of_halted (halted : e.copy.state = stHalted) : applyTake n e b = b.endRun .refused false (some n) :=
  if_pos (beq_iff_eq.mpr halted)

theorem applyTake_of_sound (sound : e.copy.state ≠ stHalted) : applyTake n e b =
    if nothingToTake e.copy then
      (if b.moveCopy.drain then b.endRun .ok false (some n) else b.endRun .sourceEmpty false (some n))
    else if e.copy.isRing then b.beginItem n .ringTake .engine false false (e.copy.slot e.copy.head) [] e.copy.size
    else b.beginItem n .stackPop .engine true false (e.copy.slot (e.copy.depth - 1)) [] e.copy.size :=
  if_neg (fun h => sound (beq_iff_eq.mp h))

theorem applyTake_of_nothing (sound : e.copy.state ≠ stHalted) (nothing : nothingToTake e.copy = true) :
    applyTake n e b = b.endRun (if b.moveCopy.mode = 1 then .ok else .sourceEmpty) false (some n) := by
  rw [applyTake_of_sound sound, if_pos nothing, apply_ite (fun c => b.endRun c false (some n))]
  exact ite_of_iff beq_iff_eq

theorem applyTake_of_ring (sound : e.copy.state ≠ stHalted) (item : ¬ nothingToTake e.copy = true) (ring : e.copy.kind = kindRing) :
    applyTake n e b = b.beginItem n .ringTake .engine false false (e.copy.slot e.copy.head) [] e.copy.size := by
  rw [applyTake_of_sound sound, if_neg item, if_pos (Descriptor.isRing_iff.mpr ring)]

theorem applyTake_of_stack (sound : e.copy.state ≠ stHalted) (item : ¬ nothingToTake e.copy = true) (stack : e.copy.kind ≠ kindRing) :
    applyTake n e b = b.beginItem n .stackPop .engine true false (e.copy.slot (e.copy.depth - 1)) [] e.copy.size := by
  rw [applyTake_of_sound sound, if_neg item, if_neg (fun h => stack (Descriptor.isRing_iff.mp h))]

/-! ## The put (R137, R139) -/

theorem applyPut_of_halted (halted : e.copy.state = stHalted) : applyPut n e b = b.endRun .refused true (some n) :=
  if_pos (beq_iff_eq.mpr halted)

theorem applyDrop_of_halted (halted : e.copy.state = stHalted) : applyDrop n e b = b.endRun .refused true (some n) :=
  if_pos (beq_iff_eq.mpr halted)

theorem applyDrop_of_sound (sound : e.copy.state ≠ stHalted) :
    applyDrop n e b = (b.dropItem n e.copy none b.moveIndex).disposed :=
  if_neg (fun h => sound (beq_iff_eq.mp h))

theorem applyPut_of_ring (sound : e.copy.state ≠ stHalted) (ring : e.copy.kind = kindRing) :
    applyPut n e b = b.beginItem n .ringPut .engine false true (e.copy.slot e.copy.tail) b.transitItem e.copy.size :=
  (if_neg (fun h => sound (beq_iff_eq.mp h))).trans (if_pos (Descriptor.isRing_iff.mpr ring))

theorem applyPut_of_stack (sound : e.copy.state ≠ stHalted) (stack : e.copy.kind = kindStack) : applyPut n e b =
    if e.copy.pushExhausted then (b.halt n e.copy causeReserve).endRun .refused true (some n)
    else b.pushItem n e.copy .stackPush b.transitItem e.copy.frame 255 .engine := by
  have no_ring : ¬ e.copy.isRing = true := by rw [Descriptor.isRing_iff, stack]; decide
  exact (if_neg (fun h => sound (beq_iff_eq.mp h))).trans (if_neg no_ring)

end Bridge

namespace Descriptor

variable {d : Descriptor}

/-- The guard of a stack is open when its byte is 1. -/
theorem guardOpen_of_stack (stack : d.kind = kindStack) : d.guardOpen = true ↔ d.b38 = 1 :=
  guardOpen_iff.trans (and_iff_right stack)

theorem pushPlain_of_stack (stack : d.kind = kindStack) :
    d.pushPlain = true ↔ if d.b38 = 1 then d.depth < d.cap else d.depth < d.limit := by
  rw [pushPlain_iff]
  by_cases guard : d.b38 = 1
  · rw [if_pos guard, if_pos ((guardOpen_of_stack stack).mpr guard)]
  · rw [if_neg guard, if_neg (mt (guardOpen_of_stack stack).mp guard)]

theorem pushExhausted_of_stack (stack : d.kind = kindStack) : d.pushExhausted = true ↔ d.b38 = 1 ∧ d.cap ≤ d.depth := by
  rw [pushExhausted, Bool.and_eq_true, decide_eq_true_eq, guardOpen_of_stack stack]

end Descriptor

/-! ## The spans (R136, R137, R139) -/

section Spans

variable {s : State} {id : Nat} {q : MemRequest}

theorem exec_spanRead_due (due : AnswerDue s id isSpanRead q) (ok : Bool) : exec (.spanReadDone id ok) s =
    AfterAnswer s q ok false ((s.chip.received id).spanReadBack ok (Memory.readBytes s.mem q.addr q.length)) :=
  s.answered_due id ok false isSpanRead (fun _ data b => b.spanReadBack ok data) q due

theorem exec_spanWrite_due (due : AnswerDue s id isSpanWrite q) (ok : Bool) : exec (.spanWriteDone id ok) s =
    AfterAnswer s q ok false ((s.chip.received id).spanWriteBack ok) :=
  s.answered_due id ok false isSpanWrite (fun _ _ b => b.spanWriteBack ok) q due

end Spans

/-- Settles O57: the take and the put by the state and the kind of the copy, and the spans by their answers. -/
theorem itemsAreTakenAndPut : Obligations.ItemsAreTakenAndPut := by
  intro s b d item
  refine ⟨?takes, ?spanTake, ?puts, ?spanPut, ?spanRead, ?spanWritten⟩
  case takes =>
    intro n e turn asked step struct a nothing reads
    have applies {b' : Bridge} (h : applyTake n e a = b') : exec .moveTake s = After s b' := by
      refine s.event_settle Bridge.takeStep _ ((takeStep_of_struct step struct).trans ?_)
      rw [asked]
      exact (engineStep_turn b n .take e markAsked (applyTake n) turn).trans (congrArg some h)
    have is_nothing : nothingToTake e.copy = true ↔ nothing := nothingToTake_iff e.copy
    refine ⟨fun halted => applies (applyTake_of_halted halted),
      fun sound empty => applies (applyTake_of_nothing (b := a) sound (is_nothing.mpr empty)),
      fun sound full ring => applies ((applyTake_of_ring sound (mt is_nothing.mp full) ring).trans ?_),
      fun sound full stack => applies ((applyTake_of_stack sound (mt is_nothing.mp full) stack).trans ?_)⟩
    · exact applied_beginItem turn.1 .ringTake .engine false false _ [] _
    · exact applied_beginItem turn.1 .stackPop .engine true false _ [] _
  case spanTake => exact fun step span => s.event_settle Bridge.takeStep _ (takeStep_of_span step span)
  case puts =>
    intro n e turn asked step struct a lost writes
    have reserved (disposal : b.engine.disposal = some .reserved) {b' : Bridge} (h : applyPut n e a = b') :
        exec .movePut s = After s b' := by
      refine s.event_settle Bridge.putStep _ ((putStep_of_reserved step disposal struct).trans ?_)
      rw [asked]
      exact (engineStep_turn b n .put e markAsked (applyPut n) turn).trans (congrArg some h)
    have dropped (disposal : b.engine.disposal = some .drop) {b' : Bridge} (h : applyDrop n e a = b') :
        exec .movePut s = After s b' := by
      refine s.event_settle Bridge.putStep _ ((putStep_of_drop step disposal struct).trans ?_)
      rw [asked]
      exact (engineStep_turn b n .put e markAsked (applyDrop n) turn).trans (congrArg some h)
    refine ⟨fun disposal halted => ?_, fun disposal sound => ⟨fun ring => ?_, fun stack plain => ?_, fun stack shut above => ?_,
      fun stack guard full => ?_⟩, fun disposal sound => dropped disposal (applyDrop_of_sound sound)⟩
    · exact disposal.elim (fun h => reserved h (applyPut_of_halted halted)) (fun h => dropped h (applyDrop_of_halted halted))
    · exact reserved disposal ((applyPut_of_ring sound ring).trans (applied_beginItem turn.1 .ringPut .engine false true _ _ _))
    · have is_plain := (Descriptor.pushPlain_of_stack stack).mpr plain
      have room : ¬ e.copy.pushExhausted = true := by
        rw [Descriptor.pushExhausted_of_stack stack]
        rintro ⟨guard, full⟩
        rw [if_pos guard] at plain
        exact Nat.not_lt.mpr full plain
      refine reserved disposal ((applyPut_of_stack sound stack).trans ((if_neg room).trans ?_))
      rw [pushItem, if_pos is_plain]
      exact applied_beginItem turn.1 .stackPush .engine true true _ _ _
    · have overflows : ¬ e.copy.pushPlain = true := by
        rw [Descriptor.pushPlain_of_stack stack, if_neg shut]
        exact Nat.not_lt.mpr above
      have room : ¬ e.copy.pushExhausted = true := fun h => shut ((Descriptor.pushExhausted_of_stack stack).mp h).1
      refine reserved disposal ((applyPut_of_stack sound stack).trans ((if_neg room).trans ?_))
      rw [pushItem, if_neg overflows]
      exact applied_beginItem turn.1 (.stackOverflow (e.copy.faultFrame e.copy.frame 255)) .engine true true _ _ _
    · exact reserved disposal ((applyPut_of_stack sound stack).trans
        (if_pos ((Descriptor.pushExhausted_of_stack stack).mpr ⟨guard, full⟩)))
  case spanPut => exact fun step disposal => s.event_settle Bridge.putStep _ (putStep_of_write step disposal)
  case spanRead =>
    intro id q due step r
    refine ⟨(exec_spanRead_due due true).trans (congrArg (AfterAnswer s q true false) ?_),
      (exec_spanRead_due due false).trans (congrArg (AfterAnswer s q false false) ?_)⟩
    · exact (if_pos step).trans (if_pos rfl)
    · exact (if_pos step).trans (if_neg Bool.false_ne_true)
  case spanWritten =>
    intro id q due step r
    refine ⟨(exec_spanWrite_due due true).trans (congrArg (AfterAnswer s q true false) ?_),
      (exec_spanWrite_due due false).trans (congrArg (AfterAnswer s q false false) ?_)⟩
    · exact (if_pos step).trans (if_pos rfl)
    · exact (if_pos step).trans (if_neg Bool.false_ne_true)

/-! ## Operations that wait their turn (R105, R106) -/

/-- What an event does that asks for an operation on a working copy. -/
def Waits (s : State) (i : Instr) (n : Nat) (op : CacheOp) (mark : Bridge → Bridge) : Prop :=
  let joined := mark (joining s.chip n op)
  (s.chip.entry? n = none → exec i s = After s (mark { s.chip with misses := s.chip.misses ++ [(n, op)] }))
  ∧ (∀ e, s.chip.entry? n = some e → e.ready = false ∨ (∃ x l, e.waiting = x :: l ∧ x ≠ op) → exec i s = After s joined)
  ∧ (∀ e, s.chip.entry? n = some e → e.ready = true → e.waiting = [] → exec i s = exec i { s with chip := joined })

/-- An event that asks when it is not asked yet, and goes on with the same operation when it is. -/
theorem waits_of_asks {s : State} {i : Instr} {n : Nat} {op : CacheOp} {mark mark' : Bridge → Bridge} {apply : Entry → Bridge → Bridge}
    {step : Bridge → Option Bridge} (event : ∀ s, exec i s = s.event (fun b => (step b).map Bridge.settle))
    (marks : ∀ b, (mark b).cache = b.cache) (asks : step s.chip = s.chip.askOrApply n op false mark apply)
    (goesOn : step (mark (joining s.chip n op)) = (mark (joining s.chip n op)).askOrApply n op true mark' apply) :
    Waits s i n op mark := by
  refine ⟨fun unheld => ?_, fun e held waits => ?_, fun e held ready none_waits => ?_⟩
  · exact (event s).trans (s.event_settle step _ (asks.trans (askOrApply_of_unheld marks unheld)))
  · exact (event s).trans (s.event_settle step _ (asks.trans (askOrApply_of_waits marks held waits)))
  · obtain ⟨b, here, there⟩ := askOrApply_of_ready (op := op) (mark := mark) (apply := apply) marks held ready none_waits
    exact (event s).trans ((State.event_eq_of_some (asks.trans here) (goesOn.trans there)).trans (event _).symm)

/-- Two notes of the asking that agree on the bridge where the operation has joined do the same. -/
theorem askOrApply_mark {b : Bridge} {n : Nat} {op : CacheOp} {mark mark' : Bridge → Bridge} (apply : Entry → Bridge → Bridge)
    (same : mark (b.enqueue n op) = mark' (b.enqueue n op)) :
    b.askOrApply n op false mark apply = b.askOrApply n op false mark' apply := by
  simp only [askOrApply, Bool.false_eq_true, if_false, same]

theorem completionStep_of_completion {b : Bridge} {cm : Completion} (completion : b.trigger.completion = some cm) : b.completionStep
    = b.askOrApply cm.struct (.engine .completion) cm.asked markCompletion (applyCompletion cm) := by
  simp only [completionStep, completion]

/-- The completion operation `cm` stands in the cache. -/
def markCompletionOf (cm : Completion) (b : Bridge) : Bridge :=
  { b with trigger := { b.trigger with completion := some { cm with asked := true } } }

theorem markCompletion_eq {b : Bridge} {cm : Completion} (completion : b.trigger.completion = some cm) :
    markCompletion b = markCompletionOf cm b := by
  simp only [markCompletion, markCompletionOf, completion, Option.map_some]

/-- Settles O58: each of these rows asks by `askOrApply`, and what joins at the front of a ready entry is applied at once. -/
theorem operationsWaitTheirTurn : Obligations.OperationsWaitTheirTurn := by
  intro s n b waits asked
  refine ⟨fun unasked => ⟨?pins, ?reserves, ?takes, ?puts⟩, ?completes, ?notices⟩
  case pins =>
    intro step
    have target : b.pinTarget = some n := by
      rcases step with ⟨step, struct⟩ | ⟨step, struct⟩
      · exact (pinTarget_of_source step).trans struct
      · exact (pinTarget_of_destination step).trans struct
    have asks := pinStep_of_target target
    rw [unasked] at asks
    exact waits_of_asks (i := .pinEnd) (step := Bridge.pinStep) (fun _ => rfl) (fun _ => rfl) asks
      (pinStep_of_target (b := markAsked (joining b n (.engine .pin))) target)
  case reserves =>
    intro step struct
    have asks := reservationStep_of_struct step struct
    rw [unasked] at asks
    exact waits_of_asks (i := .reservationStep) (step := Bridge.reservationStep) (fun _ => rfl) (fun _ => rfl) asks
      (reservationStep_of_struct (b := markAsked (joining b n (.engine .reserve))) step struct)
  case takes =>
    intro step struct
    have asks := takeStep_of_struct step struct
    rw [unasked] at asks
    exact waits_of_asks (i := .moveTake) (step := Bridge.takeStep) (fun _ => rfl) (fun _ => rfl) asks
      (takeStep_of_struct (b := markAsked (joining b n (.engine .take))) step struct)
  case puts =>
    rintro step struct (disposal | disposal)
    · have asks := putStep_of_reserved step disposal struct
      rw [unasked] at asks
      exact waits_of_asks (i := .movePut) (step := Bridge.putStep) (fun _ => rfl) (fun _ => rfl) asks
        (putStep_of_reserved (b := markAsked (joining b n (.engine .put))) step disposal struct)
    · have asks := putStep_of_drop step disposal struct
      rw [unasked] at asks
      exact waits_of_asks (i := .movePut) (step := Bridge.putStep) (fun _ => rfl) (fun _ => rfl) asks
        (putStep_of_drop (b := markAsked (joining b n (.engine .put))) step disposal struct)
  case completes =>
    intro cm completion unasked
    have asks := completionStep_of_completion completion
    have same : (b.enqueue cm.struct (.engine .completion)).trigger.completion = some cm := by simpa using completion
    rw [unasked, askOrApply_mark (applyCompletion cm) (markCompletion_eq same)] at asks
    exact waits_of_asks (i := .completionProcessing) (mark := markCompletionOf cm) (step := Bridge.completionStep) (fun _ => rfl) (fun _ => rfl) asks
      (completionStep_of_completion (b := markCompletionOf cm (joining b cm.struct (.engine .completion))) rfl)
  case notices =>
    intro queued unasked runs
    obtain ⟨x, rest, queue⟩ := List.exists_cons_of_ne_nil queued
    have notices : b.notices = ⟨x :: rest, false⟩ := by rw [← queue, ← unasked]
    have asking : (markNotice (joining b 1 .noticePut)).notices = ⟨x :: rest, true⟩ := by rw [← queue]; rfl
    exact waits_of_asks (i := .noticePut) (mark := markNotice) (step := Bridge.noticeStep) (fun _ => rfl) (fun _ => rfl)
      (noticeStep_of_queue notices runs) (noticeStep_of_queue (b := markNotice (joining b 1 .noticePut)) asking runs)

end Sys2Proof.Machine
end

