-- ==== Sys2Proof/Proofs/RunEnds.lean ====
section
/-! How items and runs begin and end (R129, R133, R134, R138, R141, R157), and the 32 bytes stored back (R182). -/

namespace Sys2Proof.Machine

open Bridge

/-! ## The bytes of a move descriptor (R182) -/

namespace MoveDescriptor

theorem toBytes_length (d : MoveDescriptor) : d.toBytes.length = 32 := by
  unfold MoveDescriptor.toBytes
  simp only [List.length_append, leBytes_length]
  rfl

theorem reserved_at (d : MoveDescriptor) : natAt d.toBytes 23 9 = d.rsv23.toNat := by
  have last : natAt d.toBytes 23 9 = ofLe (leBytes 9 d.rsv23.toNat) := by
    refine congrArg ofLe ?_
    unfold MoveDescriptor.toBytes
    rw [List.drop_left' (by simp only [List.length_append, leBytes_length]; rfl)]
    exact List.take_of_length_le (Nat.le_of_eq (leBytes_length 9 _))
  rw [last, ofLe_leBytes 9 _ d.rsv23.isLt]

theorem ofBytes_toBytes (d : MoveDescriptor) : MoveDescriptor.ofBytes d.toBytes = d := by
  rw [ofBytes_eq, reserved_at]
  unfold MoveDescriptor.toBytes
  simp only [halfIn, wordIn, leBytes, List.cons_append, List.nil_append, byteIn_cons_succ, byteIn_cons_zero, Nat.reduceAdd,
    append_bytes, Descriptor.halves_of_number, Descriptor.ofNat_of_field]

/-- The record is stored back as it was read: its fields stand side by side. -/
theorem toBytes_ofBytes {bs : List Byte} (whole : bs.length = 32) : (MoveDescriptor.ofBytes bs).toBytes = bs := by
  have source : [byteAt bs 0, byteAt bs 1, byteAt bs 2, byteAt bs 3] = slice bs 0 4 := four_bytes_slice (by omega)
  have destination : [byteAt bs 8, byteAt bs 9] = slice bs 8 2 := two_bytes_slice (by omega)
  have link : [byteAt bs 20, byteAt bs 21] = slice bs 20 2 := two_bytes_slice (by omega)
  have lastEnd : [byteAt bs 22] = slice bs 22 1 := byteAt_slice (by omega)
  have flags : [byteAt bs 20, byteAt bs 21, byteAt bs 22] = slice bs 20 3 := by
    rw [← slice_append bs 20 2 1, ← link, ← lastEnd]
    rfl
  have reserved : leBytes 9 (BitVec.ofNat 72 (natAt bs 23 9)).toNat = slice bs 23 9 := wide_slice (by decide) (by omega)
  have half (i : Nat) (within : i + 2 ≤ 32) : leBytes 2 (halfAt bs i).toNat = slice bs i 2 := halfAt_slice (by omega)
  have word (i : Nat) (within : i + 4 ≤ 32) : leBytes 4 (wordAt bs i).toNat = slice bs i 4 := wordAt_slice (by omega)
  unfold MoveDescriptor.toBytes MoveDescriptor.ofBytes
  simp only [source, destination, flags, reserved, half, word, Nat.reduceAdd, Nat.reduceLeDiff]
  calc
    _ = slice bs 0 32 := by
      iterate 8 rw [slice_append]
    _ = bs := slice_all whole

/-! ## The ends of a descriptor (R126, R134) -/

variable {d : MoveDescriptor}

theorem dstStruct_of_struct (struct : d.dstType = 0) : d.dstStruct = some (d.dst.toNat % 256) := if_pos struct

theorem dstStruct_of_span (span : d.dstType ≠ 0) : d.dstStruct = none := if_neg span

/-- Each SPAN end passes the test before an item (R134). -/
theorem spansOk_iff {g : Settings} {straps : Fin 16} : d.spansOk g straps = true ↔
    (d.srcType = 0 ∨ spanOk g straps d.size d.src = true) ∧ (d.dstType = 0 ∨ spanOk g straps d.size d.dst = true) := by
  simp only [spansOk, Bool.and_eq_true, Bool.or_eq_true, beq_iff_eq]

end MoveDescriptor

namespace Bridge

/-! ## A run that is loaded -/

/-- The engine has the move `m` loaded, its copy of the descriptor `d` (R129). -/
def Carries (b : Bridge) (m : LoadedMove) (d : MoveDescriptor) : Prop := b.engine.move = some { m with descriptor := some d }

variable {b : Bridge} {m : LoadedMove} {d : MoveDescriptor}

theorem Carries.moveCopy (loaded : Carries b m d) : b.moveCopy = d := by
  unfold Carries at loaded
  simp only [Bridge.moveCopy, loaded]
  rfl

theorem Carries.setMoveCopy (loaded : Carries b m d) (d' : MoveDescriptor) : Carries (b.setMoveCopy d') m d' := by
  unfold Carries at loaded ⊢
  simp only [Bridge.setMoveCopy, loaded]
  rfl

theorem Carries.moveIndex (loaded : Carries b m d) : b.moveIndex = some m.index := by
  unfold Carries at loaded
  simp only [Bridge.moveIndex, loaded]
  rfl

/-! ## The end of a run (R134 to R139, R141, R157) -/

/-- The end that is stored for a run of number `run` (R141, R157). -/
def storedCode (code : RunEnd) (run : Nat) (link : Bool) : RunEnd :=
  if code = .ok ∧ run = 64 ∧ link = true then .chainLimit else code

theorem storedEnd_of_carries (loaded : Carries b m d) (code : RunEnd) : b.storedEnd code = storedCode code m.run d.linkEnable := by
  have copy := loaded.moveCopy
  unfold Carries at loaded
  simp only [storedEnd, loaded, copy]
  rfl

theorem clearDestination_of_carries (loaded : Carries b m d) : b.clearDestination = { b with
    cache := if d.dstType = 0 then b.cache.map (fun e => if e.index = d.dst.toNat % 256 then { e with reservation := false } else e)
      else b.cache } := by
  unfold clearDestination
  rw [loaded.moveCopy]
  by_cases struct : d.dstType = 0
  · rw [MoveDescriptor.dstStruct_of_struct struct, if_pos struct]
    rfl
  · rw [MoveDescriptor.dstStruct_of_span struct, if_neg struct]

theorem endRun_of_carries (loaded : Carries b m d) (code : RunEnd) (lost : Bool) (st : Option Nat) :
    let c := storedCode code m.run d.linkEnable
    b.endRun code lost st = issue { b with
      cache := if d.dstType = 0 then b.cache.map (fun e => if e.index = d.dst.toNat % 256 then { e with reservation := false } else e)
        else b.cache
      engine := { b.engine with
        state := .storing, transit := none, disposal := none, step := .store, asked := false
        move := some { m with descriptor := some { d with lastEnd := c.code } }
        ending := some ⟨c, lost, st, if code = .stopped then b.engine.stopRequest.getD 0 else 0⟩ } }
      .storeBack true (b.cfg.moveBase + m.index * 32) { d with lastEnd := c.code }.toBytes 32 := by
  intro c
  unfold endRun
  rw [storedEnd_of_carries loaded, loaded.moveCopy, loaded.moveIndex, clearDestination_of_carries loaded]
  have move := loaded
  unfold Carries at move
  simp only [Bridge.setMoveCopy, move]
  rfl

/-- What a run that ends OK leaves of the engine (R141, R157). -/
def EndsOk (b : Bridge) (m : LoadedMove) (d : MoveDescriptor) : Prop :=
  b.engine.state = .storing
    ∧ b.engine.ending.map Ending.code = some (if m.run = 64 ∧ d.linkEnable = true then .chainLimit else .ok)
    ∧ ∃ last, Carries b m { d with lastEnd := last }

theorem endRun_endsOk (loaded : Carries b m d) (st : Option Nat) : EndsOk (b.endRun .ok false st) m d := by
  have code : storedCode .ok m.run d.linkEnable = if m.run = 64 ∧ d.linkEnable = true then .chainLimit else .ok :=
    ite_of_iff (and_iff_right rfl)
  rw [endRun_of_carries loaded]
  exact ⟨rfl, congrArg some code, _, rfl⟩

/-! ## The start of a run and of an item (R133, R134) -/

theorem startRunning_of_none (loaded : Carries b m d) (none_left : d.count = 0) : b.startRunning = b.endRun .ok false none :=
  if_pos (by rw [loaded.moveCopy, none_left])

theorem startRunning_of_some (loaded : Carries b m d) (left : d.count ≠ 0) : b.startRunning = startItem { b with
    engine := { b.engine with state := .running, srcStart := d.src, dstStart := d.dst, blockItems := 0 } } := by
  refine (if_neg (by rwa [loaded.moveCopy])).trans ?_
  rw [loaded.moveCopy]

theorem startItem_of_stop (stop : b.engine.stopRequest.isSome = true) : b.startItem = b.endRun .stopped false none :=
  if_pos stop

section Item

variable (loaded : Carries b m d) (goes : b.engine.stopRequest = none)
include loaded goes

theorem startItem_of_bad (bad : ¬ d.spansOk b.cfg b.control.straps = true) : b.startItem = b.endRun .invalid false none := by
  refine (if_neg (by rw [goes]; decide)).trans (if_pos ?_)
  rw [loaded.moveCopy]
  exact Bool.eq_false_iff.mpr bad

variable (spans : d.spansOk b.cfg b.control.straps = true)
include spans

theorem startItem_of_struct (struct : d.dstType = 0) : b.startItem = b.setStep .reserve := by
  simp only [startItem, goes, Option.isSome_none, loaded.moveCopy, spans, MoveDescriptor.dstStruct_of_struct struct,
    Bool.false_eq_true, Bool.true_eq_false, if_false]

theorem startItem_of_span (span : d.dstType ≠ 0) :
    b.startItem = setStep { b with engine := { b.engine with disposal := some .write } } .take := by
  simp only [startItem, goes, Option.isSome_none, loaded.moveCopy, spans, MoveDescriptor.dstStruct_of_span span,
    Bool.false_eq_true, Bool.true_eq_false, if_false]

/-- What an item that begins leaves of the engine. -/
theorem startItem_carries : Carries b.startItem m d ∧ b.startItem.engine.blockItems = b.engine.blockItems
    ∧ b.startItem.engine.step = if d.dstType = 0 then .reserve else .take := by
  by_cases struct : d.dstType = 0
  · rw [startItem_of_struct loaded goes spans struct, if_pos struct]
    exact ⟨loaded, rfl, rfl⟩
  · rw [startItem_of_span loaded goes spans struct, if_neg struct]
    exact ⟨loaded, rfl, rfl⟩

end Item

/-! ## An item that is disposed of (R137, R138) -/

/-- The bridge once the transit item is gone, before the count is spent. -/
def itemGone (b : Bridge) : Bridge :=
  activity (clearDestination { b with engine := { b.engine with transit := none, disposal := none } })

theorem itemGone_engine (b : Bridge) : (itemGone b).engine = { b.engine with transit := none, disposal := none } := by
  simp [itemGone]

theorem itemGone_cfg (b : Bridge) : (itemGone b).cfg = b.cfg ∧ (itemGone b).control.straps = b.control.straps := by
  simp [itemGone, cfg]

theorem Carries.itemGone (loaded : Carries b m d) : Carries (itemGone b) m d := by
  unfold Carries
  rw [itemGone_engine]
  exact loaded

/-- One item more of the block. -/
def blockItem (b : Bridge) : Bridge := { b with engine := { b.engine with blockItems := b.engine.blockItems + 1 } }

theorem disposed_of_block (loaded : Carries b m d) (block : d.mode = 2) : b.disposed =
    if b.engine.blockItems + 1 < d.blockLength.toNat then (blockItem (itemGone b)).startItem
    else ((blockItem (itemGone b)).spendCount.recycleSpans).endRun .ok false none := by
  have copy : (itemGone b).moveCopy = d := loaded.itemGone.moveCopy
  have is_block : (itemGone b).moveCopy.block = true := by rw [copy]; exact beq_iff_eq.mpr block
  have items : (itemGone b).engine.blockItems = b.engine.blockItems := by rw [itemGone_engine]
  refine (if_pos is_block).trans ?_
  rw [← copy, ← items]
  rfl

theorem Carries.spendCount (loaded : Carries b m d) : Carries b.spendCount m { d with count := d.count - 1 } := by
  rw [Bridge.spendCount, loaded.moveCopy]
  exact loaded.setMoveCopy _

theorem disposed_of_other (loaded : Carries b m d) (other : d.mode ≠ 2) : b.disposed =
    if d.mode = 1 ∧ d.count - 1 ≠ 0 then (itemGone b).spendCount.startItem else (itemGone b).spendCount.endRun .ok false none := by
  have no_block : ¬ (itemGone b).moveCopy.block = true := by
    rw [loaded.itemGone.moveCopy]
    exact fun h => other (beq_iff_eq.mp h)
  refine (if_neg no_block).trans (ite_of_iff ?_)
  show (itemGone b).spendCount.moveCopy.drain = true ∧ (itemGone b).spendCount.moveCopy.count ≠ 0 ↔ _
  rw [loaded.itemGone.spendCount.moveCopy]
  exact and_congr_left fun _ => beq_iff_eq

/-- The SPAN ends of a run whose block is complete (R127, R138). -/
def recycled (b : Bridge) (d : MoveDescriptor) : MoveDescriptor :=
  { d with
    src := if d.recycle = true ∧ d.srcType ≠ 0 then b.engine.srcStart else d.src
    dst := if d.recycle = true ∧ d.dstType ≠ 0 then b.engine.dstStart else d.dst }

theorem Carries.recycleSpans (loaded : Carries b m d) : Carries b.recycleSpans m (recycled b d) := by
  unfold Bridge.recycleSpans
  rw [loaded.moveCopy]
  by_cases recycle : d.recycle = true
  · have spans : recycled b d = { d with
        src := if d.srcType = 0 then d.src else b.engine.srcStart
        dst := if d.dstType = 0 then d.dst else b.engine.dstStart } := by
      simp only [recycled, recycle, true_and, ite_not]
    rw [if_pos recycle, spans]
    exact loaded.setMoveCopy _
  · have same : recycled b d = d := by simp only [recycled, recycle, Bool.false_eq_true, false_and, if_false]
    rw [if_neg recycle, same]
    exact loaded

end Bridge

/-- Settles O59: the start and the end of a run and of an item, what a disposed item spends, and the 32 bytes as one layout. -/
theorem runsSpendTheirCountAndAreStored : Obligations.RunsSpendTheirCountAndAreStored := by
  refine ⟨?runs, fun d => ⟨d.toBytes_length, d.ofBytes_toBytes⟩, fun bs whole => MoveDescriptor.toBytes_ofBytes whole, by decide⟩
  intro b m d move descriptor spans carrying endsOk
  have loaded : Carries b m d := by
    unfold Carries
    rw [move, ← descriptor]
  have is_spans : d.spansOk b.cfg b.control.straps = true ↔ spans := MoveDescriptor.spansOk_iff
  obtain ⟨cfg, straps⟩ := itemGone_cfg b
  have engine := itemGone_engine b
  have stops (go : b.engine.stopRequest = none) : (itemGone b).engine.stopRequest = none := by rw [engine]; exact go
  have passes (good : spans) : d.spansOk (itemGone b).cfg (itemGone b).control.straps = true := by
    rw [cfg, straps]
    exact is_spans.mpr good
  have ends {b1 : Bridge} {d' : MoveDescriptor} (disposed : b.disposed = b1.endRun .ok false none)
      (link : d'.linkEnable = d.linkEnable) (carries : Carries b1 m d') : endsOk d' := by
    have ended := endRun_endsOk carries none
    rw [← disposed, EndsOk, link] at ended
    exact ended
  refine ⟨startRunning_of_none loaded, startRunning_of_some loaded, startItem_of_stop,
    fun go bad => startItem_of_bad loaded go (mt is_spans.mp bad),
    fun go good struct => startItem_of_struct loaded go (is_spans.mpr good) struct,
    fun go good span => startItem_of_span loaded go (is_spans.mpr good) span, fun item => rfl,
    fun code lost st => ⟨_, endRun_of_carries loaded code lost st, rfl⟩, fun single => ?single, fun drain last => ?last,
    fun drain more go good => ?more, fun block more go good => ?blockMore, fun block complete => ?blockDone⟩
  case single =>
    exact ends ((disposed_of_other loaded (by rw [single]; decide)).trans
      (if_neg (fun h => absurd (single.symm.trans h.1) (by decide)))) rfl loaded.itemGone.spendCount
  case last =>
    have none_left : d.count - 1 = 0 := by rw [last]; rfl
    have spent := loaded.itemGone.spendCount
    rw [none_left] at spent
    exact ends ((disposed_of_other loaded (by rw [drain]; decide)).trans (if_neg (fun h => h.2 none_left))) rfl spent
  case more =>
    have left : d.count - 1 ≠ 0 := fun h => more (by bv_omega)
    rw [disposed_of_other loaded (by rw [drain]; decide), if_pos ⟨drain, left⟩]
    obtain ⟨carries, -, step⟩ := startItem_carries loaded.itemGone.spendCount (stops go) (passes good)
    exact ⟨carries, step⟩
  case blockMore =>
    rw [disposed_of_block loaded block, if_pos more]
    obtain ⟨carries, items, step⟩ := startItem_carries (b := blockItem (itemGone b)) loaded.itemGone (stops go) (passes good)
    exact ⟨carries, items.trans (congrArg (fun e => e.blockItems + 1) engine), step⟩
  case blockDone =>
    have spent : Carries (blockItem (itemGone b)).spendCount m { d with count := d.count - 1 } :=
      Carries.spendCount (b := blockItem (itemGone b)) loaded.itemGone
    have source : (blockItem (itemGone b)).spendCount.engine.srcStart = b.engine.srcStart := by
      show (itemGone b).engine.srcStart = b.engine.srcStart
      rw [engine]
    have destination : (blockItem (itemGone b)).spendCount.engine.dstStart = b.engine.dstStart := by
      show (itemGone b).engine.dstStart = b.engine.dstStart
      rw [engine]
    have returned := spent.recycleSpans
    unfold recycled at returned
    rw [source, destination] at returned
    exact ends ((disposed_of_block loaded block).trans (if_neg (Nat.not_lt.mpr complete))) rfl returned

end Sys2Proof.Machine
end

