-- ==== Sys2Proof/Proofs/RunReports.lean ====
section
/-! The store-back, the pin releases, the report and completion processing (R113, R120, R141, R142, R156 to R159). -/

namespace Sys2Proof.Machine

open Bridge

namespace Bridge

variable {b : Bridge} {n m : Nat} {e : Entry}

/-! ## The store-back (R120, R141) -/

/-- What waited for the loaded move goes on, in order. -/
theorem freeMoveWaiters_resume (b : Bridge) : b.freeMoveWaiters = b.iport.inflight.foldl (fun b x => match x.phase with
    | .moveWait todo => b.snoop x todo
    | _ => b) b := by
  refine congrArg (fun f => List.foldl f b b.iport.inflight) ?_
  funext b x
  cases x.phase <;> rfl

theorem stored_of_store (step : b.engine.step = .store) (ok : Bool) : b.stored ok =
    freeMoveWaiters (releasePins { b with engine := { b.engine with storeFailed := !ok } }) :=
  if_pos step

theorem releasePins_of_none (none_left : b.engine.pins = []) : b.releasePins = b.setStep .report := by
  simp only [releasePins, none_left]

theorem releasePins_of_held {rest : List Nat} (pins : b.engine.pins = n :: rest) (held : b.entry? n = some e) : b.releasePins =
    { b.setEntry n (fun x => { x with waiting := x.waiting ++ [.engine .release] }) with
      engine := { b.engine with step := .release, asked := true } } := by
  have held' : (b.setStep .release).entry? n = some e := held
  have asks : b.releasePins = (b.setStep .release).askEngine n .release := by simp only [releasePins, pins]
  rw [asks, askEngine, enqueue_of_held held']
  rfl

/-! ## The pin releases (R113, R13, R119, R142) -/

theorem released_eq (e : Entry) : e.released = { e with
    copy := if e.copy.state = stClosing then { e.copy with state := stClosed } else e.copy
    state := if e.copy.state = stClosing then .dirty else e.state
    pin := false, held := [], heldRelease := false
    waiting := e.held.map CacheOp.tableWrite ++ (if e.heldRelease then [.release] else []) ++ e.waiting } := by
  unfold Entry.released
  by_cases closing : e.copy.state = stClosing
  · have changes : ({ e.copy with state := stClosed } : Descriptor) ≠ e.copy := fun same => by
      have states : stClosed = e.copy.state := congrArg Descriptor.state same
      rw [closing] at states
      exact absurd states (by decide)
    simp only [closing, if_true, Entry.withCopy, changes, if_false]
  · simp only [closing, if_false, Entry.withCopy, if_true]

/-- The other entries are found as before. -/
theorem applied_entry_other {f : Entry → Entry} (index : (f { e with waiting := e.waiting.tail }).index = n) (other : m ≠ n) :
    (b.applied n e f).entry? m = b.entry? m := by
  have not_front : ((f { e with waiting := e.waiting.tail }).index == m) = false := by
    rw [index, beq_eq_false_iff_ne]
    exact other.symm
  show List.find? _ (_ :: _) = _
  rw [List.find?_cons, not_front]
  simp only [List.find?_filter, entry?]
  congr 1
  funext x
  by_cases here : x.index = m <;> simp [here, other]

theorem releaseStep_of_turn {rest : List Nat} (turn : EngineTurn b n .release e) (step : b.engine.step = .release)
    (pins : b.engine.pins = n :: rest) : b.releaseStep =
      some (releasePins { b.applied n e Entry.released with engine := { b.engine with pins := rest } }) := by
  obtain ⟨held, ready, front⟩ := turn
  have index := entry?_index b n e held
  have sets : (b.startOp n).setEntry n Entry.released = b.applied n e Entry.released := by
    rw [startOp_eq b n e held, applied_setEntry b n e id _ index]
    rfl
  simp only [releaseStep, step, if_true, pins, frontOp_turn b n e _ held ready front, sets]
  rfl

/-! ## The report (R142) -/

theorem endNotices_of_ok {en : Ending} (ok : en.code = .ok) (stored : b.engine.storeFailed = false) : b.endNotices m en =
    if b.moveCopy.count = 0 ∧ b.moveCopy.doneNotice = true then b.notify (moveDoneNotice m b.engine.taken) else b :=
  (if_pos ok).trans (if_neg (by rw [stored]; exact Bool.false_ne_true))

theorem endNotices_of_unstored {en : Ending} (ok : en.code = .ok) (failed : b.engine.storeFailed = true) : b.endNotices m en =
    b.notify (moveFaultNotice m b.engine.taken .memory none false 0) :=
  (if_pos ok).trans (if_pos failed)

theorem endNotices_of_fault {en : Ending} (fault : en.code ≠ .ok) (stored : b.engine.storeFailed = false) : b.endNotices m en =
    b.notify (moveFaultNotice m b.engine.taken en.code.reason en.struct en.lost en.tag) :=
  (if_neg fault).trans (if_neg (by rw [stored]; exact Bool.false_ne_true))

theorem endNotices_of_both {en : Ending} (fault : en.code ≠ .ok) (failed : b.engine.storeFailed = true) : b.endNotices m en =
    (b.notify (moveFaultNotice m b.engine.taken en.code.reason en.struct en.lost en.tag)).notify
      (moveFaultNotice m b.engine.taken .memory none false 0) := by
  refine (if_neg fault).trans ((if_pos failed).trans ?_)
  rw [storeFault]
  simp

/-- A STOP_MOVE of the move `m` waits for its report (R143). -/
def awaitsStop (b : Bridge) (m : Nat) : Bool :=
  b.command.held.any (fun x => decide (b.command.stage = .started ∧ x.op = opStopMove ∧ x.move.toNat = m))

theorem finishStopMove_eq (b : Bridge) (m : Nat) : b.finishStopMove m = if awaitsStop b m then b.commandDone else b := by
  unfold finishStopMove awaitsStop
  cases b.command.held with
  | none => rfl
  | some c => simp

/-- The notices of an end leave all but the queue and bridge control. -/
theorem endNotices_keeps (b : Bridge) (m : Nat) (en : Ending) : (b.endNotices m en).trigger = b.trigger
    ∧ (b.endNotices m en).command = b.command ∧ (b.endNotices m en).control.state = b.control.state := by
  unfold endNotices storeFault
  split <;> split <;> simp
  split <;> simp

/-- The bridge once the end is reported, before the trigger unit follows it (R142). -/
def reported (b told : Bridge) (m : Nat) : Bridge :=
  { (if awaitsStop b m then told.activity.commandDone else told.activity) with
    engine := Engine.unloaded (if b.engine.pauseRequest then .paused else .idle) b.engine.pauseRequest }

theorem reported_keeps (b : Bridge) (en : Ending) (m : Nat) : (reported b (b.endNotices m en) m).trigger = b.trigger
    ∧ (reported b (b.endNotices m en) m).control.state = b.control.state := by
  obtain ⟨trigger, -, state⟩ := endNotices_keeps b m en
  unfold reported
  split <;> simp [trigger, state]

theorem reportEnd_of_report {lm : LoadedMove} {en : Ending} (step : b.engine.step = .report) (move : b.engine.move = some lm)
    (ending : b.engine.ending = some en) : b.reportEnd =
      let ok : Bool := en.code == .ok && !b.engine.storeFailed
      some (followEnd (reported b (b.endNotices lm.index en) lm.index) lm.index b.storedCount ok
        (if ok && b.moveCopy.linkEnable then some b.moveCopy.linkIndex.toNat else none) b.engine.pauseRequest) := by
  obtain ⟨-, command, -⟩ := endNotices_keeps b lm.index en
  have awaits : awaitsStop (b.endNotices lm.index en).activity lm.index = awaitsStop b lm.index := by
    simp [awaitsStop, command]
  simp only [reportEnd, step, move, ending, finishStopMove_eq, awaits]
  rfl

/-! ## What follows an end (R151, R156 to R158) -/

theorem startLink_of_idle {t : Nat} {c : Chain} (link : b.trigger.link = some t) (chain : b.trigger.chain = some c)
    (idle : b.engine.state = .idle) (no_completion : b.trigger.completion = none) :
    b.startLink = loadMove { b with trigger := { b.trigger with link := none } } t c.run := by
  simp only [startLink, link, chain, idle, no_completion, and_self, if_true]

section Follow

variable {c : Chain} {stored : Option Half} {link : Option Nat} {pause : Bool} (chain : b.trigger.chain = some c)
include chain

theorem followEnd_of_stopping (stopping : b.control.state = .stopping) (ok : Bool) : b.followEnd m stored ok link pause =
    { b with trigger := { b.trigger with chain := none, link := none } } := by
  simp only [followEnd, chain, stopping, if_true]

variable (goes : b.control.state ≠ .stopping)
include goes

theorem followEnd_of_fault : b.followEnd m stored false link pause = { b with trigger := { b.trigger with chain := none } } := by
  simp only [followEnd, chain, goes, Bool.false_eq_true, if_false]
  rfl

theorem followEnd_of_end : b.followEnd m stored true none pause = b.endCleanly (updateChain c m stored) := by
  simp only [followEnd, chain, goes, if_true, if_false]

theorem followEnd_of_post (t : Nat) : b.followEnd m stored true (some t) true =
    b.postLink t { updateChain c m stored with run := (updateChain c m stored).run + 1 } := by
  simp only [followEnd, chain, goes, if_true, if_false]

theorem followEnd_of_link (t : Nat) (idle : b.engine.state = .idle) (no_completion : b.trigger.completion = none) :
    b.followEnd m stored true (some t) false = loadMove { b with trigger := { b.trigger with
      chain := some { updateChain c m stored with run := (updateChain c m stored).run + 1 }, link := none } } t
      ((updateChain c m stored).run + 1) := by
  let c' : Chain := { updateChain c m stored with run := (updateChain c m stored).run + 1 }
  have links : b.followEnd m stored true (some t) false =
      startLink { b with trigger := { b.trigger with chain := some c', link := some t } } := by
    simp only [followEnd, chain, goes, Bool.false_eq_true, if_true, if_false, c']
  exact links.trans (startLink_of_idle (c := c') rfl rfl idle no_completion)

end Follow

/-- The completion that a chain asks for when it ends cleanly, with none outstanding (R158). -/
def completionOf (c : Chain) : Option Completion :=
  match c.origin with
  | .structure n => some ⟨n, c.first, c.firstCount, false⟩
  | .software => none

theorem endCleanly_of_quiet {pending : List PendingMove} {c0 : Option Chain} (parts : b.trigger = ⟨pending, c0, none, none⟩)
    (c : Chain) : b.endCleanly c = { b with trigger := ⟨pending, none, none, completionOf c⟩ } := by
  cases origin : c.origin <;> simp only [endCleanly, completionOf, parts, origin]

theorem storedCount_of_stored {lm : LoadedMove} {d : MoveDescriptor} (stored : b.engine.storeFailed = false)
    (move : b.engine.move = some lm) (descriptor : lm.descriptor = some d) : b.storedCount = some d.count := by
  simp only [storedCount, stored, move, Bool.false_eq_true, if_false, Option.bind_some, descriptor, Option.map_some]

theorem updateChain_of_stored (c : Chain) (m : Nat) (k : Half) :
    updateChain c m (some k) = { c with firstCount := if c.first = m then some k else c.firstCount } := by
  simp only [updateChain]
  split <;> rfl

theorem postLink_of_absent {t : Nat} (absent : ∀ p ∈ b.trigger.pending, p.move ≠ t) (c : Chain) : b.postLink t c =
    { b with trigger := { b.trigger with chain := none, pending := insertPending b.trigger.pending ⟨t, .link c⟩ } } := by
  refine if_neg fun any => ?_
  obtain ⟨p, p_in, here⟩ := List.any_eq_true.mp any
  exact absent p p_in (beq_iff_eq.mp here)

theorem postLink_of_there {t : Nat} (there : ∃ p ∈ b.trigger.pending, p.move = t) (c : Chain) : b.postLink t c = b.endCleanly c := by
  obtain ⟨p, p_in, here⟩ := there
  exact if_pos (List.any_eq_true.mpr ⟨p, p_in, by simpa using here⟩)

end Bridge

theorem exec_storeBack_due {s : State} {id : Nat} {q : MemRequest} (due : AnswerDue s id isStoreBack q) (ok : Bool) :
    exec (.storeBackDone id ok) s = AfterAnswer s q ok false ((s.chip.received id).stored ok) :=
  s.answered_due id ok false isStoreBack (fun _ _ b => b.stored ok) q due

/-! ## Completion processing (R159) -/

namespace Bridge

variable {b : Bridge} {e : Entry} {cm : Completion}

/-- Completion processing leaves the structure as it is: disarmed, unusable, or without a standing condition (R159). -/
def Idles (d : Descriptor) : Prop :=
  d.armed = false ∨ (d.state = stHalted ∧ d.cause = causeDescriptor) ∨ d.kind = kindOff
    ∨ (d.kind = kindTally ∧ d.condition ≠ condWrap)

theorem idles_iff (d : Descriptor) : (d.armed = false ∨ d.descriptorHalt = true ∨ d.isOff = true
    ∨ (d.isTally = true ∧ d.condition ≠ condWrap)) ↔ Idles d := by
  rw [Descriptor.descriptorHalt_iff, Descriptor.isOff_iff, Descriptor.isTally_iff]
  rfl

/-- The completion operation is taken from the trigger unit. -/
def completed (b : Bridge) : Bridge := { b with trigger := { b.trigger with completion := none } }

theorem applyCompletion_of_idle (idle : Idles e.copy) : applyCompletion cm e b = completed b :=
  if_pos ((idles_iff e.copy).mpr idle)

theorem applyCompletion_of_busy {k : Half} (busy : ¬ Idles e.copy) (counted : cm.firstCount = some k) : applyCompletion cm e b =
    if k = 0 then
      let spent := (completed b).writeCopy cm.struct (e.copy.setArmed false)
      if e.copy.faultNotices = true ∧ cm.struct ≠ 1 then spent.notify (spentNotice cm.struct cm.first) else spent
    else if e.copy.holds = true then (completed b).post e.copy.triggerMove.toNat (.structure cm.struct) else completed b := by
  refine (if_neg (mt (idles_iff e.copy).mp busy)).trans ?_
  rw [counted]
  rfl

/-- An operation that changes nothing of the copy leaves the entry as its turn does. -/
theorem applied_same (b : Bridge) (n : Nat) (e : Entry) : b.applied n e (fun x =>
    { x with copy := e.copy, state := if e.copy = e.copy then e.state else .dirty }) = b.applied n e id := by
  simp only [applied, if_true]
  rfl

theorem completionStep_of_turn (completion : b.trigger.completion = some cm) (asked : cm.asked = true)
    (turn : EngineTurn b cm.struct .completion e) :
    b.completionStep = some (applyCompletion cm e (b.applied cm.struct e id)) := by
  rw [completionStep_of_completion completion, asked]
  exact engineStep_turn b cm.struct .completion e markCompletion (applyCompletion cm) turn

end Bridge

/-- Settles O60: the store-back, the pin releases, the report with what follows it, and completion processing. -/
theorem runsAreReportedAndCompleted : Obligations.RunsAreReportedAndCompleted := by
  intro s b
  have resumes (id : Nat) (q : MemRequest) (ok : Bool) (due : AnswerDue s id isStoreBack q) (step : b.engine.step = .store) :
      exec (.storeBackDone id ok) s = AfterAnswer s q ok false
        (releasePins { b.received id with engine := { b.engine with storeFailed := !ok } }).freeMoveWaiters :=
    (exec_storeBack_due due ok).trans
      (congrArg (AfterAnswer s q ok false) (stored_of_store (b := b.received id) step ok))
  refine ⟨?stored, ⟨?resumed, ?unread⟩, ?released, ?report, ?unloaded, ?completes⟩
  case stored =>
    intro id q ok due step none_waits r eng
    refine ⟨fun pins => (resumes id q ok due step).trans (congrArg (AfterAnswer s q ok false) ?_),
      fun n rest e pins held => (resumes id q ok due step).trans (congrArg (AfterAnswer s q ok false) ?_)⟩
    · rw [releasePins_of_none (b := { b.received id with engine := { b.engine with storeFailed := !ok } }) pins]
      exact freeMoveWaiters_of_none none_waits
    · rw [releasePins_of_held (b := { b.received id with engine := { b.engine with storeFailed := !ok } }) pins held]
      exact freeMoveWaiters_of_none none_waits
  case resumed =>
    intro id q ok due step r eng
    refine ⟨fun pins => (resumes id q ok due step).trans (congrArg (AfterAnswer s q ok false) ?_),
      fun n rest e pins held => (resumes id q ok due step).trans (congrArg (AfterAnswer s q ok false) ?_)⟩
    · rw [releasePins_of_none (b := { b.received id with engine := { b.engine with storeFailed := !ok } }) pins]
      exact freeMoveWaiters_resume _
    · rw [releasePins_of_held (b := { b.received id with engine := { b.engine with storeFailed := !ok } }) pins held]
      exact freeMoveWaiters_resume _
  case unread =>
    intro id q due reading
    refine (exec_moveRead_due due false).trans (congrArg (AfterAnswer s q false false) ?_)
    exact (moveRead_of_error (b := b.received id) reading _).trans (freeMoveWaiters_resume _)
  case released =>
    intro n e turn step r
    have frees : b.applied n e Entry.released = r := congrArg
      (fun x => ({ b with cache := x :: b.cache.filter (fun x => x.index != n) } : Bridge))
      (released_eq { e with waiting := e.waiting.tail })
    have releases {rest : List Nat} (pins : b.engine.pins = n :: rest) : exec .pinRelease s
        = After s (releasePins { r with engine := { b.engine with pins := rest } }) := by
      rw [← frees]
      exact s.event_settle Bridge.releaseStep _ (releaseStep_of_turn turn step pins)
    refine ⟨fun pins => (releases pins).trans (congrArg (After s) (releasePins_of_none rfl)),
      fun m e' pins other held => (releases pins).trans (congrArg (After s) ?_)⟩
    have there : r.entry? m = some e' :=
      (applied_entry_other (b := b) (n := n) (entry?_index b n e turn.1) other).trans held
    exact releasePins_of_held (b := { r with engine := { b.engine with pins := [m] } }) rfl there
  case report =>
    intro lm d en c step move descriptor ending chain no_link no_completion first next pause fault own finished stopper idle reports
      ended clean
    have copy : b.moveCopy = d := by simp only [moveCopy, move, Option.bind_some, descriptor, Option.getD_some]
    have parts : b.trigger = ⟨b.trigger.pending, some c, none, none⟩ := by rw [← chain, ← no_link, ← no_completion]
    obtain ⟨trigger, state⟩ := reported_keeps b en lm.index
    have chained := (congrArg TriggerUnit.chain trigger).trans chain
    have split := trigger.trans parts
    have follows {b' : Bridge} (h : followEnd (reported b (b.endNotices lm.index en) lm.index) lm.index b.storedCount
        (en.code == .ok && !b.engine.storeFailed)
        (if (en.code == .ok && !b.engine.storeFailed) && b.moveCopy.linkEnable then some b.moveCopy.linkIndex.toNat else none)
        pause = b') : exec .runEndReport s = After s b' :=
      s.event_settle Bridge.reportEnd _ ((reportEnd_of_report step move ending).trans (congrArg some h))
    have stops {told : Bridge} (notices : b.endNotices lm.index en = told) (stopping : b.control.state = .stopping) :
        reports told ended := by
      refine follows ((followEnd_of_stopping chained (state.trans stopping) _).trans ?_)
      rw [split, notices]
      rfl
    have faults {told : Bridge} (notices : b.endNotices lm.index en = told)
        (not_ok : (en.code == .ok && !b.engine.storeFailed) = false) : reports told ended := by
      by_cases stopping : b.control.state = .stopping
      · exact stops notices stopping
      · rw [not_ok] at follows
        refine follows ((followEnd_of_fault chained (fun h => stopping (state.symm.trans h))).trans ?_)
        rw [split, notices]
        rfl
    have not_ok_of_code (failed : en.code ≠ .ok) : (en.code == .ok && !b.engine.storeFailed) = false := by
      rw [beq_eq_false_iff_ne.mpr failed]
      rfl
    have not_ok_of_store (failed : b.engine.storeFailed = true) : (en.code == .ok && !b.engine.storeFailed) = false := by
      rw [failed, Bool.not_true, Bool.and_false]
    have ends_ok (ok : en.code = .ok) (stored : b.engine.storeFailed = false) : b.endNotices lm.index en = finished := by
      rw [endNotices_of_ok ok stored, copy]
      rfl
    refine ⟨fun failed stored => faults (endNotices_of_fault failed stored) (not_ok_of_code failed),
      fun failed unstored => faults (endNotices_of_both failed unstored) (not_ok_of_code failed),
      fun ok unstored => faults (endNotices_of_unstored ok unstored) (not_ok_of_store unstored),
      fun ok stored stopping => stops (ends_ok ok stored) stopping, fun ok stored goes => ?_⟩
    have awake : (reported b (b.endNotices lm.index en) lm.index).control.state ≠ .stopping := fun h => goes (state.symm.trans h)
    have is_ok : (en.code == .ok && !b.engine.storeFailed) = true := by rw [ok, stored]; rfl
    have chain_of : updateChain c lm.index b.storedCount = { c with firstCount := first } := by
      rw [storedCount_of_stored stored move descriptor, updateChain_of_stored]
    rw [is_ok, Bool.true_and, copy] at follows
    have cleanly (run : Nat) : (reported b (b.endNotices lm.index en) lm.index).endCleanly { c with firstCount := first, run := run }
        = { idle finished with trigger := clean } := by
      rw [endCleanly_of_quiet split, ends_ok ok stored]
      refine congrArg (fun x => ({ idle finished with trigger := ⟨b.trigger.pending, none, none, x⟩ } : Bridge)) ?_
      unfold completionOf
      cases c.origin <;> rfl
    refine ⟨fun unlinked => ?_, fun linked runs => ?_, fun linked pauses absent => ?_, fun linked pauses there => ?_⟩
    · rw [unlinked] at follows
      refine follows ((followEnd_of_end chained awake).trans ?_)
      rw [chain_of]
      exact cleanly c.run
    · rw [linked, runs] at follows
      have idles : (reported b (b.endNotices lm.index en) lm.index).engine.state = .idle := if_neg (ne_true_of_eq_false runs)
      refine follows ((followEnd_of_link chained awake d.linkIndex.toNat idles (congrArg TriggerUnit.completion split)).trans ?_)
      rw [chain_of, split, ends_ok ok stored]
      rfl
    · rw [linked, pauses] at follows
      refine follows ((followEnd_of_post chained awake d.linkIndex.toNat).trans ?_)
      rw [chain_of]
      refine (postLink_of_absent ?_ _).trans ?_
      · rwa [trigger]
      · rw [split, ends_ok ok stored]
        rfl
    · rw [linked, pauses] at follows
      refine follows ((followEnd_of_post chained awake d.linkIndex.toNat).trans ?_)
      rw [chain_of]
      refine (postLink_of_there ?_ _).trans (cleanly _)
      rwa [trigger]
  case unloaded =>
    intro lm c step move descriptor ending stored chain told stopper pause
    obtain ⟨trigger, state⟩ := reported_keeps b ⟨.memory, false, none, 0⟩ lm.index
    have chained := (congrArg TriggerUnit.chain trigger).trans chain
    have notices := endNotices_of_fault (b := b) (m := lm.index) (en := ⟨.memory, false, none, 0⟩) (by decide) stored
    refine s.event_settle Bridge.reportEnd _ ((reportEnd_of_report step move ending).trans (congrArg some ?_))
    by_cases stopping : b.control.state = .stopping
    · refine (followEnd_of_stopping chained (state.trans stopping) _).trans ?_
      rw [trigger, notices, if_pos stopping]
      rfl
    · refine (followEnd_of_fault chained (fun h => stopping (state.symm.trans h))).trans ?_
      rw [trigger, notices, if_neg stopping]
      rfl
  case completes =>
    intro cm e k completion asked turn counted n a idles spent
    have applies {b' : Bridge} (h : applyCompletion cm e (b.applied n e id) = b') : exec .completionProcessing s = After s b' :=
      s.event_settle Bridge.completionStep _ ((completionStep_of_turn completion asked turn).trans (congrArg some h))
    have same : a e.copy = completed (b.applied n e id) :=
      congrArg (fun x : Bridge => completed x) (applied_same b n e)
    have disarmed : (completed (b.applied n e id)).writeCopy n spent = a spent :=
      congrArg (fun x : Bridge => completed x) (applied_writeCopy b n e spent turn.1)
    refine ⟨fun idle => applies ?_, fun busy left => applies ?_, fun busy none_left => applies ?_⟩
    · rw [same]
      exact applyCompletion_of_idle idle
    · rw [same]
      exact (applyCompletion_of_busy busy counted).trans (if_neg left)
    · rw [← disarmed]
      exact (applyCompletion_of_busy busy counted).trans (if_pos none_left)

end Sys2Proof.Machine
end
